-- ==== Sys2Proof/Word.lean ====
section
/-!
DEFINITION. The word types of the Ndoxis 7400 and the value type of its number formats.
R4 (bit numbering), R5 (units), R10 (exact real and special values).
-/
namespace Sys2Proof

/-- A byte of memory, scratchpad or a frame. -/
abbrev Byte := BitVec 8
/-- A 32-bit word: one register, one instruction word (R307). -/
abbrev Word := BitVec 32
/-- A 64-bit value: a register pair (R4), an address, a tag. -/
abbrev Dword := BitVec 64
/-- A register number g0 to g63, relative to the window (R307, R320). -/
abbrev Reg := BitVec 6
/-- A predicate number p0 to p7 (R320). -/
abbrev PredReg := BitVec 3

/-- A table from natural numbers, written as a list of key and value pairs. Where it stands for memory its
keys rise strictly and no value is the default (see Machine/Maps.lean). -/
abbrev NMap (α : Type) := List (Nat × α)

/-- R10: an exact real value or a special value. `fin neg num den` is the number num / den with the sign
`neg`; num = 0 is a zero of that sign, and den is never 0 in a value the machine forms. -/
inductive XVal where
  | nan
  | inf (neg : Bool)
  | fin (neg : Bool) (num den : Nat)
deriving DecidableEq, Repr

end Sys2Proof
end

