-- ==== Sys2Proof/Machine/Maps.lean ====
section
/-!
DEFINITION. Tables and sets as sorted lists, with the one canonical form memory has (no two entries for one key, no entry
with the value an unlisted key reads as), and small list operations.
-/

namespace Sys2Proof.Machine

/-- The entry of a key. -/
def findKey {α : Type} (k : Nat) : NMap α → Option α
  | [] => none
  | (j, v) :: m => if j = k then some v else findKey k m

/-- A table with the entry for a key set; the keys stay sorted. -/
def putKey {α : Type} (k : Nat) (v : α) : NMap α → NMap α
  | [] => [(k, v)]
  | (j, u) :: m => if k < j then (k, v) :: (j, u) :: m else if j = k then (k, v) :: m else (j, u) :: putKey k v m

/-- A table without the entry of a key. -/
def delKey {α : Type} (k : Nat) : NMap α → NMap α
  | [] => []
  | (j, u) :: m => if j = k then m else (j, u) :: delKey k m

/-- What a key reads as, when unlisted keys read as `dflt`. -/
def getKey {α : Type} (dflt : α) (m : NMap α) (k : Nat) : α := (findKey k m).getD dflt

/-- A write to a key: writing what an unlisted key reads as removes the entry. -/
def setKey {α : Type} [DecidableEq α] (dflt : α) (m : NMap α) (k : Nat) (v : α) : NMap α :=
  if v = dflt then delKey k m else putKey k v m

/-- Keys rise strictly. -/
def keysRise {α : Type} : NMap α → Bool
  | [] => true
  | [_] => true
  | (j, _) :: (k, v) :: m => decide (j < k) && keysRise ((k, v) :: m)

/-- The canonical form: keys rise strictly and no entry holds the default. -/
def canonical {α : Type} [DecidableEq α] (dflt : α) (m : NMap α) : Bool :=
  keysRise m && m.all fun e => decide (e.2 ≠ dflt)

/-- The one form that memory has. -/
abbrev Memory.wf (m : NMap Byte) : Bool := canonical 0#8 m
/-- A byte of a table of bytes; unlisted bytes are zero. -/
def byteAt (m : NMap Byte) (a : Nat) : Byte := getKey 0#8 m a
/-- A byte of a table of bytes written. -/
def setByte (m : NMap Byte) (a : Nat) (v : Byte) : NMap Byte := setKey 0#8 m a v

/-- The value of `n` bytes from `a` up, little-endian (R4). -/
def readLE (m : NMap Byte) (a : Nat) : Nat → Nat
  | 0 => 0
  | n + 1 => (byteAt m a).toNat + 256 * readLE m (a + 1) n
/-- `n` bytes from `a` up written with the low bytes of `v`, little-endian (R4). -/
def writeLE (m : NMap Byte) (a : Nat) (v : Nat) : Nat → NMap Byte
  | 0 => m
  | n + 1 => writeLE (setByte m a (BitVec.ofNat 8 v)) (a + 1) (v / 256) n
/-- `n` bytes from `a` up. -/
def readBytes (m : NMap Byte) (a : Nat) : Nat → List Byte
  | 0 => []
  | n + 1 => byteAt m a :: readBytes m (a + 1) n
/-- Bytes written from `a` up. -/
def writeBytes (m : NMap Byte) (a : Nat) : List Byte → NMap Byte
  | [] => m
  | b :: bs => writeBytes (setByte m a b) (a + 1) bs
/-- The entries of a range dropped: the bytes from `a` to `a + n - 1` read zero. -/
def clearRange {α : Type} (m : NMap α) (a n : Nat) : NMap α := m.filter fun e => decide (e.1 < a ∨ a + n ≤ e.1)
/-- The entries of a range, their keys counted from its start. -/
def sliceRange {α : Type} (m : NMap α) (a n : Nat) : NMap α :=
  (m.filter fun e => decide (a ≤ e.1 ∧ e.1 < a + n)).map fun e => (e.1 - a, e.2)

/-- The little-endian value of a list of bytes. -/
def leValue : List Byte → Nat
  | [] => 0
  | b :: bs => b.toNat + 256 * leValue bs
/-- The low `n` bytes of a value, the least significant first. -/
def leBytes (v : Nat) : Nat → List Byte
  | 0 => []
  | n + 1 => BitVec.ofNat 8 v :: leBytes (v / 256) n

/-- A sorted set with an element added. -/
def insertNat (k : Nat) : List Nat → List Nat
  | [] => [k]
  | j :: m => if k < j then k :: j :: m else if j = k then j :: m else j :: insertNat k m

/-- A list with element `i` changed. -/
def updAt {α : Type} (l : List α) (i : Nat) (f : α → α) : List α := l.modify i f
/-- Element `i` of a list of numbers, 0 beyond its end. -/
def natAt (l : List Nat) (i : Nat) : Nat := (l[i]?).getD 0
/-- `n` bits of a number from bit `lo` up. -/
def bits (v lo n : Nat) : Nat := v / 2 ^ lo % 2 ^ n
/-- A word of a list of words, 0 beyond its end. -/
def wordAt (l : List Word) (i : Nat) : Word := (l[i]?).getD 0#32
/-- A 64-bit word of a list, 0 beyond its end. -/
def dwordAt (l : List Dword) (i : Nat) : Dword := (l[i]?).getD 0#64
/-- The least multiple of `m` that is at least `n`. -/
def roundUp (n m : Nat) : Nat := (n + m - 1) / m * m
/-- Whether `n` is a multiple of `m`. -/
def isMult (n m : Nat) : Bool := n % m == 0
/-- Bytes as a table of bytes. -/
def tableOf (bs : List Byte) : NMap Byte := writeBytes [] 0 bs
/-- The 64-bit words of a list of bytes, the last padded with zeros. -/
def dwordsOf (bs : List Byte) : List Dword :=
  (List.range ((bs.length + 7) / 8)).map fun i => BitVec.ofNat 64 (leValue ((bs.drop (8 * i)).take 8))
/-- The bytes of 64-bit words, little-endian. -/
def bytesOf (ws : List Dword) : List Byte := ws.flatMap fun w => leBytes w.toNat 8

end Sys2Proof.Machine
end

