-- ==== Sys2Proof/Machine/Crypto.lean ====
section
/-!
DEFINITION. AES-256 and AES-256-GCM (R51, R53). The spec names them and does not define them: the block cipher is that of FIPS 197, the mode
that of NIST SP 800-38D with a 96-bit IV and a 16-byte tag. PRESUMED (log 62).
-/

namespace Sys2Proof.Machine

/-! ## The field of the bytes -/

/-- Multiplication by x in the field of 256 elements with polynomial x⁸ + x⁴ + x³ + x + 1; an element is the number of its byte. -/
def aesTimes2 (b : Nat) : Nat := 2 * b % 256 ^^^ b / 128 * 0x1B
/-- The product of two elements: `n` bits of `b` from its lowest up. -/
def aesMulN : Nat → Nat → Nat → Nat
  | 0, _, _ => 0
  | n + 1, a, b => b % 2 * a ^^^ aesMulN n (aesTimes2 a) (b / 2)
def aesMul (a b : Nat) : Nat := aesMulN 8 a b
/-- The inverse, a to the power 254; 0 stays 0. -/
def aesInverse (a : Nat) : Nat :=
  let a2 := aesMul a a
  let a4 := aesMul a2 a2
  let a8 := aesMul a4 a4
  let a16 := aesMul a8 a8
  let a32 := aesMul a16 a16
  let a64 := aesMul a32 a32
  let a128 := aesMul a64 a64
  aesMul a128 (aesMul a64 (aesMul a32 (aesMul a16 (aesMul a8 (aesMul a4 a2)))))
/-- A byte rotated left. -/
def aesRotate (b n : Nat) : Nat := b * 2 ^ n % 256 ^^^ b / 2 ^ (8 - n)
/-- The substitution of a byte. -/
def aesSub (a : Byte) : Byte :=
  let b := aesInverse a.toNat
  BitVec.ofNat 8 (b ^^^ aesRotate b 1 ^^^ aesRotate b 2 ^^^ aesRotate b 3 ^^^ aesRotate b 4 ^^^ 0x63)

/-! ## The cipher -/

def byteOf (l : List Byte) (i : Nat) : Byte := (l[i]?).getD 0#8
def xorBytes (a b : List Byte) : List Byte := List.zipWith (· ^^^ ·) a b
/-- One 32-byte block of the key schedule from the one before it. -/
def aesNextKey (rcon : Byte) (k : List Byte) : List Byte :=
  let t := [byteOf k 29, byteOf k 30, byteOf k 31, byteOf k 28].map aesSub
  let w0 := xorBytes (xorBytes (k.take 4) t) [rcon, 0#8, 0#8, 0#8]
  let w1 := xorBytes ((k.drop 4).take 4) w0
  let w2 := xorBytes ((k.drop 8).take 4) w1
  let w3 := xorBytes ((k.drop 12).take 4) w2
  let w4 := xorBytes ((k.drop 16).take 4) (w3.map aesSub)
  let w5 := xorBytes ((k.drop 20).take 4) w4
  let w6 := xorBytes ((k.drop 24).take 4) w5
  let w7 := xorBytes ((k.drop 28).take 4) w6
  w0 ++ w1 ++ w2 ++ w3 ++ w4 ++ w5 ++ w6 ++ w7
def aesSchedule : Nat → Byte → List Byte → List Byte
  | 0, _, _ => []
  | n + 1, rcon, k => k ++ aesSchedule n (BitVec.ofNat 8 (aesTimes2 rcon.toNat)) (aesNextKey rcon k)
/-- The round key of a round, 0 to 14. -/
def aesRoundKey (schedule : List Byte) (r : Nat) : List Byte := (schedule.drop (16 * r)).take 16
/-- The rows of the state shifted; the state stands column by column. -/
def aesShiftRows (s : List Byte) : List Byte := (List.range 16).map fun i => byteOf s ((i + 4 * (i % 4)) % 16)
def aesMixColumn (s : List Byte) (c : Nat) : List Byte :=
  let b := fun i => (byteOf s (4 * c + i % 4)).toNat
  (List.range 4).map fun i => BitVec.ofNat 8
    (aesTimes2 (b i) ^^^ (aesTimes2 (b (i + 1)) ^^^ b (i + 1)) ^^^ b (i + 2) ^^^ b (i + 3))
def aesMixColumns (s : List Byte) : List Byte := (List.range 4).flatMap (aesMixColumn s)
/-- The rounds from `r` on, of which `n` mix columns; then the last. -/
def aesRounds (schedule : List Byte) : Nat → Nat → List Byte → List Byte
  | 0, r, s => xorBytes (aesShiftRows (s.map aesSub)) (aesRoundKey schedule r)
  | n + 1, r, s => aesRounds schedule n (r + 1) (xorBytes (aesMixColumns (aesShiftRows (s.map aesSub))) (aesRoundKey schedule r))
/-- AES-256 of one 16-byte block under a 32-byte key. -/
def aes256 (key block : List Byte) : List Byte :=
  let schedule := aesSchedule 8 1#8 key
  aesRounds schedule 13 1 (xorBytes block (aesRoundKey schedule 0))

/-! ## The mode -/

/-- A block as 128 bits, its first byte the most significant; and back. -/
def blockBits (bs : List Byte) : BitVec 128 := (bs ++ List.replicate (16 - bs.length) 0#8).take 16 |>.foldl (fun v b => v <<< 8 ||| b.setWidth 128) 0
def bitsBlock (v : BitVec 128) : List Byte := (List.range 16).map fun i => v.extractLsb' (8 * (15 - i)) 8
/-- The product of SP 800-38D: `n` bits of `x` from bit `i` down; `v` is H divided by x as often as bits have been passed. -/
def gcmMulN (x : BitVec 128) : Nat → BitVec 128 → BitVec 128
  | 0, _ => 0
  | n + 1, v =>
    (if x.getLsbD n then v else 0) ^^^
      gcmMulN x n (if v.getLsbD 0 then (v >>> 1) ^^^ (0xE1#128 <<< 120) else v >>> 1)
def gcmMul (x h : BitVec 128) : BitVec 128 := gcmMulN x 128 h
/-- Bytes cut into blocks of 16. -/
def blocksOf : Nat → List Byte → List (List Byte)
  | 0, _ => []
  | n + 1, bs => if bs.isEmpty then [] else bs.take 16 :: blocksOf n (bs.drop 16)
def gcmHash (h : BitVec 128) (aad ct : List Byte) : BitVec 128 :=
  let lens := (leBytes (8 * ct.length) 8 ++ leBytes (8 * aad.length) 8).reverse
  (blocksOf aad.length aad ++ blocksOf ct.length ct ++ [lens]).foldl (fun y b => gcmMul (y ^^^ blockBits b) h) 0
/-- The counter block of number `n` for a 12-byte IV. -/
def gcmCounter (iv : List Byte) (n : Nat) : List Byte := iv ++ (leBytes n 4).reverse
def gcmCrypt (key iv bs : List Byte) : List Byte :=
  ((blocksOf bs.length bs).zipIdx.flatMap fun e => xorBytes e.1 (aes256 key (gcmCounter iv (e.2 + 2))))
def gcmTag (key iv aad ct : List Byte) : List Byte :=
  let h := blockBits (aes256 key (List.replicate 16 0#8))
  xorBytes (bitsBlock (gcmHash h aad ct)) (aes256 key (gcmCounter iv 1))
/-- Sealing: ciphertext and tag. -/
def gcmSeal (key iv aad pt : List Byte) : List Byte × List Byte :=
  let ct := gcmCrypt key iv pt
  (ct, gcmTag key iv aad ct)
/-- Opening: the plaintext, unless the tag does not verify. -/
def gcmOpen (key iv aad ct tag : List Byte) : Option (List Byte) :=
  if gcmTag key iv aad ct = tag then some (gcmCrypt key iv ct) else none

end Sys2Proof.Machine
end

