-- ==== Sys2Proof/Config.lean ====
section
/-!
DEFINITION. What the spec leaves open and what a machine fixes: the free values (constants without a body, of which no
proof can know a value), the fuses and the boot material.
-/

namespace Sys2Proof

/-- An image in a slot of the boot flash (R27). The public key of its key slot comes with it, since the spec fuses a digest alone and does
not say where the key is kept. DESIGN CHOICE (log 56). -/
structure FlashImage where
  /-- The header's magic is 0x5A42_4F54. -/
  magicOk : Bool
  headerVersion : BitVec 32
  /-- The security version. -/
  svn : BitVec 32
  keySlot : Nat
  publicKey : List Byte
  body : List Byte
  signature : List Byte
deriving DecidableEq, Repr, Inhabited

namespace Config

/-- A free value: what a result, a choice or a byte is that the spec leaves open. Applied to a counter of the state, so that
each use is a value of its own. -/
opaque freeValue : Nat → Dword
/-- How many raw edges of the arithmetic clock pass in step n, beyond one: the spec gives no step a length. -/
opaque extraEdges : Nat → Nat
/-- The boot flash: slot A (false) and slot B (true) (R27). -/
opaque flash : Bool → Option FlashImage
/-- The fused SHA-512 digest of the public key of a key slot (R27). -/
opaque fusedKeyDigest : Nat → List Byte
/-- The revocation fuse of a key slot (R27). -/
opaque revoked : Nat → Bool
/-- The fused minimum security version the part leaves the factory with (R27, R28). -/
opaque fusedMinimum : Nat
/-- The package serial (R29). -/
opaque serial : Dword
/-- The debug fuse (R30, R33). -/
opaque debugBlown : Bool
/-- The fused secret of 256 bits (R29). -/
opaque fusedSecret : List Byte
/-- How the 32-byte private key of the device identity follows from the fused secret alone (R29). -/
opaque identitySeed : List Byte → List Byte
/-- How the 32-byte private attestation key follows from the fused secret and a security version (R29). -/
opaque attestationSeed : List Byte → Nat → List Byte
/-- The bytes of a saved structure whose layout is not architectural (R175, R306, R413): a mask over the place, so that what
a program finds there is not known. -/
opaque saveMask : Nat → Byte

end Config

end Sys2Proof
end

