-- ==== Sys2Proof/Syntax.lean ====
section
/-!
DEFINITION. The instruction set as data: the field codes of R309, R310, R317 and R318 as inductive types, and
`Instr` with one constructor for every row of the opcode table. A row without an encoding is an operation or event
of the device (spec/95); its arguments name the die, the message or the choice it concerns, and what the outside world
supplies stands in the state (the queue of management requests, the pins and the sensors).
-/

namespace Sys2Proof

/-- RM2 (R309). -/
inductive Rm where
  | rne | rtz | rup | rdn
deriving DecidableEq, Repr

/-- RM3 (R309): the four modes of RM2 and stochastic rounding. -/
inductive Rm3 where
  | rne | rtz | rup | rdn | sr
deriving DecidableEq, Repr

/-- Element format codes (R258). -/
inductive Fmt where
  | fp32 | bf16 | fp16 | e5m2 | e4m3 | e3m2 | e2m3 | e2m1 | t8 | t6 | fp64
deriving DecidableEq, Repr

/-- Scale codes (R258). -/
inductive Scale where
  | none | e8m0 | ue4m3
deriving DecidableEq, Repr

/-- CMP (R309). -/
inductive Cmp where
  | eq | ne | lt | le | gt | ge
deriving DecidableEq, Repr

/-- TY of cmpp (R309). -/
inductive CmpTy where
  | signed | unsigned | fp32
deriving DecidableEq, Repr

/-- COMB of cmpp (R309). -/
inductive Comb where
  | set | and | or | xor
deriving DecidableEq, Repr

/-- Mode of peek (R361). -/
inductive PeekMode where
  | at | back | fwd | flip
deriving DecidableEq, Repr

/-- XOP of fold and PREFIX (R318). -/
inductive Xop where
  | add | min | max | minu | maxu | and | or | xor | fadd
deriving DecidableEq, Repr

/-- OP of atom and atomg (R318). -/
inductive AtomOp where
  | add | min | max | minu | maxu | and | or | xor | xchg | fadd | dadd | dmin | dmax | dor | dxchg | ld
deriving DecidableEq, Repr

/-- ORD of format A (R309). -/
inductive Ord4 where
  | none | acq | rel | acqrel
deriving DecidableEq, Repr

/-- SCOPE (R237). -/
inductive Scope where
  | wg | cl | die | sys
deriving DecidableEq, Repr

/-- SZ of format M (R309). -/
inductive Size where
  | b8 | b16 | b32 | b64 | b128
deriving DecidableEq, Repr

/-- Element size of gather and scatter (R383). -/
inductive Esz where
  | e4 | e8 | e16
deriving DecidableEq, Repr

/-- DIR of copy (R381). -/
inductive Dir where
  | ms | sm | mm | ss
deriving DecidableEq, Repr

/-- TYPE of radd (R392). -/
inductive AddTy where
  | i32 | i64 | full | win
deriving DecidableEq, Repr

/-- TYPE of rmin and rmax (R392). -/
inductive MinTy where
  | i32 | n32 | i64 | n64 | f32
deriving DecidableEq, Repr

/-- K of a shape code (R286); the code 3 is no shape. -/
inductive ShapeK where
  | k64 | k128 | k256
deriving DecidableEq, Repr

/-- A shape code (R286): K, and whether N and M are 128. -/
structure Shape where
  k : ShapeK
  n128 : Bool
  m128 : Bool
deriving DecidableEq, Repr

/-- Special registers (R418). -/
inductive SReg where
  | tid | wgid | wgdim | griddim | core | cluster | die | package | ctx | cycle | retired | status
  | srseed | trapcause | trapaddr | errq | walkinfo | walkva | walkroot
deriving DecidableEq, Repr

/-- The MOD hint of ld and st (R311): whether its ORD orders the access, and its scope. -/
structure LsHint where
  ordered : Bool
  scope : Scope
deriving DecidableEq, Repr

/-- The MOD hint of a remote update, invoke or invokeh (R311). -/
structure ArrHint where
  av : Bool
  arr : Reg
  nw : BitVec 4
deriving DecidableEq, Repr

/-- The DESC hint of mma and mmaz (R311). -/
structure DescHint where
  da : BitVec 8
  db : BitVec 8
  ta : Bool
  tb : Bool
deriving DecidableEq, Repr

/-- The DESC hint of copyt (R311, R382). -/
structure TileHint where
  da : BitVec 8
  db : BitVec 8
  arr : Reg
deriving DecidableEq, Repr

/-- MODEL: what travels with a message and stands in no field of it, though the rules need it where it arrives: that a die has
forwarded it (R118), the virtual address of the completion word that it names (R105), and that its new handle has been released
(R133). -/
structure Note where
  fwd : Bool
  va : Dword
  freed : Bool
deriving DecidableEq, Repr

/-- A flit as it arrives or leaves (R46): the outcome of the physical CRC, the cleartext header, the 232 payload
bytes as 29 words of 8 bytes (encrypted on a Talbo link, cleartext on a die-to-die link) and the GCM tag. -/
structure Flit where
  crcOk : Bool
  hdr : Dword
  body : List Dword
  tag : BitVec 128
  /-- MODEL: the notes of the messages in it, in order. -/
  notes : List Note
deriving DecidableEq, Repr

/-- What met an uncorrectable error (R62, R250): main memory that a piece of a copy-engine command reads, that an L2 atomic reaches,
that a message reads or writes at its home (part p of an RREAD; the target, p = 0, or the arrival word of an update), or that holds
the table entry of a level that a walk reads or that a ptld reads; main memory between DRAM and L2 for any other access of a context (a
fetch, a spill or fill, a wait, an ARM, XCVT or ONCECLR, a line written back; 0xFF for none); a core's own memories, for a workgroup; a
message buffer. -/
inductive UeSite where
  | copyGranule (cmd pick : Nat)
  | atomic (cmd : Nat)
  | home (idx part : Nat)
  | walk (idx level : Nat)
  | ptld
  | dram (ctx pa : Nat)
  | core (uid : Nat)
  | buffer (idx : Nat)
deriving DecidableEq, Repr

/-- One constructor per row of spec/opcode_table.json: the rows that carry operands first, in the table's order, then
the rows without (in the table's order too). -/
inductive Instr where
  /-- R32 (DIE_RESET). -/
  | dieReset (die cause : Nat)
  /-- R23 (THERMAL_SAMPLE_PERIOD). -/
  | thermalSamplePeriod (die : Nat) (temps : List Nat)
  /-- R21 (DROOP_ALARM). -/
  | droopAlarm (die core : Nat)
  /-- R21 (DROOP_RESPONSE_END). -/
  | droopResponseEnd (die cluster : Nat)
  /-- R22 (THERMSTAT_WRITE). -/
  | thermstatWrite (die core : Nat) (value : Word)
  /-- R137 (COMPANION_WRITE). -/
  | companionWrite (port : Bool) (pa : Nat) (data : List Byte)
  /-- R137 (COMPANION_READ). -/
  | companionRead (port : Bool) (pa : Nat)
  /-- R38 (MESSAGE_ROUTE). -/
  | messageRoute (die idx : Nat)
  /-- R49 (DATA_FLIT). -/
  | dataFlit (die unit : Nat) (flit : Option Flit)
  /-- R47 (IDLE_FLIT). -/
  | idleFlit (die unit : Nat) (flit : Option Flit)
  /-- R53 (REGISTRATION_FLIT). -/
  | registrationFlit (die unit : Nat) (flit : Option Flit)
  /-- R54 (RETIRE_FLIT). -/
  | retireFlit (die unit : Nat) (flit : Option Flit)
  /-- R53 (KEY_SWITCH). -/
  | keySwitch (die unit : Nat)
  /-- R54 (RETIRE_RESEND). -/
  | retireResend (die unit : Nat)
  /-- R55 (KEY_EXPIRING). -/
  | keyExpiring (die unit : Nat)
  /-- R55 (KEY_EXHAUSTED). -/
  | keyExhausted (die unit : Nat)
  /-- R56 (AUTH_FAILURE_LIMIT). -/
  | authFailureLimit (die unit : Nat)
  /-- R51 (LINK_TRAINED). -/
  | linkTrained (die unit : Nat)
  /-- R60 (BUDGET_PERIOD). -/
  | budgetPeriod (die : Nat)
  /-- R64 (JOIN). -/
  | join (die idx : Nat)
  /-- R64 (JOIN_ACKNOWLEDGEMENT). -/
  | joinAcknowledgement (die idx : Nat)
  /-- R64 (JOIN_RESEND). -/
  | joinResend (die peer : Nat)
  /-- R82 (RADD_UPDATE). -/
  | raddUpdate (die idx : Nat)
  /-- R82 (RMIN_UPDATE). -/
  | rminUpdate (die idx : Nat)
  /-- R82 (RMAX_UPDATE). -/
  | rmaxUpdate (die idx : Nat)
  /-- R82 (ROR_UPDATE). -/
  | rorUpdate (die idx : Nat)
  /-- R84 (RWONCE_UPDATE). -/
  | rwonceUpdate (die idx : Nat)
  /-- R82 (RARRIVE_UPDATE). -/
  | rarriveUpdate (die idx : Nat)
  /-- R99 (RCLOSE_UPDATE). -/
  | rcloseUpdate (die idx : Nat)
  /-- R87 (RREAD_REQUEST). -/
  | rreadRequest (die idx : Nat)
  /-- R88 (READ_REPLY). -/
  | readReply (die idx : Nat)
  /-- R75 (ACKNOWLEDGEMENT). -/
  | acknowledgement (die idx : Nat)
  /-- R76 (RETRANSMISSION_TIMER). -/
  | retransmissionTimer (die ctx seq : Nat)
  /-- R77 (HELD_MESSAGE_TIMEOUT). -/
  | heldMessageTimeout (die idx : Nat)
  /-- R79 (WINDOW_EXPIRY). -/
  | windowExpiry (die src ctx : Nat)
  /-- R111 (INVOKE_MESSAGE). -/
  | invokeMessage (die idx : Nat)
  /-- R117 (INVOKEH_MESSAGE). -/
  | invokehMessage (die idx : Nat)
  /-- R131 (HGET_REQUEST). -/
  | hgetRequest (die idx : Nat)
  /-- R133 (HFREE_MESSAGE). -/
  | hfreeMessage (die idx : Nat)
  /-- R122 (RECORD_MOVE). -/
  | recordMove (die idx : Nat)
  /-- R131 (RESULT_REPLY). -/
  | resultReply (die idx : Nat)
  /-- R134 (LOCATION_UPDATE). -/
  | locationUpdate (die idx : Nat)
  /-- R228 (WORKGROUP_END). -/
  | workgroupEnd (uid : Nat)
  /-- R149 (PAGE_SERVICE_TIMEOUT). -/
  | pageServiceTimeout (request : Nat)
  /-- R420 (WALKINFO_READ). -/
  | walkinfoRead (uid tid : Nat)
  /-- R423 (WALKER_RESTART). -/
  | walkerRestart (die : Nat)
  /-- R250 (UNCORRECTABLE_ERROR). -/
  | uncorrectableError (die : Nat) (site : UeSite)
  /-- R173 (PLACEMENT_PASS). -/
  | placementPass (die : Nat)
  /-- R173 (CANDIDATE_AGING). -/
  | candidateAging (die cand : Nat)
  /-- R182 (WORKGROUP_SAVE). -/
  | workgroupSave (uid : Nat)
  /-- R187 (WHOLE_CONTEXT_SWITCH). -/
  | wholeContextSwitch (die cluster : Nat)
  /-- R189 (EVICTION). -/
  | eviction (die core : Nat)
  /-- R205 (SELECTOR_DECISION). -/
  | selectorDecision (die core channel : Nat)
  /-- R368 (TOKEN_COMPLETION). -/
  | tokenCompletion (cmd pick : Nat)
  /-- R369 (DEADLINE_EXPIRY). -/
  | deadlineExpiry (uid tid : Nat)
  /-- R161 (COPY_GRANULE). -/
  | copyGranule (cmd pick : Nat)
  /-- R290 (MTX_ACCEPT). -/
  | mtxAccept (die core : Nat)
  /-- R225 (STATUS_WRITE). -/
  | statusWrite (uid tid : Nat) (value : Word)
  /-- R103 (ERRQ_WRITE). -/
  | errqWrite (die ctx : Nat) (value : Word)
  /-- R332 (ADD). -/
  | add (d a b : Reg)
  /-- R332 (SUB). -/
  | sub (d a b : Reg)
  /-- R332 (MUL). -/
  | mul (d a b : Reg)
  /-- R332 (MULHI). -/
  | mulhi (d a b : Reg)
  /-- R332 (MULHIU). -/
  | mulhiu (d a b : Reg)
  /-- R332 (DIV). -/
  | div (d a b : Reg)
  /-- R332 (DIVU). -/
  | divu (d a b : Reg)
  /-- R332 (REM). -/
  | rem (d a b : Reg)
  /-- R332 (REMU). -/
  | remu (d a b : Reg)
  /-- R332 (MIN). -/
  | min (d a b : Reg)
  /-- R332 (MAX). -/
  | max (d a b : Reg)
  /-- R332 (MINU). -/
  | minu (d a b : Reg)
  /-- R332 (MAXU). -/
  | maxu (d a b : Reg)
  /-- R332 (ABS). -/
  | abs (d a : Reg)
  /-- R332 (NEG). -/
  | neg (d a : Reg)
  /-- R334 (AND). -/
  | and_ (d a b : Reg)
  /-- R334 (OR). -/
  | or_ (d a b : Reg)
  /-- R334 (XOR). -/
  | xor (d a b : Reg)
  /-- R334 (ANDN). -/
  | andn (d a b : Reg)
  /-- R334 (NOT). -/
  | not_ (d a : Reg)
  /-- R334 (SHL). -/
  | shl (d a b : Reg)
  /-- R334 (SHR). -/
  | shr (d a b : Reg)
  /-- R334 (SAR). -/
  | sar (d a b : Reg)
  /-- R334 (ROTL). -/
  | rotl (d a b : Reg)
  /-- R334 (ROTR). -/
  | rotr (d a b : Reg)
  /-- R334 (CLZ). -/
  | clz (d a : Reg)
  /-- R334 (POPC). -/
  | popc (d a : Reg)
  /-- R334 (BREV). -/
  | brev (d a : Reg)
  /-- R333 (MAD). -/
  | mad (d a b : Reg)
  /-- R335 (BFE). -/
  | bfe (d a : Reg) (pos : BitVec 6) (lenm1 : BitVec 5)
  /-- R335 (BFE_S). -/
  | bfeS (d a : Reg) (pos : BitVec 6) (lenm1 : BitVec 5)
  /-- R335 (BFI). -/
  | bfi (d a : Reg) (pos : BitVec 6) (lenm1 : BitVec 5)
  /-- R336 (DADD). -/
  | dadd (d a b : Reg)
  /-- R336 (DSUB). -/
  | dsub (d a b : Reg)
  /-- R336 (DMUL). -/
  | dmul (d a b : Reg)
  /-- R336 (DSHL). -/
  | dshl (d a b : Reg)
  /-- R336 (DSHR). -/
  | dshr (d a b : Reg)
  /-- R336 (DSAR). -/
  | dsar (d a b : Reg)
  /-- R336 (MULW). -/
  | mulw (d a b : Reg)
  /-- R336 (MULWU). -/
  | mulwu (d a b : Reg)
  /-- R336 (DMIN). -/
  | dmin (d a b : Reg)
  /-- R336 (DMAX). -/
  | dmax (d a b : Reg)
  /-- R336 (DMINU). -/
  | dminu (d a b : Reg)
  /-- R336 (DMAXU). -/
  | dmaxu (d a b : Reg)
  /-- R337 (MOV). -/
  | mov (d a : Reg)
  /-- R337 (MOVX). -/
  | movx (d a : Reg)
  /-- R337 (MOVXW). -/
  | movxw (d a : Reg)
  /-- R337 (DMOV). -/
  | dmov (d a : Reg)
  /-- R338 (ADDI). -/
  | addi (d a : Reg) (imm : BitVec 14) (hi : Option (BitVec 18))
  /-- R338 (ANDI). -/
  | andi (d a : Reg) (imm : BitVec 14) (hi : Option (BitVec 18))
  /-- R338 (ORI). -/
  | ori (d a : Reg) (imm : BitVec 14) (hi : Option (BitVec 18))
  /-- R338 (XORI). -/
  | xori (d a : Reg) (imm : BitVec 14) (hi : Option (BitVec 18))
  /-- R338 (SHLI). -/
  | shli (d a : Reg) (n : BitVec 5) (hinted : Bool)
  /-- R338 (SHRI). -/
  | shri (d a : Reg) (n : BitVec 5) (hinted : Bool)
  /-- R338 (SARI). -/
  | sari (d a : Reg) (n : BitVec 5) (hinted : Bool)
  /-- R338 (MOVI). -/
  | movi (d : Reg) (imm : BitVec 14) (hi : Option (BitVec 18))
  /-- R338 (MULI). -/
  | muli (d a : Reg) (imm : BitVec 14) (hi : Option (BitVec 18))
  /-- R339 (FADD). -/
  | fadd (d a b : Reg) (rm : Rm)
  /-- R339 (FSUB). -/
  | fsub (d a b : Reg) (rm : Rm)
  /-- R339 (FMUL). -/
  | fmul (d a b : Reg) (rm : Rm)
  /-- R339 (FDIV). -/
  | fdiv (d a b : Reg) (rm : Rm)
  /-- R339 (FMIN). -/
  | fmin (d a b : Reg)
  /-- R339 (FMAX). -/
  | fmax (d a b : Reg)
  /-- R339 (FABS). -/
  | fabs (d a : Reg)
  /-- R339 (FNEG). -/
  | fneg (d a : Reg)
  /-- R339 (FSQRT). -/
  | fsqrt (d a : Reg) (rm : Rm)
  /-- R339 (FFMA). -/
  | ffma (d a b : Reg) (rm : Rm)
  /-- R339 (FFMS). -/
  | ffms (d a b : Reg) (rm : Rm)
  /-- R339 (FFNMA). -/
  | ffnma (d a b : Reg) (rm : Rm)
  /-- R341 (FRCP). -/
  | frcp (d a : Reg)
  /-- R341 (FRSQ). -/
  | frsq (d a : Reg)
  /-- R341 (FEXP2). -/
  | fexp2 (d a : Reg)
  /-- R341 (FLOG2). -/
  | flog2 (d a : Reg)
  /-- R341 (FTANH). -/
  | ftanh (d a : Reg)
  /-- R342 (BADD). -/
  | badd (d a b : Reg) (rm : Rm)
  /-- R342 (BSUB). -/
  | bsub (d a b : Reg) (rm : Rm)
  /-- R342 (BMUL). -/
  | bmul (d a b : Reg) (rm : Rm)
  /-- R342 (BFMA). -/
  | bfma (d a b : Reg) (rm : Rm)
  /-- R342 (BMIN). -/
  | bmin (d a b : Reg)
  /-- R342 (BMAX). -/
  | bmax (d a b : Reg)
  /-- R342 (HADD). -/
  | hadd (d a b : Reg) (rm : Rm)
  /-- R342 (HSUB). -/
  | hsub (d a b : Reg) (rm : Rm)
  /-- R342 (HMUL). -/
  | hmul (d a b : Reg) (rm : Rm)
  /-- R342 (HFMA). -/
  | hfma (d a b : Reg) (rm : Rm)
  /-- R342 (HMIN). -/
  | hmin (d a b : Reg)
  /-- R342 (HMAX). -/
  | hmax (d a b : Reg)
  /-- R344 (F2I). -/
  | f2i (d a : Reg) (rm : Rm)
  /-- R344 (F2U). -/
  | f2u (d a : Reg) (rm : Rm)
  /-- R343 (I2F). -/
  | i2f (d a : Reg) (rm : Rm)
  /-- R343 (U2F). -/
  | u2f (d a : Reg) (rm : Rm)
  /-- R344 (FRINT). -/
  | frint (d a : Reg) (rm : Rm)
  /-- R343 (F2BF). -/
  | f2bf (d a : Reg) (rm : Rm)
  /-- R343 (F2H). -/
  | f2h (d a : Reg) (rm : Rm)
  /-- R343 (BF2F). -/
  | bf2f (d a : Reg)
  /-- R343 (H2F). -/
  | h2f (d a : Reg)
  /-- R347 (CVTN). -/
  | cvtn (d a b : Reg) (fmt : Fmt) (rm : Rm3) (sat : Bool) (stream : Option (BitVec 8))
  /-- R347 (CVTNP). -/
  | cvtnp (d a b : Reg) (fmt : Fmt) (rm : Rm3) (sat : Bool) (stream : Option (BitVec 8))
  /-- R348 (DEQ). -/
  | deq (d a b : Reg) (fmt : Fmt) (scale : Scale)
  /-- R349 (CMPP). -/
  | cmpp (pd pc : PredReg) (a b : Reg) (cmp : Cmp) (ty : CmpTy) (comb : Comb)
  /-- R350 (PAND). -/
  | pand (d a b : PredReg)
  /-- R350 (POR). -/
  | por (d a b : PredReg)
  /-- R350 (PXOR). -/
  | pxor (d a b : PredReg)
  /-- R350 (PNOT). -/
  | pnot (d a : PredReg)
  /-- R350 (PRD). -/
  | prd (d : Reg)
  /-- R350 (PWR). -/
  | pwr (a : Reg)
  /-- R351 (SEL). -/
  | sel (d a b : Reg) (neg : Bool) (p : PredReg)
  /-- R351 (DSEL). -/
  | dsel (d a b : Reg) (neg : Bool) (p : PredReg)
  /-- R361 (PEEK). -/
  | peek (d a b : Reg) (immediate : Bool) (mode : PeekMode)
  /-- R362 (POLL_ALL). -/
  | pollAll (d : PredReg) (neg : Bool) (p : PredReg)
  /-- R362 (POLL_SOME). -/
  | pollSome (d : PredReg) (neg : Bool) (p : PredReg)
  /-- R362 (POLL_SAME). -/
  | pollSame (d : PredReg) (neg : Bool) (p : PredReg)
  /-- R362 (PMASK). -/
  | pmask (d : Reg) (neg : Bool) (p : PredReg)
  /-- R363 (FOLD). -/
  | fold (d a : Reg) (op : Xop)
  /-- R363 (PREFIX). -/
  | prefixOp (d a : Reg) (excl : Bool) (op : Xop)
  /-- R370 (LD). -/
  | ld (d a : Reg) (off : BitVec 10) (size : Size) (ord : Bool) (hint : Option LsHint)
  /-- R370 (ST). -/
  | st (d a : Reg) (off : BitVec 10) (size : Size) (ord : Bool) (hint : Option LsHint)
  /-- R373 (ATOM). -/
  | atom (d a b : Reg) (op : AtomOp) (ord : Ord4) (scope : Scope)
  /-- R374 (CAS). -/
  | cas (d a b : Reg) (ord : Ord4) (scope : Scope)
  /-- R374 (DCAS). -/
  | dcas (d a b : Reg) (ord : Ord4) (scope : Scope)
  /-- R376 (BARINIT). -/
  | barinit (a b : Reg)
  /-- R377 (BARARR). -/
  | bararr (a b : Reg)
  /-- R379 (BARWAIT). -/
  | barwait (pd : PredReg) (d a b : Reg)
  /-- R379 (BARTEST). -/
  | bartest (pd : PredReg) (d a : Reg)
  /-- R372 (LDK). -/
  | ldk (d a : Reg) (off : BitVec 10) (size : Size)
  /-- R372 (STK). -/
  | stk (d a : Reg) (off : BitVec 10) (size : Size)
  /-- R381 (COPY). -/
  | copy (d a b : Reg) (tk : Bool) (dir : Dir) (bar : Bool) (arr : Option Reg)
  /-- R382 (COPYT). -/
  | copyt (d a b : Reg) (tk : Bool) (shape : Shape) (bar : Bool) (hint : Option TileHint)
  /-- R383 (GATHER). -/
  | gather (d a b : Reg) (esz : Esz)
  /-- R383 (SCATTER). -/
  | scatter (d a b : Reg) (esz : Esz)
  /-- R384 (PREFETCH). -/
  | prefetch (a b : Reg)
  /-- R385 (PAGEIN). -/
  | pagein (d a b : Reg)
  /-- R386 (ATOMG). -/
  | atomg (d a b : Reg) (op : AtomOp) (ord : Ord4) (scope : Scope)
  /-- R387 (CASG). -/
  | casg (d a b : Reg) (ord : Ord4) (scope : Scope)
  /-- R387 (DCASG). -/
  | dcasg (d a b : Reg) (ord : Ord4) (scope : Scope)
  /-- R242 (FENCE). -/
  | fence (before after : BitVec 5) (scope : Scope)
  /-- R393 (RADD). -/
  | radd (d a b : Reg) (tk : Bool) (ty : AddTy) (hint : Option ArrHint)
  /-- R393 (RMIN). -/
  | rmin (d a b : Reg) (tk : Bool) (ty : MinTy) (hint : Option ArrHint)
  /-- R393 (RMAX). -/
  | rmax (d a b : Reg) (tk : Bool) (ty : MinTy) (hint : Option ArrHint)
  /-- R393 (ROR). -/
  | ror (d a b : Reg) (tk : Bool) (hint : Option ArrHint)
  /-- R393 (RWONCE). -/
  | rwonce (d a b : Reg) (tk : Bool) (hint : Option ArrHint)
  /-- R393 (RARRIVE). -/
  | rarrive (d a b : Reg) (tk : Bool) (hint : Option ArrHint)
  /-- R393 (RCLOSE). -/
  | rclose (d a : Reg) (tk : Bool) (hint : Option ArrHint)
  /-- R395 (RREAD). -/
  | rread (d a : Reg) (tk : Bool)
  /-- R396 (ONCECLR). -/
  | onceclr (d a b : Reg) (tk : Bool)
  /-- R397 (XCVT). -/
  | xcvt (d a : Reg) (f64 : Bool) (idx : BitVec 3)
  /-- R389 (ARM). -/
  | arm (a b : Reg)
  /-- R390 (WAITCNT). -/
  | waitcnt (a b : Reg)
  /-- R391 (WAITLINE). -/
  | waitline (pd : PredReg) (d a b : Reg)
  /-- R398 (INVOKE_DIE). -/
  | invokeDie (d a b : Reg) (hint : Option ArrHint)
  /-- R398 (INVOKE_ADDR). -/
  | invokeAddr (d a b : Reg) (hint : Option ArrHint)
  /-- R398 (INVOKEH). -/
  | invokeh (d a b : Reg) (hint : Option ArrHint)
  /-- R121 (RETH). -/
  | reth (a : Reg)
  /-- R131 (HGET). -/
  | hget (d a b : Reg)
  /-- R132 (HSTAT). -/
  | hstat (pd : PredReg) (d a : Reg)
  /-- R133 (HFREE). -/
  | hfree (a : Reg)
  /-- R401 (TDSET). -/
  | tdset (a b : Reg)
  /-- R401 (TDGET). -/
  | tdget (a b : Reg)
  /-- R406 (TXP). -/
  | txp (d a : Reg) (tk : Bool) (shape : Shape)
  /-- R403 (MMA). -/
  | mma (d a : Reg) (tk : Bool) (shape : Shape) (sparse : Bool) (hint : Option DescHint)
  /-- R403 (MMAZ). -/
  | mmaz (d a : Reg) (tk : Bool) (shape : Shape) (sparse : Bool) (hint : Option DescHint)
  /-- R292 (DRAIN). -/
  | drain (d a : Reg) (tk : Bool) (rm : Rm3) (sat : Bool) (stream : BitVec 8)
  /-- R293 (TQUANT). -/
  | tquant (d a : Reg) (tk : Bool) (rm : Rm3) (sat : Bool) (stream : BitVec 8)
  /-- R408 (PATLD). -/
  | patld (d b : Reg) (tk : Bool) (c : BitVec 2)
  /-- R409 (PATGEN). -/
  | patgen (d a b : Reg) (tk t : Bool) (c : BitVec 2)
  /-- R410 (PATX). -/
  | patx (d a b : Reg) (tk t : Bool) (c : BitVec 2)
  /-- R411 (PATPART). -/
  | patpart (d a b : Reg) (tk t : Bool) (c : BitVec 2)
  /-- R412 (PATPTR). -/
  | patptr (d a b : Reg) (tk t el : Bool) (c : BitVec 2)
  /-- R413 (PATSAVE). -/
  | patsave (d a : Reg) (tk : Bool) (c : BitVec 2)
  /-- R413 (PATREST). -/
  | patrest (d a : Reg) (tk : Bool) (c : BitVec 2)
  /-- R415 (LAUNCH). -/
  | launch (d a b : Reg)
  /-- R416 (GROW). -/
  | grow (n : BitVec 12)
  /-- R416 (SHRINK). -/
  | shrink (n : BitVec 12)
  /-- R417 (TRAP). -/
  | trap (imm : BitVec 8)
  /-- R418 (SRD). -/
  | srd (d : Reg) (reg : SReg)
  /-- R418 (SWR). -/
  | swr (d : Reg) (reg : SReg)
  /-- R424 (TLBINV). -/
  | tlbinv (a b : Reg)
  /-- R422 (TLBW). -/
  | tlbw (a b : Reg)
  /-- R421 (PTLD). -/
  | ptld (d a : Reg)
  /-- R352 (BRA). -/
  | bra (off : BitVec 20)
  /-- R352 (BRC_TRUE). -/
  | brcTrue (p : PredReg) (off : BitVec 20)
  /-- R352 (BRC_FALSE). -/
  | brcFalse (p : PredReg) (off : BitVec 20)
  /-- R354 (CALL). -/
  | call (s : BitVec 2) (off : BitVec 20)
  /-- R352 (BRX). -/
  | brx (a : Reg)
  /-- R354 (CALLX). -/
  | callx (a : Reg) (s : BitVec 2)
  /-- R44 (FLIT_TRANSMISSION). -/
  | flitTransmission (die unit : Nat)
  /-- R135 (PENWYN_PORT_DOWN). -/
  | penwynPortDown (port : Bool)
  /-- R31 (COLD_RESET). -/
  | coldReset
  /-- R31 (BOOT_STEP_COMPLETE). -/
  | bootStepComplete
  /-- R20 (POWER_LIMIT_EVAL). -/
  | powerLimitEval
  /-- R24 (POWER_LIMIT_SECOND_STAGE). -/
  | powerLimitSecondStage
  /-- R140 (CREATE). -/
  | create
  /-- R142 (DESTROY). -/
  | destroy
  /-- R139 (READREG). -/
  | readreg
  /-- R139 (WRITEREG). -/
  | writereg
  /-- R52 (LOADKEY). -/
  | loadkey
  /-- R20 (SETPOWER). -/
  | setpower
  /-- R30 (ATTEST). -/
  | attest
  /-- R149 (PAGEDONE). -/
  | pagedone
  /-- R148 (SETEVENT). -/
  | setevent
  /-- R66 (DRAINEND). -/
  | drainend
  /-- R28 (COMMITSVN). -/
  | commitsvn
  /-- R139 (RESETDIE). -/
  | resetdie
  /-- R34 (SETTORUS). -/
  | settorus
  /-- R148 (ERROR_RECORD_MESSAGE). -/
  | errorRecordMessage
  /-- R81 (JOIN_QUARANTINE_END). -/
  | joinQuarantineEnd
  /-- R66 (DRAIN_MESSAGE). -/
  | drainMessage
  /-- R66 (DRAIN_REPORT). -/
  | drainReport
  /-- R423 (HALT). -/
  | halt
  /-- R355 (RET). -/
  | ret
  /-- R352 (NXT). -/
  | nxt
  /-- R357 (EXIT). -/
  | exit
  /-- R223 (ERET). -/
  | eret
  /-- R358 (YIELD). -/
  | yield
  /-- R137 (INVALIDATION_ACKNOWLEDGEMENT). -/
  | invalidationAcknowledgement
  /-- R148 (EVENT_RING_CONSUMER_INDEX). -/
  | eventRingConsumerIndex
  /-- R319 (ILLEGAL_INSTR). -/
  | illegalInstr
deriving DecidableEq, Repr

end Sys2Proof
end

