-- ==== Sys2Proof/WellFormed.lean ====
section
/-!
DEFINITION. Which instructions have an encoding whose operands are legal (R309, R311, R319 step 1): pairs even, groups
aligned, fields that a row of R317 sets to 0, limits on formats, and hint fields that are unused. An event of the device
has no encoding and is always well formed.
-/

namespace Sys2Proof

/-- R309: a register field used as a pair is even. -/
def even (r : Reg) : Bool := r.toNat % 2 == 0
/-- R309: a field used as a group of four is a multiple of 4. -/
def quad (r : Reg) : Bool := r.toNat % 4 == 0
/-- R309: a field used as a group of eight is a multiple of 8. -/
def oct (r : Reg) : Bool := r.toNat % 8 == 0

/-- R345: FMT 0x1 to 0x9. -/
def Fmt.narrow (f : Fmt) : Bool := f != .fp32 && f != .fp64
/-- R348: FMT 0x3 to 0x9. -/
def Fmt.tiny (f : Fmt) : Bool := f.narrow && f != .bf16 && f != .fp16
/-- R346: the alignment of the source group of cvtnp. -/
def Fmt.groupOk (f : Fmt) (a : Reg) : Bool :=
  match f with
  | .bf16 => even a
  | .fp16 => even a
  | .e2m1 => oct a
  | .fp32 | .e5m2 | .e4m3 | .e3m2 | .e2m3 | .t8 | .t6 | .fp64 => quad a
/-- R345, R311: under SR, b is a pair and a stream may be given; otherwise b is 0 and no hint may precede. -/
def cvtOk (rm : Rm3) (stream : Option (BitVec 8)) (b : Reg) : Bool :=
  if rm == .sr then even b else (stream.isNone && b == 0#6)
/-- R370: the data registers of a load or a store. -/
def Size.regOk (z : Size) (d : Reg) : Bool :=
  match z with
  | .b64 => even d
  | .b128 => quad d
  | .b8 | .b16 | .b32 => true
/-- R372: SZ 2 to 4. -/
def Size.stackOk (z : Size) : Bool := z != .b8 && z != .b16
/-- R373: the 64-bit operations. -/
def AtomOp.wide (o : AtomOp) : Bool := o == .dadd || o == .dmin || o == .dmax || o == .dor || o == .dxchg
/-- R373: the operand fields of an atomic. -/
def AtomOp.regOk (o : AtomOp) (d b : Reg) : Bool :=
  if o.wide then even d && even b else if o == .ld then b == 0#6 else true
/-- R392: the operand fields of radd. -/
def AddTy.regOk (t : AddTy) (a b : Reg) : Bool :=
  match t with
  | .i32 | .full => even a
  | .i64 => even a && even b
  | .win => quad a && oct b
/-- R392: the types whose operand is one register. -/
def MinTy.narrow (t : MinTy) : Bool := t == .i32 || t == .n32 || t == .f32
/-- R311: ARR names an even pair. -/
def arrOk (h : Option ArrHint) : Bool := h.all fun x => even x.arr
/-- R311: NW is used by rwonce only. -/
def noNw (h : Option ArrHint) : Bool := h.all fun x => x.nw == 0#4
/-- R392: AV = 1 is illegal for rarrive and rclose. -/
def noAv (h : Option ArrHint) : Bool := h.all fun x => !x.av
/-- R418: the 64-bit special registers. -/
def SReg.wide (r : SReg) : Bool :=
  match r with
  | .wgid | .wgdim | .griddim | .cycle | .retired | .srseed | .trapaddr | .walkva | .walkroot => true
  | .tid | .core | .cluster | .die | .package | .ctx | .status | .trapcause | .errq | .walkinfo => false

/-- R319 step 1, apart from the unassigned codes, which no constructor can hold. -/
def Instr.wellFormed : Instr → Bool
  | .dieReset _ _ => true
  | .thermalSamplePeriod _ _ => true
  | .droopAlarm _ _ => true
  | .droopResponseEnd _ _ => true
  | .thermstatWrite _ _ _ => true
  | .companionWrite _ _ _ => true
  | .companionRead _ _ => true
  | .messageRoute _ _ => true
  | .dataFlit _ _ _ => true
  | .idleFlit _ _ _ => true
  | .registrationFlit _ _ _ => true
  | .retireFlit _ _ _ => true
  | .keySwitch _ _ => true
  | .retireResend _ _ => true
  | .keyExpiring _ _ => true
  | .keyExhausted _ _ => true
  | .authFailureLimit _ _ => true
  | .linkTrained _ _ => true
  | .budgetPeriod _ => true
  | .join _ _ => true
  | .joinAcknowledgement _ _ => true
  | .joinResend _ _ => true
  | .raddUpdate _ _ => true
  | .rminUpdate _ _ => true
  | .rmaxUpdate _ _ => true
  | .rorUpdate _ _ => true
  | .rwonceUpdate _ _ => true
  | .rarriveUpdate _ _ => true
  | .rcloseUpdate _ _ => true
  | .rreadRequest _ _ => true
  | .readReply _ _ => true
  | .acknowledgement _ _ => true
  | .retransmissionTimer _ _ _ => true
  | .heldMessageTimeout _ _ => true
  | .windowExpiry _ _ _ => true
  | .invokeMessage _ _ => true
  | .invokehMessage _ _ => true
  | .hgetRequest _ _ => true
  | .hfreeMessage _ _ => true
  | .recordMove _ _ => true
  | .resultReply _ _ => true
  | .locationUpdate _ _ => true
  | .workgroupEnd _ => true
  | .pageServiceTimeout _ => true
  | .walkinfoRead _ _ => true
  | .walkerRestart _ => true
  | .uncorrectableError _ _ => true
  | .placementPass _ => true
  | .candidateAging _ _ => true
  | .workgroupSave _ => true
  | .wholeContextSwitch _ _ => true
  | .eviction _ _ => true
  | .selectorDecision _ _ _ => true
  | .tokenCompletion _ _ => true
  | .deadlineExpiry _ _ => true
  | .copyGranule _ _ => true
  | .mtxAccept _ _ => true
  | .statusWrite _ _ _ => true
  | .errqWrite _ _ _ => true
  | .add _ _ _ => true
  | .sub _ _ _ => true
  | .mul _ _ _ => true
  | .mulhi _ _ _ => true
  | .mulhiu _ _ _ => true
  | .div _ _ _ => true
  | .divu _ _ _ => true
  | .rem _ _ _ => true
  | .remu _ _ _ => true
  | .min _ _ _ => true
  | .max _ _ _ => true
  | .minu _ _ _ => true
  | .maxu _ _ _ => true
  | .abs _ _ => true
  | .neg _ _ => true
  | .and_ _ _ _ => true
  | .or_ _ _ _ => true
  | .xor _ _ _ => true
  | .andn _ _ _ => true
  | .not_ _ _ => true
  | .shl _ _ _ => true
  | .shr _ _ _ => true
  | .sar _ _ _ => true
  | .rotl _ _ _ => true
  | .rotr _ _ _ => true
  | .clz _ _ => true
  | .popc _ _ => true
  | .brev _ _ => true
  | .mad _ _ _ => true
  | .bfe _ _ pos lenm1 => decide (pos.toNat + lenm1.toNat + 1 ≤ 32)
  | .bfeS _ _ pos lenm1 => decide (pos.toNat + lenm1.toNat + 1 ≤ 32)
  | .bfi _ _ pos lenm1 => decide (pos.toNat + lenm1.toNat + 1 ≤ 32)
  | .dadd d a b => even d && even a && even b
  | .dsub d a b => even d && even a && even b
  | .dmul d a b => even d && even a && even b
  | .dshl d a _ => even d && even a
  | .dshr d a _ => even d && even a
  | .dsar d a _ => even d && even a
  | .mulw d _ _ => even d
  | .mulwu d _ _ => even d
  | .dmin d a b => even d && even a && even b
  | .dmax d a b => even d && even a && even b
  | .dminu d a b => even d && even a && even b
  | .dmaxu d a b => even d && even a && even b
  | .mov _ _ => true
  | .movx _ _ => true
  | .movxw _ _ => true
  | .dmov d a => even d && even a
  | .addi _ _ _ _ => true
  | .andi _ _ _ _ => true
  | .ori _ _ _ _ => true
  | .xori _ _ _ _ => true
  | .shli _ _ _ _ => true
  | .shri _ _ _ _ => true
  | .sari _ _ _ _ => true
  | .movi _ _ _ => true
  | .muli _ _ _ _ => true
  | .fadd _ _ _ _ => true
  | .fsub _ _ _ _ => true
  | .fmul _ _ _ _ => true
  | .fdiv _ _ _ _ => true
  | .fmin _ _ _ => true
  | .fmax _ _ _ => true
  | .fabs _ _ => true
  | .fneg _ _ => true
  | .fsqrt _ _ _ => true
  | .ffma _ _ _ _ => true
  | .ffms _ _ _ _ => true
  | .ffnma _ _ _ _ => true
  | .frcp _ _ => true
  | .frsq _ _ => true
  | .fexp2 _ _ => true
  | .flog2 _ _ => true
  | .ftanh _ _ => true
  | .badd _ _ _ _ => true
  | .bsub _ _ _ _ => true
  | .bmul _ _ _ _ => true
  | .bfma _ _ _ _ => true
  | .bmin _ _ _ => true
  | .bmax _ _ _ => true
  | .hadd _ _ _ _ => true
  | .hsub _ _ _ _ => true
  | .hmul _ _ _ _ => true
  | .hfma _ _ _ _ => true
  | .hmin _ _ _ => true
  | .hmax _ _ _ => true
  | .f2i _ _ _ => true
  | .f2u _ _ _ => true
  | .i2f _ _ _ => true
  | .u2f _ _ _ => true
  | .frint _ _ _ => true
  | .f2bf _ _ _ => true
  | .f2h _ _ _ => true
  | .bf2f _ _ => true
  | .h2f _ _ => true
  | .cvtn _ _ b fmt rm _ stream => fmt.narrow && cvtOk rm stream b
  | .cvtnp _ a b fmt rm _ stream => fmt.narrow && cvtOk rm stream b && fmt.groupOk a
  | .deq _ _ b fmt scale => fmt.tiny && (scale != .none || b == 0#6)
  | .cmpp _ _ _ _ _ _ _ => true
  | .pand _ _ _ => true
  | .por _ _ _ => true
  | .pxor _ _ _ => true
  | .pnot _ _ => true
  | .prd _ => true
  | .pwr _ => true
  | .sel _ _ _ _ _ => true
  | .dsel d a b _ _ => even d && even a && even b
  | .peek _ _ _ _ _ => true
  | .pollAll _ _ _ => true
  | .pollSome _ _ _ => true
  | .pollSame _ _ _ => true
  | .pmask d _ _ => even d
  | .fold _ _ _ => true
  | .prefixOp _ _ _ _ => true
  | .ld d _ _ size ord hint => size.regOk d && (hint.isNone || !ord)
  | .st d _ _ size ord hint => size.regOk d && (hint.isNone || !ord)
  | .atom d _ b op ord _ => op.regOk d b && (op != .ld || ord == .none || ord == .acq)
  | .cas _ _ b _ _ => even b
  | .dcas d _ b _ _ => even d && quad b
  | .barinit _ _ => true
  | .bararr _ _ => true
  | .barwait _ _ _ _ => true
  | .bartest _ _ _ => true
  | .ldk d _ _ size => size.stackOk && size.regOk d
  | .stk d _ _ size => size.stackOk && size.regOk d
  | .copy d a _ tk _ bar arr => (tk || d == 0#6) && quad a && bar == arr.isSome
  | .copyt d _ _ tk _ bar hint => (tk || d == 0#6) && hint.isSome && (bar || hint.all (fun x => x.arr == 0#6))
  | .gather d a _ _ => even d && quad a
  | .scatter d a _ _ => even d && quad a
  | .prefetch a _ => even a
  | .pagein _ a _ => even a
  | .atomg d a b op ord _ => even a && op.regOk d b && (op != .ld || ord == .none || ord == .acq)
  | .casg _ a b _ _ => even a && even b
  | .dcasg d a b _ _ => even d && even a && quad b
  | .fence _ _ _ => true
  | .radd d a b tk ty hint => (tk || d == 0#6) && ty.regOk a b && arrOk hint && noNw hint
  | .rmin d a b tk ty hint => (tk || d == 0#6) && even a && (ty.narrow || even b) && arrOk hint && noNw hint
  | .rmax d a b tk ty hint => (tk || d == 0#6) && even a && (ty.narrow || even b) && arrOk hint && noNw hint
  | .ror d a b tk hint => (tk || d == 0#6) && even a && even b && arrOk hint && noNw hint
  | .rwonce d a _ tk hint => (tk || d == 0#6) && even a && arrOk hint
  | .rarrive d a _ tk hint => (tk || d == 0#6) && even a && arrOk hint && noNw hint && noAv hint
  | .rclose d a tk hint => (tk || d == 0#6) && even a && arrOk hint && noNw hint && noAv hint
  | .rread d a tk => (tk || d == 0#6) && oct a
  | .onceclr d a _ tk => (tk || d == 0#6) && even a
  | .xcvt d a f64 _ => even a && (!f64 || even d)
  | .arm a _ => even a
  | .waitcnt a _ => even a
  | .waitline _ d a _ => even d && even a
  | .invokeDie d a _ hint => even d && quad a && arrOk hint && noNw hint
  | .invokeAddr d a _ hint => even d && quad a && arrOk hint && noNw hint
  | .invokeh d a _ hint => even d && quad a && arrOk hint && noNw hint
  | .reth a => even a
  | .hget _ a _ => even a
  | .hstat _ _ a => even a
  | .hfree a => even a
  | .tdset _ _ => true
  | .tdget _ _ => true
  | .txp d a tk _ => (tk || d == 0#6) && quad a
  | .mma d a tk _ _ hint => (tk || d == 0#6) && quad a && hint.isSome
  | .mmaz d a tk _ _ hint => (tk || d == 0#6) && quad a && hint.isSome
  | .drain d a tk rm _ stream => (tk || d == 0#6) && quad a && (rm == .sr || stream == 0#8)
  | .tquant d a tk rm _ stream => (tk || d == 0#6) && quad a && (rm == .sr || stream == 0#8)
  | .patld d _ tk _ => (tk || d == 0#6)
  | .patgen d a _ tk _ _ => (tk || d == 0#6) && even a
  | .patx d a _ tk _ _ => (tk || d == 0#6) && quad a
  | .patpart d _ _ tk _ _ => (tk || d == 0#6)
  | .patptr d _ _ tk _ _ _ => (tk || d == 0#6)
  | .patsave d _ tk _ => (tk || d == 0#6)
  | .patrest d _ tk _ => (tk || d == 0#6)
  | .launch _ _ _ => true
  | .grow _ => true
  | .shrink _ => true
  | .trap _ => true
  | .srd d reg => !reg.wide || even d
  | .swr d reg => !reg.wide || even d
  | .tlbinv a _ => even a
  | .tlbw a _ => even a
  | .ptld d a => even d && even a
  | .bra _ => true
  | .brcTrue _ _ => true
  | .brcFalse _ _ => true
  | .call _ _ => true
  | .brx a => even a
  | .callx a _ => even a
  | .flitTransmission _ _ => true
  | .penwynPortDown _ => true
  | .coldReset => true
  | .bootStepComplete => true
  | .powerLimitEval => true
  | .powerLimitSecondStage => true
  | .create => true
  | .destroy => true
  | .readreg => true
  | .writereg => true
  | .loadkey => true
  | .setpower => true
  | .attest => true
  | .pagedone => true
  | .setevent => true
  | .drainend => true
  | .commitsvn => true
  | .resetdie => true
  | .settorus => true
  | .errorRecordMessage => true
  | .joinQuarantineEnd => true
  | .drainMessage => true
  | .drainReport => true
  | .halt => true
  | .ret => true
  | .nxt => true
  | .exit => true
  | .eret => true
  | .yield => true
  | .invalidationAcknowledgement => true
  | .eventRingConsumerIndex => true
  | .illegalInstr => true

/-- Whether the row is a program instruction, with an encoding in R317; the others are events of the device (spec/95). -/
def Instr.isProgram : Instr → Bool
  | .dieReset _ _ => false
  | .thermalSamplePeriod _ _ => false
  | .droopAlarm _ _ => false
  | .droopResponseEnd _ _ => false
  | .thermstatWrite _ _ _ => false
  | .companionWrite _ _ _ => false
  | .companionRead _ _ => false
  | .messageRoute _ _ => false
  | .dataFlit _ _ _ => false
  | .idleFlit _ _ _ => false
  | .registrationFlit _ _ _ => false
  | .retireFlit _ _ _ => false
  | .keySwitch _ _ => false
  | .retireResend _ _ => false
  | .keyExpiring _ _ => false
  | .keyExhausted _ _ => false
  | .authFailureLimit _ _ => false
  | .linkTrained _ _ => false
  | .budgetPeriod _ => false
  | .join _ _ => false
  | .joinAcknowledgement _ _ => false
  | .joinResend _ _ => false
  | .raddUpdate _ _ => false
  | .rminUpdate _ _ => false
  | .rmaxUpdate _ _ => false
  | .rorUpdate _ _ => false
  | .rwonceUpdate _ _ => false
  | .rarriveUpdate _ _ => false
  | .rcloseUpdate _ _ => false
  | .rreadRequest _ _ => false
  | .readReply _ _ => false
  | .acknowledgement _ _ => false
  | .retransmissionTimer _ _ _ => false
  | .heldMessageTimeout _ _ => false
  | .windowExpiry _ _ _ => false
  | .invokeMessage _ _ => false
  | .invokehMessage _ _ => false
  | .hgetRequest _ _ => false
  | .hfreeMessage _ _ => false
  | .recordMove _ _ => false
  | .resultReply _ _ => false
  | .locationUpdate _ _ => false
  | .workgroupEnd _ => false
  | .pageServiceTimeout _ => false
  | .walkinfoRead _ _ => false
  | .walkerRestart _ => false
  | .uncorrectableError _ _ => false
  | .placementPass _ => false
  | .candidateAging _ _ => false
  | .workgroupSave _ => false
  | .wholeContextSwitch _ _ => false
  | .eviction _ _ => false
  | .selectorDecision _ _ _ => false
  | .tokenCompletion _ _ => false
  | .deadlineExpiry _ _ => false
  | .copyGranule _ _ => false
  | .mtxAccept _ _ => false
  | .statusWrite _ _ _ => false
  | .errqWrite _ _ _ => false
  | .add _ _ _ => true
  | .sub _ _ _ => true
  | .mul _ _ _ => true
  | .mulhi _ _ _ => true
  | .mulhiu _ _ _ => true
  | .div _ _ _ => true
  | .divu _ _ _ => true
  | .rem _ _ _ => true
  | .remu _ _ _ => true
  | .min _ _ _ => true
  | .max _ _ _ => true
  | .minu _ _ _ => true
  | .maxu _ _ _ => true
  | .abs _ _ => true
  | .neg _ _ => true
  | .and_ _ _ _ => true
  | .or_ _ _ _ => true
  | .xor _ _ _ => true
  | .andn _ _ _ => true
  | .not_ _ _ => true
  | .shl _ _ _ => true
  | .shr _ _ _ => true
  | .sar _ _ _ => true
  | .rotl _ _ _ => true
  | .rotr _ _ _ => true
  | .clz _ _ => true
  | .popc _ _ => true
  | .brev _ _ => true
  | .mad _ _ _ => true
  | .bfe _ _ _ _ => true
  | .bfeS _ _ _ _ => true
  | .bfi _ _ _ _ => true
  | .dadd _ _ _ => true
  | .dsub _ _ _ => true
  | .dmul _ _ _ => true
  | .dshl _ _ _ => true
  | .dshr _ _ _ => true
  | .dsar _ _ _ => true
  | .mulw _ _ _ => true
  | .mulwu _ _ _ => true
  | .dmin _ _ _ => true
  | .dmax _ _ _ => true
  | .dminu _ _ _ => true
  | .dmaxu _ _ _ => true
  | .mov _ _ => true
  | .movx _ _ => true
  | .movxw _ _ => true
  | .dmov _ _ => true
  | .addi _ _ _ _ => true
  | .andi _ _ _ _ => true
  | .ori _ _ _ _ => true
  | .xori _ _ _ _ => true
  | .shli _ _ _ _ => true
  | .shri _ _ _ _ => true
  | .sari _ _ _ _ => true
  | .movi _ _ _ => true
  | .muli _ _ _ _ => true
  | .fadd _ _ _ _ => true
  | .fsub _ _ _ _ => true
  | .fmul _ _ _ _ => true
  | .fdiv _ _ _ _ => true
  | .fmin _ _ _ => true
  | .fmax _ _ _ => true
  | .fabs _ _ => true
  | .fneg _ _ => true
  | .fsqrt _ _ _ => true
  | .ffma _ _ _ _ => true
  | .ffms _ _ _ _ => true
  | .ffnma _ _ _ _ => true
  | .frcp _ _ => true
  | .frsq _ _ => true
  | .fexp2 _ _ => true
  | .flog2 _ _ => true
  | .ftanh _ _ => true
  | .badd _ _ _ _ => true
  | .bsub _ _ _ _ => true
  | .bmul _ _ _ _ => true
  | .bfma _ _ _ _ => true
  | .bmin _ _ _ => true
  | .bmax _ _ _ => true
  | .hadd _ _ _ _ => true
  | .hsub _ _ _ _ => true
  | .hmul _ _ _ _ => true
  | .hfma _ _ _ _ => true
  | .hmin _ _ _ => true
  | .hmax _ _ _ => true
  | .f2i _ _ _ => true
  | .f2u _ _ _ => true
  | .i2f _ _ _ => true
  | .u2f _ _ _ => true
  | .frint _ _ _ => true
  | .f2bf _ _ _ => true
  | .f2h _ _ _ => true
  | .bf2f _ _ => true
  | .h2f _ _ => true
  | .cvtn _ _ _ _ _ _ _ => true
  | .cvtnp _ _ _ _ _ _ _ => true
  | .deq _ _ _ _ _ => true
  | .cmpp _ _ _ _ _ _ _ => true
  | .pand _ _ _ => true
  | .por _ _ _ => true
  | .pxor _ _ _ => true
  | .pnot _ _ => true
  | .prd _ => true
  | .pwr _ => true
  | .sel _ _ _ _ _ => true
  | .dsel _ _ _ _ _ => true
  | .peek _ _ _ _ _ => true
  | .pollAll _ _ _ => true
  | .pollSome _ _ _ => true
  | .pollSame _ _ _ => true
  | .pmask _ _ _ => true
  | .fold _ _ _ => true
  | .prefixOp _ _ _ _ => true
  | .ld _ _ _ _ _ _ => true
  | .st _ _ _ _ _ _ => true
  | .atom _ _ _ _ _ _ => true
  | .cas _ _ _ _ _ => true
  | .dcas _ _ _ _ _ => true
  | .barinit _ _ => true
  | .bararr _ _ => true
  | .barwait _ _ _ _ => true
  | .bartest _ _ _ => true
  | .ldk _ _ _ _ => true
  | .stk _ _ _ _ => true
  | .copy _ _ _ _ _ _ _ => true
  | .copyt _ _ _ _ _ _ _ => true
  | .gather _ _ _ _ => true
  | .scatter _ _ _ _ => true
  | .prefetch _ _ => true
  | .pagein _ _ _ => true
  | .atomg _ _ _ _ _ _ => true
  | .casg _ _ _ _ _ => true
  | .dcasg _ _ _ _ _ => true
  | .fence _ _ _ => true
  | .radd _ _ _ _ _ _ => true
  | .rmin _ _ _ _ _ _ => true
  | .rmax _ _ _ _ _ _ => true
  | .ror _ _ _ _ _ => true
  | .rwonce _ _ _ _ _ => true
  | .rarrive _ _ _ _ _ => true
  | .rclose _ _ _ _ => true
  | .rread _ _ _ => true
  | .onceclr _ _ _ _ => true
  | .xcvt _ _ _ _ => true
  | .arm _ _ => true
  | .waitcnt _ _ => true
  | .waitline _ _ _ _ => true
  | .invokeDie _ _ _ _ => true
  | .invokeAddr _ _ _ _ => true
  | .invokeh _ _ _ _ => true
  | .reth _ => true
  | .hget _ _ _ => true
  | .hstat _ _ _ => true
  | .hfree _ => true
  | .tdset _ _ => true
  | .tdget _ _ => true
  | .txp _ _ _ _ => true
  | .mma _ _ _ _ _ _ => true
  | .mmaz _ _ _ _ _ _ => true
  | .drain _ _ _ _ _ _ => true
  | .tquant _ _ _ _ _ _ => true
  | .patld _ _ _ _ => true
  | .patgen _ _ _ _ _ _ => true
  | .patx _ _ _ _ _ _ => true
  | .patpart _ _ _ _ _ _ => true
  | .patptr _ _ _ _ _ _ _ => true
  | .patsave _ _ _ _ => true
  | .patrest _ _ _ _ => true
  | .launch _ _ _ => true
  | .grow _ => true
  | .shrink _ => true
  | .trap _ => true
  | .srd _ _ => true
  | .swr _ _ => true
  | .tlbinv _ _ => true
  | .tlbw _ _ => true
  | .ptld _ _ => true
  | .bra _ => true
  | .brcTrue _ _ => true
  | .brcFalse _ _ => true
  | .call _ _ => true
  | .brx _ => true
  | .callx _ _ => true
  | .flitTransmission _ _ => false
  | .penwynPortDown _ => false
  | .coldReset => false
  | .bootStepComplete => false
  | .powerLimitEval => false
  | .powerLimitSecondStage => false
  | .create => false
  | .destroy => false
  | .readreg => false
  | .writereg => false
  | .loadkey => false
  | .setpower => false
  | .attest => false
  | .pagedone => false
  | .setevent => false
  | .drainend => false
  | .commitsvn => false
  | .resetdie => false
  | .settorus => false
  | .errorRecordMessage => false
  | .joinQuarantineEnd => false
  | .drainMessage => false
  | .drainReport => false
  | .halt => true
  | .ret => true
  | .nxt => true
  | .exit => true
  | .eret => true
  | .yield => true
  | .invalidationAcknowledgement => false
  | .eventRingConsumerIndex => false
  | .illegalInstr => false

/-- R352: the instructions that end a block. -/
def Instr.isTerminator : Instr → Bool
  | .bra _ => true
  | .brcTrue _ _ => true
  | .brcFalse _ _ => true
  | .call _ _ => true
  | .brx _ => true
  | .callx _ _ => true
  | .ret => true
  | .nxt => true
  | .exit => true
  | .eret => true
  | .yield => true
  | _ => false

end Sys2Proof
end

