-- ==== Sys2Proof/Decode.lean ====
section
/-!
DEFINITION. The encoding of R307 to R319: the codes of the shared fields, the hint word, the decoder of one instruction
word under its hint, of a unit (hint and instruction), of bytes, and of the opcode table's word numbers; and, after it,
the encoder, written from the same tables.
-/

namespace Sys2Proof

/-- The field of `len` bits of a word from bit `lo` up (R308). -/
def fld (w : Word) (lo len : Nat) : BitVec len := w.extractLsb' lo len
/-- A field placed at bit `lo` of a word. -/
def pl {n : Nat} (x : BitVec n) (lo : Nat) : Word := x.setWidth 32 <<< lo
/-- A one-bit field. -/
def flag (b : Bool) : BitVec 1 := if b then 1#1 else 0#1

/-- The codes of RM2 (R309). -/
def Rm.bits : Rm → BitVec 2
  | .rne => 0#2
  | .rtz => 1#2
  | .rup => 2#2
  | .rdn => 3#2
/-- The value of a code of RM2 (R309); a code not listed is reserved. -/
def Rm.ofBits (x : BitVec 2) : Option Rm :=
  if x = 0#2 then some .rne
  else if x = 1#2 then some .rtz
  else if x = 2#2 then some .rup
  else if x = 3#2 then some .rdn
  else none

/-- The codes of RM3 (R309). -/
def Rm3.bits : Rm3 → BitVec 3
  | .rne => 0#3
  | .rtz => 1#3
  | .rup => 2#3
  | .rdn => 3#3
  | .sr => 4#3
/-- The value of a code of RM3 (R309); a code not listed is reserved. -/
def Rm3.ofBits (x : BitVec 3) : Option Rm3 :=
  if x = 0#3 then some .rne
  else if x = 1#3 then some .rtz
  else if x = 2#3 then some .rup
  else if x = 3#3 then some .rdn
  else if x = 4#3 then some .sr
  else none

/-- The codes of element formats (R258). -/
def Fmt.bits : Fmt → BitVec 4
  | .fp32 => 0#4
  | .bf16 => 1#4
  | .fp16 => 2#4
  | .e5m2 => 3#4
  | .e4m3 => 4#4
  | .e3m2 => 5#4
  | .e2m3 => 6#4
  | .e2m1 => 7#4
  | .t8 => 8#4
  | .t6 => 9#4
  | .fp64 => 10#4
/-- The value of a code of element formats (R258); a code not listed is reserved. -/
def Fmt.ofBits (x : BitVec 4) : Option Fmt :=
  if x = 0#4 then some .fp32
  else if x = 1#4 then some .bf16
  else if x = 2#4 then some .fp16
  else if x = 3#4 then some .e5m2
  else if x = 4#4 then some .e4m3
  else if x = 5#4 then some .e3m2
  else if x = 6#4 then some .e2m3
  else if x = 7#4 then some .e2m1
  else if x = 8#4 then some .t8
  else if x = 9#4 then some .t6
  else if x = 10#4 then some .fp64
  else none

/-- The codes of scale codes (R258). -/
def Scale.bits : Scale → BitVec 2
  | .none => 0#2
  | .e8m0 => 1#2
  | .ue4m3 => 2#2
/-- The value of a code of scale codes (R258); a code not listed is reserved. -/
def Scale.ofBits (x : BitVec 2) : Option Scale :=
  if x = 0#2 then some .none
  else if x = 1#2 then some .e8m0
  else if x = 2#2 then some .ue4m3
  else Option.none

/-- The codes of CMP (R309). -/
def Cmp.bits : Cmp → BitVec 3
  | .eq => 0#3
  | .ne => 1#3
  | .lt => 2#3
  | .le => 3#3
  | .gt => 4#3
  | .ge => 5#3
/-- The value of a code of CMP (R309); a code not listed is reserved. -/
def Cmp.ofBits (x : BitVec 3) : Option Cmp :=
  if x = 0#3 then some .eq
  else if x = 1#3 then some .ne
  else if x = 2#3 then some .lt
  else if x = 3#3 then some .le
  else if x = 4#3 then some .gt
  else if x = 5#3 then some .ge
  else none

/-- The codes of TY (R309). -/
def CmpTy.bits : CmpTy → BitVec 2
  | .signed => 0#2
  | .unsigned => 1#2
  | .fp32 => 2#2
/-- The value of a code of TY (R309); a code not listed is reserved. -/
def CmpTy.ofBits (x : BitVec 2) : Option CmpTy :=
  if x = 0#2 then some .signed
  else if x = 1#2 then some .unsigned
  else if x = 2#2 then some .fp32
  else none

/-- The codes of COMB (R309). -/
def Comb.bits : Comb → BitVec 2
  | .set => 0#2
  | .and => 1#2
  | .or => 2#2
  | .xor => 3#2
/-- The value of a code of COMB (R309); a code not listed is reserved. -/
def Comb.ofBits (x : BitVec 2) : Option Comb :=
  if x = 0#2 then some .set
  else if x = 1#2 then some .and
  else if x = 2#2 then some .or
  else if x = 3#2 then some .xor
  else none

/-- The codes of fn[1:0] of peek (R317). -/
def PeekMode.bits : PeekMode → BitVec 2
  | .at => 0#2
  | .back => 1#2
  | .fwd => 2#2
  | .flip => 3#2
/-- The value of a code of fn[1:0] of peek (R317); a code not listed is reserved. -/
def PeekMode.ofBits (x : BitVec 2) : Option PeekMode :=
  if x = 0#2 then some .at
  else if x = 1#2 then some .back
  else if x = 2#2 then some .fwd
  else if x = 3#2 then some .flip
  else none

/-- The codes of XOP (R318). -/
def Xop.bits : Xop → BitVec 4
  | .add => 0#4
  | .min => 1#4
  | .max => 2#4
  | .minu => 3#4
  | .maxu => 4#4
  | .and => 5#4
  | .or => 6#4
  | .xor => 7#4
  | .fadd => 8#4
/-- The value of a code of XOP (R318); a code not listed is reserved. -/
def Xop.ofBits (x : BitVec 4) : Option Xop :=
  if x = 0#4 then some .add
  else if x = 1#4 then some .min
  else if x = 2#4 then some .max
  else if x = 3#4 then some .minu
  else if x = 4#4 then some .maxu
  else if x = 5#4 then some .and
  else if x = 6#4 then some .or
  else if x = 7#4 then some .xor
  else if x = 8#4 then some .fadd
  else none

/-- The codes of OP of majors 0x26 and 0x2E (R318). -/
def AtomOp.bits : AtomOp → BitVec 4
  | .add => 0#4
  | .min => 1#4
  | .max => 2#4
  | .minu => 3#4
  | .maxu => 4#4
  | .and => 5#4
  | .or => 6#4
  | .xor => 7#4
  | .xchg => 8#4
  | .fadd => 9#4
  | .dadd => 10#4
  | .dmin => 11#4
  | .dmax => 12#4
  | .dor => 13#4
  | .dxchg => 14#4
  | .ld => 15#4
/-- The value of a code of OP of majors 0x26 and 0x2E (R318); a code not listed is reserved. -/
def AtomOp.ofBits (x : BitVec 4) : Option AtomOp :=
  if x = 0#4 then some .add
  else if x = 1#4 then some .min
  else if x = 2#4 then some .max
  else if x = 3#4 then some .minu
  else if x = 4#4 then some .maxu
  else if x = 5#4 then some .and
  else if x = 6#4 then some .or
  else if x = 7#4 then some .xor
  else if x = 8#4 then some .xchg
  else if x = 9#4 then some .fadd
  else if x = 10#4 then some .dadd
  else if x = 11#4 then some .dmin
  else if x = 12#4 then some .dmax
  else if x = 13#4 then some .dor
  else if x = 14#4 then some .dxchg
  else if x = 15#4 then some .ld
  else none

/-- The codes of ORD of formats A and H (R309). -/
def Ord4.bits : Ord4 → BitVec 2
  | .none => 0#2
  | .acq => 1#2
  | .rel => 2#2
  | .acqrel => 3#2
/-- The value of a code of ORD of formats A and H (R309); a code not listed is reserved. -/
def Ord4.ofBits (x : BitVec 2) : Option Ord4 :=
  if x = 0#2 then some .none
  else if x = 1#2 then some .acq
  else if x = 2#2 then some .rel
  else if x = 3#2 then some .acqrel
  else Option.none

/-- The codes of SCOPE (R237). -/
def Scope.bits : Scope → BitVec 2
  | .wg => 0#2
  | .cl => 1#2
  | .die => 2#2
  | .sys => 3#2
/-- The value of a code of SCOPE (R237); a code not listed is reserved. -/
def Scope.ofBits (x : BitVec 2) : Option Scope :=
  if x = 0#2 then some .wg
  else if x = 1#2 then some .cl
  else if x = 2#2 then some .die
  else if x = 3#2 then some .sys
  else none

/-- The codes of SZ (R309). -/
def Size.bits : Size → BitVec 3
  | .b8 => 0#3
  | .b16 => 1#3
  | .b32 => 2#3
  | .b64 => 3#3
  | .b128 => 4#3
/-- The value of a code of SZ (R309); a code not listed is reserved. -/
def Size.ofBits (x : BitVec 3) : Option Size :=
  if x = 0#3 then some .b8
  else if x = 1#3 then some .b16
  else if x = 2#3 then some .b32
  else if x = 3#3 then some .b64
  else if x = 4#3 then some .b128
  else none

/-- The codes of ESZ (R383). -/
def Esz.bits : Esz → BitVec 2
  | .e4 => 0#2
  | .e8 => 1#2
  | .e16 => 2#2
/-- The value of a code of ESZ (R383); a code not listed is reserved. -/
def Esz.ofBits (x : BitVec 2) : Option Esz :=
  if x = 0#2 then some .e4
  else if x = 1#2 then some .e8
  else if x = 2#2 then some .e16
  else none

/-- The codes of DIR of copy (R381). -/
def Dir.bits : Dir → BitVec 2
  | .ms => 0#2
  | .sm => 1#2
  | .mm => 2#2
  | .ss => 3#2
/-- The value of a code of DIR of copy (R381); a code not listed is reserved. -/
def Dir.ofBits (x : BitVec 2) : Option Dir :=
  if x = 0#2 then some .ms
  else if x = 1#2 then some .sm
  else if x = 2#2 then some .mm
  else if x = 3#2 then some .ss
  else none

/-- The codes of TYPE of radd (R392). -/
def AddTy.bits : AddTy → BitVec 4
  | .i32 => 0#4
  | .i64 => 2#4
  | .full => 5#4
  | .win => 6#4
/-- The value of a code of TYPE of radd (R392); a code not listed is reserved. -/
def AddTy.ofBits (x : BitVec 4) : Option AddTy :=
  if x = 0#4 then some .i32
  else if x = 2#4 then some .i64
  else if x = 5#4 then some .full
  else if x = 6#4 then some .win
  else none

/-- The codes of TYPE of rmin and rmax (R392). -/
def MinTy.bits : MinTy → BitVec 4
  | .i32 => 0#4
  | .n32 => 1#4
  | .i64 => 2#4
  | .n64 => 3#4
  | .f32 => 4#4
/-- The value of a code of TYPE of rmin and rmax (R392); a code not listed is reserved. -/
def MinTy.ofBits (x : BitVec 4) : Option MinTy :=
  if x = 0#4 then some .i32
  else if x = 1#4 then some .n32
  else if x = 2#4 then some .i64
  else if x = 3#4 then some .n64
  else if x = 4#4 then some .f32
  else none

/-- The codes of special-register codes (R418). -/
def SReg.bits : SReg → BitVec 12
  | .tid => 1#12
  | .wgid => 2#12
  | .wgdim => 3#12
  | .griddim => 4#12
  | .core => 5#12
  | .cluster => 6#12
  | .die => 7#12
  | .package => 8#12
  | .ctx => 9#12
  | .cycle => 10#12
  | .retired => 11#12
  | .status => 12#12
  | .srseed => 13#12
  | .trapcause => 14#12
  | .trapaddr => 15#12
  | .errq => 16#12
  | .walkinfo => 128#12
  | .walkva => 129#12
  | .walkroot => 130#12
/-- The value of a code of special-register codes (R418); a code not listed is reserved. -/
def SReg.ofBits (x : BitVec 12) : Option SReg :=
  if x = 1#12 then some .tid
  else if x = 2#12 then some .wgid
  else if x = 3#12 then some .wgdim
  else if x = 4#12 then some .griddim
  else if x = 5#12 then some .core
  else if x = 6#12 then some .cluster
  else if x = 7#12 then some .die
  else if x = 8#12 then some .package
  else if x = 9#12 then some .ctx
  else if x = 10#12 then some .cycle
  else if x = 11#12 then some .retired
  else if x = 12#12 then some .status
  else if x = 13#12 then some .srseed
  else if x = 14#12 then some .trapcause
  else if x = 15#12 then some .trapaddr
  else if x = 16#12 then some .errq
  else if x = 128#12 then some .walkinfo
  else if x = 129#12 then some .walkva
  else if x = 130#12 then some .walkroot
  else none

/-- The codes of K of a shape code (R286). -/
def ShapeK.bits : ShapeK → BitVec 2
  | .k64 => 0#2
  | .k128 => 1#2
  | .k256 => 2#2
/-- The value of a code of K of a shape code (R286); a code not listed is reserved. -/
def ShapeK.ofBits (x : BitVec 2) : Option ShapeK :=
  if x = 0#2 then some .k64
  else if x = 1#2 then some .k128
  else if x = 2#2 then some .k256
  else none

/-- R286: SHAPE[3:2] is K, [1] is N = 128 and [0] is M = 128. -/
def Shape.bits (s : Shape) : BitVec 4 :=
  s.k.bits ++ flag s.n128 ++ flag s.m128
/-- R286: a SHAPE whose K bits are 3 is illegal. -/
def Shape.ofBits (x : BitVec 4) : Option Shape :=
  (ShapeK.ofBits (x.extractLsb' 2 2)).bind fun k =>
    some { k := k, n128 := x.extractLsb' 1 1 == 1#1, m128 := x.extractLsb' 0 1 == 1#1 }

/-- The hint in front of an instruction (R310): none, or one of the three kinds with its payload fields. -/
inductive Hint where
  | none
  | imm (hi : BitVec 18)
  | mod (stream : BitVec 8) (av : Bool) (arr : Reg) (nw : BitVec 4) (ord scope : BitVec 2)
  | desc (da db : BitVec 8) (ta tb : Bool) (arr : Reg)
deriving DecidableEq, Repr

/-- R310: the payload of a hint word; KIND 3 and a reserved payload bit are refused. -/
def decodeHint (w : Word) : Option Hint :=
  if fld w 24 2 = 0#2 then
    (if fld w 18 6 = 0#6 then some (.imm (fld w 0 18)) else none)
  else if fld w 24 2 = 1#2 then
    (if fld w 4 1 = 0#1 then
      some (.mod (fld w 16 8) (fld w 15 1 == 1#1) (fld w 9 6) (fld w 5 4) (fld w 2 2) (fld w 0 2)) else none)
  else if fld w 24 2 = 2#2 then
    some (.desc (fld w 16 8) (fld w 8 8) (fld w 7 1 == 1#1) (fld w 6 1 == 1#1) (fld w 0 6))
  else none

/-- R310: the hint word of a hint. -/
def encodeHint : Hint → Word
  | .none => 0#32
  | .imm hi => pl 62#6 26 ||| pl hi 0
  | .mod stream av arr nw ord scope =>
      pl 62#6 26 ||| pl 1#2 24 ||| pl stream 16 ||| pl (flag av) 15 ||| pl arr 9 ||| pl nw 5 ||| pl ord 2 ||| pl scope 0
  | .desc da db ta tb arr =>
      pl 62#6 26 ||| pl 2#2 24 ||| pl da 16 ||| pl db 8 ||| pl (flag ta) 7 ||| pl (flag tb) 6 ||| pl arr 0

/-- R311: the IMM hint of majors 0x07 to 0x0F. -/
def immHint : Option (BitVec 18) → Hint
  | some hi => .imm hi
  | none => .none
/-- R311: what the IMM hint gives majors 0x07 to 0x0F. -/
def immHintOf : Hint → Option (Option (BitVec 18))
  | .none => some none
  | .imm hi => some (some hi)
  | .mod _ _ _ _ _ _ => none
  | .desc _ _ _ _ _ => none
/-- R338: an IMM hint before a shift carries IMMHI = 0. -/
def imm0Hint (hinted : Bool) : Hint := if hinted then .imm 0#18 else .none
/-- R338: whether an acceptable IMM hint stands before a shift. -/
def imm0HintOf : Hint → Option Bool
  | .none => some false
  | .imm hi => if hi = 0#18 then some true else none
  | .mod _ _ _ _ _ _ => none
  | .desc _ _ _ _ _ => none
/-- R311: the MOD hint of cvtn and cvtnp, which uses STREAM only. -/
def streamHint : Option (BitVec 8) → Hint
  | some st => .mod st false 0#6 0#4 0#2 0#2
  | none => .none
/-- R311: the stream of cvtn and cvtnp. -/
def streamHintOf : Hint → Option (Option (BitVec 8))
  | .none => some none
  | .mod st av arr nw ord scope =>
      if av = false ∧ arr = 0#6 ∧ nw = 0#4 ∧ ord = 0#2 ∧ scope = 0#2 then some (some st) else none
  | .imm _ => none
  | .desc _ _ _ _ _ => none
/-- R311: the MOD hint of copy with BA = 1, which uses ARR only. -/
def arrOnlyHint : Option Reg → Hint
  | some r => .mod 0#8 false r 0#4 0#2 0#2
  | none => .none
/-- R311: the barrier register of copy. -/
def arrOnlyHintOf : Hint → Option (Option Reg)
  | .none => some none
  | .mod st av arr nw ord scope =>
      if st = 0#8 ∧ av = false ∧ nw = 0#4 ∧ ord = 0#2 ∧ scope = 0#2 then some (some arr) else none
  | .imm _ => none
  | .desc _ _ _ _ _ => none
/-- R371: the MOD hint of ld: ORD 0 or acquire. -/
def lsHintLd : Option LsHint → Hint
  | some h => .mod 0#8 false 0#6 0#4 (if h.ordered then 1#2 else 0#2) h.scope.bits
  | none => .none
/-- R371: the MOD hint of st: ORD 0 or release. -/
def lsHintSt : Option LsHint → Hint
  | some h => .mod 0#8 false 0#6 0#4 (if h.ordered then 2#2 else 0#2) h.scope.bits
  | none => .none
/-- R371: order and scope of ld, from ORD and SCOPE of the hint. -/
def lsHintLdOf : Hint → Option (Option LsHint)
  | .none => some none
  | .mod st av arr nw ord scope =>
      if st = 0#8 ∧ av = false ∧ arr = 0#6 ∧ nw = 0#4 ∧ (ord = 0#2 ∨ ord = 1#2) then
        (Scope.ofBits scope).bind fun sc => some (some { ordered := ord == 1#2, scope := sc })
      else none
  | .imm _ => none
  | .desc _ _ _ _ _ => none
/-- R371: order and scope of st, from ORD and SCOPE of the hint. -/
def lsHintStOf : Hint → Option (Option LsHint)
  | .none => some none
  | .mod st av arr nw ord scope =>
      if st = 0#8 ∧ av = false ∧ arr = 0#6 ∧ nw = 0#4 ∧ (ord = 0#2 ∨ ord = 2#2) then
        (Scope.ofBits scope).bind fun sc => some (some { ordered := ord == 2#2, scope := sc })
      else none
  | .imm _ => none
  | .desc _ _ _ _ _ => none
/-- R311: the MOD hint of remote updates, invoke and invokeh. -/
def arrHint : Option ArrHint → Hint
  | some h => .mod 0#8 h.av h.arr h.nw 0#2 0#2
  | none => .none
/-- R311: AV, ARR and NW of a remote update, invoke or invokeh. -/
def arrHintOf : Hint → Option (Option ArrHint)
  | .none => some none
  | .mod st av arr nw ord scope =>
      if st = 0#8 ∧ ord = 0#2 ∧ scope = 0#2 then some (some { av := av, arr := arr, nw := nw }) else none
  | .imm _ => none
  | .desc _ _ _ _ _ => none
/-- R311: the DESC hint of mma and mmaz, whose ARR is 0. -/
def descHint : Option DescHint → Hint
  | some h => .desc h.da h.db h.ta h.tb 0#6
  | none => .none
/-- R311: DA, DB, TA and TB of mma and mmaz. -/
def descHintOf : Hint → Option (Option DescHint)
  | .none => some none
  | .desc da db ta tb arr =>
      if arr = 0#6 then some (some { da := da, db := db, ta := ta, tb := tb }) else none
  | .imm _ => none
  | .mod _ _ _ _ _ _ => none
/-- R311, R382: the DESC hint of copyt, whose TA and TB are 0. -/
def tileHint : Option TileHint → Hint
  | some h => .desc h.da h.db false false h.arr
  | none => .none
/-- R311, R382: DA, DB and ARR of copyt. -/
def tileHintOf : Hint → Option (Option TileHint)
  | .none => some none
  | .desc da db ta tb arr =>
      if ta = false ∧ tb = false then some (some { da := da, db := db, arr := arr }) else none
  | .imm _ => none
  | .mod _ _ _ _ _ _ => none

/-- Major 0x01 of R317: add, sub, mul, mulhi, mulhiu, div, divu, rem, remu, min, max, minu, maxu, abs, neg. -/
def decodeMajor01 (h : Hint) (w : Word) : Option Instr :=
  let k := fld w 0 8
  if k = 0#8 then (if h = Hint.none then some (.add (fld w 20 6) (fld w 14 6) (fld w 8 6)) else none)
  else if k = 1#8 then (if h = Hint.none then some (.sub (fld w 20 6) (fld w 14 6) (fld w 8 6)) else none)
  else if k = 2#8 then (if h = Hint.none then some (.mul (fld w 20 6) (fld w 14 6) (fld w 8 6)) else none)
  else if k = 3#8 then (if h = Hint.none then some (.mulhi (fld w 20 6) (fld w 14 6) (fld w 8 6)) else none)
  else if k = 4#8 then (if h = Hint.none then some (.mulhiu (fld w 20 6) (fld w 14 6) (fld w 8 6)) else none)
  else if k = 5#8 then (if h = Hint.none then some (.div (fld w 20 6) (fld w 14 6) (fld w 8 6)) else none)
  else if k = 6#8 then (if h = Hint.none then some (.divu (fld w 20 6) (fld w 14 6) (fld w 8 6)) else none)
  else if k = 7#8 then (if h = Hint.none then some (.rem (fld w 20 6) (fld w 14 6) (fld w 8 6)) else none)
  else if k = 8#8 then (if h = Hint.none then some (.remu (fld w 20 6) (fld w 14 6) (fld w 8 6)) else none)
  else if k = 9#8 then (if h = Hint.none then some (.min (fld w 20 6) (fld w 14 6) (fld w 8 6)) else none)
  else if k = 10#8 then (if h = Hint.none then some (.max (fld w 20 6) (fld w 14 6) (fld w 8 6)) else none)
  else if k = 11#8 then (if h = Hint.none then some (.minu (fld w 20 6) (fld w 14 6) (fld w 8 6)) else none)
  else if k = 12#8 then (if h = Hint.none then some (.maxu (fld w 20 6) (fld w 14 6) (fld w 8 6)) else none)
  else if k = 13#8 then (if fld w 8 6 = 0#6 ∧ h = Hint.none then some (.abs (fld w 20 6) (fld w 14 6)) else none)
  else if k = 14#8 then (if fld w 8 6 = 0#6 ∧ h = Hint.none then some (.neg (fld w 20 6) (fld w 14 6)) else none)
  else none

/-- Major 0x02 of R317: and, or, xor, andn, not, shl, shr, sar, rotl, rotr, clz, popc, brev. -/
def decodeMajor02 (h : Hint) (w : Word) : Option Instr :=
  let k := fld w 0 8
  if k = 0#8 then (if h = Hint.none then some (.and_ (fld w 20 6) (fld w 14 6) (fld w 8 6)) else none)
  else if k = 1#8 then (if h = Hint.none then some (.or_ (fld w 20 6) (fld w 14 6) (fld w 8 6)) else none)
  else if k = 2#8 then (if h = Hint.none then some (.xor (fld w 20 6) (fld w 14 6) (fld w 8 6)) else none)
  else if k = 3#8 then (if h = Hint.none then some (.andn (fld w 20 6) (fld w 14 6) (fld w 8 6)) else none)
  else if k = 4#8 then (if fld w 8 6 = 0#6 ∧ h = Hint.none then some (.not_ (fld w 20 6) (fld w 14 6)) else none)
  else if k = 5#8 then (if h = Hint.none then some (.shl (fld w 20 6) (fld w 14 6) (fld w 8 6)) else none)
  else if k = 6#8 then (if h = Hint.none then some (.shr (fld w 20 6) (fld w 14 6) (fld w 8 6)) else none)
  else if k = 7#8 then (if h = Hint.none then some (.sar (fld w 20 6) (fld w 14 6) (fld w 8 6)) else none)
  else if k = 8#8 then (if h = Hint.none then some (.rotl (fld w 20 6) (fld w 14 6) (fld w 8 6)) else none)
  else if k = 9#8 then (if h = Hint.none then some (.rotr (fld w 20 6) (fld w 14 6) (fld w 8 6)) else none)
  else if k = 10#8 then (if fld w 8 6 = 0#6 ∧ h = Hint.none then some (.clz (fld w 20 6) (fld w 14 6)) else none)
  else if k = 11#8 then (if fld w 8 6 = 0#6 ∧ h = Hint.none then some (.popc (fld w 20 6) (fld w 14 6)) else none)
  else if k = 12#8 then (if fld w 8 6 = 0#6 ∧ h = Hint.none then some (.brev (fld w 20 6) (fld w 14 6)) else none)
  else none

/-- Major 0x03 of R317: mad. -/
def decodeMajor03 (h : Hint) (w : Word) : Option Instr :=
  let k := fld w 0 8
  if k = 0#8 then (if h = Hint.none then some (.mad (fld w 20 6) (fld w 14 6) (fld w 8 6)) else none)
  else none

/-- Major 0x04 of R317: bfe, bfe.s, bfi. -/
def decodeMajor04 (h : Hint) (w : Word) : Option Instr :=
  let k := fld w 6 2
  if k = 0#2 then (if fld w 5 1 = 0#1 ∧ h = Hint.none then some (.bfe (fld w 20 6) (fld w 14 6) (fld w 8 6) (fld w 0 5)) else none)
  else if k = 2#2 then (if fld w 5 1 = 0#1 ∧ h = Hint.none then some (.bfeS (fld w 20 6) (fld w 14 6) (fld w 8 6) (fld w 0 5)) else none)
  else if k = 1#2 then (if fld w 5 1 = 0#1 ∧ h = Hint.none then some (.bfi (fld w 20 6) (fld w 14 6) (fld w 8 6) (fld w 0 5)) else none)
  else none

/-- Major 0x05 of R317: dadd, dsub, dmul, dshl, dshr, dsar, mulw, mulwu, dmin, dmax, dminu, dmaxu. -/
def decodeMajor05 (h : Hint) (w : Word) : Option Instr :=
  let k := fld w 0 8
  if k = 0#8 then (if h = Hint.none then some (.dadd (fld w 20 6) (fld w 14 6) (fld w 8 6)) else none)
  else if k = 1#8 then (if h = Hint.none then some (.dsub (fld w 20 6) (fld w 14 6) (fld w 8 6)) else none)
  else if k = 2#8 then (if h = Hint.none then some (.dmul (fld w 20 6) (fld w 14 6) (fld w 8 6)) else none)
  else if k = 3#8 then (if h = Hint.none then some (.dshl (fld w 20 6) (fld w 14 6) (fld w 8 6)) else none)
  else if k = 4#8 then (if h = Hint.none then some (.dshr (fld w 20 6) (fld w 14 6) (fld w 8 6)) else none)
  else if k = 5#8 then (if h = Hint.none then some (.dsar (fld w 20 6) (fld w 14 6) (fld w 8 6)) else none)
  else if k = 6#8 then (if h = Hint.none then some (.mulw (fld w 20 6) (fld w 14 6) (fld w 8 6)) else none)
  else if k = 7#8 then (if h = Hint.none then some (.mulwu (fld w 20 6) (fld w 14 6) (fld w 8 6)) else none)
  else if k = 8#8 then (if h = Hint.none then some (.dmin (fld w 20 6) (fld w 14 6) (fld w 8 6)) else none)
  else if k = 9#8 then (if h = Hint.none then some (.dmax (fld w 20 6) (fld w 14 6) (fld w 8 6)) else none)
  else if k = 10#8 then (if h = Hint.none then some (.dminu (fld w 20 6) (fld w 14 6) (fld w 8 6)) else none)
  else if k = 11#8 then (if h = Hint.none then some (.dmaxu (fld w 20 6) (fld w 14 6) (fld w 8 6)) else none)
  else none

/-- Major 0x06 of R317: mov, movx, movxw, dmov. -/
def decodeMajor06 (h : Hint) (w : Word) : Option Instr :=
  let k := fld w 0 8
  if k = 0#8 then (if fld w 8 6 = 0#6 ∧ h = Hint.none then some (.mov (fld w 20 6) (fld w 14 6)) else none)
  else if k = 1#8 then (if fld w 8 6 = 0#6 ∧ h = Hint.none then some (.movx (fld w 20 6) (fld w 14 6)) else none)
  else if k = 2#8 then (if fld w 8 6 = 0#6 ∧ h = Hint.none then some (.movxw (fld w 20 6) (fld w 14 6)) else none)
  else if k = 3#8 then (if fld w 8 6 = 0#6 ∧ h = Hint.none then some (.dmov (fld w 20 6) (fld w 14 6)) else none)
  else none

/-- Major 0x07 of R317: addi. -/
def decodeMajor07 (h : Hint) (w : Word) : Option Instr :=
  (immHintOf h).bind fun hv => some (.addi (fld w 20 6) (fld w 14 6) (fld w 0 14) hv)

/-- Major 0x08 of R317: andi. -/
def decodeMajor08 (h : Hint) (w : Word) : Option Instr :=
  (immHintOf h).bind fun hv => some (.andi (fld w 20 6) (fld w 14 6) (fld w 0 14) hv)

/-- Major 0x09 of R317: ori. -/
def decodeMajor09 (h : Hint) (w : Word) : Option Instr :=
  (immHintOf h).bind fun hv => some (.ori (fld w 20 6) (fld w 14 6) (fld w 0 14) hv)

/-- Major 0x0A of R317: xori. -/
def decodeMajor0A (h : Hint) (w : Word) : Option Instr :=
  (immHintOf h).bind fun hv => some (.xori (fld w 20 6) (fld w 14 6) (fld w 0 14) hv)

/-- Major 0x0B of R317: shli. -/
def decodeMajor0B (h : Hint) (w : Word) : Option Instr :=
  if fld w 5 3 = 0#3 ∧ fld w 8 6 = 0#6 then (imm0HintOf h).bind fun hv => some (.shli (fld w 20 6) (fld w 14 6) (fld w 0 5) hv) else none

/-- Major 0x0C of R317: shri. -/
def decodeMajor0C (h : Hint) (w : Word) : Option Instr :=
  if fld w 5 3 = 0#3 ∧ fld w 8 6 = 0#6 then (imm0HintOf h).bind fun hv => some (.shri (fld w 20 6) (fld w 14 6) (fld w 0 5) hv) else none

/-- Major 0x0D of R317: sari. -/
def decodeMajor0D (h : Hint) (w : Word) : Option Instr :=
  if fld w 5 3 = 0#3 ∧ fld w 8 6 = 0#6 then (imm0HintOf h).bind fun hv => some (.sari (fld w 20 6) (fld w 14 6) (fld w 0 5) hv) else none

/-- Major 0x0E of R317: movi. -/
def decodeMajor0E (h : Hint) (w : Word) : Option Instr :=
  if fld w 14 6 = 0#6 then (immHintOf h).bind fun hv => some (.movi (fld w 20 6) (fld w 0 14) hv) else none

/-- Major 0x0F of R317: muli. -/
def decodeMajor0F (h : Hint) (w : Word) : Option Instr :=
  (immHintOf h).bind fun hv => some (.muli (fld w 20 6) (fld w 14 6) (fld w 0 14) hv)

/-- Major 0x10 of R317: fadd, fsub, fmul, fdiv, fmin, fmax, fabs, fneg, fsqrt. -/
def decodeMajor10 (h : Hint) (w : Word) : Option Instr :=
  let k := fld w 0 6
  if k = 0#6 then (if h = Hint.none then (Rm.ofBits (fld w 6 2)).bind fun rmv => some (.fadd (fld w 20 6) (fld w 14 6) (fld w 8 6) rmv) else none)
  else if k = 1#6 then (if h = Hint.none then (Rm.ofBits (fld w 6 2)).bind fun rmv => some (.fsub (fld w 20 6) (fld w 14 6) (fld w 8 6) rmv) else none)
  else if k = 2#6 then (if h = Hint.none then (Rm.ofBits (fld w 6 2)).bind fun rmv => some (.fmul (fld w 20 6) (fld w 14 6) (fld w 8 6) rmv) else none)
  else if k = 3#6 then (if h = Hint.none then (Rm.ofBits (fld w 6 2)).bind fun rmv => some (.fdiv (fld w 20 6) (fld w 14 6) (fld w 8 6) rmv) else none)
  else if k = 4#6 then (if fld w 6 2 = 0#2 ∧ h = Hint.none then some (.fmin (fld w 20 6) (fld w 14 6) (fld w 8 6)) else none)
  else if k = 5#6 then (if fld w 6 2 = 0#2 ∧ h = Hint.none then some (.fmax (fld w 20 6) (fld w 14 6) (fld w 8 6)) else none)
  else if k = 6#6 then (if fld w 6 2 = 0#2 ∧ fld w 8 6 = 0#6 ∧ h = Hint.none then some (.fabs (fld w 20 6) (fld w 14 6)) else none)
  else if k = 7#6 then (if fld w 6 2 = 0#2 ∧ fld w 8 6 = 0#6 ∧ h = Hint.none then some (.fneg (fld w 20 6) (fld w 14 6)) else none)
  else if k = 8#6 then (if fld w 8 6 = 0#6 ∧ h = Hint.none then (Rm.ofBits (fld w 6 2)).bind fun rmv => some (.fsqrt (fld w 20 6) (fld w 14 6) rmv) else none)
  else none

/-- Major 0x11 of R317: ffma, ffms, ffnma. -/
def decodeMajor11 (h : Hint) (w : Word) : Option Instr :=
  let k := fld w 0 6
  if k = 0#6 then (if h = Hint.none then (Rm.ofBits (fld w 6 2)).bind fun rmv => some (.ffma (fld w 20 6) (fld w 14 6) (fld w 8 6) rmv) else none)
  else if k = 1#6 then (if h = Hint.none then (Rm.ofBits (fld w 6 2)).bind fun rmv => some (.ffms (fld w 20 6) (fld w 14 6) (fld w 8 6) rmv) else none)
  else if k = 2#6 then (if h = Hint.none then (Rm.ofBits (fld w 6 2)).bind fun rmv => some (.ffnma (fld w 20 6) (fld w 14 6) (fld w 8 6) rmv) else none)
  else none

/-- Major 0x12 of R317: frcp, frsq, fexp2, flog2, ftanh. -/
def decodeMajor12 (h : Hint) (w : Word) : Option Instr :=
  let k := fld w 0 8
  if k = 0#8 then (if fld w 8 6 = 0#6 ∧ h = Hint.none then some (.frcp (fld w 20 6) (fld w 14 6)) else none)
  else if k = 1#8 then (if fld w 8 6 = 0#6 ∧ h = Hint.none then some (.frsq (fld w 20 6) (fld w 14 6)) else none)
  else if k = 2#8 then (if fld w 8 6 = 0#6 ∧ h = Hint.none then some (.fexp2 (fld w 20 6) (fld w 14 6)) else none)
  else if k = 3#8 then (if fld w 8 6 = 0#6 ∧ h = Hint.none then some (.flog2 (fld w 20 6) (fld w 14 6)) else none)
  else if k = 4#8 then (if fld w 8 6 = 0#6 ∧ h = Hint.none then some (.ftanh (fld w 20 6) (fld w 14 6)) else none)
  else none

/-- Major 0x13 of R317: badd, bsub, bmul, bfma, bmin, bmax. -/
def decodeMajor13 (h : Hint) (w : Word) : Option Instr :=
  let k := fld w 0 6
  if k = 0#6 then (if h = Hint.none then (Rm.ofBits (fld w 6 2)).bind fun rmv => some (.badd (fld w 20 6) (fld w 14 6) (fld w 8 6) rmv) else none)
  else if k = 1#6 then (if h = Hint.none then (Rm.ofBits (fld w 6 2)).bind fun rmv => some (.bsub (fld w 20 6) (fld w 14 6) (fld w 8 6) rmv) else none)
  else if k = 2#6 then (if h = Hint.none then (Rm.ofBits (fld w 6 2)).bind fun rmv => some (.bmul (fld w 20 6) (fld w 14 6) (fld w 8 6) rmv) else none)
  else if k = 3#6 then (if h = Hint.none then (Rm.ofBits (fld w 6 2)).bind fun rmv => some (.bfma (fld w 20 6) (fld w 14 6) (fld w 8 6) rmv) else none)
  else if k = 4#6 then (if fld w 6 2 = 0#2 ∧ h = Hint.none then some (.bmin (fld w 20 6) (fld w 14 6) (fld w 8 6)) else none)
  else if k = 5#6 then (if fld w 6 2 = 0#2 ∧ h = Hint.none then some (.bmax (fld w 20 6) (fld w 14 6) (fld w 8 6)) else none)
  else none

/-- Major 0x14 of R317: hadd, hsub, hmul, hfma, hmin, hmax. -/
def decodeMajor14 (h : Hint) (w : Word) : Option Instr :=
  let k := fld w 0 6
  if k = 0#6 then (if h = Hint.none then (Rm.ofBits (fld w 6 2)).bind fun rmv => some (.hadd (fld w 20 6) (fld w 14 6) (fld w 8 6) rmv) else none)
  else if k = 1#6 then (if h = Hint.none then (Rm.ofBits (fld w 6 2)).bind fun rmv => some (.hsub (fld w 20 6) (fld w 14 6) (fld w 8 6) rmv) else none)
  else if k = 2#6 then (if h = Hint.none then (Rm.ofBits (fld w 6 2)).bind fun rmv => some (.hmul (fld w 20 6) (fld w 14 6) (fld w 8 6) rmv) else none)
  else if k = 3#6 then (if h = Hint.none then (Rm.ofBits (fld w 6 2)).bind fun rmv => some (.hfma (fld w 20 6) (fld w 14 6) (fld w 8 6) rmv) else none)
  else if k = 4#6 then (if fld w 6 2 = 0#2 ∧ h = Hint.none then some (.hmin (fld w 20 6) (fld w 14 6) (fld w 8 6)) else none)
  else if k = 5#6 then (if fld w 6 2 = 0#2 ∧ h = Hint.none then some (.hmax (fld w 20 6) (fld w 14 6) (fld w 8 6)) else none)
  else none

/-- Major 0x18 of R317: f2i, f2u, i2f, u2f, frint, f2bf, f2h, bf2f, h2f. -/
def decodeMajor18 (h : Hint) (w : Word) : Option Instr :=
  let k := fld w 0 6
  if k = 0#6 then (if fld w 8 6 = 0#6 ∧ h = Hint.none then (Rm.ofBits (fld w 6 2)).bind fun rmv => some (.f2i (fld w 20 6) (fld w 14 6) rmv) else none)
  else if k = 1#6 then (if fld w 8 6 = 0#6 ∧ h = Hint.none then (Rm.ofBits (fld w 6 2)).bind fun rmv => some (.f2u (fld w 20 6) (fld w 14 6) rmv) else none)
  else if k = 2#6 then (if fld w 8 6 = 0#6 ∧ h = Hint.none then (Rm.ofBits (fld w 6 2)).bind fun rmv => some (.i2f (fld w 20 6) (fld w 14 6) rmv) else none)
  else if k = 3#6 then (if fld w 8 6 = 0#6 ∧ h = Hint.none then (Rm.ofBits (fld w 6 2)).bind fun rmv => some (.u2f (fld w 20 6) (fld w 14 6) rmv) else none)
  else if k = 4#6 then (if fld w 8 6 = 0#6 ∧ h = Hint.none then (Rm.ofBits (fld w 6 2)).bind fun rmv => some (.frint (fld w 20 6) (fld w 14 6) rmv) else none)
  else if k = 5#6 then (if fld w 8 6 = 0#6 ∧ h = Hint.none then (Rm.ofBits (fld w 6 2)).bind fun rmv => some (.f2bf (fld w 20 6) (fld w 14 6) rmv) else none)
  else if k = 6#6 then (if fld w 8 6 = 0#6 ∧ h = Hint.none then (Rm.ofBits (fld w 6 2)).bind fun rmv => some (.f2h (fld w 20 6) (fld w 14 6) rmv) else none)
  else if k = 7#6 then (if fld w 6 2 = 0#2 ∧ fld w 8 6 = 0#6 ∧ h = Hint.none then some (.bf2f (fld w 20 6) (fld w 14 6)) else none)
  else if k = 8#6 then (if fld w 6 2 = 0#2 ∧ fld w 8 6 = 0#6 ∧ h = Hint.none then some (.h2f (fld w 20 6) (fld w 14 6)) else none)
  else none

/-- Major 0x19 of R317: cvtn. -/
def decodeMajor19 (h : Hint) (w : Word) : Option Instr :=
  (Fmt.ofBits (fld w 4 4)).bind fun fmtv => (Rm3.ofBits (fld w 1 3)).bind fun rmv => (streamHintOf h).bind fun hv => some (.cvtn (fld w 20 6) (fld w 14 6) (fld w 8 6) fmtv rmv (fld w 0 1 == 1#1) hv)

/-- Major 0x1A of R317: cvtnp. -/
def decodeMajor1A (h : Hint) (w : Word) : Option Instr :=
  (Fmt.ofBits (fld w 4 4)).bind fun fmtv => (Rm3.ofBits (fld w 1 3)).bind fun rmv => (streamHintOf h).bind fun hv => some (.cvtnp (fld w 20 6) (fld w 14 6) (fld w 8 6) fmtv rmv (fld w 0 1 == 1#1) hv)

/-- Major 0x1B of R317: deq. -/
def decodeMajor1B (h : Hint) (w : Word) : Option Instr :=
  if fld w 0 2 = 0#2 ∧ h = Hint.none then (Fmt.ofBits (fld w 4 4)).bind fun fmtv => (Scale.ofBits (fld w 2 2)).bind fun scalev => some (.deq (fld w 20 6) (fld w 14 6) (fld w 8 6) fmtv scalev) else none

/-- Major 0x1C of R317: cmpp. -/
def decodeMajor1C (h : Hint) (w : Word) : Option Instr :=
  if fld w 0 1 = 0#1 ∧ h = Hint.none then (Cmp.ofBits (fld w 5 3)).bind fun cmpv => (CmpTy.ofBits (fld w 3 2)).bind fun tyv => (Comb.ofBits (fld w 1 2)).bind fun combv => some (.cmpp (fld w 23 3) (fld w 20 3) (fld w 14 6) (fld w 8 6) cmpv tyv combv) else none

/-- Major 0x1D of R317: pand, por, pxor, pnot, prd, pwr. -/
def decodeMajor1D (h : Hint) (w : Word) : Option Instr :=
  let k := fld w 0 8
  if k = 0#8 then (if fld w 11 3 = 0#3 ∧ fld w 17 3 = 0#3 ∧ fld w 23 3 = 0#3 ∧ h = Hint.none then some (.pand (fld w 20 3) (fld w 14 3) (fld w 8 3)) else none)
  else if k = 1#8 then (if fld w 11 3 = 0#3 ∧ fld w 17 3 = 0#3 ∧ fld w 23 3 = 0#3 ∧ h = Hint.none then some (.por (fld w 20 3) (fld w 14 3) (fld w 8 3)) else none)
  else if k = 2#8 then (if fld w 11 3 = 0#3 ∧ fld w 17 3 = 0#3 ∧ fld w 23 3 = 0#3 ∧ h = Hint.none then some (.pxor (fld w 20 3) (fld w 14 3) (fld w 8 3)) else none)
  else if k = 3#8 then (if fld w 8 6 = 0#6 ∧ fld w 17 3 = 0#3 ∧ fld w 23 3 = 0#3 ∧ h = Hint.none then some (.pnot (fld w 20 3) (fld w 14 3)) else none)
  else if k = 4#8 then (if fld w 8 6 = 0#6 ∧ fld w 14 6 = 0#6 ∧ h = Hint.none then some (.prd (fld w 20 6)) else none)
  else if k = 5#8 then (if fld w 8 6 = 0#6 ∧ fld w 20 6 = 0#6 ∧ h = Hint.none then some (.pwr (fld w 14 6)) else none)
  else none

/-- Major 0x1E of R317: sel, dsel. -/
def decodeMajor1E (h : Hint) (w : Word) : Option Instr :=
  let k := fld w 4 1
  if k = 0#1 then (if fld w 5 3 = 0#3 ∧ h = Hint.none then some (.sel (fld w 20 6) (fld w 14 6) (fld w 8 6) (fld w 3 1 == 1#1) (fld w 0 3)) else none)
  else if k = 1#1 then (if fld w 5 3 = 0#3 ∧ h = Hint.none then some (.dsel (fld w 20 6) (fld w 14 6) (fld w 8 6) (fld w 3 1 == 1#1) (fld w 0 3)) else none)
  else none

/-- Major 0x20 of R317: peek. -/
def decodeMajor20 (h : Hint) (w : Word) : Option Instr :=
  if fld w 3 5 = 0#5 ∧ h = Hint.none then (PeekMode.ofBits (fld w 0 2)).bind fun modev => some (.peek (fld w 20 6) (fld w 14 6) (fld w 8 6) (fld w 2 1 == 1#1) modev) else none

/-- Major 0x21 of R317: poll.all, poll.some, poll.same, pmask. -/
def decodeMajor21 (h : Hint) (w : Word) : Option Instr :=
  let k := fld w 6 2
  if k = 0#2 then (if fld w 4 2 = 0#2 ∧ fld w 8 6 = 0#6 ∧ fld w 14 6 = 0#6 ∧ fld w 23 3 = 0#3 ∧ h = Hint.none then some (.pollAll (fld w 20 3) (fld w 3 1 == 1#1) (fld w 0 3)) else none)
  else if k = 1#2 then (if fld w 4 2 = 0#2 ∧ fld w 8 6 = 0#6 ∧ fld w 14 6 = 0#6 ∧ fld w 23 3 = 0#3 ∧ h = Hint.none then some (.pollSome (fld w 20 3) (fld w 3 1 == 1#1) (fld w 0 3)) else none)
  else if k = 2#2 then (if fld w 4 2 = 0#2 ∧ fld w 8 6 = 0#6 ∧ fld w 14 6 = 0#6 ∧ fld w 23 3 = 0#3 ∧ h = Hint.none then some (.pollSame (fld w 20 3) (fld w 3 1 == 1#1) (fld w 0 3)) else none)
  else if k = 3#2 then (if fld w 4 2 = 0#2 ∧ fld w 8 6 = 0#6 ∧ fld w 14 6 = 0#6 ∧ h = Hint.none then some (.pmask (fld w 20 6) (fld w 3 1 == 1#1) (fld w 0 3)) else none)
  else none

/-- Major 0x22 of R317: fold. -/
def decodeMajor22 (h : Hint) (w : Word) : Option Instr :=
  if fld w 4 4 = 0#4 ∧ fld w 8 6 = 0#6 ∧ h = Hint.none then (Xop.ofBits (fld w 0 4)).bind fun opv => some (.fold (fld w 20 6) (fld w 14 6) opv) else none

/-- Major 0x23 of R317: PREFIX. -/
def decodeMajor23 (h : Hint) (w : Word) : Option Instr :=
  if fld w 5 3 = 0#3 ∧ fld w 8 6 = 0#6 ∧ h = Hint.none then (Xop.ofBits (fld w 0 4)).bind fun opv => some (.prefixOp (fld w 20 6) (fld w 14 6) (fld w 4 1 == 1#1) opv) else none

/-- Major 0x24 of R317: ld. -/
def decodeMajor24 (h : Hint) (w : Word) : Option Instr :=
  (Size.ofBits (fld w 1 3)).bind fun sizev => (lsHintLdOf h).bind fun hv => some (.ld (fld w 20 6) (fld w 14 6) (fld w 4 10) sizev (fld w 0 1 == 1#1) hv)

/-- Major 0x25 of R317: st. -/
def decodeMajor25 (h : Hint) (w : Word) : Option Instr :=
  (Size.ofBits (fld w 1 3)).bind fun sizev => (lsHintStOf h).bind fun hv => some (.st (fld w 20 6) (fld w 14 6) (fld w 4 10) sizev (fld w 0 1 == 1#1) hv)

/-- Major 0x26 of R317: atom. -/
def decodeMajor26 (h : Hint) (w : Word) : Option Instr :=
  if h = Hint.none then (AtomOp.ofBits (fld w 4 4)).bind fun opv => (Ord4.ofBits (fld w 2 2)).bind fun ordv => (Scope.ofBits (fld w 0 2)).bind fun scopev => some (.atom (fld w 20 6) (fld w 14 6) (fld w 8 6) opv ordv scopev) else none

/-- Major 0x27 of R317: cas, dcas. -/
def decodeMajor27 (h : Hint) (w : Word) : Option Instr :=
  let k := fld w 4 4
  if k = 0#4 then (if h = Hint.none then (Ord4.ofBits (fld w 2 2)).bind fun ordv => (Scope.ofBits (fld w 0 2)).bind fun scopev => some (.cas (fld w 20 6) (fld w 14 6) (fld w 8 6) ordv scopev) else none)
  else if k = 1#4 then (if h = Hint.none then (Ord4.ofBits (fld w 2 2)).bind fun ordv => (Scope.ofBits (fld w 0 2)).bind fun scopev => some (.dcas (fld w 20 6) (fld w 14 6) (fld w 8 6) ordv scopev) else none)
  else none

/-- Major 0x28 of R317: barinit, bararr, barwait, bartest. -/
def decodeMajor28 (h : Hint) (w : Word) : Option Instr :=
  let k := fld w 0 5
  if k = 0#5 then (if fld w 5 3 = 0#3 ∧ fld w 20 6 = 0#6 ∧ h = Hint.none then some (.barinit (fld w 14 6) (fld w 8 6)) else none)
  else if k = 1#5 then (if fld w 5 3 = 0#3 ∧ fld w 20 6 = 0#6 ∧ h = Hint.none then some (.bararr (fld w 14 6) (fld w 8 6)) else none)
  else if k = 2#5 then (if h = Hint.none then some (.barwait (fld w 5 3) (fld w 20 6) (fld w 14 6) (fld w 8 6)) else none)
  else if k = 3#5 then (if fld w 8 6 = 0#6 ∧ h = Hint.none then some (.bartest (fld w 5 3) (fld w 20 6) (fld w 14 6)) else none)
  else none

/-- Major 0x29 of R317: ldk, stk. -/
def decodeMajor29 (h : Hint) (w : Word) : Option Instr :=
  let k := fld w 0 1
  if k = 0#1 then (if h = Hint.none then (Size.ofBits (fld w 1 3)).bind fun sizev => some (.ldk (fld w 20 6) (fld w 14 6) (fld w 4 10) sizev) else none)
  else if k = 1#1 then (if h = Hint.none then (Size.ofBits (fld w 1 3)).bind fun sizev => some (.stk (fld w 20 6) (fld w 14 6) (fld w 4 10) sizev) else none)
  else none

/-- Major 0x2A of R317: copy. -/
def decodeMajor2A (h : Hint) (w : Word) : Option Instr :=
  if fld w 0 4 = 0#4 then (Dir.ofBits (fld w 5 2)).bind fun dirv => (arrOnlyHintOf h).bind fun hv => some (.copy (fld w 20 6) (fld w 14 6) (fld w 8 6) (fld w 7 1 == 1#1) dirv (fld w 4 1 == 1#1) hv) else none

/-- Major 0x2B of R317: copyt. -/
def decodeMajor2B (h : Hint) (w : Word) : Option Instr :=
  if fld w 0 2 = 0#2 then (Shape.ofBits (fld w 3 4)).bind fun shapev => (tileHintOf h).bind fun hv => some (.copyt (fld w 20 6) (fld w 14 6) (fld w 8 6) (fld w 7 1 == 1#1) shapev (fld w 2 1 == 1#1) hv) else none

/-- Major 0x2C of R317: gather, scatter. -/
def decodeMajor2C (h : Hint) (w : Word) : Option Instr :=
  let k := fld w 6 1
  if k = 0#1 then (if fld w 0 4 = 0#4 ∧ fld w 7 1 = 1#1 ∧ h = Hint.none then (Esz.ofBits (fld w 4 2)).bind fun eszv => some (.gather (fld w 20 6) (fld w 14 6) (fld w 8 6) eszv) else none)
  else if k = 1#1 then (if fld w 0 4 = 0#4 ∧ fld w 7 1 = 1#1 ∧ h = Hint.none then (Esz.ofBits (fld w 4 2)).bind fun eszv => some (.scatter (fld w 20 6) (fld w 14 6) (fld w 8 6) eszv) else none)
  else none

/-- Major 0x2D of R317: prefetch, pagein. -/
def decodeMajor2D (h : Hint) (w : Word) : Option Instr :=
  let k := fld w 4 3
  if k = 0#3 then (if fld w 0 4 = 0#4 ∧ fld w 7 1 = 0#1 ∧ fld w 20 6 = 0#6 ∧ h = Hint.none then some (.prefetch (fld w 14 6) (fld w 8 6)) else none)
  else if k = 1#3 then (if fld w 0 4 = 0#4 ∧ fld w 7 1 = 1#1 ∧ h = Hint.none then some (.pagein (fld w 20 6) (fld w 14 6) (fld w 8 6)) else none)
  else none

/-- Major 0x2E of R317: atomg. -/
def decodeMajor2E (h : Hint) (w : Word) : Option Instr :=
  if h = Hint.none then (AtomOp.ofBits (fld w 4 4)).bind fun opv => (Ord4.ofBits (fld w 2 2)).bind fun ordv => (Scope.ofBits (fld w 0 2)).bind fun scopev => some (.atomg (fld w 20 6) (fld w 14 6) (fld w 8 6) opv ordv scopev) else none

/-- Major 0x2F of R317: casg, dcasg, fence. -/
def decodeMajor2F (h : Hint) (w : Word) : Option Instr :=
  let k := fld w 4 4
  if k = 0#4 then (if h = Hint.none then (Ord4.ofBits (fld w 2 2)).bind fun ordv => (Scope.ofBits (fld w 0 2)).bind fun scopev => some (.casg (fld w 20 6) (fld w 14 6) (fld w 8 6) ordv scopev) else none)
  else if k = 1#4 then (if h = Hint.none then (Ord4.ofBits (fld w 2 2)).bind fun ordv => (Scope.ofBits (fld w 0 2)).bind fun scopev => some (.dcasg (fld w 20 6) (fld w 14 6) (fld w 8 6) ordv scopev) else none)
  else if k = 15#4 then (if fld w 2 2 = 0#2 ∧ fld w 8 6 = 0#6 ∧ fld w 19 1 = 0#1 ∧ fld w 25 1 = 0#1 ∧ h = Hint.none then (Scope.ofBits (fld w 0 2)).bind fun scopev => some (.fence (fld w 20 5) (fld w 14 5) scopev) else none)
  else none

/-- Major 0x30 of R317: radd, rmin, rmax, ror, rwonce, rarrive, rclose. -/
def decodeMajor30 (h : Hint) (w : Word) : Option Instr :=
  let k := fld w 4 3
  if k = 0#3 then ((AddTy.ofBits (fld w 0 4)).bind fun tyv => (arrHintOf h).bind fun hv => some (.radd (fld w 20 6) (fld w 14 6) (fld w 8 6) (fld w 7 1 == 1#1) tyv hv))
  else if k = 1#3 then ((MinTy.ofBits (fld w 0 4)).bind fun tyv => (arrHintOf h).bind fun hv => some (.rmin (fld w 20 6) (fld w 14 6) (fld w 8 6) (fld w 7 1 == 1#1) tyv hv))
  else if k = 2#3 then ((MinTy.ofBits (fld w 0 4)).bind fun tyv => (arrHintOf h).bind fun hv => some (.rmax (fld w 20 6) (fld w 14 6) (fld w 8 6) (fld w 7 1 == 1#1) tyv hv))
  else if k = 3#3 then (if fld w 0 4 = 7#4 then (arrHintOf h).bind fun hv => some (.ror (fld w 20 6) (fld w 14 6) (fld w 8 6) (fld w 7 1 == 1#1) hv) else none)
  else if k = 4#3 then (if fld w 0 4 = 8#4 then (arrHintOf h).bind fun hv => some (.rwonce (fld w 20 6) (fld w 14 6) (fld w 8 6) (fld w 7 1 == 1#1) hv) else none)
  else if k = 5#3 then (if fld w 0 4 = 9#4 then (arrHintOf h).bind fun hv => some (.rarrive (fld w 20 6) (fld w 14 6) (fld w 8 6) (fld w 7 1 == 1#1) hv) else none)
  else if k = 6#3 then (if fld w 0 4 = 10#4 ∧ fld w 8 6 = 0#6 then (arrHintOf h).bind fun hv => some (.rclose (fld w 20 6) (fld w 14 6) (fld w 7 1 == 1#1) hv) else none)
  else none

/-- Major 0x31 of R317: rread, onceclr, xcvt. -/
def decodeMajor31 (h : Hint) (w : Word) : Option Instr :=
  let k := fld w 4 3
  if k = 0#3 then (if fld w 0 4 = 0#4 ∧ fld w 8 6 = 0#6 ∧ h = Hint.none then some (.rread (fld w 20 6) (fld w 14 6) (fld w 7 1 == 1#1)) else none)
  else if k = 1#3 then (if fld w 0 4 = 0#4 ∧ h = Hint.none then some (.onceclr (fld w 20 6) (fld w 14 6) (fld w 8 6) (fld w 7 1 == 1#1)) else none)
  else if k = 2#3 then (if fld w 7 1 = 1#1 ∧ fld w 8 6 = 0#6 ∧ h = Hint.none then some (.xcvt (fld w 20 6) (fld w 14 6) (fld w 3 1 == 1#1) (fld w 0 3)) else none)
  else none

/-- Major 0x32 of R317: arm, waitcnt, waitline. -/
def decodeMajor32 (h : Hint) (w : Word) : Option Instr :=
  let k := fld w 0 5
  if k = 0#5 then (if fld w 5 3 = 0#3 ∧ fld w 20 6 = 0#6 ∧ h = Hint.none then some (.arm (fld w 14 6) (fld w 8 6)) else none)
  else if k = 1#5 then (if fld w 5 3 = 0#3 ∧ fld w 20 6 = 0#6 ∧ h = Hint.none then some (.waitcnt (fld w 14 6) (fld w 8 6)) else none)
  else if k = 2#5 then (if h = Hint.none then some (.waitline (fld w 5 3) (fld w 20 6) (fld w 14 6) (fld w 8 6)) else none)
  else none

/-- Major 0x34 of R317: invoke.die, invoke.addr, invokeh. -/
def decodeMajor34 (h : Hint) (w : Word) : Option Instr :=
  let k := fld w 0 8
  if k = 0#8 then ((arrHintOf h).bind fun hv => some (.invokeDie (fld w 20 6) (fld w 14 6) (fld w 8 6) hv))
  else if k = 1#8 then ((arrHintOf h).bind fun hv => some (.invokeAddr (fld w 20 6) (fld w 14 6) (fld w 8 6) hv))
  else if k = 2#8 then ((arrHintOf h).bind fun hv => some (.invokeh (fld w 20 6) (fld w 14 6) (fld w 8 6) hv))
  else none

/-- Major 0x35 of R317: reth, hget, hstat, hfree. -/
def decodeMajor35 (h : Hint) (w : Word) : Option Instr :=
  let k := fld w 0 5
  if k = 0#5 then (if fld w 5 3 = 0#3 ∧ fld w 8 6 = 0#6 ∧ fld w 20 6 = 0#6 ∧ h = Hint.none then some (.reth (fld w 14 6)) else none)
  else if k = 1#5 then (if fld w 5 3 = 0#3 ∧ h = Hint.none then some (.hget (fld w 20 6) (fld w 14 6) (fld w 8 6)) else none)
  else if k = 2#5 then (if fld w 8 6 = 0#6 ∧ h = Hint.none then some (.hstat (fld w 5 3) (fld w 20 6) (fld w 14 6)) else none)
  else if k = 3#5 then (if fld w 5 3 = 0#3 ∧ fld w 8 6 = 0#6 ∧ fld w 20 6 = 0#6 ∧ h = Hint.none then some (.hfree (fld w 14 6)) else none)
  else none

/-- Major 0x36 of R317: tdset, tdget, txp. -/
def decodeMajor36 (h : Hint) (w : Word) : Option Instr :=
  let k := fld w 4 3
  if k = 0#3 then (if fld w 0 4 = 0#4 ∧ fld w 7 1 = 0#1 ∧ fld w 20 6 = 0#6 ∧ h = Hint.none then some (.tdset (fld w 14 6) (fld w 8 6)) else none)
  else if k = 1#3 then (if fld w 0 4 = 0#4 ∧ fld w 7 1 = 0#1 ∧ fld w 20 6 = 0#6 ∧ h = Hint.none then some (.tdget (fld w 14 6) (fld w 8 6)) else none)
  else if k = 2#3 then (if fld w 8 6 = 0#6 ∧ h = Hint.none then (Shape.ofBits (fld w 0 4)).bind fun shapev => some (.txp (fld w 20 6) (fld w 14 6) (fld w 7 1 == 1#1) shapev) else none)
  else none

/-- Major 0x37 of R317: mma, mmaz. -/
def decodeMajor37 (h : Hint) (w : Word) : Option Instr :=
  let k := fld w 2 1
  if k = 0#1 then (if fld w 0 1 = 0#1 ∧ fld w 8 6 = 0#6 then (Shape.ofBits (fld w 3 4)).bind fun shapev => (descHintOf h).bind fun hv => some (.mma (fld w 20 6) (fld w 14 6) (fld w 7 1 == 1#1) shapev (fld w 1 1 == 1#1) hv) else none)
  else if k = 1#1 then (if fld w 0 1 = 0#1 ∧ fld w 8 6 = 0#6 then (Shape.ofBits (fld w 3 4)).bind fun shapev => (descHintOf h).bind fun hv => some (.mmaz (fld w 20 6) (fld w 14 6) (fld w 7 1 == 1#1) shapev (fld w 1 1 == 1#1) hv) else none)
  else none

/-- Major 0x38 of R317: drain, tquant. -/
def decodeMajor38 (h : Hint) (w : Word) : Option Instr :=
  let k := fld w 13 1
  if k = 0#1 then (if h = Hint.none then (Rm3.ofBits (fld w 9 3)).bind fun rmv => some (.drain (fld w 20 6) (fld w 14 6) (fld w 12 1 == 1#1) rmv (fld w 8 1 == 1#1) (fld w 0 8)) else none)
  else if k = 1#1 then (if h = Hint.none then (Rm3.ofBits (fld w 9 3)).bind fun rmv => some (.tquant (fld w 20 6) (fld w 14 6) (fld w 12 1 == 1#1) rmv (fld w 8 1 == 1#1) (fld w 0 8)) else none)
  else none

/-- Major 0x39 of R317: patld, patgen, patx, patpart, patptr, patsave, patrest. -/
def decodeMajor39 (h : Hint) (w : Word) : Option Instr :=
  let k := fld w 4 3
  if k = 0#3 then (if fld w 2 2 = 0#2 ∧ fld w 14 6 = 0#6 ∧ h = Hint.none then some (.patld (fld w 20 6) (fld w 8 6) (fld w 7 1 == 1#1) (fld w 0 2)) else none)
  else if k = 1#3 then (if fld w 2 1 = 0#1 ∧ h = Hint.none then some (.patgen (fld w 20 6) (fld w 14 6) (fld w 8 6) (fld w 7 1 == 1#1) (fld w 3 1 == 1#1) (fld w 0 2)) else none)
  else if k = 2#3 then (if fld w 2 1 = 0#1 ∧ h = Hint.none then some (.patx (fld w 20 6) (fld w 14 6) (fld w 8 6) (fld w 7 1 == 1#1) (fld w 3 1 == 1#1) (fld w 0 2)) else none)
  else if k = 3#3 then (if fld w 2 1 = 0#1 ∧ h = Hint.none then some (.patpart (fld w 20 6) (fld w 14 6) (fld w 8 6) (fld w 7 1 == 1#1) (fld w 3 1 == 1#1) (fld w 0 2)) else none)
  else if k = 4#3 then (if h = Hint.none then some (.patptr (fld w 20 6) (fld w 14 6) (fld w 8 6) (fld w 7 1 == 1#1) (fld w 3 1 == 1#1) (fld w 2 1 == 1#1) (fld w 0 2)) else none)
  else if k = 5#3 then (if fld w 2 2 = 0#2 ∧ fld w 8 6 = 0#6 ∧ h = Hint.none then some (.patsave (fld w 20 6) (fld w 14 6) (fld w 7 1 == 1#1) (fld w 0 2)) else none)
  else if k = 6#3 then (if fld w 2 2 = 0#2 ∧ fld w 8 6 = 0#6 ∧ h = Hint.none then some (.patrest (fld w 20 6) (fld w 14 6) (fld w 7 1 == 1#1) (fld w 0 2)) else none)
  else none

/-- Major 0x3A of R317: launch, grow, shrink, trap, srd, swr, tlbinv. -/
def decodeMajor3A (h : Hint) (w : Word) : Option Instr :=
  let k := fld w 0 8
  if k = 0#8 then (if h = Hint.none then some (.launch (fld w 20 6) (fld w 14 6) (fld w 8 6)) else none)
  else if k = 1#8 then (if fld w 20 6 = 0#6 ∧ h = Hint.none then some (.grow (fld w 8 12)) else none)
  else if k = 2#8 then (if fld w 20 6 = 0#6 ∧ h = Hint.none then some (.shrink (fld w 8 12)) else none)
  else if k = 3#8 then (if fld w 16 4 = 0#4 ∧ fld w 20 6 = 0#6 ∧ h = Hint.none then some (.trap (fld w 8 8)) else none)
  else if k = 4#8 then (if h = Hint.none then (SReg.ofBits (fld w 8 12)).bind fun regv => some (.srd (fld w 20 6) regv) else none)
  else if k = 5#8 then (if h = Hint.none then (SReg.ofBits (fld w 8 12)).bind fun regv => some (.swr (fld w 20 6) regv) else none)
  else if k = 6#8 then (if fld w 20 6 = 0#6 ∧ h = Hint.none then some (.tlbinv (fld w 14 6) (fld w 8 6)) else none)
  else none

/-- Major 0x3B of R317: tlbw, ptld, halt. -/
def decodeMajor3B (h : Hint) (w : Word) : Option Instr :=
  let k := fld w 0 8
  if k = 0#8 then (if fld w 20 6 = 0#6 ∧ h = Hint.none then some (.tlbw (fld w 14 6) (fld w 8 6)) else none)
  else if k = 1#8 then (if fld w 8 6 = 0#6 ∧ h = Hint.none then some (.ptld (fld w 20 6) (fld w 14 6)) else none)
  else if k = 2#8 then (if fld w 8 6 = 0#6 ∧ fld w 14 6 = 0#6 ∧ fld w 20 6 = 0#6 ∧ h = Hint.none then some (.halt) else none)
  else none

/-- Major 0x3C of R317 and R352: the terminators. -/
def decodeMajor3C (h : Hint) (w : Word) : Option Instr :=
  let top := fld w 23 3
  if top = 0#3 then (if fld w 20 3 = 0#3 ∧ h = Hint.none then some (.bra (fld w 0 20)) else none)
  else if top = 1#3 then (if h = Hint.none then some (.brcTrue (fld w 20 3) (fld w 0 20)) else none)
  else if top = 2#3 then (if h = Hint.none then some (.brcFalse (fld w 20 3) (fld w 0 20)) else none)
  else if top = 3#3 then (if fld w 22 1 = 0#1 ∧ h = Hint.none then some (.call (fld w 20 2) (fld w 0 20)) else none)
  else if top = 7#3 then
    let k := fld w 0 8
    if k = 0#8 then (if fld w 8 6 = 0#6 ∧ fld w 20 3 = 0#3 ∧ h = Hint.none then some (.brx (fld w 14 6)) else none)
    else if k = 1#8 then (if fld w 10 4 = 0#4 ∧ fld w 20 3 = 0#3 ∧ h = Hint.none then some (.callx (fld w 14 6) (fld w 8 2)) else none)
    else if k = 2#8 then (if fld w 8 6 = 0#6 ∧ fld w 14 6 = 0#6 ∧ fld w 20 3 = 0#3 ∧ h = Hint.none then some (.ret) else none)
    else if k = 3#8 then (if fld w 8 6 = 0#6 ∧ fld w 14 6 = 0#6 ∧ fld w 20 3 = 0#3 ∧ h = Hint.none then some (.nxt) else none)
    else if k = 4#8 then (if fld w 8 6 = 0#6 ∧ fld w 14 6 = 0#6 ∧ fld w 20 3 = 0#3 ∧ h = Hint.none then some (.exit) else none)
    else if k = 5#8 then (if fld w 8 6 = 0#6 ∧ fld w 14 6 = 0#6 ∧ fld w 20 3 = 0#3 ∧ h = Hint.none then some (.eret) else none)
    else if k = 6#8 then (if fld w 8 6 = 0#6 ∧ fld w 14 6 = 0#6 ∧ fld w 20 3 = 0#3 ∧ h = Hint.none then some (.yield) else none)
    else none
  else none

/-- R317: the instruction a word is, given the hint that stands before it. `none` is ILLEGAL_INSTR (R319). -/
def decodeMajor (h : Hint) (w : Word) : Option Instr :=
  match (fld w 26 6).toNat with
  | 0x01 => decodeMajor01 h w
  | 0x02 => decodeMajor02 h w
  | 0x03 => decodeMajor03 h w
  | 0x04 => decodeMajor04 h w
  | 0x05 => decodeMajor05 h w
  | 0x06 => decodeMajor06 h w
  | 0x07 => decodeMajor07 h w
  | 0x08 => decodeMajor08 h w
  | 0x09 => decodeMajor09 h w
  | 0x0A => decodeMajor0A h w
  | 0x0B => decodeMajor0B h w
  | 0x0C => decodeMajor0C h w
  | 0x0D => decodeMajor0D h w
  | 0x0E => decodeMajor0E h w
  | 0x0F => decodeMajor0F h w
  | 0x10 => decodeMajor10 h w
  | 0x11 => decodeMajor11 h w
  | 0x12 => decodeMajor12 h w
  | 0x13 => decodeMajor13 h w
  | 0x14 => decodeMajor14 h w
  | 0x18 => decodeMajor18 h w
  | 0x19 => decodeMajor19 h w
  | 0x1A => decodeMajor1A h w
  | 0x1B => decodeMajor1B h w
  | 0x1C => decodeMajor1C h w
  | 0x1D => decodeMajor1D h w
  | 0x1E => decodeMajor1E h w
  | 0x20 => decodeMajor20 h w
  | 0x21 => decodeMajor21 h w
  | 0x22 => decodeMajor22 h w
  | 0x23 => decodeMajor23 h w
  | 0x24 => decodeMajor24 h w
  | 0x25 => decodeMajor25 h w
  | 0x26 => decodeMajor26 h w
  | 0x27 => decodeMajor27 h w
  | 0x28 => decodeMajor28 h w
  | 0x29 => decodeMajor29 h w
  | 0x2A => decodeMajor2A h w
  | 0x2B => decodeMajor2B h w
  | 0x2C => decodeMajor2C h w
  | 0x2D => decodeMajor2D h w
  | 0x2E => decodeMajor2E h w
  | 0x2F => decodeMajor2F h w
  | 0x30 => decodeMajor30 h w
  | 0x31 => decodeMajor31 h w
  | 0x32 => decodeMajor32 h w
  | 0x34 => decodeMajor34 h w
  | 0x35 => decodeMajor35 h w
  | 0x36 => decodeMajor36 h w
  | 0x37 => decodeMajor37 h w
  | 0x38 => decodeMajor38 h w
  | 0x39 => decodeMajor39 h w
  | 0x3A => decodeMajor3A h w
  | 0x3B => decodeMajor3B h w
  | 0x3C => decodeMajor3C h w
  | _ => none

/-- Why words are not an instruction (R312, R315, R319). -/
inductive Reject where
  | short
  | noEncoding
  | illFormed (i : Instr)
  | badHint
  | strayHeader
deriving DecidableEq, Repr

/-- R319: the instruction of a word that stands after hint `h` (or after none). -/
def decodeWord (h : Hint) (w : Word) : Except Reject Instr :=
  match decodeMajor h w with
  | none => .error .noEncoding
  | some i => if i.wellFormed then .ok i else .error (.illFormed i)

/-- R312: one unit: an instruction word, or a hint word with the instruction word after it. The number is how many words
the unit holds. -/
def decodeUnit (w : Word) (next : Option Word) : Except Reject (Instr × Nat) :=
  if fld w 26 6 = 62#6 then
    match decodeHint w, next with
    | none, _ => .error .badHint
    | some _, none => .error .short
    | some h, some w2 =>
      match decodeWord h w2 with
      | .ok i => if i.isTerminator then .error .badHint else .ok (i, 2)
      | .error e => .error e
  else if fld w 26 6 = 63#6 then .error .strayHeader
  else
    match decodeWord .none w with
    | .ok i => .ok (i, 1)
    | .error e => .error e

/-- A little-endian 32-bit word of four bytes (R4, R307). -/
def wordOfBytes (b0 b1 b2 b3 : Byte) : Word := b3 ++ b2 ++ b1 ++ b0

/-- The first unit of a list of bytes, and the bytes after it. -/
def decodeBytes : List Byte → Except Reject (Instr × List Byte)
  | b0 :: b1 :: b2 :: b3 :: rest =>
    let next : Option Word :=
      match rest with
      | c0 :: c1 :: c2 :: c3 :: _ => some (wordOfBytes c0 c1 c2 c3)
      | _ => none
    match decodeUnit (wordOfBytes b0 b1 b2 b3) next with
    | .ok (i, n) => .ok (i, if n = 2 then rest.drop 4 else rest)
    | .error e => .error e
  | _ => .error .short

/-- The four bytes of a word in memory, the lowest address first (R307). -/
def bytesOfWord (w : Word) : List Byte :=
  [w.extractLsb' 0 8, w.extractLsb' 8 8, w.extractLsb' 16 8, w.extractLsb' 24 8]

/-- The instruction the decoder reads from the opcode table's word number `w` of `nbits` bits: every row with an encoding
is one 32-bit word. -/
def decodeTableWord (nbits w : Nat) : Option Instr :=
  if nbits = 32 ∧ w < 2 ^ 32 then
    match decodeBytes (bytesOfWord (BitVec.ofNat 32 w)) with
    | .ok (i, _) => some i
    | .error _ => none
  else none

/-- R308, R317: the instruction word of an instruction; an event of the device has none and gives 0. -/
def encodeWord : Instr → Word
  | .add d a b => pl 1#6 26 ||| pl d 20 ||| pl a 14 ||| pl b 8
  | .sub d a b => pl 1#6 26 ||| pl 1#8 0 ||| pl d 20 ||| pl a 14 ||| pl b 8
  | .mul d a b => pl 1#6 26 ||| pl 2#8 0 ||| pl d 20 ||| pl a 14 ||| pl b 8
  | .mulhi d a b => pl 1#6 26 ||| pl 3#8 0 ||| pl d 20 ||| pl a 14 ||| pl b 8
  | .mulhiu d a b => pl 1#6 26 ||| pl 4#8 0 ||| pl d 20 ||| pl a 14 ||| pl b 8
  | .div d a b => pl 1#6 26 ||| pl 5#8 0 ||| pl d 20 ||| pl a 14 ||| pl b 8
  | .divu d a b => pl 1#6 26 ||| pl 6#8 0 ||| pl d 20 ||| pl a 14 ||| pl b 8
  | .rem d a b => pl 1#6 26 ||| pl 7#8 0 ||| pl d 20 ||| pl a 14 ||| pl b 8
  | .remu d a b => pl 1#6 26 ||| pl 8#8 0 ||| pl d 20 ||| pl a 14 ||| pl b 8
  | .min d a b => pl 1#6 26 ||| pl 9#8 0 ||| pl d 20 ||| pl a 14 ||| pl b 8
  | .max d a b => pl 1#6 26 ||| pl 10#8 0 ||| pl d 20 ||| pl a 14 ||| pl b 8
  | .minu d a b => pl 1#6 26 ||| pl 11#8 0 ||| pl d 20 ||| pl a 14 ||| pl b 8
  | .maxu d a b => pl 1#6 26 ||| pl 12#8 0 ||| pl d 20 ||| pl a 14 ||| pl b 8
  | .abs d a => pl 1#6 26 ||| pl 13#8 0 ||| pl d 20 ||| pl a 14
  | .neg d a => pl 1#6 26 ||| pl 14#8 0 ||| pl d 20 ||| pl a 14
  | .and_ d a b => pl 2#6 26 ||| pl d 20 ||| pl a 14 ||| pl b 8
  | .or_ d a b => pl 2#6 26 ||| pl 1#8 0 ||| pl d 20 ||| pl a 14 ||| pl b 8
  | .xor d a b => pl 2#6 26 ||| pl 2#8 0 ||| pl d 20 ||| pl a 14 ||| pl b 8
  | .andn d a b => pl 2#6 26 ||| pl 3#8 0 ||| pl d 20 ||| pl a 14 ||| pl b 8
  | .not_ d a => pl 2#6 26 ||| pl 4#8 0 ||| pl d 20 ||| pl a 14
  | .shl d a b => pl 2#6 26 ||| pl 5#8 0 ||| pl d 20 ||| pl a 14 ||| pl b 8
  | .shr d a b => pl 2#6 26 ||| pl 6#8 0 ||| pl d 20 ||| pl a 14 ||| pl b 8
  | .sar d a b => pl 2#6 26 ||| pl 7#8 0 ||| pl d 20 ||| pl a 14 ||| pl b 8
  | .rotl d a b => pl 2#6 26 ||| pl 8#8 0 ||| pl d 20 ||| pl a 14 ||| pl b 8
  | .rotr d a b => pl 2#6 26 ||| pl 9#8 0 ||| pl d 20 ||| pl a 14 ||| pl b 8
  | .clz d a => pl 2#6 26 ||| pl 10#8 0 ||| pl d 20 ||| pl a 14
  | .popc d a => pl 2#6 26 ||| pl 11#8 0 ||| pl d 20 ||| pl a 14
  | .brev d a => pl 2#6 26 ||| pl 12#8 0 ||| pl d 20 ||| pl a 14
  | .mad d a b => pl 3#6 26 ||| pl d 20 ||| pl a 14 ||| pl b 8
  | .bfe d a pos lenm1 => pl 4#6 26 ||| pl d 20 ||| pl a 14 ||| pl pos 8 ||| pl lenm1 0
  | .bfeS d a pos lenm1 => pl 4#6 26 ||| pl 2#2 6 ||| pl d 20 ||| pl a 14 ||| pl pos 8 ||| pl lenm1 0
  | .bfi d a pos lenm1 => pl 4#6 26 ||| pl 1#2 6 ||| pl d 20 ||| pl a 14 ||| pl pos 8 ||| pl lenm1 0
  | .dadd d a b => pl 5#6 26 ||| pl d 20 ||| pl a 14 ||| pl b 8
  | .dsub d a b => pl 5#6 26 ||| pl 1#8 0 ||| pl d 20 ||| pl a 14 ||| pl b 8
  | .dmul d a b => pl 5#6 26 ||| pl 2#8 0 ||| pl d 20 ||| pl a 14 ||| pl b 8
  | .dshl d a b => pl 5#6 26 ||| pl 3#8 0 ||| pl d 20 ||| pl a 14 ||| pl b 8
  | .dshr d a b => pl 5#6 26 ||| pl 4#8 0 ||| pl d 20 ||| pl a 14 ||| pl b 8
  | .dsar d a b => pl 5#6 26 ||| pl 5#8 0 ||| pl d 20 ||| pl a 14 ||| pl b 8
  | .mulw d a b => pl 5#6 26 ||| pl 6#8 0 ||| pl d 20 ||| pl a 14 ||| pl b 8
  | .mulwu d a b => pl 5#6 26 ||| pl 7#8 0 ||| pl d 20 ||| pl a 14 ||| pl b 8
  | .dmin d a b => pl 5#6 26 ||| pl 8#8 0 ||| pl d 20 ||| pl a 14 ||| pl b 8
  | .dmax d a b => pl 5#6 26 ||| pl 9#8 0 ||| pl d 20 ||| pl a 14 ||| pl b 8
  | .dminu d a b => pl 5#6 26 ||| pl 10#8 0 ||| pl d 20 ||| pl a 14 ||| pl b 8
  | .dmaxu d a b => pl 5#6 26 ||| pl 11#8 0 ||| pl d 20 ||| pl a 14 ||| pl b 8
  | .mov d a => pl 6#6 26 ||| pl d 20 ||| pl a 14
  | .movx d a => pl 6#6 26 ||| pl 1#8 0 ||| pl d 20 ||| pl a 14
  | .movxw d a => pl 6#6 26 ||| pl 2#8 0 ||| pl d 20 ||| pl a 14
  | .dmov d a => pl 6#6 26 ||| pl 3#8 0 ||| pl d 20 ||| pl a 14
  | .addi d a imm _ => pl 7#6 26 ||| pl d 20 ||| pl a 14 ||| pl imm 0
  | .andi d a imm _ => pl 8#6 26 ||| pl d 20 ||| pl a 14 ||| pl imm 0
  | .ori d a imm _ => pl 9#6 26 ||| pl d 20 ||| pl a 14 ||| pl imm 0
  | .xori d a imm _ => pl 10#6 26 ||| pl d 20 ||| pl a 14 ||| pl imm 0
  | .shli d a n _ => pl 11#6 26 ||| pl d 20 ||| pl a 14 ||| pl n 0
  | .shri d a n _ => pl 12#6 26 ||| pl d 20 ||| pl a 14 ||| pl n 0
  | .sari d a n _ => pl 13#6 26 ||| pl d 20 ||| pl a 14 ||| pl n 0
  | .movi d imm _ => pl 14#6 26 ||| pl d 20 ||| pl imm 0
  | .muli d a imm _ => pl 15#6 26 ||| pl d 20 ||| pl a 14 ||| pl imm 0
  | .fadd d a b rm => pl 16#6 26 ||| pl d 20 ||| pl a 14 ||| pl b 8 ||| pl rm.bits 6
  | .fsub d a b rm => pl 16#6 26 ||| pl 1#6 0 ||| pl d 20 ||| pl a 14 ||| pl b 8 ||| pl rm.bits 6
  | .fmul d a b rm => pl 16#6 26 ||| pl 2#6 0 ||| pl d 20 ||| pl a 14 ||| pl b 8 ||| pl rm.bits 6
  | .fdiv d a b rm => pl 16#6 26 ||| pl 3#6 0 ||| pl d 20 ||| pl a 14 ||| pl b 8 ||| pl rm.bits 6
  | .fmin d a b => pl 16#6 26 ||| pl 4#6 0 ||| pl d 20 ||| pl a 14 ||| pl b 8
  | .fmax d a b => pl 16#6 26 ||| pl 5#6 0 ||| pl d 20 ||| pl a 14 ||| pl b 8
  | .fabs d a => pl 16#6 26 ||| pl 6#6 0 ||| pl d 20 ||| pl a 14
  | .fneg d a => pl 16#6 26 ||| pl 7#6 0 ||| pl d 20 ||| pl a 14
  | .fsqrt d a rm => pl 16#6 26 ||| pl 8#6 0 ||| pl d 20 ||| pl a 14 ||| pl rm.bits 6
  | .ffma d a b rm => pl 17#6 26 ||| pl d 20 ||| pl a 14 ||| pl b 8 ||| pl rm.bits 6
  | .ffms d a b rm => pl 17#6 26 ||| pl 1#6 0 ||| pl d 20 ||| pl a 14 ||| pl b 8 ||| pl rm.bits 6
  | .ffnma d a b rm => pl 17#6 26 ||| pl 2#6 0 ||| pl d 20 ||| pl a 14 ||| pl b 8 ||| pl rm.bits 6
  | .frcp d a => pl 18#6 26 ||| pl d 20 ||| pl a 14
  | .frsq d a => pl 18#6 26 ||| pl 1#8 0 ||| pl d 20 ||| pl a 14
  | .fexp2 d a => pl 18#6 26 ||| pl 2#8 0 ||| pl d 20 ||| pl a 14
  | .flog2 d a => pl 18#6 26 ||| pl 3#8 0 ||| pl d 20 ||| pl a 14
  | .ftanh d a => pl 18#6 26 ||| pl 4#8 0 ||| pl d 20 ||| pl a 14
  | .badd d a b rm => pl 19#6 26 ||| pl d 20 ||| pl a 14 ||| pl b 8 ||| pl rm.bits 6
  | .bsub d a b rm => pl 19#6 26 ||| pl 1#6 0 ||| pl d 20 ||| pl a 14 ||| pl b 8 ||| pl rm.bits 6
  | .bmul d a b rm => pl 19#6 26 ||| pl 2#6 0 ||| pl d 20 ||| pl a 14 ||| pl b 8 ||| pl rm.bits 6
  | .bfma d a b rm => pl 19#6 26 ||| pl 3#6 0 ||| pl d 20 ||| pl a 14 ||| pl b 8 ||| pl rm.bits 6
  | .bmin d a b => pl 19#6 26 ||| pl 4#6 0 ||| pl d 20 ||| pl a 14 ||| pl b 8
  | .bmax d a b => pl 19#6 26 ||| pl 5#6 0 ||| pl d 20 ||| pl a 14 ||| pl b 8
  | .hadd d a b rm => pl 20#6 26 ||| pl d 20 ||| pl a 14 ||| pl b 8 ||| pl rm.bits 6
  | .hsub d a b rm => pl 20#6 26 ||| pl 1#6 0 ||| pl d 20 ||| pl a 14 ||| pl b 8 ||| pl rm.bits 6
  | .hmul d a b rm => pl 20#6 26 ||| pl 2#6 0 ||| pl d 20 ||| pl a 14 ||| pl b 8 ||| pl rm.bits 6
  | .hfma d a b rm => pl 20#6 26 ||| pl 3#6 0 ||| pl d 20 ||| pl a 14 ||| pl b 8 ||| pl rm.bits 6
  | .hmin d a b => pl 20#6 26 ||| pl 4#6 0 ||| pl d 20 ||| pl a 14 ||| pl b 8
  | .hmax d a b => pl 20#6 26 ||| pl 5#6 0 ||| pl d 20 ||| pl a 14 ||| pl b 8
  | .f2i d a rm => pl 24#6 26 ||| pl d 20 ||| pl a 14 ||| pl rm.bits 6
  | .f2u d a rm => pl 24#6 26 ||| pl 1#6 0 ||| pl d 20 ||| pl a 14 ||| pl rm.bits 6
  | .i2f d a rm => pl 24#6 26 ||| pl 2#6 0 ||| pl d 20 ||| pl a 14 ||| pl rm.bits 6
  | .u2f d a rm => pl 24#6 26 ||| pl 3#6 0 ||| pl d 20 ||| pl a 14 ||| pl rm.bits 6
  | .frint d a rm => pl 24#6 26 ||| pl 4#6 0 ||| pl d 20 ||| pl a 14 ||| pl rm.bits 6
  | .f2bf d a rm => pl 24#6 26 ||| pl 5#6 0 ||| pl d 20 ||| pl a 14 ||| pl rm.bits 6
  | .f2h d a rm => pl 24#6 26 ||| pl 6#6 0 ||| pl d 20 ||| pl a 14 ||| pl rm.bits 6
  | .bf2f d a => pl 24#6 26 ||| pl 7#6 0 ||| pl d 20 ||| pl a 14
  | .h2f d a => pl 24#6 26 ||| pl 8#6 0 ||| pl d 20 ||| pl a 14
  | .cvtn d a b fmt rm sat _ => pl 25#6 26 ||| pl d 20 ||| pl a 14 ||| pl b 8 ||| pl fmt.bits 4 ||| pl rm.bits 1 ||| pl (BitVec.ofBool sat) 0
  | .cvtnp d a b fmt rm sat _ => pl 26#6 26 ||| pl d 20 ||| pl a 14 ||| pl b 8 ||| pl fmt.bits 4 ||| pl rm.bits 1 ||| pl (BitVec.ofBool sat) 0
  | .deq d a b fmt scale => pl 27#6 26 ||| pl d 20 ||| pl a 14 ||| pl b 8 ||| pl fmt.bits 4 ||| pl scale.bits 2
  | .cmpp pd pc a b cmp ty comb => pl 28#6 26 ||| pl pd 23 ||| pl pc 20 ||| pl a 14 ||| pl b 8 ||| pl cmp.bits 5 ||| pl ty.bits 3 ||| pl comb.bits 1
  | .pand d a b => pl 29#6 26 ||| pl d 20 ||| pl a 14 ||| pl b 8
  | .por d a b => pl 29#6 26 ||| pl 1#8 0 ||| pl d 20 ||| pl a 14 ||| pl b 8
  | .pxor d a b => pl 29#6 26 ||| pl 2#8 0 ||| pl d 20 ||| pl a 14 ||| pl b 8
  | .pnot d a => pl 29#6 26 ||| pl 3#8 0 ||| pl d 20 ||| pl a 14
  | .prd d => pl 29#6 26 ||| pl 4#8 0 ||| pl d 20
  | .pwr a => pl 29#6 26 ||| pl 5#8 0 ||| pl a 14
  | .sel d a b neg p => pl 30#6 26 ||| pl d 20 ||| pl a 14 ||| pl b 8 ||| pl (BitVec.ofBool neg) 3 ||| pl p 0
  | .dsel d a b neg p => pl 30#6 26 ||| pl 1#1 4 ||| pl d 20 ||| pl a 14 ||| pl b 8 ||| pl (BitVec.ofBool neg) 3 ||| pl p 0
  | .peek d a b immediate mode => pl 32#6 26 ||| pl d 20 ||| pl a 14 ||| pl b 8 ||| pl (BitVec.ofBool immediate) 2 ||| pl mode.bits 0
  | .pollAll d neg p => pl 33#6 26 ||| pl d 20 ||| pl (BitVec.ofBool neg) 3 ||| pl p 0
  | .pollSome d neg p => pl 33#6 26 ||| pl 1#2 6 ||| pl d 20 ||| pl (BitVec.ofBool neg) 3 ||| pl p 0
  | .pollSame d neg p => pl 33#6 26 ||| pl 2#2 6 ||| pl d 20 ||| pl (BitVec.ofBool neg) 3 ||| pl p 0
  | .pmask d neg p => pl 33#6 26 ||| pl 3#2 6 ||| pl d 20 ||| pl (BitVec.ofBool neg) 3 ||| pl p 0
  | .fold d a op => pl 34#6 26 ||| pl d 20 ||| pl a 14 ||| pl op.bits 0
  | .prefixOp d a excl op => pl 35#6 26 ||| pl d 20 ||| pl a 14 ||| pl (BitVec.ofBool excl) 4 ||| pl op.bits 0
  | .ld d a off size ord _ => pl 36#6 26 ||| pl d 20 ||| pl a 14 ||| pl off 4 ||| pl size.bits 1 ||| pl (BitVec.ofBool ord) 0
  | .st d a off size ord _ => pl 37#6 26 ||| pl d 20 ||| pl a 14 ||| pl off 4 ||| pl size.bits 1 ||| pl (BitVec.ofBool ord) 0
  | .atom d a b op ord scope => pl 38#6 26 ||| pl d 20 ||| pl a 14 ||| pl b 8 ||| pl op.bits 4 ||| pl ord.bits 2 ||| pl scope.bits 0
  | .cas d a b ord scope => pl 39#6 26 ||| pl d 20 ||| pl a 14 ||| pl b 8 ||| pl ord.bits 2 ||| pl scope.bits 0
  | .dcas d a b ord scope => pl 39#6 26 ||| pl 1#4 4 ||| pl d 20 ||| pl a 14 ||| pl b 8 ||| pl ord.bits 2 ||| pl scope.bits 0
  | .barinit a b => pl 40#6 26 ||| pl a 14 ||| pl b 8
  | .bararr a b => pl 40#6 26 ||| pl 1#5 0 ||| pl a 14 ||| pl b 8
  | .barwait pd d a b => pl 40#6 26 ||| pl 2#5 0 ||| pl pd 5 ||| pl d 20 ||| pl a 14 ||| pl b 8
  | .bartest pd d a => pl 40#6 26 ||| pl 3#5 0 ||| pl pd 5 ||| pl d 20 ||| pl a 14
  | .ldk d a off size => pl 41#6 26 ||| pl d 20 ||| pl a 14 ||| pl off 4 ||| pl size.bits 1
  | .stk d a off size => pl 41#6 26 ||| pl 1#1 0 ||| pl d 20 ||| pl a 14 ||| pl off 4 ||| pl size.bits 1
  | .copy d a b tk dir bar _ => pl 42#6 26 ||| pl d 20 ||| pl a 14 ||| pl b 8 ||| pl (BitVec.ofBool tk) 7 ||| pl dir.bits 5 ||| pl (BitVec.ofBool bar) 4
  | .copyt d a b tk shape bar _ => pl 43#6 26 ||| pl d 20 ||| pl a 14 ||| pl b 8 ||| pl (BitVec.ofBool tk) 7 ||| pl shape.bits 3 ||| pl (BitVec.ofBool bar) 2
  | .gather d a b esz => pl 44#6 26 ||| pl 1#1 7 ||| pl d 20 ||| pl a 14 ||| pl b 8 ||| pl esz.bits 4
  | .scatter d a b esz => pl 44#6 26 ||| pl 1#1 6 ||| pl 1#1 7 ||| pl d 20 ||| pl a 14 ||| pl b 8 ||| pl esz.bits 4
  | .prefetch a b => pl 45#6 26 ||| pl a 14 ||| pl b 8
  | .pagein d a b => pl 45#6 26 ||| pl 1#3 4 ||| pl 1#1 7 ||| pl d 20 ||| pl a 14 ||| pl b 8
  | .atomg d a b op ord scope => pl 46#6 26 ||| pl d 20 ||| pl a 14 ||| pl b 8 ||| pl op.bits 4 ||| pl ord.bits 2 ||| pl scope.bits 0
  | .casg d a b ord scope => pl 47#6 26 ||| pl d 20 ||| pl a 14 ||| pl b 8 ||| pl ord.bits 2 ||| pl scope.bits 0
  | .dcasg d a b ord scope => pl 47#6 26 ||| pl 1#4 4 ||| pl d 20 ||| pl a 14 ||| pl b 8 ||| pl ord.bits 2 ||| pl scope.bits 0
  | .fence before after scope => pl 47#6 26 ||| pl 15#4 4 ||| pl before 20 ||| pl after 14 ||| pl scope.bits 0
  | .radd d a b tk ty _ => pl 48#6 26 ||| pl d 20 ||| pl a 14 ||| pl b 8 ||| pl (BitVec.ofBool tk) 7 ||| pl ty.bits 0
  | .rmin d a b tk ty _ => pl 48#6 26 ||| pl 1#3 4 ||| pl d 20 ||| pl a 14 ||| pl b 8 ||| pl (BitVec.ofBool tk) 7 ||| pl ty.bits 0
  | .rmax d a b tk ty _ => pl 48#6 26 ||| pl 2#3 4 ||| pl d 20 ||| pl a 14 ||| pl b 8 ||| pl (BitVec.ofBool tk) 7 ||| pl ty.bits 0
  | .ror d a b tk _ => pl 48#6 26 ||| pl 7#4 0 ||| pl 3#3 4 ||| pl d 20 ||| pl a 14 ||| pl b 8 ||| pl (BitVec.ofBool tk) 7
  | .rwonce d a b tk _ => pl 48#6 26 ||| pl 8#4 0 ||| pl 4#3 4 ||| pl d 20 ||| pl a 14 ||| pl b 8 ||| pl (BitVec.ofBool tk) 7
  | .rarrive d a b tk _ => pl 48#6 26 ||| pl 9#4 0 ||| pl 5#3 4 ||| pl d 20 ||| pl a 14 ||| pl b 8 ||| pl (BitVec.ofBool tk) 7
  | .rclose d a tk _ => pl 48#6 26 ||| pl 10#4 0 ||| pl 6#3 4 ||| pl d 20 ||| pl a 14 ||| pl (BitVec.ofBool tk) 7
  | .rread d a tk => pl 49#6 26 ||| pl d 20 ||| pl a 14 ||| pl (BitVec.ofBool tk) 7
  | .onceclr d a b tk => pl 49#6 26 ||| pl 1#3 4 ||| pl d 20 ||| pl a 14 ||| pl b 8 ||| pl (BitVec.ofBool tk) 7
  | .xcvt d a f64 idx => pl 49#6 26 ||| pl 2#3 4 ||| pl 1#1 7 ||| pl d 20 ||| pl a 14 ||| pl (BitVec.ofBool f64) 3 ||| pl idx 0
  | .arm a b => pl 50#6 26 ||| pl a 14 ||| pl b 8
  | .waitcnt a b => pl 50#6 26 ||| pl 1#5 0 ||| pl a 14 ||| pl b 8
  | .waitline pd d a b => pl 50#6 26 ||| pl 2#5 0 ||| pl pd 5 ||| pl d 20 ||| pl a 14 ||| pl b 8
  | .invokeDie d a b _ => pl 52#6 26 ||| pl d 20 ||| pl a 14 ||| pl b 8
  | .invokeAddr d a b _ => pl 52#6 26 ||| pl 1#8 0 ||| pl d 20 ||| pl a 14 ||| pl b 8
  | .invokeh d a b _ => pl 52#6 26 ||| pl 2#8 0 ||| pl d 20 ||| pl a 14 ||| pl b 8
  | .reth a => pl 53#6 26 ||| pl a 14
  | .hget d a b => pl 53#6 26 ||| pl 1#5 0 ||| pl d 20 ||| pl a 14 ||| pl b 8
  | .hstat pd d a => pl 53#6 26 ||| pl 2#5 0 ||| pl pd 5 ||| pl d 20 ||| pl a 14
  | .hfree a => pl 53#6 26 ||| pl 3#5 0 ||| pl a 14
  | .tdset a b => pl 54#6 26 ||| pl a 14 ||| pl b 8
  | .tdget a b => pl 54#6 26 ||| pl 1#3 4 ||| pl a 14 ||| pl b 8
  | .txp d a tk shape => pl 54#6 26 ||| pl 2#3 4 ||| pl d 20 ||| pl a 14 ||| pl (BitVec.ofBool tk) 7 ||| pl shape.bits 0
  | .mma d a tk shape sparse _ => pl 55#6 26 ||| pl d 20 ||| pl a 14 ||| pl (BitVec.ofBool tk) 7 ||| pl shape.bits 3 ||| pl (BitVec.ofBool sparse) 1
  | .mmaz d a tk shape sparse _ => pl 55#6 26 ||| pl 1#1 2 ||| pl d 20 ||| pl a 14 ||| pl (BitVec.ofBool tk) 7 ||| pl shape.bits 3 ||| pl (BitVec.ofBool sparse) 1
  | .drain d a tk rm sat stream => pl 56#6 26 ||| pl d 20 ||| pl a 14 ||| pl (BitVec.ofBool tk) 12 ||| pl rm.bits 9 ||| pl (BitVec.ofBool sat) 8 ||| pl stream 0
  | .tquant d a tk rm sat stream => pl 56#6 26 ||| pl 1#1 13 ||| pl d 20 ||| pl a 14 ||| pl (BitVec.ofBool tk) 12 ||| pl rm.bits 9 ||| pl (BitVec.ofBool sat) 8 ||| pl stream 0
  | .patld d b tk c => pl 57#6 26 ||| pl d 20 ||| pl b 8 ||| pl (BitVec.ofBool tk) 7 ||| pl c 0
  | .patgen d a b tk t c => pl 57#6 26 ||| pl 1#3 4 ||| pl d 20 ||| pl a 14 ||| pl b 8 ||| pl (BitVec.ofBool tk) 7 ||| pl (BitVec.ofBool t) 3 ||| pl c 0
  | .patx d a b tk t c => pl 57#6 26 ||| pl 2#3 4 ||| pl d 20 ||| pl a 14 ||| pl b 8 ||| pl (BitVec.ofBool tk) 7 ||| pl (BitVec.ofBool t) 3 ||| pl c 0
  | .patpart d a b tk t c => pl 57#6 26 ||| pl 3#3 4 ||| pl d 20 ||| pl a 14 ||| pl b 8 ||| pl (BitVec.ofBool tk) 7 ||| pl (BitVec.ofBool t) 3 ||| pl c 0
  | .patptr d a b tk t el c => pl 57#6 26 ||| pl 4#3 4 ||| pl d 20 ||| pl a 14 ||| pl b 8 ||| pl (BitVec.ofBool tk) 7 ||| pl (BitVec.ofBool t) 3 ||| pl (BitVec.ofBool el) 2 ||| pl c 0
  | .patsave d a tk c => pl 57#6 26 ||| pl 5#3 4 ||| pl d 20 ||| pl a 14 ||| pl (BitVec.ofBool tk) 7 ||| pl c 0
  | .patrest d a tk c => pl 57#6 26 ||| pl 6#3 4 ||| pl d 20 ||| pl a 14 ||| pl (BitVec.ofBool tk) 7 ||| pl c 0
  | .launch d a b => pl 58#6 26 ||| pl d 20 ||| pl a 14 ||| pl b 8
  | .grow n => pl 58#6 26 ||| pl 1#8 0 ||| pl n 8
  | .shrink n => pl 58#6 26 ||| pl 2#8 0 ||| pl n 8
  | .trap imm => pl 58#6 26 ||| pl 3#8 0 ||| pl imm 8
  | .srd d reg => pl 58#6 26 ||| pl 4#8 0 ||| pl d 20 ||| pl reg.bits 8
  | .swr d reg => pl 58#6 26 ||| pl 5#8 0 ||| pl d 20 ||| pl reg.bits 8
  | .tlbinv a b => pl 58#6 26 ||| pl 6#8 0 ||| pl a 14 ||| pl b 8
  | .tlbw a b => pl 59#6 26 ||| pl a 14 ||| pl b 8
  | .ptld d a => pl 59#6 26 ||| pl 1#8 0 ||| pl d 20 ||| pl a 14
  | .halt => pl 59#6 26 ||| pl 2#8 0
  | .bra off => pl 60#6 26 ||| pl off 0
  | .brcTrue p off => pl 60#6 26 ||| pl 1#3 23 ||| pl p 20 ||| pl off 0
  | .brcFalse p off => pl 60#6 26 ||| pl 2#3 23 ||| pl p 20 ||| pl off 0
  | .call s off => pl 60#6 26 ||| pl 3#3 23 ||| pl s 20 ||| pl off 0
  | .brx a => pl 60#6 26 ||| pl 7#3 23 ||| pl a 14
  | .callx a s => pl 60#6 26 ||| pl 1#8 0 ||| pl 7#3 23 ||| pl a 14 ||| pl s 8
  | .ret => pl 60#6 26 ||| pl 2#8 0 ||| pl 7#3 23
  | .nxt => pl 60#6 26 ||| pl 3#8 0 ||| pl 7#3 23
  | .exit => pl 60#6 26 ||| pl 4#8 0 ||| pl 7#3 23
  | .eret => pl 60#6 26 ||| pl 5#8 0 ||| pl 7#3 23
  | .yield => pl 60#6 26 ||| pl 6#8 0 ||| pl 7#3 23
  | .coldReset => 0#32
  | .bootStepComplete => 0#32
  | .dieReset _ _ => 0#32
  | .thermalSamplePeriod _ _ => 0#32
  | .droopAlarm _ _ => 0#32
  | .droopResponseEnd _ _ => 0#32
  | .powerLimitEval => 0#32
  | .powerLimitSecondStage => 0#32
  | .thermstatWrite _ _ _ => 0#32
  | .create => 0#32
  | .destroy => 0#32
  | .readreg => 0#32
  | .writereg => 0#32
  | .loadkey => 0#32
  | .setpower => 0#32
  | .attest => 0#32
  | .pagedone => 0#32
  | .setevent => 0#32
  | .drainend => 0#32
  | .commitsvn => 0#32
  | .resetdie => 0#32
  | .settorus => 0#32
  | .errorRecordMessage => 0#32
  | .companionWrite _ _ _ => 0#32
  | .companionRead _ _ => 0#32
  | .messageRoute _ _ => 0#32
  | .dataFlit _ _ _ => 0#32
  | .idleFlit _ _ _ => 0#32
  | .registrationFlit _ _ _ => 0#32
  | .retireFlit _ _ _ => 0#32
  | .keySwitch _ _ => 0#32
  | .retireResend _ _ => 0#32
  | .keyExpiring _ _ => 0#32
  | .keyExhausted _ _ => 0#32
  | .authFailureLimit _ _ => 0#32
  | .linkTrained _ _ => 0#32
  | .budgetPeriod _ => 0#32
  | .join _ _ => 0#32
  | .joinAcknowledgement _ _ => 0#32
  | .joinResend _ _ => 0#32
  | .joinQuarantineEnd => 0#32
  | .drainMessage => 0#32
  | .drainReport => 0#32
  | .raddUpdate _ _ => 0#32
  | .rminUpdate _ _ => 0#32
  | .rmaxUpdate _ _ => 0#32
  | .rorUpdate _ _ => 0#32
  | .rwonceUpdate _ _ => 0#32
  | .rarriveUpdate _ _ => 0#32
  | .rcloseUpdate _ _ => 0#32
  | .rreadRequest _ _ => 0#32
  | .readReply _ _ => 0#32
  | .acknowledgement _ _ => 0#32
  | .retransmissionTimer _ _ _ => 0#32
  | .heldMessageTimeout _ _ => 0#32
  | .windowExpiry _ _ _ => 0#32
  | .invokeMessage _ _ => 0#32
  | .invokehMessage _ _ => 0#32
  | .hgetRequest _ _ => 0#32
  | .hfreeMessage _ _ => 0#32
  | .recordMove _ _ => 0#32
  | .resultReply _ _ => 0#32
  | .locationUpdate _ _ => 0#32
  | .workgroupEnd _ => 0#32
  | .pageServiceTimeout _ => 0#32
  | .walkinfoRead _ _ => 0#32
  | .walkerRestart _ => 0#32
  | .uncorrectableError _ _ => 0#32
  | .placementPass _ => 0#32
  | .candidateAging _ _ => 0#32
  | .workgroupSave _ => 0#32
  | .wholeContextSwitch _ _ => 0#32
  | .eviction _ _ => 0#32
  | .selectorDecision _ _ _ => 0#32
  | .tokenCompletion _ _ => 0#32
  | .deadlineExpiry _ _ => 0#32
  | .copyGranule _ _ => 0#32
  | .mtxAccept _ _ => 0#32
  | .statusWrite _ _ _ => 0#32
  | .errqWrite _ _ _ => 0#32
  | .flitTransmission _ _ => 0#32
  | .penwynPortDown _ => 0#32
  | .invalidationAcknowledgement => 0#32
  | .eventRingConsumerIndex => 0#32
  | .illegalInstr => 0#32

/-- R310, R311: the hint that stands before an instruction, if its fields name one. -/
def hintOf : Instr → Hint
  | .addi _ _ _ hi => immHint hi
  | .andi _ _ _ hi => immHint hi
  | .ori _ _ _ hi => immHint hi
  | .xori _ _ _ hi => immHint hi
  | .shli _ _ _ hinted => imm0Hint hinted
  | .shri _ _ _ hinted => imm0Hint hinted
  | .sari _ _ _ hinted => imm0Hint hinted
  | .movi _ _ hi => immHint hi
  | .muli _ _ _ hi => immHint hi
  | .cvtn _ _ _ _ _ _ stream => streamHint stream
  | .cvtnp _ _ _ _ _ _ stream => streamHint stream
  | .ld _ _ _ _ _ hint => lsHintLd hint
  | .st _ _ _ _ _ hint => lsHintSt hint
  | .copy _ _ _ _ _ _ arr => arrOnlyHint arr
  | .copyt _ _ _ _ _ _ hint => tileHint hint
  | .radd _ _ _ _ _ hint => arrHint hint
  | .rmin _ _ _ _ _ hint => arrHint hint
  | .rmax _ _ _ _ _ hint => arrHint hint
  | .ror _ _ _ _ hint => arrHint hint
  | .rwonce _ _ _ _ hint => arrHint hint
  | .rarrive _ _ _ _ hint => arrHint hint
  | .rclose _ _ _ hint => arrHint hint
  | .invokeDie _ _ _ hint => arrHint hint
  | .invokeAddr _ _ _ hint => arrHint hint
  | .invokeh _ _ _ hint => arrHint hint
  | .mma _ _ _ _ _ hint => descHint hint
  | .mmaz _ _ _ _ _ hint => descHint hint
  | _ => .none

/-- How many words a program instruction takes: one more with its hint (R312). -/
def Instr.size (i : Instr) : Nat := if hintOf i = Hint.none then 1 else 2

/-- R310, R317: the words of a program instruction, its hint word first. -/
def encode (i : Instr) : List Word :=
  if hintOf i = Hint.none then [encodeWord i] else [encodeHint (hintOf i), encodeWord i]

end Sys2Proof
end

