-- ==== Sys2Proof/Machine/State.lean ====
section
/-!
DEFINITION. The state of one package of four dies: the management controller, the dies with everything the spec gives them,
the workgroups with their threads, the commands and messages in flight, and the memory; the reasons a step can stop; and the
state after reset. All of it is plain data.
-/

namespace Sys2Proof.Machine

/-! ## Threads (chapter 08) -/

/-- A call frame (R214). -/
structure CallFrame where
  ret : Dword
  slide : Nat
  regs : List Word
deriving DecidableEq, Repr

/-- Where a thread stands: waiting at an address, streamed in a bundle, or ended (R203, R209, R228). -/
inductive TPos where
  | waiting | running | exited
deriving DecidableEq, Repr

/-- The access whose permission a leaf is checked for (R154). -/
structure Access where
  writes : Bool
  fetch : Bool
  /-- The instruction may not name companion memory (R136). -/
  deviceOnly : Bool
  /-- The operand must be homed on the issuing die (R68, R234). -/
  localOnly : Bool
deriving DecidableEq, Repr

/-- A translation structure of a die (R156). -/
inductive TlbUnit where
  | die
  | fetch (core : Nat)
  | stack (core : Nat)
  | copy (core : Nat)
  | atm
  | rmt
deriving DecidableEq, Repr

/-- What a suspended thread waits for (R218). -/
inductive Wait where
  /-- R216: no pending token. -/
  | tokens
  /-- R188: a parked GROW, numbered in parking order, and the registers it adds. -/
  | parked (order need : Nat)
  /-- R156: the walk of a page. -/
  | walk (page : Nat)
  /-- R390: COUNT at least TARGET of the arrival word at a physical address. -/
  | arrival (pa : Nat)
  /-- R391: the word at a physical address differs from the expected value. -/
  | line (pa : Nat) (expected : Dword)
  /-- R379: the phase of the barrier at an offset of a workgroup's scratchpad differs. -/
  | barrier (uid off : Nat) (phase : Nat)
  /-- R368, R400: a place in the class of an engine. -/
  | place (cls : Nat)
  /-- R130: a free HRT slot. -/
  | slot
  /-- R124: a free entry of the order table. -/
  | order
  /-- R147: a free launch entry. -/
  | entry
  /-- R168: commands that were translated before, and launches whose RARRIVE to DONEVA was (R400). -/
  | commands (ids arrivals : List Nat)
  /-- R166: a place in the walk queue. -/
  | queue
  /-- R137: lines whose companion copy is being invalidated. -/
  | lines (ls : List Nat)
  /-- The wait has ended. -/
  | over
deriving DecidableEq, Repr

/-- A suspension (R218, R369). -/
structure Susp where
  why : Wait
  /-- Delivered clocks at which the thread began to wait. -/
  since : Nat
  /-- Delivered clocks the wait may last; none is no limit. -/
  limit : Option Nat
deriving DecidableEq, Repr

/-- One thread (R194 to R228). -/
structure Thread where
  pos : TPos
  /-- The address of its block. -/
  blk : Dword
  /-- Instruction offset in the block, 0 for the header. -/
  off : Nat
  /-- The LVS row (R211): 64 registers, of which ALLOC are the thread's. -/
  row : List Word
  /-- The working copy (R211). -/
  work : List Word
  /-- REGS (R210). -/
  regs : Nat
  /-- p0 to p6 (R211). -/
  preds : BitVec 7
  /-- STATUS[6:0] (R225). -/
  sticky : BitVec 7
  /-- STATUS[23:16] (R225). -/
  trapDepth : Nat
  trapCause : Word
  trapAddr : Dword
  retired : Dword
  /-- AGE (R206). -/
  age : Nat
  /-- R358: not ready at the next decision of the channel. -/
  yielded : Bool
  /-- LVS positions with a pending token (R201). -/
  pend : List Nat
  /-- Registers for which a token was issued in the current block: writes to them are discarded until it ends (R201). -/
  locked : List Nat
  /-- The stack cache, newest frame first (R214). -/
  cache : List CallFrame
  /-- Offset of the lowest frame byte in the spill stack; SPILL when it holds none (R215). -/
  sp : Nat
  susp : Option Susp
  /-- FLAGS[0] of a fault frame: suspended at least once in the current execution (R222). -/
  suspended : Bool
  /-- The deadline of the wait has passed (R369). -/
  expired : Bool
  /-- The reasons of failed walks of pages for an access, for the re-execution (R166). -/
  walkFail : List (Nat × Access × Byte)
  /-- R218: the working copy stands on the spill stack because the suspension store was full. -/
  spilled : Bool
  /-- R368: the flags that the suspended command has raised before it waits for a place. -/
  raised : Option (List Nat)
deriving DecidableEq, Repr

/-! ## Workgroups (chapters 05, 07, 11) -/

/-- What a workgroup is. -/
inductive WgKind where
  /-- A workgroup of a launch (R146): the launch entry. -/
  | launch (entry : Nat)
  /-- The task of an invocation (R111): its own handle. -/
  | task (self : Dword)
  /-- A supervisor (R143). -/
  | supervisor
  /-- The walker routine (R165). -/
  | walker
deriving DecidableEq, Repr

/-- A Stipple generator context (R300): the program words and where they were read, the descriptor it was loaded from, granule,
R, C, direction and cursor. -/
structure Gen where
  words : List Dword
  patva : Dword
  desc : Nat
  gran : Nat
  rows : Nat
  cols : Nat
  transposed : Bool
  cursor : Nat × Nat
deriving DecidableEq, Repr

/-- Where a workgroup is. -/
inductive Loc where
  /-- On a core, in a workgroup slot, since a raw time. -/
  | resident (core slot : Nat) (since : Nat)
  /-- Saved in its extent, in the order of saves (R182). -/
  | saved (order : Nat)
deriving DecidableEq, Repr

/-- One workgroup. Its unique number rises with first placement, so it is its age (R181). -/
structure Wg where
  uid : Nat
  die : Nat
  ctx : Nat
  kind : WgKind
  loc : Loc
  /-- Rank on the cluster, kept over a save (R178). -/
  rank : Nat
  prio : Nat
  /-- Cluster group: the number shared by its members, and CGSIZE (R177). -/
  group : Nat
  cgsize : Nat
  /-- Flat index (R146). -/
  flat : Nat
  dims : Nat × Nat × Nat
  grid : Nat × Nat × Nat
  regs0 : Nat
  stackc : Nat
  spill : Nat
  scratch : Nat
  acc : Nat
  /-- Spill extent: first 64 KiB unit and how many (R175); none for the walker. -/
  extent : Option (Nat × Nat)
  /-- Completion flags f0 to f11 (R200). -/
  flags : List Nat
  /-- The scratchpad allocation: offset and byte, unlisted bytes are zero. -/
  mem : NMap Byte
  /-- Accumulator tiles: word number tile × 16384 + row × 128 + column, unlisted words are zero. -/
  tiles : NMap Word
  /-- TSRC of each tile (R289). -/
  tsrc : List XVal
  /-- The four Stipple generator contexts (R300). -/
  gens : List (Option Gen)
  threads : List Thread
  /-- The forward handle of R121. -/
  forward : Dword
  /-- R182 step 1: no more bundles; a save is under way. -/
  stopping : Bool
  /-- R228, R232: ended; the scratchpad stays for outstanding commands. -/
  ended : Bool
  /-- R418: a proof workgroup reads PROOF and RETIRED for CYCLE (R190). -/
  proof : Bool
  /-- The place of its launch or invocation in the order of acceptance and admission (R191). -/
  order : Nat
  /-- P in the save header (R192). -/
  savedRot : Dword
deriving DecidableEq, Repr

/-- A bundle in flight (R209): its workgroup, its block with the words read for it (R316), whether it is a whole cohort at
its header (R208), its threads, and the last instruction that read CYCLE with the count at its issue (R419). -/
structure Bundle where
  uid : Nat
  channel : Nat
  blk : Dword
  words : List Word
  cohort : Bool
  tids : List Nat
  issued : Option (Nat × Nat)
deriving DecidableEq, Repr

/-! ## Engine commands (chapter 14, R368) -/

/-- A class of commands (R368, R400). -/
inductive Cls where
  | cpy | atm | rmt | mtx
deriving DecidableEq, Repr

/-- One side of a copy: a virtual address, or an offset of a workgroup's scratchpad. -/
inductive Side where
  | mem (va : Dword)
  | scr (uid off : Nat)
deriving DecidableEq, Repr

/-- A tensor descriptor as a command read it at issue (R283). -/
structure Desc where
  num : Nat
  /-- The 64 bytes as one number. -/
  raw : Nat
deriving DecidableEq, Repr

/-- A matrix-engine command (R400). -/
inductive MtxOp where
  | mma (zero sparse ta tb : Bool) (m n k : Nat) (da db : Desc) (oa ob oc : Nat × Nat) (tile gen : Nat)
  | drain (quant : Bool) (rm : Rm3) (sat : Bool) (stream : BitVec 8) (seed : Dword) (dd : Desc) (m n : Nat)
      (oacc odst : Nat × Nat) (tile : Nat) (scale : XVal)
  | txp (m n : Nat) (osrc odst : Nat × Nat) (src dst : Nat)
  | patld (c : Nat) (gen : Gen)
  | patgen (t : Bool) (c : Nat) (uid off cap limit : Nat)
  | patx (t : Bool) (c c2 : Nat) (uid off cap start limit : Nat)
  | patpart (t : Bool) (c : Nat) (uid off n : Nat)
  | patptr (t el : Bool) (c : Nat) (uid off cap : Nat)
  | patsave (c : Nat) (uid off : Nat)
  | patrest (c : Nat) (uid off : Nat)
deriving DecidableEq, Repr

/-- Bytes of an element of a gather or scatter still to move: its number, its index once it is read (R249), and the first byte
and count. -/
structure Elem where
  i : Nat
  idx : Option Nat
  lo : Nat
  n : Nat
deriving DecidableEq, Repr

/-- A word of scratchpad that an MTX command writes whole (R239): its place, the bits that the command covers and their values, and
the word as the engine has read it, which gives the other bits (R405). -/
structure TileWord where
  uid : Nat
  off : Nat
  mask : Word
  value : Word
  base : Word
deriving DecidableEq, Repr

/-- What a command still has to do. -/
inductive Body where
  /-- R381: the ranges, the byte count, the barrier of BA, the pieces still to move as (offset, length). -/
  | copy (src dst : Side) (n : Nat) (bar : Option (Nat × Nat)) (left : List (Nat × Nat))
  /-- R382: the descriptors, origins, shape, barrier, and the parts of tile rows still to move as (row, first byte, length). -/
  | copyt (src dst : Desc) (os od : Nat × Nat) (m n : Nat) (bar : Option (Nat × Nat)) (left : List (Nat × Nat × Nat))
  /-- R383: scatter or gather, base, index list, data, element size, elements still to move. -/
  | gather (scatter : Bool) (base : Dword) (iuid ioff duid doff : Nat) (size : Nat) (left : List Elem)
  /-- R384: pages still to warm, each with the bytes of the range in it. -/
  | prefetch (left : List (Nat × Nat))
  /-- R385: a page-service request. -/
  | pagein (page n : Nat)
  /-- R386. -/
  | atomg (op : AtomOp) (pa : Nat) (y : Dword)
  /-- R387: 32-bit or 64-bit. -/
  | casg (wide : Bool) (pa : Nat) (old new : Dword)
  /-- R389. -/
  | arm (pa : Nat) (target : Word)
  /-- R397. -/
  | xcvt (pa : Nat) (f64 : Bool) (idx : Nat)
  /-- R396: physical addresses of the lines still to clear. -/
  | onceclr (left : List Nat)
  /-- R393, R395: its message is among the die's outstanding ones. -/
  | remote
  /-- R131: the scratchpad destination; then the words of the reply in the landing line that are still to be written, each with its offset. -/
  | hget (uid off : Nat) (reply : Option (List (Nat × List Byte)))
  | mtx (op : MtxOp)
  /-- An accepted MTX command writes its words of scratchpad (R239). -/
  | spread (left : List TileWord)
  /-- The effect is complete; the token and the flags remain (R368). -/
  | finished
deriving DecidableEq, Repr

/-- One engine command (R368). -/
structure Cmd where
  id : Nat
  uid : Nat
  tid : Nat
  die : Nat
  core : Nat
  ctx : Nat
  cls : Cls
  /-- Flags it counts against (R200). -/
  flags : List Nat
  /-- First LVS position of the token and its registers, 1 or 2 (R201). -/
  token : Option (Nat × Nat)
  body : Body
  /-- The token's value as far as it is known. -/
  result : Dword
  /-- Failed granules counted so far: side and page (R161). -/
  bad : List (Bool × Nat)
  /-- STATUS bits an engine sets at completion (R277). -/
  sticky : BitVec 7
  /-- Pages it was translated with (R168). -/
  pages : List Nat
  /-- A page whose walk it waits for, and the reasons of those that failed. -/
  walking : Option Nat
  walkFail : List (Nat × Access × Byte)
  /-- R179: the 4 KiB granules reached so far, by side, with the bytes charged. -/
  metered : List (Bool × Nat × Nat)
  /-- Words of scratchpad that the command has read ahead, before it is accepted or writes them: workgroup, offset and value; and words of
  main memory, by physical address (R239). -/
  early : List (Nat × Nat × Word)
  earlyMem : List (Nat × Word)
  /-- Commands whose writes come before it, whatever their path (R239, R240). -/
  past : List Nat
  /-- R378: destination granules, or rows of a tile in scratchpad, whose bytes have left PENDING. -/
  barred : List Nat
  /-- An L2 atomic that acquires: the thread's later accesses come after it (R243, R244). -/
  acq : Bool
deriving DecidableEq, Repr

/-! ## Messages and remote operations (chapters 02 to 04) -/

/-- A message at a die: its words (R45), the unit it arrived on, the flit that brought it (R48), and the raw time of its arrival
(R77). -/
structure Msg where
  ws : List Dword
  unit : Option Nat
  flit : Nat
  since : Nat
  /-- The dateline bit with which it came, and that of the hop it waits for (R42). -/
  dl : Bool
  out : Bool
  /-- It stands in the buffer of the flit that brought it, and this die has not routed it yet (R39, R48). -/
  held : Bool
  note : Note
deriving DecidableEq, Repr

/-- What follows an acknowledgement or an abandonment (R92, R112, R122, R127). -/
inductive After where
  | none
  | command (id : Nat)
  /-- The update carried a handle's final state: the completion arrival to this word follows: its physical address and the virtual one
  that the invocation named (R112, R105). -/
  | arrival (arrpa : Nat) (va : Dword)
  /-- A record move of this handle (R122). -/
  | moved (handle : Dword)
  /-- The new host told the origin: the old host is told next (R122). -/
  | toldOrigin (handle : Dword) (oldHost : Nat)
  /-- An INVOKE or INVOKEH for this new handle (R127 DELIVERY). -/
  | invoked (handle : Dword)
  /-- The arrival of a launch: its entry is freed when this has been sent (R171). -/
  | launch (id : Nat)
deriving DecidableEq, Repr

/-- A message of an issuing die under a tag of its own: not yet sent, or not yet answered (R74, R76). It is sent when the budgets and a
drain let it. -/
structure Outst where
  ctx : Nat
  seq : Nat
  ws : List Dword
  /-- The home; none for a target that translated to NOTRESIDENT (R159). -/
  dst : Option Nat
  /-- Whether it has left the die, the raw time from which its retransmission time runs, how many re-sendings have become due, and
  whether one waits for a budget (R61, R76). -/
  sent : Bool
  sentAt : Nat
  resends : Nat
  due : Bool
  /-- It writes no error-queue entry: its context has ended or did not exist (R142). -/
  quiet : Bool
  /-- Retransmission time in µs (R76). -/
  retrans : Nat
  /-- THREAD of R102, the virtual address and the message kind for an error-queue entry. -/
  thread : Word
  va : Dword
  kind : Nat
  after : After
  note : Note
deriving DecidableEq, Repr

/-- A deduplication window (R78): the sequences seen and their statuses. -/
structure Window where
  src : Nat
  ctx : Nat
  lwm : Nat
  seen : NMap Nat
  lastAt : Nat
deriving DecidableEq, Repr

/-- A read record (R88): the sequence of its request, the command, the physical address of each landing line, the arrival word,
the byte count, and what has come. -/
structure ReadRec where
  ctx : Nat
  seq : Nat
  cmd : Nat
  landing : List Nat
  arrival : Nat
  n : Nat
  got : List Nat
  fail7 : Bool
  conflict : Bool
  allBenign : Bool
deriving DecidableEq, Repr

/-- A message that waits for its sequence (R74): its kind, home, words from offset 16 on with a tag of zero, what an error-queue entry
needs, what follows, and the read record of an RREAD. -/
structure Unsent where
  ctx : Nat
  kind : Nat
  dst : Option Nat
  body : List Dword
  thread : Word
  va : Dword
  after : After
  note : Note
  read : Option ReadRec
deriving DecidableEq, Repr

/-- A handle-resolution-table slot (R116). -/
structure HrtSlot where
  used : Bool
  ctx : Nat
  state : Nat
  gen : Nat
  loc : Nat
  locv : Bool
  ver : Nat
  cause : Byte
  fcode : Byte
  root : Dword
  /-- Messages held until LOCV is 1 (R117), and the THREAD of an HFREE among them (R133). -/
  held : List Msg
  freeing : Option Word
deriving DecidableEq, Repr

/-- An invocation as its message brought it (R134): a queued INVOKEH, or the task of a record. -/
structure Task where
  newh : Dword
  fn : Nat
  args : List Byte
  arrpa : Nat
  /-- The virtual address of the completion word, as it was named (R105). -/
  arrva : Dword
  /-- ADDRH, zero for an INVOKE; BASE and ISQ (R124); ISSUER. -/
  addrh : Dword
  base : Nat
  isq : Nat
  issuer : Word
deriving DecidableEq, Repr

/-- A cursor of an inbox (R125): issuing die, BASE, EXPECT. -/
structure Cursor where
  die : Nat
  base : Nat
  expect : Nat
deriving DecidableEq, Repr

/-- Record moves under way (R122): the forward handle, the die they were sent to, the die that they go to as far as the package knows, and
the cursors still to send. -/
structure Move where
  fwd : Dword
  dst : Nat
  toward : Nat
  left : List (List Cursor)
deriving DecidableEq, Repr

/-- A host record (R116). -/
structure HostRec where
  h : Dword
  state : Nat
  resb : Nat
  result : List Byte
  arrpa : Nat
  arrva : Dword
  cause : Byte
  fcode : Byte
  root : Dword
  ver : Nat
  aliasOf : Option Dword
  aliases : List Dword
  inbox : List Task
  cursors : List Cursor
  /-- The task, and UPRES, of an invocation admitted to the distributor (R125), in order of admission. -/
  queued : Option (Nat × Task × List Byte)
  /-- The workgroup of the task that runs. -/
  running : Option Nat
  /-- Raw time of its admission, and whether it has aged (R173). -/
  lastPlaced : Nat
  aged : Bool
  /-- R133: HFREE arrived. -/
  freed : Bool
  /-- R122: the LAST record move has not arrived; the old host. -/
  incoming : Option Nat
  moving : Option Move
deriving DecidableEq, Repr

/-- A forwarding record (R122): what it was a record of, and where that went. -/
structure Forward where
  h : Dword
  loc : Nat
  resb : Nat
  arrpa : Nat
  arrva : Dword
  ver : Nat
deriving DecidableEq, Repr

/-- A location-cache entry (R116). -/
structure LocEntry where
  h : Dword
  loc : Nat
  ver : Nat
  state : Nat
  cause : Byte
  fcode : Byte
deriving DecidableEq, Repr

/-- An order-table entry (R124): issuing workgroup and thread, addressed handle, BASE and NEXT. -/
structure OrderEnt where
  uid : Nat
  tid : Nat
  h : Dword
  base : Nat
  next : Nat
deriving DecidableEq, Repr

/-! ## Dies -/

/-- A loaded key slot of a link (R51). -/
structure Key where
  key : List Byte
  salt : List Byte
deriving DecidableEq, Repr

/-- One end of a link: a Talbo port (units 0 to 11) or a die-to-die link (units 12 to 14) (R46 to R59). -/
structure Link where
  up : Bool
  txSlot : Bool
  tx : List (Option Key)
  rx : List (Option Key)
  expiring : Bool
  /-- Flits protected by the key of each transmit slot (R55). -/
  uses : List Nat
  /-- Invocation counters: of the next flit sent, of the last flit accepted (none before the first) (R51). -/
  txCtr : Nat
  rxCtr : Option Nat
  /-- SENT, FREED of the peer as last received, ACC; one per virtual channel (R47 to R49). FREED of this end is ACC less the
  flits whose messages are still at the die. -/
  sent : List Nat
  peerFreed : List Nat
  acc : List Nat
  /-- RXSLOT last received (R47). -/
  peerRx : BitVec 2
  /-- R54: a retire flit is due; flits since the last retire flit. -/
  dueRetire : Bool
  sinceRetire : Option Nat
  /-- LINKERR (R59). -/
  crcFail : Nat
  authFail : Nat
  malformed : Nat
  lostFlits : Nat
  /-- Raw times of authentication failures of the last millisecond (R56). -/
  authTimes : List Nat
  /-- Messages waiting for the link, and how many flit times each virtual channel has waited (R44). -/
  queue : List Msg
  waited : List Nat
  /-- Flits on the wire toward the other end. -/
  wire : List Flit
deriving DecidableEq, Repr

/-- A cluster's delivered clock (R21, R24). -/
structure Cluster where
  /-- One edge in `rate` is delivered. -/
  rate : Nat
  /-- Raw edges since the rate last changed. -/
  phase : Nat
  /-- Delivered clocks since the die last left reset (CYCLE). -/
  delivered : Nat
  /-- Raw time at which the droop response ends (R21). -/
  droopUntil : Option Nat
  throttle : Bool
  /-- Raw time since which THROTTLE has held (R187). -/
  throttleSince : Nat
  /-- R187: the switch has been made for this throttling. -/
  switched : Bool
deriving DecidableEq, Repr

/-- A core: THERMSTAT with its hold timer (R22, R23), the active-block table and the overflow list (R203, R204), and the
numbering of parked GROWs (R188). -/
structure Core where
  hot : Bool
  alarm : Bool
  droopCnt : Nat
  temp : Nat
  hold : Nat
  /-- A droop alarm since the last sample. -/
  alarmed : Bool
  /-- Entries: resumption address, and for each channel the decisions since a thread was ready there. -/
  abt : List (Dword × List Nat)
  overflow : List Dword
deriving DecidableEq, Repr

/-- Why a context is ending (R142, R431). -/
inductive Ending where
  | destroyed | aborted
deriving DecidableEq, Repr

/-- A context on a die (R140, R141, R186). -/
structure Ctx where
  ctx : Nat
  root : Nat
  seed : Dword
  retrans : Nat
  trap : Dword
  fab : Nat
  upd : Nat
  dram : Nat
  /-- What remains of the three budgets in this period (R60, R61, R179). -/
  fabLeft : Int
  updLeft : Int
  dramLeft : Int
  /-- The tensor descriptor table, 16 KiB (R282). -/
  tdt : NMap Byte
  /-- The invocation table: its bytes and entry count (R107). -/
  invt : List Byte
  invcnt : Nat
  errqVa : Dword
  /-- ERRQ (R103). -/
  ovf : Bool
  count : Nat
  head : Nat
  spillVa : Dword
  proof : Bool
  supCore : Nat
  /-- P, the rotation pointer (R191). -/
  rot : Dword
  /-- R191: the address, the workgroup and the thread at which the channel waits. -/
  hold : Option (Nat × Nat × Nat)
  /-- Every waiting proof thread was passed over (R191). -/
  passed : Bool
  /-- It ends: its work has stopped, and its outstanding messages run to their end (R142 step 3). -/
  ending : Option Ending
deriving DecidableEq, Repr

/-- The fields of a launch record (R146) after LAUNCH accepted it. -/
structure Launch where
  id : Nat
  ctx : Nat
  entry : Dword
  grid : Nat × Nat × Nat
  dims : Nat × Nat × Nat
  regs : Nat
  stackc : Nat
  spill : Nat
  scratch : Nat
  acc : Nat
  cgsize : Nat
  prio : Nat
  arg : Dword
  /-- Physical address and target of each dependence word. -/
  deps : List (Nat × Nat)
  doneVa : Dword
  donePa : Nat
  /-- Order in which it became eligible (R172, R173). -/
  eligible : Option Nat
  /-- Next flat index to place, workgroups that have ended. -/
  next : Nat
  ended : Nat
  /-- Raw time of its last placement or of its eligibility, and whether it has aged (R173). -/
  lastPlaced : Nat
  aged : Bool
deriving DecidableEq, Repr

/-- Who waits for a walk (R166). -/
inductive Requester where
  | thread (uid tid : Nat)
  | command (id : Nat)
deriving DecidableEq, Repr

/-- A queued or running walk (R166, R420). -/
structure Walk where
  ctx : Nat
  page : Nat
  joined : List (Requester × TlbUnit × Access)
  /-- The walker thread that holds it. -/
  holder : Option (Nat × Nat)
  /-- A TLBINV took effect since it began (R168). -/
  overtaken : Bool
deriving DecidableEq, Repr

/-- A TLB entry (R156, R158): tagged by context and page size. -/
structure TlbEnt where
  unit : TlbUnit
  ctx : Nat
  level : Nat
  vpn : Nat
  leaf : Dword
deriving DecidableEq, Repr

/-- The counters of R39, R59, R63 and R106. -/
structure Counters where
  remdup : Word
  rembenign : Word
  remconflict : Word
  conflictpa : Dword
  remlate : Word
  remstale : Word
  remnowin : Word
  remheld : Word
  unroute : Word
  e2efail : Word
  msgmalf : Word
deriving DecidableEq, Repr

/-- One compute die (R13). -/
structure Die where
  inc : BitVec 4
  /-- Recorded incarnations of peer dies (R65). -/
  peerInc : NMap Nat
  /-- R81: raw time until which requests and updates are discarded. -/
  quarantine : Option Nat
  /-- R66: no request or update is admitted. -/
  draining : Bool
  /-- Raw time at which the budget period began (R60). -/
  periodAt : Nat
  /-- Raw time at which the sample period began (R21). -/
  sampleAt : Nat
  /-- R64: a JOIN of this die is not yet acknowledged everywhere: no context work runs. -/
  joining : Bool
  cores : List Core
  clusters : List Cluster
  links : List Link
  counters : Counters
  /-- Messages to be routed, and messages that have arrived for this die. -/
  transit : List Msg
  inbox : List Msg
  /-- The round-robin pointer among tied ports (R38). -/
  robin : Nat
  outs : List Outst
  unsent : List Unsent
  windows : List Window
  reads : List ReadRec
  /-- Next sequence of each context number (R72); it outlives the context (R142). -/
  seqs : List Nat
  hrt : NMap HrtSlot
  hosts : List HostRec
  forwards : List Forward
  locs : List LocEntry
  orders : List OrderEnt
  ctxs : List Ctx
  launches : List Launch
  tlb : List TlbEnt
  walks : List Walk
  /-- Retired frames (R164). -/
  retired : List Nat
deriving DecidableEq, Repr

/-- An entry for the companion's event ring (R148). -/
structure EvRec where
  type : Nat
  cause : Nat
  ctx : Nat
  die : Nat
  time : Nat
  va : Dword
  detail0 : Dword
  detail1 : Dword
deriving DecidableEq, Repr

/-- An outstanding page-service request (R149). -/
structure PageReq where
  id : Nat
  die : Nat
  ctx : Nat
  page : Nat
  n : Nat
  since : Nat
  cmds : List Nat
deriving DecidableEq, Repr

/-- What a waiting write keeps an order with: nothing but its lines, the writes of a Penwyn port (R138), or the entries of the error queue of
a context on a die, whose COUNT rises with it (R103). -/
inductive PostOrder where
  | none
  | port (port : Bool)
  | errq (die ctx : Nat)
deriving DecidableEq, Repr

/-- A write that waits at its home slice for an invalidation (R137). -/
structure Posted where
  pa : Nat
  bytes : List Byte
  order : PostOrder
deriving DecidableEq, Repr

/-- A word of scratchpad that an engine command has written, and that other engine paths may still read as it was (R240, R242). -/
structure Stale where
  /-- The path of the command, numbered as in R242, its number, and the thread that issued it. -/
  path : Nat
  cmd : Nat
  by_ : Nat × Nat
  /-- What its completion is observed by (R240): the token, the flags, and the barrier, once a phase that it helped to complete has
  advanced. -/
  token : Option (Nat × Nat)
  flags : List Nat
  bar : Option (Nat × Nat)
  phased : Bool
  /-- The place of the word, and its value before. -/
  uid : Nat
  off : Nat
  old : Word
  /-- The threads that have observed the completion. -/
  seen : List (Nat × Nat)
  /-- The threads that read it no longer as it was, each on a path. -/
  known : List (Nat × Nat × Nat)
  /-- The workgroups for which the write is performed (R237). -/
  wgs : List Nat
deriving DecidableEq, Repr

/-- MODEL: an access of a thread on the path THR, made after it had observed the completion of a command: the command, the thread, and the
bytes (R239, R240). -/
structure Touch where
  cmd : Nat
  by_ : Nat × Nat
  side : Side
  n : Nat
deriving DecidableEq, Repr

/-- The dies, the memory and everything the programs act on. -/
structure Dev where
  /-- Raw edges of the arithmetic clock since cold reset (R5, R17). -/
  raw : Nat
  /-- MODEL: counts steps and free values drawn. -/
  tick : Nat
  free : Nat
  /-- The package identifier (R14) and the axis sizes (R34). -/
  pkg : BitVec 12
  torus : Nat × Nat × Nat
  /-- The numbers of the dies that the package has (R15). -/
  present : List Nat
  /-- The dies by number; one that is not present never leaves reset. -/
  d0 : Die
  d1 : Die
  d2 : Die
  d3 : Die
  /-- Main memory, device and companion, by physical address (R235). -/
  mem : List Host.Cell
  /-- Word numbers (address ÷ 4) whose written bit is set, lines (address ÷ 64) whose closed bit is set (R83). -/
  written : List Nat
  closed : List Nat
  /-- Companion sharer bits of lines (R137), and lines whose invalidation the companion has not acknowledged. -/
  sharers : NMap (BitVec 2)
  invalidating : List Nat
  posted : List Posted
  stale : List Stale
  touched : List Touch
  /-- Whether PWN A and PWN B are up (R135). -/
  pwnA : Bool
  pwnB : Bool
  wgs : List Wg
  flight : List Bundle
  cmds : List Cmd
  pageReqs : List PageReq
  /-- Contexts live on the package, with the dies they exist on and their measurement (R140). -/
  live : List (Nat × List Nat × List Byte)
  /-- Records and requests on their way to the management controller (R148). -/
  records : List EvRec
  /-- Dies that an internal error makes reset (R32, R164): die and cause. -/
  resets : List (Nat × Nat)
  /-- R53: registration flits whose key check value did not match, as the dies have reported them to the management controller: die and
  port. -/
  keyReports : List (Nat × Nat)
  /-- R54: transmit slots that the dies have freed, as they have reported them to the management controller: die, port and slot. -/
  slotReports : List (Nat × Nat × Nat)
  /-- R173: a placement pass is due on these dies. -/
  passDue : List Nat
  /-- Next numbers of workgroups, commands and events of order. -/
  nextUid : Nat
  nextCmd : Nat
  nextSeq : Nat
deriving DecidableEq, Repr

/-! ## The management controller (chapters 01, 02, 05) -/

/-- A management request of the companion (R139). -/
structure MgmtReq where
  /-- SRC of the message. -/
  src : Nat
  reqid : Dword
  op : Nat
  params : List Dword
deriving DecidableEq, Repr

/-- A management response (R139, R432). -/
structure MgmtResp where
  reqid : Dword
  status : Nat
  offset : Nat
  results : List Byte
deriving DecidableEq, Repr

/-- The companion's event ring (R148). -/
structure Ring where
  base : Nat
  size : Nat
  prod : Nat
  cons : Nat
deriving DecidableEq, Repr

/-- The image that runs (R27, R30). -/
structure Running where
  slotB : Bool
  svn : Nat
  keySlot : Nat
  digest : List Byte
deriving DecidableEq, Repr

/-- A JOIN not yet acknowledged (R64). -/
structure JoinOut where
  die : Nat
  inc : Nat
  peer : Nat
  sentAt : Nat
  resends : Nat
deriving DecidableEq, Repr

/-- The management controller of die 0 (R25). -/
structure Mgmt where
  /-- Step of R31 in progress, 1 to 8. -/
  bootStep : Nat
  /-- ALERT_N is low. -/
  alert : Bool
  /-- What is reported over I3C (R16, R27, R31). -/
  report : List Nat
  running : Option Running
  /-- R27: the fused minimum security version. -/
  minSvn : Nat
  /-- R29: reads of the fused secret are blocked. -/
  secretBlocked : Bool
  /-- R26: standby-powered incarnation registers and the boot flash record. -/
  incs : List Nat
  flashIncs : List Nat
  /-- R66: increments since the last drain, and resets and increments of the bring-up that wait for one. -/
  drainCount : List Nat
  pendingResets : List Nat
  pendingIncs : List Nat
  /-- R66: a drain is asked for or running; packages that have reported. -/
  drain : Bool
  reports : List Nat
  /-- R20: the limit in watts, the last 1 ms average in milliwatts; R24: the stage of the limit and since when. -/
  limit : Nat
  average : Nat
  stage : Nat
  stageSince : Nat
  /-- Requests not yet answered, in arrival order; responses sent. -/
  requests : List MgmtReq
  /-- R140: the creation block that a CREATE in progress has read. -/
  creating : Option (List Byte)
  responses : List MgmtResp
  /-- The messages sent to the companion over the Penwyn Link: management responses and DRAIN reports (R139, R66). -/
  outbox : List (List Dword)
  ring : Option Ring
  /-- Entries held while the ring is full or absent, and LOST (R148). -/
  held : List EvRec
  lost : Bool
  joins : List JoinOut
  /-- The pins GA[11:0], and the outcome of the hardware's part of the bring-up step under way (R31). -/
  pinGA : BitVec 12
  stepOk : Bool
deriving DecidableEq, Repr

/-- What happens next: an event, the next instruction of a bundle in flight, a request served by the firmware of a supervisor (R430),
or a message of the companion that arrives over the Penwyn Link (R139). -/
inductive Choice where
  | companion (ws : List Dword)
  | event (i : Instr)
  | bundle (k : Nat)
  | firmware (uid : Nat)
deriving DecidableEq, Repr

/-- The machine. -/
structure State where
  mgmt : Mgmt
  dev : Dev
  /-- What the outside world and the device choose to happen next; empty leaves it to the default order of Step. -/
  agenda : List Choice
deriving DecidableEq, Repr

/-! ## Why a step stops -/

/-- A named stop of the machine. -/
inductive Fault where
  /-- A program instruction was given to `exec` while no bundle in flight has a thread to execute it. Safe: no hardware
  step answers to it, and `step` never does this. -/
  | noThread
deriving DecidableEq, Repr

/-- Why the model has no meaning for an instruction. -/
inductive Refusal where
  /-- The instruction has no meaning in the model yet. Safe: the model stops where the hardware goes on. -/
  | notModelled (mnemonic : String)
deriving DecidableEq, Repr

/-! ## Reset -/

def Counters.reset : Counters :=
  { remdup := 0, rembenign := 0, remconflict := 0, conflictpa := 0, remlate := 0, remstale := 0, remnowin := 0,
    remheld := 0, unroute := 0, e2efail := 0, msgmalf := 0 }

/-- R58, R59: the reset values of LINKSTAT and LINKERR; a link that is down holds no key and no credit (R51, R52). -/
def Link.reset : Link :=
  { up := false, txSlot := false, tx := [none, none], rx := [none, none], expiring := false, uses := [0, 0], txCtr := 0,
    rxCtr := none, sent := List.replicate 8 0, peerFreed := List.replicate 8 0,
    acc := List.replicate 8 0, peerRx := 0, dueRetire := false, sinceRetire := none, crcFail := 0,
    authFail := 0, malformed := 0, lostFlits := 0, authTimes := [], queue := [], waited := List.replicate 8 0,
    wire := [] }

def Cluster.reset : Cluster :=
  { rate := 1, phase := 0, delivered := 0, droopUntil := none, throttle := false, throttleSince := 0,
    switched := false }

/-- R22: THERMSTAT is zero at reset. -/
def Core.reset : Core :=
  { hot := false, alarm := false, droopCnt := 0, temp := 0, hold := 0, alarmed := false, abt := [], overflow := [] }

/-- DESIGN CHOICE (log 1). -/
def Die.reset : Die :=
  { inc := 0, peerInc := [], quarantine := none, draining := false, periodAt := 0, sampleAt := 0, joining := false, cores := List.replicate 72 Core.reset,
    clusters := List.replicate 9 Cluster.reset, links := List.replicate 15 Link.reset, counters := Counters.reset,
    transit := [], inbox := [], robin := 0, outs := [], unsent := [], windows := [], reads := [], seqs := List.replicate 64 0,
    hrt := [], hosts := [], forwards := [], locs := [], orders := [], ctxs := [], launches := [], tlb := [],
    walks := [], retired := [] }

/-- DESIGN CHOICE (log 1). -/
def Dev.reset : Dev :=
  { raw := 0, tick := 0, free := 0, pkg := 0, torus := (0, 0, 0), present := [0, 1, 2, 3], d0 := Die.reset, d1 := Die.reset, d2 := Die.reset,
    d3 := Die.reset, mem := [], written := [], closed := [], sharers := [], invalidating := [], posted := [], stale := [], touched := [], pwnA := false,
    pwnB := false, wgs := [], flight := [], cmds := [], pageReqs := [], live := [], records := [], resets := [], keyReports := [], slotReports := [],
    passDue := [], nextUid := 0, nextCmd := 0, nextSeq := 0 }

/-- Step 1 of R31 with nothing done yet; R20: the default limit is 2.7 kW. DESIGN CHOICE (log 1). -/
def Mgmt.reset : Mgmt :=
  { bootStep := 1, alert := false, report := [], running := none, minSvn := 0, secretBlocked := false,
    incs := [0, 0, 0, 0], flashIncs := [0, 0, 0, 0], drainCount := [0, 0, 0, 0], pendingResets := [], pendingIncs := [], drain := false,
    reports := [], limit := 2700, average := 0, stage := 0, stageSince := 0, requests := [], creating := none, responses := [], outbox := [],
    ring := none, held := [], lost := false, joins := [], pinGA := 0, stepOk := true }

/-- The machine right after a cold reset begins (R31): step 1, nothing loaded, memory with nothing listed. -/
def State.reset : State := { mgmt := Mgmt.reset, dev := Dev.reset, agenda := [] }

end Sys2Proof.Machine
end

