-- ==== Sys2Proof/Machine/Mem.lean ====
section
/-!
DEFINITION. The dies, contexts, workgroups and threads of the device by number; main memory with its written bits, closed
bits and sharer fields (R83, R137, R235); scratchpad (R231); time (R5, R17); free values; error records.
-/

namespace Sys2Proof.Machine

/-! ## Dies and what they hold -/

/-- Die `n` of the package. -/
def Dev.die (d : Dev) (n : Nat) : Die :=
  match n with
  | 0 => d.d0
  | 1 => d.d1
  | 2 => d.d2
  | _ => d.d3
/-- The device with die `n` replaced; a number above 3 names no die. -/
def Dev.setDie (d : Dev) (n : Nat) (x : Die) : Dev :=
  match n with
  | 0 => { d with d0 := x }
  | 1 => { d with d1 := x }
  | 2 => { d with d2 := x }
  | 3 => { d with d3 := x }
  | _ => d
def Dev.modDie (d : Dev) (n : Nat) (f : Die → Die) : Dev := d.setDie n (f (d.die n))

/-- R14: the die identifier of die `n`. -/
def Dev.dieId (d : Dev) (n : Nat) : Nat := d.pkg.toNat * 4 + n % 4
/-- Whether a die identifier names a die of this package. -/
def Dev.isHere (d : Dev) (id : Nat) : Bool := id / 4 == d.pkg.toNat
/-- R34, R109: every coordinate of a die identifier lies below its axis size. -/
def Dev.inTorus (d : Dev) (id : Nat) : Bool :=
  decide (id < 16384 ∧ bits id 10 4 < d.torus.1 ∧ bits id 6 4 < d.torus.2.1 ∧ bits id 2 4 < d.torus.2.2)

def Die.core (x : Die) (n : Nat) : Core := (x.cores[n]?).getD Core.reset
def Die.modCore (x : Die) (n : Nat) (f : Core → Core) : Die := { x with cores := updAt x.cores n f }
def Die.cluster (x : Die) (n : Nat) : Cluster := (x.clusters[n]?).getD Cluster.reset
def Die.modCluster (x : Die) (n : Nat) (f : Cluster → Cluster) : Die := { x with clusters := updAt x.clusters n f }
def Die.link (x : Die) (n : Nat) : Link := (x.links[n]?).getD Link.reset
def Die.modLink (x : Die) (n : Nat) (f : Link → Link) : Die := { x with links := updAt x.links n f }
def Die.count (x : Die) (f : Counters → Counters) : Die := { x with counters := f x.counters }

/-- R106: a 32-bit counter saturates. -/
def satInc (c : Word) : Word := if c = 0xFFFF_FFFF#32 then c else c + 1
/-- R59: a LINKERR counter saturates at 255. -/
def satInc8 (n k : Nat) : Nat := min 255 (n + k)

/-! ## Contexts -/

def Die.ctx? (x : Die) (c : Nat) : Option Ctx := x.ctxs.find? fun k => k.ctx == c
def Die.modCtx (x : Die) (c : Nat) (f : Ctx → Ctx) : Die :=
  { x with ctxs := x.ctxs.map fun k => if k.ctx = c then f k else k }
def Dev.ctx? (d : Dev) (n c : Nat) : Option Ctx := (d.die n).ctx? c
def Dev.modCtx (d : Dev) (n c : Nat) (f : Ctx → Ctx) : Dev := d.modDie n fun x => x.modCtx c f

/-! ## Workgroups, threads, commands -/

def Dev.wg? (d : Dev) (uid : Nat) : Option Wg := d.wgs.find? fun w => w.uid == uid
def Dev.modWg (d : Dev) (uid : Nat) (f : Wg → Wg) : Dev :=
  { d with wgs := d.wgs.map fun w => if w.uid = uid then f w else w }
def Wg.modThread (w : Wg) (i : Nat) (f : Thread → Thread) : Wg := { w with threads := updAt w.threads i f }
def Dev.modThread (d : Dev) (uid i : Nat) (f : Thread → Thread) : Dev := d.modWg uid fun w => w.modThread i f
def Dev.thread? (d : Dev) (uid i : Nat) : Option Thread := (d.wg? uid).bind fun w => w.threads[i]?
def Dev.cmd? (d : Dev) (id : Nat) : Option Cmd := d.cmds.find? fun c => c.id == id
def Dev.modCmd (d : Dev) (id : Nat) (f : Cmd → Cmd) : Dev :=
  { d with cmds := d.cmds.map fun c => if c.id = id then f c else c }

/-- The core of a resident workgroup; a saved one has none and answers its rank. -/
def Wg.core (w : Wg) : Nat :=
  match w.loc with
  | .resident core _ _ => core
  | .saved _ => w.rank
def Wg.slot (w : Wg) : Nat :=
  match w.loc with
  | .resident _ slot _ => slot
  | .saved _ => 0
def Wg.isResident (w : Wg) : Bool :=
  match w.loc with
  | .resident _ _ _ => true
  | .saved _ => false
/-- Resident with threads of its own: it holds a slot, threads, registers and tiles. -/
def Wg.live (w : Wg) : Bool := w.isResident && !w.ended
/-- R196, R190: the selector channel of a workgroup. -/
def Wg.channel (w : Wg) : Nat := if w.proof then 0 else w.slot % 4
def Wg.cluster (w : Wg) : Nat := w.core / 8
/-- R102: the THREAD field of a thread. -/
def Wg.threadField (w : Wg) (tid : Nat) : Word := BitVec.ofNat 32 (tid % 4096 + 4096 * w.slot + 262144 * w.core)
/-- R190: supervisors and the walker are no proof workgroups, are never pre-empted and never evicted (R143, R165). -/
def Wg.isService (w : Wg) : Bool := w.kind == .supervisor || w.kind == .walker

/-! ## Time (R5, R17, R24) and free values -/

/-- R102: nanoseconds since cold reset, of the 1.9 GHz edges. -/
def Dev.ns (d : Dev) : Nat := d.raw * 10 / 19
/-- Raw edges in a number of microseconds. -/
def rawOfUs (us : Nat) : Nat := us * 1900
/-- Delivered clocks of the core's cluster (R17). -/
def Dev.clock (d : Dev) (die core : Nat) : Nat := ((d.die die).cluster (core / 8)).delivered
/-- The next free value; the counter advances. DESIGN CHOICE (log 7). -/
def Dev.draw (d : Dev) : Dword × Dev := (Config.freeValue d.free, { d with free := d.free + 1 })

/-! ## Error records -/

/-- R148: a record for the companion, on its way to the management controller. -/
def Dev.record (d : Dev) (cause ctx die : Nat) (va detail0 detail1 : Dword) : Dev :=
  { d with records := d.records ++
      [{ type := 1, cause := cause, ctx := ctx, die := d.dieId die, time := d.ns, va := va, detail0 := detail0,
         detail1 := detail1 }] }

/-! ## Main memory -/

/-- R235: a companion address. -/
def isCompanion (pa : Nat) : Bool := decide (2 ^ 51 ≤ pa)
/-- R235: the home die of a device address. -/
def homeOf (pa : Nat) : Nat := bits pa 37 14
/-- R155: the reserved region of a die. -/
def isReserved (pa : Nat) : Bool := !isCompanion pa && decide (0x1F_0000_0000 ≤ pa % 2 ^ 37)
def lineOf (pa : Nat) : Nat := pa / 64
/-- R164: the frame of an address is retired at its home. -/
def Dev.isRetired (d : Dev) (pa : Nat) : Bool :=
  !isCompanion pa && d.isHere (homeOf pa) && (d.die (homeOf pa % 4)).retired.contains (pa / 4096)

/-- R137: a write to a line whose sharer field is not zero invalidates the companion's copy. -/
def Dev.invalidate (d : Dev) (line : Nat) : Dev :=
  if getKey 0#2 d.sharers line = 0#2 then d
  else { d with sharers := delKey line d.sharers, invalidating := insertNat line d.invalidating }
/-- The lines of a range. -/
def linesOf (pa n : Nat) : List Nat := if n = 0 then [] else (List.range ((pa + n - 1) / 64 - pa / 64 + 1)).map (· + pa / 64)
/-- The value of `n` bytes of main memory. DESIGN CHOICE (log 2). -/
def Dev.rd (d : Dev) (pa n : Nat) : Nat := readLE d.mem pa n
/-- `n` bytes of main memory written; the companion's copies of the lines are invalidated. -/
def Dev.wr (d : Dev) (pa n v : Nat) : Dev :=
  let d' := (linesOf pa n).foldl Dev.invalidate d
  { d' with mem := writeLE d'.mem pa v n }
def Dev.rdBytes (d : Dev) (pa n : Nat) : List Byte := readBytes d.mem pa n
def Dev.wrBytes (d : Dev) (pa : Nat) (bs : List Byte) : Dev :=
  let d' := (linesOf pa bs.length).foldl Dev.invalidate d
  { d' with mem := writeBytes d'.mem pa bs }
/-- R83. -/
def Dev.isClosed (d : Dev) (pa : Nat) : Bool := d.closed.contains (lineOf pa)

/-- Bytes of a posted write stand in a line. -/
def Posted.hits (p : Posted) (line : Nat) : Bool := (linesOf p.pa p.bytes.length).contains line
/-- R137: a line whose companion copy is neither recorded nor being invalidated. -/
def Dev.unshared (d : Dev) (line : Nat) : Bool := getKey 0#2 d.sharers line == 0#2 && !d.invalidating.contains line
/-- R137: such a line for which no earlier write waits. -/
def Dev.cleanLine (d : Dev) (line : Nat) : Bool := d.unshared line && !d.posted.any fun p => p.hits line
/-- R137: a write may be performed once every line of its range is clean; until then it invalidates and waits.
DEDUCED (log 52). -/
def Dev.clean (d : Dev) (pa n : Nat) : Bool := (linesOf pa n).all d.cleanLine
def Dev.flush (d : Dev) (pa n : Nat) : Dev := (linesOf pa n).foldl Dev.invalidate d

/-! ## Launch dependences (R172) -/

/-- R147, R172: COUNT of every dependence word is at least its target. -/
def Dev.depsMet (d : Dev) (l : Launch) : Bool := l.deps.all fun e => decide (e.2 ≤ d.rd e.1 4)
/-- R172, R173: an entry that has become eligible takes the next place in the order of eligibility. -/
def Dev.examine (d : Dev) (die id : Nat) : Dev :=
  let d := d.modDie die fun x =>
    { x with launches := x.launches.map fun l => if l.id = id then { l with eligible := some d.nextSeq, lastPlaced := d.raw } else l }
  { d with nextSeq := d.nextSeq + 1, passDue := insertNat die d.passDue }
/-- R172: the entries of a die that name a word of a range just written are examined again. -/
def Dev.watchDie (d : Dev) (pa n die : Nat) : Dev :=
  ((d.die die).launches.filter fun l => l.eligible.isNone && l.deps.any (fun e => decide (e.1 < pa + n ∧ pa < e.1 + 4)) &&
    d.depsMet l).foldl (fun d l => d.examine die l.id) d
def Dev.watch (d : Dev) (pa n : Nat) : Dev := [0, 1, 2, 3].foldl (fun d die => d.watchDie pa n die) d
/-- A write at a home slice: the memory changes and the launches that watch it are examined. -/
def Dev.store (d : Dev) (pa n v : Nat) : Dev := (d.wr pa n v).watch pa n
def Dev.storeBytes (d : Dev) (pa : Nat) (bs : List Byte) : Dev := (d.wrBytes pa bs).watch pa bs.length

/-! ## Writes that wait for an invalidation (R137) -/

/-- R138, R103: a write keeps its order behind an earlier one of its own order. -/
def PostOrder.behind (o : PostOrder) (ps : List Posted) : Bool := o != .none && ps.any fun q => q.order == o
/-- R103: the write of an error-queue entry counts it. -/
def Dev.counted (d : Dev) (o : PostOrder) : Dev :=
  match o with
  | .errq die ctx => d.modCtx die ctx fun k => { k with count := k.count + 1 }
  | .none | .port _ => d
/-- R137, R138: a write of firmware or of the companion: performed at once where its lines are clean and no earlier write of its order
waits, and else once they are and none does. DEDUCED (log 52). -/
def Dev.post (d : Dev) (o : PostOrder) (pa : Nat) (bs : List Byte) : Dev :=
  if d.clean pa bs.length && !o.behind d.posted then (d.storeBytes pa bs).counted o
  else { d.flush pa bs.length with posted := d.posted ++ [{ pa := pa, bytes := bs, order := o }] }
/-- R138: no write of the companion waits. -/
def Dev.portsIdle (d : Dev) : Bool := d.posted.all fun p => match p.order with
  | .port _ => false
  | .none | .errq _ _ => true
def Dev.postBytes (d : Dev) (pa : Nat) (bs : List Byte) : Dev := d.post .none pa bs
/-- The posted writes whose lines are unshared performed in order; a write waits behind an earlier one of a line or an order of its own. -/
def Dev.unpost (d : Dev) : List Posted → List Posted → Dev
  | [], kept => { d with posted := kept }
  | p :: ps, kept =>
    let ls := linesOf p.pa p.bytes.length
    if ls.all d.unshared && !(ls.any fun l => kept.any fun q => q.hits l) && !p.order.behind kept then
      ((d.storeBytes p.pa p.bytes).counted p.order).unpost ps kept
    else (ls.foldl Dev.invalidate d).unpost ps (kept ++ [p])
/-- The device with the posted writes performed: what firmware reads after its own writes. -/
def Dev.asPosted (d : Dev) : Dev := { d with mem := d.posted.foldl (fun m p => writeBytes m p.pa p.bytes) d.mem }

/-! ## Budgets (R60, R61, R179) -/

/-- R179: the copy engines of a context go on while its DRAM budget lasts; 0 is no limit. -/
def Dev.dramOpen (d : Dev) (die ctx : Nat) : Bool :=
  match d.ctx? die ctx with
  | some k => k.dram == 0 || decide (0 < k.dramLeft)
  | none => true
/-- R179: bytes of main memory homed on the die charged, in units of 256. -/
def Dev.dramCharge (d : Dev) (die ctx n : Nat) : Dev :=
  d.modCtx die ctx fun k => { k with dramLeft := k.dramLeft - ((n + 255) / 256 : Nat) }
/-- R179: an access to main memory charged when its home is the die. -/
def Dev.dramUse (d : Dev) (die ctx pa n : Nat) : Dev :=
  if isCompanion pa || homeOf pa != d.dieId die then d else d.dramCharge die ctx n

/-! ## Scratchpad (R231, R232) -/

/-- A scratchpad place: the workgroup that holds it and the offset in its allocation. -/
structure Place where
  uid : Nat
  off : Nat
deriving DecidableEq, Repr

/-- A fault on the way: code, DETAIL, and TRAPADDR; without an address TRAPADDR takes the instruction's (R227). -/
structure Trap where
  code : Nat
  detail : Nat
  addr : Option Dword
deriving DecidableEq, Repr

def Trap.at (code detail : Nat) (a : Dword) : Trap := { code := code, detail := detail, addr := some a }
def Trap.here (code detail : Nat) : Trap := { code := code, detail := detail, addr := none }

/-- The workgroup of `w`'s cluster group resident at a rank (R232); a member whose threads have all ended is none. -/
def Dev.peer (d : Dev) (w : Wg) (rank : Nat) : Option Wg :=
  if rank = w.rank then some w
  else d.wgs.find? fun p => p.die == w.die && p.group == w.group && p.live && p.rank == rank &&
    p.threads.any fun t => t.pos != .exited

/-- R231: the checks of an access of `size` bytes that must be a multiple of `align`, in order. -/
def Dev.scratchAt (d : Dev) (w : Wg) (addr : Word) (size align : Nat) : Except Trap Place :=
  let a := addr.toNat
  let at64 : Dword := BitVec.ofNat 64 a
  if 2 ^ 25 ≤ a then .error (.at 0x03 0 at64)
  else if a % align ≠ 0 then .error (.at 0x05 0 at64)
  else
    match d.peer w (bits a 22 3) with
    | none => .error (.at 0x04 (bits a 22 3) at64)
    | some p =>
      if a % 2 ^ 22 + size ≤ p.scratch then .ok { uid := p.uid, off := a % 2 ^ 22 }
      else .error (.at 0x03 0 at64)

/-- R231 for the range that an engine command names: the checks of its first byte, with its alignment, and of its last.
TRAPADDR is the address of the range. -/
def Dev.scratchRange (d : Dev) (w : Wg) (addr : Word) (n align : Nat) : Except Trap Place :=
  match d.scratchAt w addr 1 align with
  | .error e => .error e
  | .ok p =>
    let last := addr.toNat + (n - 1)
    let at64 : Dword := BitVec.ofNat 64 addr.toNat
    if 2 ^ 25 ≤ last then .error (.at 0x03 0 at64)
    else
      match d.scratchAt w (BitVec.ofNat 32 last) 1 1 with
      | .ok _ => .ok p
      | .error e => .error { e with addr := some at64 }
/-- R231 for a byte range that a command derives, whose address may lie beyond 32 bits. An empty range names no byte.
DEDUCED (log 20). -/
def Dev.scratchSeg (d : Dev) (w : Wg) (addr n : Nat) : Except Trap Unit :=
  if n = 0 then .ok ()
  else if 2 ^ 25 ≤ addr then .error (.at 0x03 0 (BitVec.ofNat 64 addr))
  else
    match d.scratchRange w (BitVec.ofNat 32 addr) n 1 with
    | .ok _ => .ok ()
    | .error e => .error e
/-- R232: the workgroup whose scratchpad a command that passed its checks reaches at a rank: an ended member keeps it. A rank
without a member answers a number that no workgroup has. -/
def Dev.holder (d : Dev) (w : Wg) (rank : Nat) : Nat :=
  if rank = w.rank then w.uid
  else
    match d.wgs.find? fun p => p.die == w.die && p.group == w.group && p.isResident && p.rank == rank with
    | some p => p.uid
    | none => d.nextUid
/-- The place of a scratchpad address that passed the checks. -/
def Dev.placeOf (d : Dev) (w : Wg) (addr : Nat) : Place := { uid := d.holder w (bits addr 22 3), off := addr % 2 ^ 22 }

def Dev.scratchRd (d : Dev) (p : Place) (n : Nat) : Nat :=
  match d.wg? p.uid with
  | some w => readLE w.mem p.off n
  | none => 0
def Dev.scratchWr (d : Dev) (p : Place) (n v : Nat) : Dev :=
  d.modWg p.uid fun w => { w with mem := writeLE w.mem p.off v n }
def Dev.scratchRdBytes (d : Dev) (p : Place) (n : Nat) : List Byte :=
  match d.wg? p.uid with
  | some w => readBytes w.mem p.off n
  | none => List.replicate n 0#8
def Dev.scratchWrBytes (d : Dev) (p : Place) (bs : List Byte) : Dev :=
  d.modWg p.uid fun w => { w with mem := writeBytes w.mem p.off bs }

/-! ## Ranges of engine commands (R231)

Only the first and the last byte of a range are checked, so a range may go on into the allocation of the next rank. -/

/-- A place whose offset has passed the end of a rank's 4 MiB. -/
def Dev.norm (d : Dev) (p : Place) : Place :=
  if p.off < 2 ^ 22 then p
  else
    match d.wg? p.uid with
    | some w => { uid := d.holder w (w.rank + p.off / 2 ^ 22), off := p.off % 2 ^ 22 }
    | none => p
/-- A range cut at the ends of ranks, and at the end of an allocation within one: place, length, and whether it is allocated. -/
def Dev.spans (d : Dev) : Nat → Place → Nat → List (Place × Nat × Bool)
  | 0, _, _ => []
  | _, _, 0 => []
  | fuel + 1, p, n =>
    let q := d.norm p
    let cap := ((d.wg? q.uid).map Wg.scratch).getD 0
    let k := min n (if q.off < cap then cap - q.off else 2 ^ 22 - q.off)
    (q, k, decide (q.off < cap)) :: d.spans fuel { p with off := p.off + k } (n - k)
/-- The bytes of a range; those that no allocation holds are open. DESIGN CHOICE (log 65). -/
def Dev.rangeRd (d : Dev) (p : Place) (n : Nat) : List Byte :=
  (d.spans 18 p n).flatMap fun e =>
    if e.2.2 then d.scratchRdBytes e.1 e.2.1
    else (List.range e.2.1).map fun i => (Config.freeValue (d.free + e.1.off + i)).setWidth 8
/-- Bytes written to a range; those that no allocation holds go nowhere. DESIGN CHOICE (log 65). -/
def Dev.rangeWr (d : Dev) (p : Place) (bs : List Byte) : Dev :=
  ((d.spans 18 p bs.length).foldl (fun (acc : Dev × List Byte) e =>
    (if e.2.2 then acc.1.scratchWrBytes e.1 (acc.2.take e.2.1) else acc.1, acc.2.drop e.2.1)) (d, bs)).1

/-! ## What the engines read (R237 to R245, R254)

Scratchpad holds the newest value of every word in its coherence order, and that is what thread accesses see (R238). A word that an
engine command has written may still be read as it was by a command on another path, until the write is performed for it. -/

/-- The places of the words that a range meets. -/
def Dev.rangeWords (d : Dev) (p : Place) (n : Nat) : List Place :=
  (d.spans 18 p n).flatMap fun e =>
    if e.2.2 then (List.range ((e.1.off % 4 + e.2.1 + 3) / 4)).map fun i => { uid := e.1.uid, off := e.1.off / 4 * 4 + 4 * i }
    else []
def Stale.place (e : Stale) : Place := { uid := e.uid, off := e.off }
/-- The barrier on which a command arrives with its byte count (R378). -/
def Body.bar (b : Body) : Option (Nat × Nat) :=
  match b with
  | .copy _ _ _ bar _ | .copyt _ _ _ _ _ _ bar _ => bar
  | .gather _ _ _ _ _ _ _ _ | .prefetch _ | .pagein _ _ | .atomg _ _ _ | .casg _ _ _ _ | .arm _ _ | .xcvt _ _ _ | .onceclr _
  | .remote | .hget _ _ _ | .mtx _ | .spread _ | .finished => none
/-- The thread that issued a command. -/
def Cmd.who (x : Cmd) : Nat × Nat := (x.uid, x.tid)
/-- Bytes of scratchpad written by an engine command on a path. -/
def Dev.rangeWrBy (d : Dev) (x : Cmd) (path : Nat) (p : Place) (bs : List Byte) : Dev :=
  let d' := d.rangeWr p bs
  let new := ((d.rangeWords p bs.length).filter fun q => d.scratchRd q 4 != d'.scratchRd q 4).map fun q =>
    { path := path, cmd := x.id, by_ := x.who, token := x.token, flags := x.flags, bar := x.body.bar, phased := false,
      uid := q.uid, off := q.off, old := BitVec.ofNat 32 (d.scratchRd q 4), seen := [], known := [], wgs := [] }
  { d' with stale := d'.stale ++ new }
/-- Whether a command may still read a word as it was on a path: its write is on another, is not performed for the command's workgroup, does
not come before the command, and the thread's commands on the path have not seen it. -/
def Stale.hidden (e : Stale) (x : Cmd) (path : Nat) : Bool :=
  e.path != path && !x.past.contains e.cmd && !e.known.contains (x.uid, x.tid, path) && !e.wgs.contains x.uid
/-- R239, R245: of the words that may be read as they were, an open choice takes those that a thread's commands on a path see as they
are from now on, so that what they see never goes backward. DEDUCED (log 66). -/
def Dev.catchUp (d : Dev) (x : Cmd) (path : Nat) (near : Stale → Bool) : Dev :=
  let r := d.stale.foldl (fun (acc : List Stale × Nat) e =>
    if near e && e.hidden x path then
      (acc.1 ++ [if (Config.freeValue acc.2).getLsbD 0 then { e with known := (x.uid, x.tid, path) :: e.known } else e], acc.2 + 1)
    else (acc.1 ++ [e], acc.2)) ([], d.free)
  { d with stale := r.1, free := r.2 }
/-- The device as a command reads it on a path: each word as it was before the oldest of its newest writes that it does not yet see. -/
def Dev.sight (d : Dev) (x : Cmd) (path : Nat) : Dev :=
  (d.stale.foldr (fun e (acc : Dev × List Place) =>
    if acc.2.contains e.place then acc
    else if e.hidden x path then (acc.1.scratchWr e.place 4 e.old.toNat, acc.2)
    else (acc.1, e.place :: acc.2)) (d, [])).1
/-- The choice made for the words of a range. -/
def Dev.settleAt (d : Dev) (x : Cmd) (path : Nat) (p : Place) (n : Nat) : Dev :=
  d.catchUp x path fun e => (d.rangeWords p n).contains e.place
/-- R239, R242: the device as a command reads it: words that it has read ahead stay as it read them. -/
def Dev.engineView (d : Dev) (x : Cmd) (path : Nat) : Dev :=
  x.early.foldl (fun d e => d.rangeWr { uid := e.1, off := e.2.1 } (leBytes e.2.2.toNat 4)) (d.sight x path)
def Dev.engineRd (d : Dev) (x : Cmd) (path : Nat) (p : Place) (n : Nat) : List Byte := (d.engineView x path).rangeRd p n
/-- The bytes of main memory that a command reads, with the words that it has read ahead. -/
def Dev.engineMem (d : Dev) (x : Cmd) (pa n : Nat) : List Byte :=
  if x.earlyMem.isEmpty then d.rdBytes pa n
  else (List.range n).map fun i =>
    match x.earlyMem.find? fun e => e.1 == (pa + i) / 4 * 4 with
    | some e => e.2.extractLsb' (8 * ((pa + i) % 4)) 8
    | none => BitVec.ofNat 8 (d.rd (pa + i) 1)
/-- R240: a thread observes the completion of the commands that `f` picks. -/
def Dev.observe (d : Dev) (who : Nat × Nat) (f : Stale → Bool) : Dev :=
  { d with stale := d.stale.map fun e => if f e && !e.seen.contains who then { e with seen := who :: e.seen } else e }
/-- The command of an entry has completed. -/
def Dev.completed (d : Dev) (e : Stale) : Bool := !d.cmds.any fun x => x.id == e.cmd
/-- R242, R243: a FENCE with these paths before it, or a release, by a thread: the writes of the commands whose completion it has
observed are performed for its workgroup, or for every agent of the cluster (R237). DEDUCED (log 66). -/
def Dev.performed (d : Dev) (who : Nat × Nat) (paths : BitVec 5) (wide : Bool) : Dev :=
  let mine := fun (e : Stale) => e.seen.contains who && paths.getLsbD e.path
  { d with stale := if wide then d.stale.filter fun e => !mine e
                    else d.stale.map fun e => if mine e then { e with wgs := who.1 :: e.wgs } else e }
/-- Whether a range takes in bytes of an access. -/
def Dev.meets (d : Dev) (s : Side) (n : Nat) (t : Touch) : Bool :=
  match s, t.side with
  | .mem a, .mem b => decide (a.toNat < b.toNat + t.n ∧ b.toNat < a.toNat + n)
  | .scr u o, .scr v q =>
    (d.spans 18 { uid := u, off := o } n).any fun e => e.2.2 && e.1.uid == v && decide (e.1.off < q + t.n ∧ q < e.1.off + e.2.1)
  | .mem _, .scr _ _ | .scr _ _, .mem _ => false
/-- R239, R240: an access of a thread: what the commands whose completion it has observed wrote comes before it, and so before a later command
of the thread that names bytes of it. DEDUCED (log 66). -/
def Dev.touch (d : Dev) (who : Nat × Nat) (s : Side) (n : Nat) : Dev :=
  let new := ((d.stale.filter fun e => e.seen.contains who).map Stale.cmd).eraseDups.map fun c =>
    ({ cmd := c, by_ := who, side := s, n := n } : Touch)
  { d with touched := d.touched ++ new.filter fun t => !d.touched.contains t }
/-- The same for a place of scratchpad. -/
def Dev.thrSaw (d : Dev) (who : Nat × Nat) (p : Place) (n : Nat) : Dev := d.touch who (.scr p.uid p.off) n
/-- R239: a thread's write of scratchpad: no command reads the word as it was before an older write. DEDUCED (log 66). -/
def Dev.thrOver (d : Dev) (p : Place) (n : Nat) : Dev :=
  { d with stale := d.stale.filter fun e => !(d.rangeWords p n).contains e.place }
def Dev.thrWr (d : Dev) (p : Place) (n v : Nat) : Dev := (d.thrOver p n).scratchWr p n v

end Sys2Proof.Machine
end

