-- ==== Sys2Proof/Machine/Walk.lean ====
section
/-!
DEFINITION. Address translation (chapter 06): the table walk, the permission of a leaf, the TLBs, the walk queue, and how a
requester meets them.
-/

namespace Sys2Proof.Machine

/-- Reason codes of R157. -/
def rNoncanon : Nat := 1
def rNotResident : Nat := 2
def rWrite : Nat := 3
def rUser : Nat := 4
def rExec : Nat := 5
def rMalformed : Nat := 6
def rCompanion : Nat := 7
def rNotLocal : Nat := 8
def rReserved : Nat := 9
def rRetired : Nat := 10
def rWalkFail : Nat := 11

/-- R150: bits [63:57] are zero. -/
def canonicalVa (va : Dword) : Bool := decide (va.toNat < 2 ^ 57)
/-- R150: the first and the last byte of a range are canonical. -/
def canonicalRange (va : Dword) (n : Nat) : Bool := canonicalVa va && decide (va.toNat + (n - 1) < 2 ^ 57)
def pageOf (va : Dword) : Nat := va.toNat / 4096
def pagesOf (va n : Nat) : List Nat :=
  if n = 0 then [] else (List.range ((va + n - 1) / 4096 - va / 4096 + 1)).map (· + va / 4096)

/-- The physical address that a leaf at a level gives an address (R153). -/
def leafPa (leaf : Dword) (level va : Nat) : Nat :=
  bits leaf.toNat 12 40 * 4096 / 2 ^ (12 + 9 * level) * 2 ^ (12 + 9 * level) + va % 2 ^ (12 + 9 * level)
/-- R153: the low 9L bits of the frame number are zero. -/
def leafAligned (leaf : Dword) (level : Nat) : Bool := bits leaf.toNat 12 (9 * level) == 0

/-- R153: one walk from a table at `a`, for levels below `n`. A table in companion memory is read whether or not a Penwyn port is up: R135
speaks of commands with a token. DESIGN CHOICE (log 82). -/
def Dev.walkFrom (d : Dev) (die : Nat) (va : Nat) (a : Nat) : Nat → Except Nat (Nat × Dword)
  | 0 => .error rMalformed
  | n + 1 =>
    let ea := a + 8 * bits va (12 + 9 * n) 9
    if !isCompanion ea && homeOf ea != d.dieId die then .error rMalformed
    else if d.isRetired ea then .error rWalkFail
    else
      let e : Dword := BitVec.ofNat 64 (d.rd ea 8)
      if e.getLsbD 0 = false then .error rNotResident
      else if e.getLsbD 63 then .error rMalformed
      else if e.getLsbD 1 = false then
        (if n = 0 then .error rMalformed else d.walkFrom die va (bits e.toNat 12 40 * 4096) n)
      else if 3 ≤ n then .error rMalformed
      else if !leafAligned e n then .error rMalformed
      else if bits e.toNat 52 2 = 3 then .error rMalformed
      else .ok (n, e)

/-- R153: the walk of a context's tables from ROOT. -/
def Dev.walk (d : Dev) (die root : Nat) (va : Dword) : Except Nat (Nat × Dword) := d.walkFrom die va.toNat root 5

/-- R154, R235, R164: whether a leaf permits an access; the first failing condition gives the reason. A frame retired on another
die is that home's to reject (R160). DEDUCED (log 31). -/
def Dev.leafCheck (d : Dev) (die : Nat) (acc : Access) (level : Nat) (leaf va : Dword) : Except Nat Nat :=
  let pa := leafPa leaf level va.toNat
  if !isCompanion pa && !d.inTorus (homeOf pa) then .error rMalformed
  else if leaf.getLsbD 4 = false then .error rUser
  else if bits leaf.toNat 52 2 = 2 then .error rUser
  else if leaf.getLsbD 5 = false then .error rNotResident
  else if acc.writes && !leaf.getLsbD 6 then .error rNotResident
  else if acc.writes && (!leaf.getLsbD 2 || bits leaf.toNat 52 2 == 1) then .error rWrite
  else if acc.fetch && !leaf.getLsbD 3 then .error rExec
  else if isReserved pa then .error rReserved
  else if acc.deviceOnly && isCompanion pa then .error rCompanion
  else if acc.localOnly && !isCompanion pa && homeOf pa != d.dieId die then .error rNotLocal
  else if (acc.fetch || homeOf pa == d.dieId die) && d.isRetired pa then .error rRetired
  else .ok pa

/-- A TLB entry maps an address of a context. -/
def TlbEnt.covers (e : TlbEnt) (ctx : Nat) (va : Dword) : Bool :=
  e.ctx == ctx && e.vpn == va.toNat / 2 ^ (12 + 9 * e.level)

/-- What a translation gives. -/
inductive Xl where
  | hit (pa : Nat)
  | miss
  | fail (reason : Nat)
deriving DecidableEq, Repr

/-- R158, R154: an entry satisfies an access: one with A = 0 does none, and one with D = 0 no writing one. -/
def TlbEnt.serves (e : TlbEnt) (acc : Access) : Bool := e.leaf.getLsbD 5 && (!acc.writes || e.leaf.getLsbD 6)
/-- R156, R158, R166: a translation through a TLB and the die TLB. `failed` are the failed walks that the requester has been
told of. -/
def Dev.xlate (d : Dev) (die ctx : Nat) (u : TlbUnit) (acc : Access) (failed : List (Nat × Access × Byte)) (va : Dword) : Xl :=
  if !canonicalVa va then .fail rNoncanon
  else
    match failed.find? fun e => e.1 == pageOf va && e.2.1 == acc with
    | some e => .fail e.2.2.toNat
    | none => go
where
  go : Xl :=
    match (d.die die).tlb.find? fun e => (e.unit == u || e.unit == .die) && e.covers ctx va && e.serves acc with
    | none => .miss
    | some e =>
      match d.leafCheck die acc e.level e.leaf va with
      | .ok pa => .hit pa
      | .error r => .fail r

/-- R163, R221: a translation that firmware makes at once, through the die TLB's entries and else by a walk of its own. -/
def Dev.xlateNow (d : Dev) (die ctx : Nat) (acc : Access) (va : Dword) : Except Nat Nat :=
  match d.xlate die ctx .die acc [] va with
  | .hit pa => .ok pa
  | .fail r => .error r
  | .miss =>
    match d.ctx? die ctx with
    | none => .error rNotResident
    | some k =>
      match d.walk die k.root va with
      | .error r => .error r
      | .ok (level, leaf) => d.leafCheck die acc level leaf va

/-- R166: a walk of the page that can be joined, or a place among the 1,024 of the queue. -/
def Die.joinable (x : Die) (ctx page : Nat) : Bool := x.walks.any fun w => w.ctx == ctx && w.page == page && !w.overtaken
def Die.mayAsk (x : Die) (ctx page : Nat) : Bool :=
  x.joinable ctx page || decide ((x.walks.filter fun w => w.holder.isNone).length < 1024)
/-- R166: a requester joins the walk of its page or enters the queue, if it may. -/
def Die.ask (x : Die) (ctx page : Nat) (who : Requester) (u : TlbUnit) (acc : Access) : Die :=
  if !x.mayAsk ctx page then x
  else if x.joinable ctx page then
    { x with walks := x.walks.map fun w =>
        if w.ctx = ctx ∧ w.page = page ∧ w.overtaken = false then { w with joined := w.joined ++ [(who, u, acc)] } else w }
  else
    { x with walks := x.walks ++
        [{ ctx := ctx, page := page, joined := [(who, u, acc)], holder := none, overtaken := false }] }
def Dev.ask (d : Dev) (die ctx page : Nat) (who : Requester) (u : TlbUnit) (acc : Access) : Dev :=
  d.modDie die fun x => x.ask ctx page who u acc

/-- R156: the capacity of a translation structure. -/
def TlbUnit.capacity (u : TlbUnit) : Nat :=
  match u with
  | .die => 16384
  | .fetch _ => 64
  | .stack _ => 64
  | .copy _ => 256
  | .atm => 1024
  | .rmt => 1024

/-- An entry installed in a translation structure; the oldest entry of a full structure goes. DESIGN CHOICE (log 12). -/
def Die.install (x : Die) (u : TlbUnit) (ctx level : Nat) (leaf va : Dword) : Die :=
  let vpn := va.toNat / 2 ^ (12 + 9 * level)
  let old := x.tlb.filter fun e => !(e.unit == u && e.ctx == ctx && e.level == level && e.vpn == vpn)
  let mine := old.filter fun e => e.unit == u
  let kept := if mine.length < u.capacity then old
    else match mine with
      | first :: _ => old.erase first
      | [] => old
  { x with tlb := kept ++ [{ unit := u, ctx := ctx, level := level, vpn := vpn, leaf := leaf }] }

/-- R166: a requester is told that its walk for an access has ended: with nothing more (it finds the entry, or walks again), or
with a reason. -/
def Dev.tell (d : Dev) (who : Requester) (page : Nat) (acc : Access) (reason : Option Nat) : Dev :=
  let note := fun (l : List (Nat × Access × Byte)) =>
    (l.filter fun e => !(e.1 == page && e.2.1 == acc)) ++ (reason.map fun k => (page, acc, BitVec.ofNat 8 k)).toList
  match who with
  | .thread uid tid => d.modThread uid tid fun t =>
      { t with walkFail := note t.walkFail, susp := t.susp.map fun s => if s.why = .walk page then { s with why := .over } else s }
  | .command id => d.modCmd id fun c => { c with walking := none, walkFail := note c.walkFail }

/-- R422: the end of a walk with a leaf or with a reason. The leaf goes into the die TLB and the TLB of each requester before R154
is applied for its access; an entry that permits none of them is no fill that a later access would find (R158).
DEDUCED (log 32). -/
def Dev.endWalk (d : Dev) (die : Nat) (w : Walk) (outcome : Except Nat (Nat × Dword)) : Dev :=
  let d := d.modDie die fun x => { x with walks := x.walks.erase w }
  let va : Dword := BitVec.ofNat 64 (w.page * 4096)
  if w.overtaken then w.joined.foldl (fun d q => d.tell q.1 w.page q.2.2 none) d
  else
    match outcome with
    | .error r => w.joined.foldl (fun d q => d.tell q.1 w.page q.2.2 (some r)) d
    | .ok (level, leaf) =>
      let fill := fun (u : TlbUnit) (d : Dev) => d.modDie die fun x => x.install u w.ctx level leaf va
      let one := fun (page : Nat) (d : Dev) (q : Requester × TlbUnit × Access) =>
        match d.leafCheck die q.2.2 level leaf (BitVec.ofNat 64 (page * 4096)) with
        | .ok _ => (fill q.2.1 d).tell q.1 page q.2.2 none
        | .error r => (fill q.2.1 d).tell q.1 page q.2.2 (some r)
      let d := w.joined.foldl (one w.page) (fill .die d)
      -- a leaf also completes every queued miss of the context that it covers (R166)
      let same := fun (v : Walk) => v.ctx == w.ctx && v.holder.isNone && !v.overtaken &&
        v.page * 4096 / 2 ^ (12 + 9 * level) == w.page * 4096 / 2 ^ (12 + 9 * level)
      let covered := (d.die die).walks.filter same
      let d := d.modDie die fun x => { x with walks := x.walks.filter fun v => !same v }
      covered.foldl (fun d v => v.joined.foldl (one v.page) d) d

/-- R423: every thread of the walker routine of a die has ended: the walks stay queued until it is restarted. -/
def Dev.walkerHalted (d : Dev) (die : Nat) : Bool :=
  d.wgs.any fun w => w.die == die && w.kind == .walker && w.threads.all fun t => t.pos == .exited
/-- R23: nothing of a die that an error makes reset goes on. -/
def Dev.tripped (d : Dev) (die : Nat) : Bool := d.resets.any fun e => e.1 == die
/-- R23, R64: the cores of a die stand still: it is to be reset, or its reset is not yet acknowledged everywhere. -/
def Dev.coresStopped (d : Dev) (die : Nat) : Bool := d.tripped die || (d.die die).joining
/-- R165, R166: the walker routine takes the oldest queued walk and ends it, in one operation. DEDUCED (log 9). -/
def Dev.serveWalk (d : Dev) (die : Nat) : Dev :=
  if d.walkerHalted die || d.tripped die then d
  else
    match (d.die die).walks.find? fun w => w.holder.isNone with
    | none => d
    | some w =>
      match d.ctx? die w.ctx with
      | none => d.endWalk die w (.error rNotResident)
      | some k => d.endWalk die w (d.walk die k.root (BitVec.ofNat 64 (w.page * 4096)))
/-- R153, R421: the address of the entry that a walk reads at a level, if it gets there. -/
def Dev.entryAt (d : Dev) (die va a : Nat) : Nat → Nat → Option Nat
  | 0, _ => none
  | n + 1, level =>
    let ea := a + 8 * bits va (12 + 9 * n) 9
    if !isCompanion ea && homeOf ea != d.dieId die then none
    else if d.isRetired ea then none
    else if n = level then some ea
    else
      let e : Dword := BitVec.ofNat 64 (d.rd ea 8)
      if e.getLsbD 0 && !e.getLsbD 63 && !e.getLsbD 1 then d.entryAt die va (bits e.toNat 12 40 * 4096) n level else none

/-! The accesses of the instructions (R154, R156). -/

/-- A block may be fetched from any die's memory: NOTLOCAL is for the operands of R68. Companion memory is reached by the copy
engine only (R136; DEDUCED for a fetch). DEDUCED (log 30). -/
def accFetch : Access := { writes := false, fetch := true, deviceOnly := true, localOnly := false }
def accStack (writes : Bool) : Access :=
  { writes := writes, fetch := false, deviceOnly := true, localOnly := true }
/-- COPY and the like may name companion memory, but no other die's (R136, R234). -/
def accCopy (writes : Bool) : Access :=
  { writes := writes, fetch := false, deviceOnly := false, localOnly := true }
def accLocal (writes : Bool) : Access :=
  { writes := writes, fetch := false, deviceOnly := true, localOnly := true }
def accRemote (writes : Bool) : Access :=
  { writes := writes, fetch := false, deviceOnly := true, localOnly := false }

end Sys2Proof.Machine
end

