-- ==== Sys2Proof/Machine/Ops.lean ====
section
/-!
DEFINITION. The shared operations of program instructions: the current thread of a bundle, its registers and predicates, the
spill stack, ending a context, taking a fault and returning from one, suspension, and how an instruction's effect becomes a
step.
-/

namespace Sys2Proof.Machine

abbrev Out := Host.Outcome State Fault Refusal

/-! ## Registers (R210, R211) -/

/-- R210: ALLOC = 8 × ⌈REGS ÷ 8⌉. -/
def allocOf (regs : Nat) : Nat := (regs + 7) / 8 * 8
def Thread.alloc (t : Thread) : Nat := allocOf t.regs
/-- R210: a register index that reads zero and ignores writes. -/
def Thread.inSlack (t : Thread) (i : Nat) : Bool := decide (t.regs ≤ i ∧ i < t.alloc)

/-- R227 ILLEGAL_INSTR. -/
def illegal : Trap := .here 0x01 0
/-- R227 REG_RANGE. -/
def regRange : Trap := .here 0x02 0

/-- R210, R211: a register read. -/
def Thread.get (t : Thread) (i : Nat) : Except Trap Word :=
  if i < t.regs then .ok (wordAt t.work i)
  else if i < t.alloc then .ok 0#32
  else .error regRange

/-- R210, R201: a register write; a write to a register whose token was issued in this block is discarded. DEDUCED (log 13). -/
def Thread.put (t : Thread) (i : Nat) (v : Word) : Except Trap Thread :=
  if i < t.regs then .ok (if t.locked.contains i then t else { t with work := t.work.set i v })
  else if i < t.alloc then .ok { t with sticky := t.sticky ||| 0x40#7 }
  else .error regRange

/-- R210: SLACK is set when one of these indices lies in the slack. -/
def Thread.note (t : Thread) (is : List Nat) : Thread :=
  if is.any t.inSlack then { t with sticky := t.sticky ||| 0x40#7 } else t

/-- R331: the 64-bit value of a pair. -/
def Thread.getD (t : Thread) (i : Nat) : Except Trap Dword :=
  match t.get i, t.get (i + 1) with
  | .ok lo, .ok hi => .ok (hi ++ lo)
  | .error e, _ => .error e
  | .ok _, .error e => .error e
/-- R331: a write of a pair. -/
def Thread.putD (t : Thread) (i : Nat) (v : Dword) : Except Trap Thread :=
  match t.put i (v.extractLsb' 0 32) with
  | .ok t => t.put (i + 1) (v.extractLsb' 32 32)
  | .error e => .error e
/-- The values of a group of registers. -/
def Thread.getGroup (t : Thread) (i : Nat) : Nat → Except Trap (List Word)
  | 0 => .ok []
  | n + 1 =>
    match t.get i, t.getGroup (i + 1) n with
    | .ok x, .ok xs => .ok (x :: xs)
    | .error e, _ => .error e
    | .ok _, .error e => .error e
/-- Writes of a group of registers. -/
def Thread.putGroup (t : Thread) (i : Nat) : List Word → Except Trap Thread
  | [] => .ok t
  | v :: vs =>
    match t.put i v with
    | .ok t => t.putGroup (i + 1) vs
    | .error e => .error e

/-- p7 reads true (R211). -/
def Thread.pred (t : Thread) (p : PredReg) : Bool := p == 7#3 || t.preds.getLsbD p.toNat
/-- A write to p7 is ignored (R211). -/
def Thread.setPred (t : Thread) (p : PredReg) (v : Bool) : Thread :=
  if p = 7#3 then t
  else { t with preds := if v then t.preds ||| (1#7 <<< p.toNat) else t.preds &&& ~~~(1#7 <<< p.toNat) }

/-- R225: STATUS as it reads. -/
def Thread.status (t : Thread) (proof : Bool) : Word :=
  flag proof ++ 0#7 ++ BitVec.ofNat 8 t.trapDepth ++ 0#9 ++ t.sticky

/-- R197: a thread of a newly placed workgroup. -/
def Thread.fresh (regs spill : Nat) (entry : Dword) : Thread :=
  { pos := .waiting, blk := entry, off := 0, row := List.replicate 64 0, work := List.replicate 64 0, regs := regs,
    preds := 0, sticky := 0, trapDepth := 0, trapCause := 0, trapAddr := 0, retired := 0, age := 0, yielded := false,
    pend := [], locked := [], cache := [], sp := spill, susp := none, suspended := false, expired := false,
    walkFail := [], spilled := false, raised := none }

/-- R140, R141: a context as creation loads it. -/
def Ctx.fresh (ctx root : Nat) : Ctx :=
  { ctx := ctx, root := root, seed := 0, retrans := 50, trap := 0, fab := 0, upd := 0, dram := 0, fabLeft := 0,
    updLeft := 0, dramLeft := 0, tdt := [], invt := [], invcnt := 0, errqVa := 0, ovf := false, count := 0, head := 0,
    spillVa := 0, proof := false, supCore := 0, rot := 0, hold := none, passed := false, ending := none }

/-! ## The current thread -/

/-- The thread that executes: of the front bundle, the one that stands at the least offset, and of those the lowest index
(R209: the instructions of a bundle issue in order, for its threads in ascending index). -/
structure Cur where
  b : Bundle
  w : Wg
  tid : Nat
  t : Thread
deriving DecidableEq, Repr

/-- DESIGN CHOICE (log 53). -/
def leader (threads : List Thread) : List Nat → Option (Nat × Thread)
  | [] => none
  | i :: is =>
    match threads[i]?, leader threads is with
    | some t, some (j, u) => if t.off ≤ u.off then some (i, t) else some (j, u)
    | some t, none => some (i, t)
    | none, r => r

def Dev.cur (d : Dev) : Option Cur :=
  match d.flight with
  | [] => none
  | b :: _ =>
    match d.wg? b.uid with
    | none => none
    | some w =>
      match leader w.threads b.tids with
      | none => none
      | some (i, t) => some { b := b, w := w, tid := i, t := t }

/-- The address of the instruction at the thread's offset (R314). -/
def Cur.addr (c : Cur) : Dword := c.t.blk + BitVec.ofNat 64 (4 + 4 * c.t.off)
/-- Header words of the current block. -/
def Cur.hdr0 (c : Cur) : Word := wordAt c.b.words 0
def Cur.hdr1 (c : Cur) : Word := wordAt c.b.words 1
/-- R313: the header fields of a block. -/
def hdrLen (h0 : Word) : Nat := (fld h0 18 8).toNat
def hdrWait (h0 : Word) : BitVec 12 := fld h0 6 12
def hdrCohort (h0 : Word) : Bool := h0.getLsbD 5
def hdrClass (h0 : Word) : Nat := (fld h0 3 2).toNat
def hdrLiveIn (h1 : Word) : BitVec 8 := fld h1 24 8
def hdrLiveOut (h1 : Word) : BitVec 8 := fld h1 16 8
/-- R198: the valid flag indices. -/
def hdrSets (h1 : Word) : List Nat :=
  (if h1.getLsbD 15 then [(fld h1 11 4).toNat] else []) ++ (if h1.getLsbD 10 then [(fld h1 6 4).toNat] else [])
/-- R314: the block that follows. -/
def nextBlock (blk : Dword) (h0 : Word) : Dword := blk + BitVec.ofNat 64 (8 * ((8 + 4 * hdrLen h0 + 7) / 8))

/-- The front bundle without a thread; an empty bundle ends. -/
def Dev.dropFromBundle (d : Dev) (tid : Nat) : Dev :=
  match d.flight with
  | [] => d
  | b :: bs =>
    let tids := b.tids.filter fun i => i != tid
    { d with flight := if tids.isEmpty then bs else { b with tids := tids } :: bs }

/-- R203, R204: a resumption address takes an entry of the core's table, or joins the overflow list. -/
def Core.occupy (c : Core) (a : Dword) : Core :=
  if c.abt.any (fun e => e.1 == a) || c.overflow.contains a then c
  else if c.abt.length < 128 then { c with abt := c.abt ++ [(a, [0, 0, 0, 0])] }
  else { c with overflow := c.overflow ++ [a] }
/-- The lowest of the parked addresses. -/
def lowestAddr : List Dword → Option Dword
  | [] => none
  | a :: as => match lowestAddr as with
    | some b => if a.toNat ≤ b.toNat then some a else some b
    | none => some a
/-- R204: freed entries take the lowest parked addresses. -/
def Core.fill (c : Core) : Nat → Core
  | 0 => c
  | n + 1 =>
    if 128 ≤ c.abt.length then c
    else
      match lowestAddr c.overflow with
      | none => c
      | some a => { c with abt := c.abt ++ [(a, [0, 0, 0, 0])], overflow := c.overflow.erase a }.fill n
/-- R203, R204: the entries at which no thread waits any more are freed, and taken by parked addresses. -/
def Core.tidy (c : Core) (here : List Dword) : Core :=
  { c with abt := c.abt.filter (fun e => here.contains e.1), overflow := c.overflow.filter fun a => here.contains a }.fill 128
/-- R203: the resumption address of a waiting thread. -/
def Thread.resume (t : Thread) : Dword := if t.off = 0 then t.blk else t.blk + BitVec.ofNat 64 (4 + 4 * t.off)
/-- The resumption addresses at which threads of a core wait. -/
def Dev.addrsOn (d : Dev) (die core : Nat) : List Dword :=
  (d.wgs.filter fun w => w.die == die && w.live && w.core == core).flatMap fun w =>
    w.threads.filterMap fun t => if t.pos = .waiting then some t.resume else none
/-- R203, R204: threads have left the waiting vectors of a core. -/
def Dev.tidyCore (d : Dev) (die core : Nat) : Dev :=
  let here := d.addrsOn die core
  d.modDie die fun x => x.modCore core fun k => k.tidy here
/-- The same for several cores. -/
def Dev.tidyCores (d : Dev) (die : Nat) (cores : List Nat) : Dev := cores.eraseDups.foldl (fun d k => d.tidyCore die k) d
def Dev.occupy (d : Dev) (w : Wg) (t : Thread) : Dev := d.modDie w.die fun x => x.modCore w.core fun k => k.occupy t.resume
/-- The resumption addresses of a workgroup's waiting threads enter the core's table (R203). -/
def Dev.occupyAll (d : Dev) (w : Wg) : Dev :=
  w.threads.foldl (fun d t => if t.pos = .waiting then d.occupy w t else d) d

/-- The thread with its state replaced. -/
def Dev.commit (d : Dev) (c : Cur) (t : Thread) : Dev := d.modThread c.w.uid c.tid fun _ => t
/-- The thread leaves its bundle and waits, or has ended. -/
def Dev.commitOut (d : Dev) (c : Cur) (t : Thread) : Dev :=
  let d := (d.commit c t).dropFromBundle c.tid
  if t.pos = .waiting then d.occupy c.w t else d

/-- R419, R222: an instruction of `n` words completes: the thread goes on after it. -/
def Thread.advance (t : Thread) (n : Nat) : Thread :=
  { t with off := t.off + n, retired := t.retired + BitVec.ofNat 64 n, susp := none, suspended := false,
           expired := false, walkFail := [], raised := none }

/-- R213: the row slid up by s registers, with zeros above. -/
def slideUp (row : List Word) (s alloc : Nat) : List Word :=
  (List.range 64).map fun i => if i + s < alloc then wordAt row (i + s) else 0#32
/-- R355: the row slid back, with a frame's registers below. -/
def slideDown (row frame : List Word) (s alloc : Nat) : List Word :=
  (List.range 64).map fun i => if i < alloc then (if i < s then wordAt frame i else wordAt row (i - s)) else 0#32
/-- R211, R201: the row after the write-back of the LIVEOUT groups. -/
def Thread.writeBack (t : Thread) (liveOut : BitVec 8) : List Word :=
  (List.range 64).map fun i =>
    if liveOut.getLsbD (i / 8) && decide (i < t.regs) && !t.locked.contains i && !t.pend.contains i
    then wordAt t.work i else wordAt t.row i

/-! ## The spill stack (R214, R215) -/

/-- R215: the offset of a thread's spill stack in the workgroup's extent. -/
def Wg.stackBase (w : Wg) (tid : Nat) : Nat :=
  256 + 32 * w.threads.length + 4 * w.threads.length * (64 + w.stackc) + w.scratch + 65536 * w.acc + 4096 + tid * w.spill
/-- R175: the virtual address of a byte of the workgroup's extent. -/
def Dev.extentVa (d : Dev) (w : Wg) (off : Nat) : Dword :=
  match d.ctx? w.die w.ctx, w.extent with
  | some k, some (u, _) => k.spillVa + BitVec.ofNat 64 (u * 65536 + off)
  | _, _ => BitVec.ofNat 64 off
def Dev.stackVa (d : Dev) (w : Wg) (tid off : Nat) : Dword := d.extentVa w (w.stackBase tid + off)

/-- What a look at the spill stack gives: physical addresses of 4 KiB pieces, a walk to wait for, or a fault. -/
inductive Reach where
  | ok (pieces : List (Nat × Nat))
  | miss (page : Nat)
  | fail (x : Trap)
deriving DecidableEq, Repr

/-- The translation of a range of the spill area that firmware or the core reaches, in 4 KiB pieces (address, length). `now`
makes a missing walk at once. A page homed on another die counts as non-resident (R140). DEDUCED (log 32). -/
def Dev.reach (d : Dev) (now : Bool) (w : Wg) (acc : Access) (failed : List (Nat × Access × Byte)) (va : Dword) : Nat → Nat → Reach
  | 0, _ => .ok []
  | _, 0 => .ok []
  | fuel + 1, n =>
    let step := min n (4096 - va.toNat % 4096)
    let r := d.xlate w.die w.ctx (.stack w.core) acc failed va
    let r := if now && r == .miss then
        (match d.xlateNow w.die w.ctx acc va with
        | .ok pa => .hit pa
        | .error e => .fail e) else r
    match r with
    | .miss => .miss (pageOf va)
    | .fail e => .fail (.at 0x0F (if e = rNotLocal then rNotResident else e) va)
    | .hit pa =>
      match d.reach now w acc failed (va + BitVec.ofNat 64 step) fuel (n - step) with
      | .ok ps => .ok ((pa, step) :: ps)
      | .miss p => .miss p
      | .fail x => .fail x

/-- Bytes written to the pieces of a range. -/
def Dev.wrPieces (d : Dev) (bs : List Byte) : List (Nat × Nat) → Dev
  | [] => d
  | (pa, n) :: ps => (d.wrBytes pa (bs.take n)).wrPieces (bs.drop n) ps
/-- The same by firmware: a piece whose lines the companion shares waits (R137). -/
def Dev.postPieces (d : Dev) (bs : List Byte) : List (Nat × Nat) → Dev
  | [] => d
  | (pa, n) :: ps => (d.postBytes pa (bs.take n)).postPieces (bs.drop n) ps
/-- The lines of the pieces of a range that may not be written yet (R137). -/
def Dev.dirtyLines (d : Dev) (ps : List (Nat × Nat)) : List Nat :=
  (ps.flatMap fun e => linesOf e.1 e.2).filter fun l => !d.cleanLine l
/-- The bytes of the pieces of a range. -/
def Dev.rdPieces (d : Dev) : List (Nat × Nat) → List Byte
  | [] => []
  | (pa, n) :: ps => d.rdBytes pa n ++ d.rdPieces ps

/-- R214: a call frame as bytes. -/
def CallFrame.bytes (f : CallFrame) : List Byte :=
  leBytes f.ret.toNat 8 ++ [1#8, BitVec.ofNat 8 f.slide] ++ List.replicate 22 0#8 ++
    (List.range f.slide).flatMap fun i => leBytes (wordAt f.regs i).toNat 4
def CallFrame.size (f : CallFrame) : Nat := 32 + 4 * f.slide
/-- R214: a frame of b bytes occupies b ÷ 4 registers of the stack cache. -/
def cacheUse (fs : List CallFrame) : Nat := (fs.map fun f => f.size / 4).foldl (· + ·) 0

/-- What a move on the spill stack ends in. -/
inductive Moved (α : Type) where
  | ok (d : Dev) (x : α)
  | miss (page : Nat)
  /-- R137: lines that are to be invalidated first. -/
  | dirty (ls : List Nat)
  | fail (x : Trap)

/-- A frame's bytes pushed to the spill stack below `sp` (R179: the DRAM budget is charged); answers the new `sp`. -/
def Dev.pushBytes (d : Dev) (now : Bool) (w : Wg) (tid : Nat) (failed : List (Nat × Access × Byte)) (sp : Nat) (bs : List Byte) :
    Moved Nat :=
  if sp < bs.length then .fail (.here 0x10 0)
  else
    match d.reach now w (accStack true) failed (d.stackVa w tid (sp - bs.length)) 4096 bs.length with
    | .ok ps =>
      if now then .ok ((d.postPieces bs ps).dramCharge w.die w.ctx bs.length) (sp - bs.length)
      else if (d.dirtyLines ps).isEmpty then .ok ((d.wrPieces bs ps).dramCharge w.die w.ctx bs.length) (sp - bs.length)
      else .dirty (d.dirtyLines ps)
    | .miss p => .miss p
    | .fail x => .fail x

/-- R214: frames moved from the cache to the spill stack, the oldest (last in the list) first, while `keep` still asks for
room. -/
def Dev.spillFrames (d : Dev) (now : Bool) (w : Wg) (tid : Nat) (failed : List (Nat × Access × Byte)) (sp : Nat) :
    List CallFrame → Moved Nat
  | [] => .ok d sp
  | f :: fs =>
    match d.pushBytes now w tid failed sp f.bytes with
    | .ok d sp => d.spillFrames now w tid failed sp fs
    | .miss p => .miss p
    | .dirty ls => .dirty ls
    | .fail x => .fail x

/-- The whole stack cache moved to the spill stack (R214 fault frames, R372). -/
def Dev.spillAll (d : Dev) (now : Bool) (c : Cur) : Moved Thread :=
  match d.spillFrames now c.w c.tid c.t.walkFail c.t.sp c.t.cache.reverse with
  | .ok d sp => .ok d { c.t with cache := [], sp := sp }
  | .miss p => .miss p
  | .dirty ls => .dirty ls
  | .fail x => .fail x

/-- How many of the newest frames may stay for a new frame of `need` registers to fit a cache of `cap`. -/
def keepFrames (cap need : Nat) : List CallFrame → List CallFrame
  | [] => []
  | f :: fs => if need + f.size / 4 ≤ cap then f :: keepFrames cap (need + f.size / 4) fs else []

/-- R214: a call frame pushed: into the cache, older frames moving out while it does not fit, or straight to the spill stack
when it never fits. -/
def Dev.pushFrame (d : Dev) (c : Cur) (f : CallFrame) : Moved Thread :=
  let kept := if f.size / 4 ≤ c.w.stackc then keepFrames c.w.stackc (f.size / 4) c.t.cache else []
  let out := (c.t.cache.drop kept.length).reverse
  match d.spillFrames false c.w c.tid c.t.walkFail c.t.sp out with
  | .miss p => .miss p
  | .dirty ls => .dirty ls
  | .fail x => .fail x
  | .ok d sp =>
    if f.size / 4 ≤ c.w.stackc then .ok d { c.t with cache := f :: kept, sp := sp }
    else
      match d.pushBytes false c.w c.tid c.t.walkFail sp f.bytes with
      | .ok d sp => .ok d { c.t with cache := [], sp := sp }
      | .miss p => .miss p
      | .dirty ls => .dirty ls
      | .fail x => .fail x

/-- Bytes read from the top of the spill stack: the thread's spills and frames that still wait at their home slice are before it (R233). -/
def Dev.topBytes (d : Dev) (w : Wg) (tid : Nat) (failed : List (Nat × Access × Byte)) (sp n : Nat) : Moved (List Byte) :=
  match d.reach false w (accStack false) failed (d.stackVa w tid sp) 4096 n with
  | .ok ps => .ok d (d.asPosted.rdPieces ps)
  | .miss p => .miss p
  | .fail x => .fail x

/-! ## Ending a context (R142, R431) -/

/-- R142 steps 1 and 2 on one die: launches are discarded, and nothing follows the outstanding messages any more, which run to their end; what
has no sequence yet is not outstanding (R74) and is not sent. DEDUCED (log 49). -/
def Die.stopCtx (x : Die) (c : Nat) (why : Ending) : Die :=
  { x with
    outs := x.outs.map fun o => if o.ctx = c then { o with after := .none, quiet := true } else o
    unsent := x.unsent.filter fun u => u.ctx != c
    ctxs := x.ctxs.map fun k => if k.ctx = c then { k with ending := some why } else k
    launches := x.launches.filter fun l => l.ctx != c
    walks := x.walks.filter fun w => w.ctx != c }
/-- R142 steps 4 and 5 on one die. -/
def Die.clearCtx (x : Die) (c : Nat) : Die :=
  { x with
    outs := x.outs.filter fun o => o.ctx != c
    unsent := x.unsent.filter fun u => u.ctx != c
    reads := x.reads.filter fun r => r.ctx != c
    hrt := x.hrt.map fun e => if e.2.used ∧ e.2.ctx = c then
        (e.1, { e.2 with used := false, gen := e.2.gen % 255 + 1, held := [], freeing := none }) else e
    hosts := x.hosts.filter fun h => bits h.h.toNat 20 6 != c
    forwards := x.forwards.filter fun f => bits f.h.toNat 20 6 != c
    locs := x.locs.filter fun l => bits l.h.toNat 20 6 != c
    ctxs := x.ctxs.filter fun k => k.ctx != c
    tlb := x.tlb.filter fun e => e.ctx != c
    walks := x.walks.filter fun w => w.ctx != c }

/-- R142 steps 1 and 2 on one die: its workgroups stop without saving state. The order entries of its threads go with
them (R124), and no error-queue entry is written any more. -/
def Dev.stopCtxOn (d : Dev) (die c : Nat) (why : Ending) : Dev :=
  let gone := fun (w : Wg) => w.die == die && w.ctx == c && w.kind != .walker
  let uids := (d.wgs.filter gone).map Wg.uid
  let d := d.modDie die fun x =>
    let x := x.stopCtx c why
    { x with orders := x.orders.filter fun o => !uids.contains o.uid }
  { d with
    wgs := d.wgs.filter fun w => !gone w
    flight := d.flight.filter fun b => !uids.contains b.uid
    cmds := d.cmds.filter fun k => !uids.contains k.uid
    pageReqs := d.pageReqs.filter fun r => !(r.die == die && r.ctx == c)
    posted := d.posted.filter fun p => p.order != PostOrder.errq die c
    passDue := insertNat die d.passDue }.tidyCores die (((d.wgs.filter gone).filter Wg.live).map Wg.core)
/-- R142 step 3: no message of a context is outstanding on the package. -/
def Dev.ctxIdle (d : Dev) (c : Nat) : Bool := [0, 1, 2, 3].all fun n => (d.die n).outs.all fun o => o.ctx != c
/-- R142 steps 4 and 5 on every die of the package. -/
def Dev.clearCtx (d : Dev) (c : Nat) : Dev :=
  let d := [0, 1, 2, 3].foldl (fun d n => d.modDie n fun x => x.clearCtx c) d
  { d with live := d.live.filter fun e => e.1 != c }
/-- R142, R431: a context begins to end on every die of the package. -/
def Dev.stopCtx (d : Dev) (c : Nat) (why : Ending) : Dev := [0, 1, 2, 3].foldl (fun d n => d.stopCtxOn n c why) d
/-- R142, R431: whether a context has begun to end, somewhere on the package. -/
def Dev.endingOf (d : Dev) (c : Nat) : Option Ending :=
  [0, 1, 2, 3].findSome? fun n => (d.ctx? n c).bind Ctx.ending
/-- R431: an aborted context ends once its messages have. -/
def Dev.sweepCtx (d : Dev) (c : Nat) : Dev := if d.endingOf c = some .aborted && d.ctxIdle c then d.clearCtx c else d

/-- R431: a context aborted: one CTX_ABORT record, then it ends on the package. One that is ending already ends as it does. -/
def Dev.abort (d : Dev) (die c code : Nat) (thread : Word) : Dev :=
  if (d.endingOf c).isSome then d
  else ((d.record 0x01 c die 0 (BitVec.ofNat 64 code) (thread.setWidth 64)).stopCtx c .aborted).sweepCtx c

/-! ## Faults (R219 to R222) -/

/-- R222: the fault frame. DEDUCED (log 27). -/
def faultFrame (c : Cur) (off : Nat) (t : Thread) : List Byte :=
  let a := t.alloc
  let bs := leBytes t.blk.toNat 8 ++
    [2#8, BitVec.ofNat 8 off, t.preds.setWidth 8, BitVec.ofNat 8 a, BitVec.ofNat 8 t.regs, 0#8, 0#8, 0#8] ++
    leBytes t.trapCause.toNat 4 ++ leBytes 0 4 ++ leBytes t.trapAddr.toNat 8 ++
    [if c.t.suspended then 1#8 else 0#8] ++ List.replicate 31 0#8 ++
    (List.range a).flatMap fun i => leBytes (wordAt t.work i).toNat 4
  bs ++ List.replicate (roundUp (64 + 4 * a) 32 - (64 + 4 * a)) 0#8

/-- R226: TRAPCAUSE of a fault. -/
def Trap.cause (x : Trap) : Word := BitVec.ofNat 32 (x.code % 256 + 256 * (x.detail % 256))

/-- The thread at the trap entry (R221 steps 2 to 5). -/
def Thread.enterTrap (t : Thread) (trap : Dword) (x : Trap) (addr : Dword) (sp : Nat) : Thread :=
  { t with
    pos := .waiting, blk := trap, off := 0, row := slideUp t.row 32 t.alloc, trapCause := x.cause, trapAddr := addr,
    trapDepth := t.trapDepth + 1, cache := [], sp := sp, locked := [], susp := none, suspended := false,
    expired := false, walkFail := [], yielded := false, spilled := false, raised := none }

/-- R423: a walk that a walker thread held returns to the head of the queue. -/
def Die.release (x : Die) (uid tid : Nat) : Die :=
  let held := x.walks.filter fun v => v.holder == some (uid, tid)
  { x with walks := held.map (fun v => { v with holder := none }) ++ x.walks.filter fun v => v.holder != some (uid, tid) }

/-- R11: the flags that a command raised before it waited for a place fall when it faults after all (R368). -/
def Dev.lower (d : Dev) (c : Cur) : Dev :=
  match c.t.raised with
  | some fs => d.modWg c.w.uid fun w => { w with flags := fs.foldl (fun l f => updAt l f (· - 1)) w.flags }
  | none => d

/-- R137: what a thread waits for whose frame was written between two states of the device: the writes that are posted. -/
def Dev.afterPosts (d d' : Dev) (now : Nat) : Option Susp :=
  match d'.posted.drop d.posted.length with
  | [] => none
  | ps => some { why := .lines (ps.flatMap fun p => linesOf p.pa p.bytes.length), since := now, limit := none }

/-- R221: the current thread takes a fault. `t` is its state for the frame (before the instruction, or after a completed
fault), `off` the offset the frame holds, `here` the instruction's address. The walker routine, which is in no context, has no
trap entry: its thread ends as by HALT (R423). DEDUCED (log 16). -/
def Dev.takeFault (d : Dev) (c : Cur) (t : Thread) (off : Nat) (x : Trap) (here : Dword) : Dev :=
  let addr := x.addr.getD here
  let d := d.lower c
  if c.w.kind = .walker then
    let d := d.modDie c.w.die fun y => y.release c.w.uid c.tid
    d.commitOut c { t with pos := .exited, trapCause := x.cause, trapAddr := addr, susp := none }
  else
    match d.ctx? c.w.die c.w.ctx with
    | none => d.commitOut c { t with pos := .exited, trapCause := x.cause, trapAddr := addr, susp := none }
    | some k =>
      if k.trap = 0 ∨ t.trapDepth = 255 then d.abort c.w.die c.w.ctx x.code (c.w.threadField c.tid)
      else
        match d.spillAll true { c with t := { t with walkFail := [] } } with
        | .ok d' t' =>
          match d'.pushBytes true c.w c.tid [] t'.sp (faultFrame c off t) with
          | .ok d'' sp =>
            d''.commitOut c { { t with cache := [] }.enterTrap k.trap x addr sp with susp := d.afterPosts d'' (d.clock c.w.die c.w.core) }
          | .miss _ | .dirty _ => d.abort c.w.die c.w.ctx x.code (c.w.threadField c.tid)
          | .fail _ => d.abort c.w.die c.w.ctx x.code (c.w.threadField c.tid)
        | .miss _ | .dirty _ => d.abort c.w.die c.w.ctx x.code (c.w.threadField c.tid)
        | .fail _ => d.abort c.w.die c.w.ctx x.code (c.w.threadField c.tid)

/-! ## Suspension (R218) -/

/-- R218: how many threads of a core stand in the suspension store: those that wait within a block, whether suspended, restored (R185) or
returned to it by ERET (R223). DEDUCED (log 16). -/
def Dev.stored (d : Dev) (die core : Nat) : Nat :=
  ((d.wgs.filter fun w => w.die == die && w.live && w.core == core).map fun w =>
    (w.threads.filter fun t => t.off != 0 && !t.spilled && t.pos == .waiting).length).foldl (· + ·) 0

/-- R218: the current thread is suspended in its instruction. With the suspension store full its working copy is pushed to
the spill stack as a frame of the fault-frame size (R215 applies). -/
def Dev.suspend (d : Dev) (c : Cur) (why : Wait) (limit : Option Nat) : Dev :=
  let now := d.clock c.w.die c.w.core
  let since := match c.t.susp with
    | some s => if c.t.suspended then s.since else now
    | none => now
  let raised := match why with
    | .place _ => some (c.t.raised.getD (hdrSets c.hdr1))
    | _ => c.t.raised
  let t := { c.t with pos := .waiting, susp := some { why := why, since := since, limit := limit }, suspended := true,
                      raised := raised }
  -- a push that fails faults in its place, with the flags that it has raised lowered again (R11)
  let fails := fun (x : Trap) => d.takeFault { c with t := { c.t with raised := raised } } c.t c.t.off x c.addr
  let lost := fun (p : Nat) => fails (.at 0x0F rNotResident (BitVec.ofNat 64 (p * 4096)))
  if d.stored c.w.die c.w.core < 1024 then d.commitOut c t
  else
    match d.spillAll true c with
    | .ok d' t' =>
      match d'.pushBytes true c.w c.tid [] t'.sp (faultFrame c c.t.off c.t) with
      | .ok d'' sp => d''.commitOut c { t with cache := [], sp := sp, spilled := true }
      | .miss p => lost p
      | .dirty _ => d.commitOut c t
      | .fail x => fails x
    | .miss p => lost p
    | .dirty _ => d.commitOut c t
    | .fail x => fails x

/-! ## From an instruction's effect to a step -/

/-- What an instruction does for its thread. -/
inductive Act where
  /-- It completes; the device is `d`, the thread `t`. -/
  | done (d : Dev) (t : Thread)
  /-- It faults: everything is as before (R11). -/
  | fault (x : Trap)
  /-- A completed fault (R11). -/
  | after (d : Dev) (t : Thread) (x : Trap)
  /-- The thread waits in it (R218). -/
  | wait (d : Dev) (why : Wait) (limit : Option Nat)
  /-- It ends the block or the thread: the thread stands where `t` says. -/
  | leave (d : Dev) (t : Thread)

/-- The step of an instruction of `n` words whose effect is `f`. -/
def State.act (n : Nat) (f : Dev → Cur → Act) (s : State) : Out :=
  match s.dev.cur with
  | none => .fault .noThread
  | some c =>
    match f s.dev c with
    | .done d t => .next { s with dev := d.commit c (t.advance n) }
    | .fault x => .next { s with dev := s.dev.takeFault c c.t c.t.off x c.addr }
    | .after d t x => .next { s with dev := d.takeFault c (t.advance n) (c.t.off + n) x c.addr }
    | .wait d why limit => .next { s with dev := d.suspend c why limit }
    | .leave d t => .next { s with dev := d.commitOut c t }

/-- The effect of an instruction that acts on its thread's registers and predicates alone. -/
def pureAct (f : Thread → Except Trap Thread) (d : Dev) (c : Cur) : Act :=
  match f c.t with
  | .ok t => .done d t
  | .error x => .fault x

/-- The step of such an instruction. -/
def State.pure (n : Nat) (f : Thread → Except Trap Thread) (s : State) : Out := s.act n (pureAct f)

/-- An event of the device: it changes the device, and nothing where its condition does not hold. DESIGN CHOICE (log 5). -/
def State.onDev (f : Dev → Dev) (s : State) : Out := .next { s with dev := f s.dev }

end Sys2Proof.Machine
end

