-- ==== Sys2Proof/Machine/Flags.lean ====
section
/-!
DEFINITION. The sticky flags of STATUS (R225): their bits, and how an instruction sets them. Integer, logic, move, predicate
and terminator instructions set none (R331); the conditions of the floating-point flags (R277) stand with the rounding
operation in Round.lean, which answers a set of these bits beside each code.
-/

namespace Sys2Proof.Machine

/-- R225 [0]. -/
def fNV : BitVec 7 := 0x01#7
/-- R225 [1]. -/
def fDZ : BitVec 7 := 0x02#7
/-- R225 [2]. -/
def fOF : BitVec 7 := 0x04#7
/-- R225 [3]. -/
def fUF : BitVec 7 := 0x08#7
/-- R225 [4]. -/
def fNX : BitVec 7 := 0x10#7
/-- R225 [5]. -/
def fBADSCALE : BitVec 7 := 0x20#7
/-- R225 [6]. -/
def fSLACK : BitVec 7 := 0x40#7

/-- Sticky bits set in the executing thread's STATUS. -/
def Thread.raise (t : Thread) (f : BitVec 7) : Thread := { t with sticky := t.sticky ||| f }
/-- R225, R6: a write to STATUS clears the sticky bits written 1 and changes nothing else. -/
def Thread.clearStatus (t : Thread) (v : Word) : Thread := { t with sticky := t.sticky &&& ~~~(v.extractLsb' 0 7) }

end Sys2Proof.Machine
end

