-- ==== Sys2Proof/Machine/Operands.lean ====
section
/-!
DEFINITION. The operand forms of the register instructions (R308, R309, R331, R336): every source is read before any
destination is written (R220), an index in the slack sets SLACK (R210), and an index at or beyond ALLOC faults.
-/

namespace Sys2Proof

/-- R309: the bytes of an access. -/
def Size.bytes (z : Size) : Nat :=
  match z with
  | .b8 => 1
  | .b16 => 2
  | .b32 => 4
  | .b64 => 8
  | .b128 => 16
/-- R370: the registers of an access. -/
def Size.regs (z : Size) : Nat :=
  match z with
  | .b8 | .b16 | .b32 => 1
  | .b64 => 2
  | .b128 => 4

end Sys2Proof

namespace Sys2Proof.Machine

/-- gd from ga. -/
def opRR (d a : Reg) (f : Word → Word) (t : Thread) : Except Trap Thread :=
  match t.get a.toNat with
  | .ok x => (t.note [a.toNat]).put d.toNat (f x)
  | .error e => .error e
/-- gd from ga and gb. -/
def opRRR (d a b : Reg) (f : Word → Word → Word) (t : Thread) : Except Trap Thread :=
  match t.get a.toNat, t.get b.toNat with
  | .ok x, .ok y => (t.note [a.toNat, b.toNat]).put d.toNat (f x y)
  | .error e, _ => .error e
  | .ok _, .error e => .error e
/-- gd from ga, gb and gd. -/
def opRRRd (d a b : Reg) (f : Word → Word → Word → Word) (t : Thread) : Except Trap Thread :=
  match t.get a.toNat, t.get b.toNat, t.get d.toNat with
  | .ok x, .ok y, .ok z => (t.note [a.toNat, b.toNat, d.toNat]).put d.toNat (f x y z)
  | .error e, _, _ => .error e
  | .ok _, .error e, _ => .error e
  | .ok _, .ok _, .error e => .error e
/-- gd from ga and gd. -/
def opRRd (d a : Reg) (f : Word → Word → Word) (t : Thread) : Except Trap Thread :=
  match t.get a.toNat, t.get d.toNat with
  | .ok x, .ok z => (t.note [a.toNat, d.toNat]).put d.toNat (f x z)
  | .error e, _ => .error e
  | .ok _, .error e => .error e
/-- gd from an immediate. -/
def opRI (d : Reg) (v : Word) (t : Thread) : Except Trap Thread := t.put d.toNat v
/-- gd:gd+1 from two pairs. -/
def opDDD (d a b : Reg) (f : Dword → Dword → Dword) (t : Thread) : Except Trap Thread :=
  match t.getD a.toNat, t.getD b.toNat with
  | .ok x, .ok y => (t.note [a.toNat, a.toNat + 1, b.toNat, b.toNat + 1]).putD d.toNat (f x y)
  | .error e, _ => .error e
  | .ok _, .error e => .error e
/-- gd:gd+1 from a pair and a register. -/
def opDDR (d a b : Reg) (f : Dword → Word → Dword) (t : Thread) : Except Trap Thread :=
  match t.getD a.toNat, t.get b.toNat with
  | .ok x, .ok y => (t.note [a.toNat, a.toNat + 1, b.toNat]).putD d.toNat (f x y)
  | .error e, _ => .error e
  | .ok _, .error e => .error e
/-- gd:gd+1 from two registers. -/
def opDRR (d a b : Reg) (f : Word → Word → Dword) (t : Thread) : Except Trap Thread :=
  match t.get a.toNat, t.get b.toNat with
  | .ok x, .ok y => (t.note [a.toNat, b.toNat]).putD d.toNat (f x y)
  | .error e, _ => .error e
  | .ok _, .error e => .error e
/-- gd:gd+1 from a pair. -/
def opDD (d a : Reg) (f : Dword → Dword) (t : Thread) : Except Trap Thread :=
  match t.getD a.toNat with
  | .ok x => (t.note [a.toNat, a.toNat + 1]).putD d.toNat (f x)
  | .error e => .error e
/-- gd from ga, with flags. -/
def opFR (d a : Reg) (f : Word → Word × BitVec 7) (t : Thread) : Except Trap Thread :=
  match t.get a.toNat with
  | .ok x => ((t.note [a.toNat]).raise (f x).2).put d.toNat (f x).1
  | .error e => .error e
/-- gd from ga and gb, with flags. -/
def opFRR (d a b : Reg) (f : Word → Word → Word × BitVec 7) (t : Thread) : Except Trap Thread :=
  match t.get a.toNat, t.get b.toNat with
  | .ok x, .ok y => ((t.note [a.toNat, b.toNat]).raise (f x y).2).put d.toNat (f x y).1
  | .error e, _ => .error e
  | .ok _, .error e => .error e
/-- gd from ga, gb and gd, with flags. -/
def opFRRd (d a b : Reg) (f : Word → Word → Word → Word × BitVec 7) (t : Thread) : Except Trap Thread :=
  match t.get a.toNat, t.get b.toNat, t.get d.toNat with
  | .ok x, .ok y, .ok z => ((t.note [a.toNat, b.toNat, d.toNat]).raise (f x y z).2).put d.toNat (f x y z).1
  | .error e, _, _ => .error e
  | .ok _, .error e, _ => .error e
  | .ok _, .ok _, .error e => .error e

/-- R338: the immediate without or with an IMM hint. -/
def immOf (imm : BitVec 14) (hi : Option (BitVec 18)) : Word :=
  match hi with
  | some h => h ++ imm
  | none => imm.signExtend 32
/-- R312: how many words an instruction takes when it may have a hint. -/
def sizeOf {α : Type} (hint : Option α) : Nat := if hint.isSome then 2 else 1

/-- R309: the address of format M. -/
def offAddr (x : Word) (off : BitVec 10) (size : Nat) : Word := x + off.signExtend 32 * BitVec.ofNat 32 size
/-- The value of a group of registers, the first lowest (R370). -/
def groupValue : List Word → Nat
  | [] => 0
  | w :: ws => w.toNat + 2 ^ 32 * groupValue ws
/-- The registers of a value, the lowest first. -/
def groupWords (v : Nat) : Nat → List Word
  | 0 => []
  | n + 1 => BitVec.ofNat 32 v :: groupWords (v / 2 ^ 32) n
/-- The indices of a group. -/
def groupIdx (r : Reg) (n : Nat) : List Nat := (List.range n).map (· + r.toNat)

end Sys2Proof.Machine
end

