-- ==== Sys2Proof/Machine/Control.lean ====
section
/-!
DEFINITION. Terminators (R352 to R358): branches, calls, returns, the return from a trap, and the end of a thread.
-/

namespace Sys2Proof.Machine

/-- The thread waits at an address with its row replaced; its block has ended (R353, R201). -/
def Thread.goTo (t : Thread) (row : List Word) (a : Dword) : Thread :=
  { t with pos := .waiting, blk := a, off := 0, row := row, retired := t.retired + 1, locked := [], susp := none,
           suspended := false, expired := false, walkFail := [], raised := none }
/-- A missing translation: the thread joins or starts the walk of the page and waits for it, or for a place in
the queue (R166, R218). -/
def Dev.waitWalk (d : Dev) (c : Cur) (u : TlbUnit) (acc : Access) (page : Nat) : Act :=
  if (d.die c.w.die).mayAsk c.w.ctx page then
    .wait (d.ask c.w.die c.w.ctx page (.thread c.w.uid c.tid) u acc) (.walk page) none
  else .wait d .queue none
/-- R137: the thread waits until lines it writes are invalidated. -/
def Dev.waitLines (d : Dev) (ls : List Nat) : Act := .wait (ls.foldl Dev.invalidate d) (.lines ls) none
/-- The thread of the current instruction. -/
def Cur.who (c : Cur) : Nat × Nat := (c.w.uid, c.tid)
/-- R216: a thread with a pending token waits. -/
def Cur.pending (c : Cur) : Bool := !c.t.pend.isEmpty
/-- R352: the target of a block-relative terminator. -/
def Cur.target (c : Cur) (off : BitVec 20) : Dword := c.t.blk + off.signExtend 64 * 8#64
def Cur.following (c : Cur) : Dword := nextBlock c.t.blk c.hdr0
/-- R211: the row after the write-back of the block's LIVEOUT groups. -/
def Cur.rowOut (c : Cur) : List Word := c.t.writeBack (hdrLiveOut c.hdr1)

/-- The thread leaves for an address. -/
def leaveTo (d : Dev) (c : Cur) (a : Dword) : Act := .leave d (c.t.goTo c.rowOut a)

/-- R352 bra. -/
def execBra (off : BitVec 20) (s : State) : Out := s.act 1 fun d c => leaveTo d c (c.target off)
/-- R352 brc p. -/
def execBrcTrue (p : PredReg) (off : BitVec 20) (s : State) : Out :=
  s.act 1 fun d c => leaveTo d c (if c.t.pred p then c.target off else c.following)
/-- R352 brc !p. -/
def execBrcFalse (p : PredReg) (off : BitVec 20) (s : State) : Out :=
  s.act 1 fun d c => leaveTo d c (if c.t.pred p then c.following else c.target off)
/-- R352 nxt. -/
def execNxt (s : State) : Out := s.act 1 fun d c => leaveTo d c c.following
/-- R358: for a proof workgroup yield acts as nxt. -/
def execYield (s : State) : Out :=
  s.act 1 fun d c => .leave d { c.t.goTo c.rowOut c.following with yielded := !c.w.proof }

/-- A target read from a pair, checked under R353. -/
def Cur.pairTarget (c : Cur) (a : Reg) : Except Trap Dword :=
  match c.t.getD a.toNat with
  | .error e => .error e
  | .ok x => if x.toNat % 8 ≠ 0 then .error (.at 0x05 0 x) else .ok x
/-- The thread with SLACK set for a pair that it read. -/
def Cur.notePair (c : Cur) (a : Reg) : Cur := { c with t := c.t.note [a.toNat, a.toNat + 1] }

/-- R352 brx. -/
def execBrx (a : Reg) (s : State) : Out :=
  s.act 1 fun d c =>
    match c.pairTarget a with
    | .error e => .fault e
    | .ok x => leaveTo d (c.notePair a) x

/-- R240: an instruction that waits for all its thread's tokens has completed: the thread observes their commands. -/
def Dev.drained (d : Dev) (c : Cur) : Dev := d.observe c.who fun e => d.completed e && e.by_ == c.who && e.token.isSome
/-- R354: a call to an address, with s = 8 · (S + 1). -/
def callTo (s : BitVec 2) (a : Dword) (d : Dev) (c : Cur) : Act :=
  let n := 8 * (s.toNat + 1)
  let row := c.rowOut
  let f : CallFrame :=
    { ret := c.following, slide := n,
      regs := (List.range n).map fun i => if i < c.t.alloc then wordAt row i else 0#32 }
  match d.pushFrame c f with
  | .fail x => .fault x
  | .miss p => d.waitWalk c (.stack c.w.core) (accStack true) p
  | .dirty ls => d.waitLines ls
  | .ok d t => .leave (d.drained c) (t.goTo (slideUp row n c.t.alloc) a)

/-- R354 call. -/
def execCall (s : BitVec 2) (off : BitVec 20) (st : State) : Out :=
  st.act 1 fun d c => if c.pending then .wait d .tokens none else callTo s (c.target off) d c
/-- R354 callx. -/
def execCallx (a : Reg) (s : BitVec 2) (st : State) : Out :=
  st.act 1 fun d c =>
    if c.pending then .wait d .tokens none
    else
      match c.pairTarget a with
      | .error e => .fault e
      | .ok x => callTo s x d (c.notePair a)

/-- R355: the thread after a frame is popped, with the cache and the spill-stack pointer that remain. -/
def Cur.popTo (c : Cur) (d : Dev) (f : CallFrame) (cache : List CallFrame) (sp : Nat) : Act :=
  .leave (d.drained c) ({ c.t with cache := cache, sp := sp }.goTo (slideDown c.rowOut f.regs f.slide c.t.alloc) f.ret)

/-- R227 ERET_STATE. -/
def eretState : Trap := .here 0x13 0
/-- R215 STACK_EXHAUSTED. -/
def stackExhausted : Trap := .here 0x10 0

/-- R355: ret with an empty stack cache fills the frame from the spill stack, whose bytes are charged as one move (R179). -/
def fillRet (d : Dev) (c : Cur) : Act :=
  if c.w.spill < c.t.sp + 32 then .fault stackExhausted
  else
    match d.topBytes c.w c.tid c.t.walkFail c.t.sp 32 with
    | .fail x => .fault x
    | .miss p => d.waitWalk c (.stack c.w.core) (accStack false) p
    | .dirty ls => d.waitLines ls
    | .ok d h =>
      let ty := leValue ((h.drop 8).take 1)
      let n := leValue ((h.drop 9).take 1)
      let ret : Dword := BitVec.ofNat 64 (leValue (h.take 8))
      if ty ≠ 1 then .fault eretState
      else if ¬(n = 8 ∨ n = 16 ∨ n = 24 ∨ n = 32) then .fault eretState
      else if ret.toNat % 8 ≠ 0 then .fault eretState
      else if c.w.spill < c.t.sp + 32 + 4 * n then .fault stackExhausted
      else
        match d.topBytes c.w c.tid c.t.walkFail (c.t.sp + 32) (4 * n) with
        | .fail x => .fault x
        | .miss p => d.waitWalk c (.stack c.w.core) (accStack false) p
        | .dirty ls => d.waitLines ls
        | .ok d bs =>
          let regs := (List.range n).map fun i => BitVec.ofNat 32 (leValue ((bs.drop (4 * i)).take 4))
          c.popTo (d.dramCharge c.w.die c.w.ctx (32 + 4 * n)) { ret := ret, slide := n, regs := regs } [] (c.t.sp + 32 + 4 * n)

/-- R355 ret. -/
def execRet (s : State) : Out :=
  s.act 1 fun d c =>
    if c.pending then .wait d .tokens none
    else
      match c.t.cache with
      | f :: rest => c.popTo d f rest c.t.sp
      | [] => fillRet d c

/-- R223: the LEN of the block at BLOCK is read for the check of OFFSET: a header word through the fetch TLB. -/
def Dev.headerAt (d : Dev) (c : Cur) (a : Dword) : Xl := d.xlate c.w.die c.w.ctx (.fetch c.w.core) accFetch c.t.walkFail a

/-- R223: the fault frame popped. TRAPCAUSE[31:16] are reserved and read zero (R226). -/
def eretTo (d : Dev) (c : Cur) (h : List Byte) (regs : List Word) (blk : Dword) (off : Nat) : Act :=
  let row := (List.range 64).map fun i => if i < c.t.alloc then wordAt regs i else 0#32
  .leave (d.drained c)
    { c.t with
      pos := .waiting, blk := blk, off := off, row := row, work := row,
      preds := BitVec.ofNat 7 (leValue ((h.drop 10).take 1)), trapDepth := c.t.trapDepth - 1,
      trapCause := BitVec.ofNat 32 (leValue ((h.drop 16).take 2)),
      trapAddr := BitVec.ofNat 64 (leValue ((h.drop 24).take 8)), retired := c.t.retired + 1,
      sp := c.t.sp + roundUp (64 + 4 * c.t.alloc) 32, locked := [], susp := none, suspended := false, expired := false,
      walkFail := [], raised := none }

/-- R223, R356 eret. A topmost frame that does not lie whole in the spill stack is none, and ERET_STATE. DEDUCED (log 19). -/
def execEret (s : State) : Out :=
  s.act 1 fun d c =>
    let size := roundUp (64 + 4 * c.t.alloc) 32
    if c.pending then .wait d .tokens none
    else if c.t.trapDepth = 0 ∨ c.t.cache ≠ [] ∨ c.w.spill < c.t.sp + 32 then .fault eretState
    else
      match d.topBytes c.w c.tid c.t.walkFail c.t.sp 32 with
      | .fail x => .fault x
      | .miss p => d.waitWalk c (.stack c.w.core) (accStack false) p
      | .dirty ls => d.waitLines ls
      | .ok d h =>
        let blk : Dword := BitVec.ofNat 64 (leValue (h.take 8))
        let off := leValue ((h.drop 9).take 1)
        if leValue ((h.drop 8).take 1) ≠ 2 then .fault eretState
        else if leValue ((h.drop 11).take 1) ≠ c.t.alloc ∨ c.w.spill < c.t.sp + size then .fault eretState
        else if blk.toNat % 8 ≠ 0 then .fault eretState
        else
          match d.headerAt c blk with
          | .fail r => .fault (.at 0x0F r blk)
          | .miss => d.waitWalk c (.fetch c.w.core) accFetch (pageOf blk)
          | .hit pa =>
            if hdrLen (BitVec.ofNat 32 (d.rd pa 4)) < off then .fault eretState
            else
              match d.topBytes c.w c.tid c.t.walkFail (c.t.sp + 64) (4 * c.t.alloc) with
              | .fail x => .fault x
              | .miss p => d.waitWalk c (.stack c.w.core) (accStack false) p
              | .dirty ls => d.waitLines ls
              | .ok d bs =>
                eretTo (d.dramCharge c.w.die c.w.ctx (64 + 4 * c.t.alloc)) c h ((List.range c.t.alloc).map fun i => BitVec.ofNat 32 (leValue ((bs.drop (4 * i)).take 4)))
                  blk off

end Sys2Proof.Machine
end

