-- ==== Sys2Proof/Machine/Round.lean ====
section
/-!
DEFINITION. Number formats, exact values and rounding (R258 to R277): the value of a code, Round on the grid of a format with
its flags, exact arithmetic on values, the stochastic generator, and the scale of a block.
-/

namespace Sys2Proof

open Sys2Proof.Machine

/-! ## Grids (R258, R264, R268) -/

/-- R267: a scale format as a rounding target, beside the element formats. -/
inductive Target where
  | el (f : Fmt)
  | ue4m3
deriving DecidableEq, Repr

/-- R258: fraction bits of an IEEE-like format; 0 for a tapered one. -/
def Fmt.frac (f : Fmt) : Nat :=
  match f with
  | .fp32 => 23
  | .bf16 => 7
  | .fp16 => 10
  | .e5m2 => 2
  | .e4m3 => 3
  | .e3m2 => 2
  | .e2m3 => 3
  | .e2m1 => 1
  | .t8 | .t6 => 0
  | .fp64 => 52
/-- R258: width in bits. -/
def Fmt.width (f : Fmt) : Nat :=
  match f with
  | .fp32 => 32
  | .bf16 | .fp16 => 16
  | .e5m2 | .e4m3 | .t8 => 8
  | .e3m2 | .e2m3 | .t6 => 6
  | .e2m1 => 4
  | .fp64 => 64
/-- The unit of a format's grid is 2 to minus this: its smallest positive value (R258). -/
def Fmt.unit (f : Fmt) : Nat :=
  match f with
  | .fp32 => 149
  | .bf16 => 133
  | .fp16 => 24
  | .e5m2 => 16
  | .e4m3 => 9
  | .e3m2 => 4
  | .e2m3 => 3
  | .e2m1 => 1
  | .t8 => 12
  | .t6 => 8
  | .fp64 => 1074
/-- The magnitude code of the largest finite value (R258, R264). -/
def Fmt.maxCode (f : Fmt) : Nat :=
  match f with
  | .fp32 => 0x7F7F_FFFF
  | .bf16 => 0x7F7F
  | .fp16 => 0x7BFF
  | .e5m2 => 0x7B
  | .e4m3 => 0x7E
  | .e3m2 => 0x1F
  | .e2m3 => 0x1F
  | .e2m1 => 0x7
  | .t8 => 0x7F
  | .t6 => 0x1F
  | .fp64 => 0x7FEF_FFFF_FFFF_FFFF
/-- The canonical NaN of a format; 0 where it has none (R258, R273). -/
def Fmt.nan (f : Fmt) : Nat :=
  match f with
  | .fp32 => 0x7FC0_0000
  | .bf16 => 0x7FC0
  | .fp16 => 0x7E00
  | .e5m2 => 0x7E
  | .e4m3 => 0x7F
  | .e3m2 | .e2m3 | .e2m1 => 0
  | .t8 => 0x80
  | .t6 => 0x20
  | .fp64 => 0x7FF8_0000_0000_0000
/-- R259: formats with infinities. -/
def Fmt.ieee (f : Fmt) : Bool := f == .fp32 || f == .bf16 || f == .fp16 || f == .e5m2 || f == .fp64
/-- R261. -/
def Fmt.tapered (f : Fmt) : Bool := f == .t8 || f == .t6
/-- R264: the bit of the sign. -/
def Fmt.signBit (f : Fmt) : Nat := 2 ^ (f.width - 1)

/-- R259, R260: the value of a magnitude code with `F` fraction bits, in units of the smallest positive value. -/
def ieeeGrid (frac code : Nat) : Nat :=
  let e := code / 2 ^ frac
  let m := code % 2 ^ frac
  if e = 0 then m else (2 ^ frac + m) * 2 ^ (e - 1)
/-- The greatest magnitude code whose value is at most `n` units. -/
def ieeeFloor (frac n : Nat) : Nat :=
  if n < 2 ^ frac then n else let s := n.log2 - frac; s * 2 ^ frac + n / 2 ^ s

/-- R261: the length of the run of bits equal to `v` from bit `k - 1` down. -/
def runLen (v : Bool) (code : Nat) : Nat → Nat
  | 0 => 0
  | k + 1 => if code.testBit k = v then runLen v code k + 1 else 0
/-- R261: the value of a magnitude code of `n` bits, in units of 2 to minus `u`. The virtual code 2^n has MAXF + g (R268). -/
def taperGrid (n u code : Nat) : Nat :=
  if code = 0 then 0
  else if 2 ^ n ≤ code then (if n = 7 then 7168 else 448) * 2 ^ u
  else
    let top := code.testBit (n - 1)
    let k := runLen top code n
    let rest := n - k - 1
    let e := if 1 ≤ rest then bits code (rest - 1) 1 else 0
    let fb := rest - 1
    let f := bits code 0 fb
    -- exponent of the value in units: 2 · regime + e + u
    let ex := if top then u + 2 * (k - 1) + e else u + e - 2 * k
    (2 ^ fb + f) * 2 ^ ex / 2 ^ fb
/-- The greatest code below `2^n` whose value is at most `v` units. -/
def taperFloor (n u v : Nat) : Nat → Nat
  | 0 => 0
  | c + 1 => if taperGrid n u (c + 1) ≤ v then c + 1 else taperFloor n u v c

def Target.unit : Target → Nat
  | .el f => f.unit
  | .ue4m3 => 9
def Target.maxCode : Target → Nat
  | .el f => f.maxCode
  | .ue4m3 => 0x7E
/-- R264, R268: the value of a magnitude code, in units. -/
def Target.grid : Target → Nat → Nat
  | .el .t8, c => taperGrid 7 12 c
  | .el .t6, c => taperGrid 5 8 c
  | .el f, c => ieeeGrid f.frac c
  | .ue4m3, c => ieeeGrid 3 c
/-- The greatest magnitude code, up to the virtual one, whose value is at most `v` units. -/
def Target.floor (t : Target) (v : Nat) : Nat :=
  match t with
  | .el .t8 => if 7168 * 2 ^ 12 ≤ v then 0x80 else taperFloor 7 12 v 0x7F
  | .el .t6 => if 448 * 2 ^ 8 ≤ v then 0x20 else taperFloor 5 8 v 0x1F
  | .el f => min (f.maxCode + 1) (ieeeFloor f.frac v)
  | .ue4m3 => min 0x7F (ieeeFloor 3 v)
/-- R277: the smallest normal value in units (the smallest positive one of T8 and T6). -/
def Target.normal : Target → Nat
  | .el f => if f.tapered then 1 else 2 ^ f.frac
  | .ue4m3 => 8

/-! ## Values (R10, R259 to R263) -/

/-- R10: `Value(code, format)`. -/
def valueOf (f : Fmt) (code : Nat) : XVal :=
  let c := code % 2 ^ f.width
  let neg := decide (f.signBit ≤ c)
  let m := c % f.signBit
  if f.tapered then
    (if m = 0 then (if neg then .nan else .fin false 0 1) else .fin neg ((Target.el f).grid m) (2 ^ f.unit))
  else if f.ieee && decide (f.maxCode + 1 ≤ m) then (if m = f.maxCode + 1 then .inf neg else .nan)
  else if f == .e4m3 && m == 0x7F then .nan
  else .fin neg (ieeeGrid f.frac m) (2 ^ f.unit)

/-- R262, R263, R276: the value of a scale byte; a UE4M3 byte with bit [7] set makes its block NaN. -/
def scaleValue (s : Scale) (b : Byte) : XVal :=
  match s with
  | .none => .fin false 1 1
  | .e8m0 => if b = 0xFF#8 then .nan else .fin false (2 ^ b.toNat) (2 ^ 127)
  | .ue4m3 => if b.getLsbD 7 || b == 0x7F#8 then .nan else .fin false (ieeeGrid 3 b.toNat) (2 ^ 9)
/-- R276: a UE4M3 scale with bit [7] set. -/
def badScale (s : Scale) (b : Byte) : Bool := s == .ue4m3 && b.getLsbD 7

def XVal.isNan : XVal → Bool
  | .nan => true
  | .inf _ => false
  | .fin _ _ _ => false
def XVal.isInf : XVal → Bool
  | .nan => false
  | .inf _ => true
  | .fin _ _ _ => false
def XVal.isZero : XVal → Bool
  | .nan => false
  | .inf _ => false
  | .fin _ n _ => n == 0
/-- The sign; a NaN has sign 0 (R259). -/
def XVal.sign : XVal → Bool
  | .nan => false
  | .inf s => s
  | .fin s _ _ => s
def XVal.negate : XVal → XVal
  | .nan => .nan
  | .inf s => .inf !s
  | .fin s n d => .fin (!s) n d
/-- The signed numerator. -/
def signed (s : Bool) (n : Nat) : Int := if s then -(n : Int) else n

/-- R275: an exact sum; the sign of an exact zero sum of operands of opposite sign is minus under RDN only. The Bool is the
invalid operation ∞ − ∞. -/
def XVal.add (rdn : Bool) : XVal → XVal → XVal × Bool
  | .nan, _ => (.nan, false)
  | _, .nan => (.nan, false)
  | .inf s, .inf r => if s = r then (.inf s, false) else (.nan, true)
  | .inf s, .fin _ _ _ => (.inf s, false)
  | .fin _ _ _, .inf s => (.inf s, false)
  | .fin s n d, .fin r m e =>
    let v := signed s (n * e) + signed r (m * d)
    if v = 0 then (.fin (if n = 0 ∧ m = 0 ∧ s = r then s else rdn) 0 1, false)
    else (.fin (decide (v < 0)) v.natAbs (d * e), false)
/-- An exact product. The Bool is the invalid operation 0 × ∞. -/
def XVal.mul : XVal → XVal → XVal × Bool
  | .nan, _ => (.nan, false)
  | _, .nan => (.nan, false)
  | .inf s, .inf r => (.inf (s != r), false)
  | .inf s, .fin r m _ => if m = 0 then (.nan, true) else (.inf (s != r), false)
  | .fin s n _, .inf r => if n = 0 then (.nan, true) else (.inf (s != r), false)
  | .fin s n d, .fin r m e => (.fin (s != r) (n * m) (d * e), false)
/-- An exact quotient with its flags: invalid, and division by zero (R340). -/
def XVal.quot : XVal → XVal → XVal × BitVec 7
  | .nan, _ => (.nan, 0#7)
  | _, .nan => (.nan, 0#7)
  | .inf _, .inf _ => (.nan, fNV)
  | .inf s, .fin r _ _ => (.inf (s != r), 0#7)
  | .fin s _ _, .inf r => (.fin (s != r) 0 1, 0#7)
  | .fin s n d, .fin r m e =>
    if m = 0 then (if n = 0 then (.nan, fNV) else (.inf (s != r), fDZ)) else (.fin (s != r) (n * e) (d * m), 0#7)
/-- Whether one value is less than another; NaN is unordered. -/
def XVal.lt : XVal → XVal → Bool
  | .nan, _ => false
  | _, .nan => false
  | .inf s, .inf r => s && !r
  | .inf s, .fin _ _ _ => s
  | .fin _ _ _, .inf r => !r
  | .fin s n d, .fin r m e => decide (signed s (n * e) < signed r (m * d))
/-- Whether two values are equal; −0 equals +0 and NaN equals nothing. -/
def XVal.eqv : XVal → XVal → Bool
  | .nan, _ => false
  | _, .nan => false
  | .inf s, .inf r => s == r
  | .inf _, .fin _ _ _ => false
  | .fin _ _ _, .inf _ => false
  | .fin s n d, .fin r m e => decide (signed s (n * e) = signed r (m * d))

/-! ## Rounding (R268 to R270, R273) -/

/-- A rounding mode of R10. -/
inductive Mode where
  | rne | rtz | rup | rdn
  | sr (r : Nat)
deriving DecidableEq, Repr

def Rm.mode : Rm → Mode
  | .rne => .rne
  | .rtz => .rtz
  | .rup => .rup
  | .rdn => .rdn
/-- RM3 with the random value of SR. -/
def Rm3.mode (m : Rm3) (r : Nat) : Mode :=
  match m with
  | .rne => .rne
  | .rtz => .rtz
  | .rup => .rup
  | .rdn => .rdn
  | .sr => .sr r

/-- R268, R270: the magnitude code chosen for num ÷ den, up to the virtual code. -/
def chooseCode (t : Target) (m : Mode) (neg : Bool) (num den : Nat) : Nat :=
  let n := num * 2 ^ t.unit
  let top := t.maxCode + 1
  if t.grid top * den < n then
    (match m with
    | .rne => top
    | .rtz => t.maxCode
    | .rup => if neg then t.maxCode else top
    | .rdn => if neg then top else t.maxCode
    | .sr _ => top)
  else
    let c := t.floor (n / den)
    let l := t.grid c
    if l * den = n then c
    else
      let h := t.grid (c + 1)
      match m with
      | .rne =>
        let a := 2 * n
        let b := (l + h) * den
        if a < b then c else if b < a then c + 1 else if c % 2 = 0 then c else c + 1
      | .rtz => c
      | .rup => if neg then c else c + 1
      | .rdn => if neg then c + 1 else c
      | .sr r => if 2 ^ 16 ≤ (n - l * den) * 2 ^ 16 / ((h - l) * den) + r then c + 1 else c

/-- A code of a magnitude and a sign; zero is code 0 in T8 and T6 (R268). -/
def Fmt.code (f : Fmt) (neg : Bool) (mag : Nat) : Nat :=
  if f.tapered && mag == 0 then 0 else if neg then f.signBit + mag else mag

/-- R273: what an infinite input or an overflow gives: the code and whether it is the NaN of E4M3, T8 or T6. -/
def Fmt.overflow (f : Fmt) (neg sat : Bool) : Nat × Bool :=
  if f.ieee then (f.code neg (if sat then f.maxCode else f.maxCode + 1), false)
  else if f == .e3m2 || f == .e2m3 || f == .e2m1 then (f.code neg f.maxCode, false)
  else if sat then (f.code neg f.maxCode, false) else (f.nan, true)

/-- R10: `Round(v, format, mode, sat)` with the flags of R277. -/
def roundTo (f : Fmt) (m : Mode) (sat : Bool) : XVal → Nat × BitVec 7
  | .nan => (f.nan, if f == .e3m2 || f == .e2m3 || f == .e2m1 then fNV else 0#7)
  | .inf s =>
    let r := f.overflow s sat
    (r.1, if r.2 then fNV else if f.ieee && !sat then 0#7 else fOF ||| fNX)
  | .fin s n d =>
    let c := chooseCode (.el f) m s n d
    let exact := (Target.el f).grid c * d == n * 2 ^ f.unit
    if c = f.maxCode + 1 then ((f.overflow s sat).1, fOF ||| fNX)
    else
      (f.code s c,
       (if exact then 0#7 else fNX) |||
         (if !exact && decide (n * 2 ^ f.unit < (Target.el f).normal * d) then fUF else 0#7))

/-- R267: the UE4M3 code of a value rounded up, saturating. -/
def roundScaleUp (n d : Nat) : Nat := min 0x7E (chooseCode .ue4m3 .rup false n d)

/-! ## Thread arithmetic on codes (R275, R339, R340, R342) -/

/-- A result with the flags of its operation and of its rounding. -/
def finishFp (f : Fmt) (m : Mode) (v : XVal) (fl : BitVec 7) : Nat × BitVec 7 :=
  let r := roundTo f m false v
  (r.1, r.2 ||| fl)
def fpAdd (f : Fmt) (rm : Rm) (x y : Nat) : Nat × BitVec 7 :=
  let r := XVal.add (rm == .rdn) (valueOf f x) (valueOf f y)
  finishFp f rm.mode r.1 (if r.2 then fNV else 0#7)
def fpSub (f : Fmt) (rm : Rm) (x y : Nat) : Nat × BitVec 7 :=
  let r := XVal.add (rm == .rdn) (valueOf f x) (valueOf f y).negate
  finishFp f rm.mode r.1 (if r.2 then fNV else 0#7)
def fpMul (f : Fmt) (rm : Rm) (x y : Nat) : Nat × BitVec 7 :=
  let r := XVal.mul (valueOf f x) (valueOf f y)
  finishFp f rm.mode r.1 (if r.2 then fNV else 0#7)
def fpDiv (f : Fmt) (rm : Rm) (x y : Nat) : Nat × BitVec 7 :=
  let r := XVal.quot (valueOf f x) (valueOf f y)
  finishFp f rm.mode r.1 r.2
/-- ±(x × y) ± z with one rounding; a product 0 × ∞ is invalid whatever the addend (R340). -/
def fpFma (f : Fmt) (rm : Rm) (negProd negAdd : Bool) (x y z : Nat) : Nat × BitVec 7 :=
  let p := XVal.mul (valueOf f x) (valueOf f y)
  if p.2 then (f.nan, fNV)
  else
    let a := if negProd then p.1.negate else p.1
    let b := if negAdd then (valueOf f z).negate else valueOf f z
    let r := XVal.add (rm == .rdn) a b
    finishFp f rm.mode r.1 (if r.2 then fNV else 0#7)
/-- R339, R340: the smaller or larger, −0 below +0; the chosen code unchanged. -/
def fpPick (f : Fmt) (larger : Bool) (x y : Nat) : Nat × BitVec 7 :=
  let a := valueOf f x
  let b := valueOf f y
  if a.isNan || b.isNan then (f.nan, 0#7)
  else
    let less := a.lt b || (a.isZero && b.isZero && a.sign && !b.sign)
    (if larger then (if less then y else x) else (if less then x else y), 0#7)
def fpAbs (f : Fmt) (x : Nat) : Nat × BitVec 7 := if (valueOf f x).isNan then (f.nan, 0#7) else (x % f.signBit, 0#7)
def fpNeg (f : Fmt) (x : Nat) : Nat × BitVec 7 :=
  if (valueOf f x).isNan then (f.nan, 0#7) else (if f.signBit ≤ x then x - f.signBit else x + f.signBit, 0#7)

/-- The integer square root: bits from `b` down. -/
def isqrtFrom (n r : Nat) : Nat → Nat
  | 0 => r
  | b + 1 => if (r + 2 ^ b) * (r + 2 ^ b) ≤ n then isqrtFrom n (r + 2 ^ b) b else isqrtFrom n r b
def isqrt (n : Nat) : Nat := isqrtFrom n 0 (n.log2 / 2 + 1)
/-- A square root to 200 bits after the point, and half a unit more when it is not exact: it rounds as the root itself does,
since no grid point or midpoint lies between. -/
def sqrtVal (n d : Nat) : XVal :=
  let m := n * 4 ^ 200
  let q := isqrt (m / d)
  if q * q * d = m then .fin false q (2 ^ 200) else .fin false (2 * q + 1) (2 ^ 201)
def fpSqrt (f : Fmt) (rm : Rm) (x : Nat) : Nat × BitVec 7 :=
  match valueOf f x with
  | .nan => (f.nan, 0#7)
  | .inf s => if s then (f.nan, fNV) else (x, 0#7)
  | .fin s n d => if n = 0 then (x, 0#7) else if s then (f.nan, fNV) else finishFp f rm.mode (sqrtVal n d) 0#7

/-! ## Integers (R343, R344) -/

/-- The integer nearest num ÷ den under a mode. -/
def roundInt (m : Rm) (neg : Bool) (num den : Nat) : Nat :=
  let q := num / den
  let r := num % den
  if r = 0 then q
  else
    match m with
    | .rne => if 2 * r < den then q else if den < 2 * r then q + 1 else if q % 2 = 0 then q else q + 1
    | .rtz => q
    | .rup => if neg then q else q + 1
    | .rdn => if neg then q + 1 else q
/-- R344: f2i. -/
def f2iCode (rm : Rm) (x : Word) : Word × BitVec 7 :=
  match valueOf .fp32 x.toNat with
  | .nan => (0#32, fNV)
  | .inf s => (if s then 0x8000_0000#32 else 0x7FFF_FFFF#32, fNV)
  | .fin s n d =>
    let v := signed s (roundInt rm s n d)
    if 2 ^ 31 - 1 < v then (0x7FFF_FFFF#32, fNV)
    else if v < -(2 ^ 31) then (0x8000_0000#32, fNV)
    else (BitVec.ofInt 32 v, if n % d = 0 then 0#7 else fNX)
/-- R344: f2u. -/
def f2uCode (rm : Rm) (x : Word) : Word × BitVec 7 :=
  match valueOf .fp32 x.toNat with
  | .nan => (0#32, fNV)
  | .inf s => (if s then 0#32 else 0xFFFF_FFFF#32, fNV)
  | .fin s n d =>
    let v := signed s (roundInt rm s n d)
    if 2 ^ 32 - 1 < v then (0xFFFF_FFFF#32, fNV)
    else if v < 0 then (0#32, fNV)
    else (BitVec.ofInt 32 v, if n % d = 0 then 0#7 else fNX)
/-- R344: frint sets no flag. -/
def frintCode (rm : Rm) (x : Word) : Word × BitVec 7 :=
  match valueOf .fp32 x.toNat with
  | .nan => (BitVec.ofNat 32 (Fmt.nan .fp32), 0#7)
  | .inf _ => (x, 0#7)
  | .fin s n d => (BitVec.ofNat 32 (roundTo .fp32 .rne false (.fin s (roundInt rm s n d) 1)).1, 0#7)
/-- R343: i2f and u2f. -/
def fromInt (rm : Rm) (v : Int) : Word × BitVec 7 :=
  let r := roundTo .fp32 rm.mode false (.fin (decide (v < 0)) v.natAbs 1)
  (BitVec.ofNat 32 r.1, r.2)

/-! ## The stochastic generator (R271) -/

def mix64 (z : Dword) : Dword :=
  let z := (z ^^^ (z >>> 30)) * 0xBF58_476D_1CE4_E5B9#64
  let z := (z ^^^ (z >>> 27)) * 0x94D0_49BB_1331_11EB#64
  z ^^^ (z >>> 31)
/-- R271: the 16-bit random value of a seed, a stream and an index. -/
def srValue (seed : Dword) (stream : BitVec 8) (index : Dword) : Nat :=
  ((mix64 (seed ^^^ (stream.setWidth 64 <<< 56) ^^^ index)).extractLsb' 0 16).toNat

/-! ## Blocks (R267) -/

/-- R267: EMAX. -/
def Fmt.emax (f : Fmt) : Int :=
  match f with
  | .e2m1 | .e2m3 => 2
  | .e3m2 => 4
  | .e4m3 => 8
  | .e5m2 => 15
  | .t6 => 8
  | .t8 => 12
  | .fp32 | .bf16 => 127
  | .fp16 => 15
  | .fp64 => 1023
/-- The floor of log₂ of n ÷ d, for n above 0. -/
def floorLog2 (n d : Nat) : Int :=
  let e : Int := (n.log2 : Int) - d.log2
  if (if 0 ≤ e then n < d * 2 ^ e.toNat else n * 2 ^ (-e).toNat < d) then e - 1 else e
/-- The larger of two magnitudes, as fractions. -/
def maxMag (a b : Nat × Nat) : Nat × Nat := if a.1 * b.2 < b.1 * a.2 then b else a
/-- R267: ScaleOf, for a block's values. -/
def scaleOf (s : Scale) (f : Fmt) (vs : List XVal) : Byte :=
  if vs.any fun v => v.isNan || v.isInf then (match s with
    | .ue4m3 => 0x7F#8
    | .none | .e8m0 => 0xFF#8)
  else
    let amax := vs.foldl (fun m v => match v with
      | .fin _ n d => maxMag m (n, d)
      | .nan | .inf _ => m) (0, 1)
    match s with
    | .none | .e8m0 =>
      let x : Int := if amax.1 = 0 then -127 else floorLog2 amax.1 amax.2 - f.emax
      BitVec.ofInt 8 (min (max x (-127)) 127 + 127)
    | .ue4m3 => BitVec.ofNat 8 (roundScaleUp (amax.1 * 2 ^ f.unit) (amax.2 * (Target.el f).grid f.maxCode))
/-- R267: the code of an element of a block whose scale byte is known. -/
def blockElement (s : Scale) (f : Fmt) (b : Byte) (m : Mode) (sat : Bool) (v : XVal) : Nat :=
  match scaleValue s b with
  | .fin _ n d =>
    if n = 0 then f.code v.sign 0
    else (roundTo f m sat (XVal.quot v (.fin false n d)).1).1
  | .nan | .inf _ => 0

end Sys2Proof
end

