-- ==== Sys2Proof/Machine/Scratch.lean ====
section
/-!
DEFINITION. Scratchpad loads and stores (R370, R371), the spill stack (R372), scratchpad atomics (R373, R374) and barriers
(R375 to R379). Each access is performed at once; a release makes what engine commands wrote performed (R238, R243, R244).
-/

namespace Sys2Proof.Machine

/-- R210: every named register lies below ALLOC. -/
def Thread.able (t : Thread) (is : List Nat) : Bool := is.all fun i => decide (i < t.alloc)
/-- The values of registers that lie below ALLOC, as one number, the first lowest. -/
def Thread.groupVal (t : Thread) (r : Reg) (n : Nat) : Nat :=
  match t.getGroup r.toNat n with
  | .ok ws => groupValue ws
  | .error _ => 0
/-- Registers that lie below ALLOC written with a value. -/
def Thread.setGroup (t : Thread) (r : Reg) (n v : Nat) : Thread :=
  match t.putGroup r.toNat (groupWords v n) with
  | .ok t => t
  | .error _ => t
/-- A register that lies below ALLOC. -/
def Thread.reg (t : Thread) (r : Reg) : Word :=
  match t.get r.toNat with
  | .ok v => v
  | .error _ => 0#32
def Thread.pair (t : Thread) (r : Reg) : Dword :=
  match t.getD r.toNat with
  | .ok v => v
  | .error _ => 0#64

/-- An instruction that names registers: it faults when one is at or beyond ALLOC, and `f` is given the thread with SLACK set
for the registers it reads. DEDUCED (log 17). -/
def withRegs (reads writes : List Nat) (f : Dev → Cur → Act) (d : Dev) (c : Cur) : Act :=
  if c.t.able (reads ++ writes) then f d { c with t := c.t.note reads } else .fault regRange

/-- R237: a scope beyond the workgroup. Scratchpad is of one cluster, so that DIE and SYS act as CL. -/
def scopeWide (s : Scope) : Bool := s != .wg
/-- R243: a release acts as a FENCE with every path before it. -/
def Dev.released (d : Dev) (c : Cur) (release wide : Bool) : Dev := if release then d.performed c.who 31#5 wide else d
/-- The L2 atomics of a thread that acquire and are not yet performed. -/
def Dev.acquiring (d : Dev) (who : Nat × Nat) : List Nat := (d.cmds.filter fun x => x.acq && x.who == who).map Cmd.id
/-- R243: an access of a thread comes after its acquires before it: until an L2 atomic that acquires is performed, the thread waits. -/
def afterAcquire (f : Dev → Cur → Act) (d : Dev) (c : Cur) : Act :=
  if d.acquiring c.who = [] then f d c else .wait d (.commands (d.acquiring c.who) []) none
/-- R244: the orders that release. -/
def ordReleases (o : Ord4) : Bool :=
  match o with
  | .rel | .acqrel => true
  | .none | .acq => false

/-! R370. -/

def execLd (d a : Reg) (off : BitVec 10) (size : Size) (_ : Bool) (hint : Option LsHint) (s : State) : Out :=
  s.act (sizeOf hint) <| withRegs [a.toNat] (groupIdx d size.regs) <| afterAcquire fun dev c =>
    match dev.scratchAt c.w (offAddr (c.t.reg a) off size.bytes) size.bytes size.bytes with
    | .error e => .fault e
    | .ok p => .done (dev.thrSaw c.who p size.bytes) (c.t.setGroup d size.regs (dev.scratchRd p size.bytes))

def execSt (d a : Reg) (off : BitVec 10) (size : Size) (rel : Bool) (hint : Option LsHint) (s : State) : Out :=
  s.act (sizeOf hint) <| withRegs (a.toNat :: groupIdx d size.regs) [] <| afterAcquire fun dev c =>
    match dev.scratchAt c.w (offAddr (c.t.reg a) off size.bytes) size.bytes size.bytes with
    | .error e => .fault e
    | .ok p =>
      let dev := dev.released c (rel || hint.any LsHint.ordered) (hint.all fun h => scopeWide h.scope)
      .done ((dev.thrSaw c.who p size.bytes).thrWr p size.bytes (c.t.groupVal d size.regs)) c.t

/-! R372. -/

/-- R372: the access of ldk and stk: the device with the stack cache moved out, and the pieces of the bytes at the offset. An access that
waits has moved nothing: it is made again. R137: a store waits for the lines that the companion holds. -/
def stackAccess (writes : Bool) (a : Reg) (off : BitVec 10) (size : Nat) (f : Dev → Cur → List (Nat × Nat) → Act)
    (d : Dev) (c : Cur) : Act :=
  match d.spillAll false c with
  | .fail x => .fault x
  | .miss p => d.waitWalk c (.stack c.w.core) (accStack true) p
  | .dirty ls => d.waitLines ls
  | .ok e t =>
    let o : Int := t.sp + (offAddr (t.reg a) off size).toInt
    let va := d.stackVa c.w c.tid 0 + BitVec.ofInt 64 o
    if o % size ≠ 0 then .fault (.at 0x05 0 va)
    else if o < 0 ∨ (c.w.spill : Int) < o + size then .fault stackExhausted
    else
      match e.reach false c.w (accStack writes) t.walkFail va 4 size with
      | .fail x => .fault x
      | .miss p => d.waitWalk c (.stack c.w.core) (accStack writes) p
      | .ok ps =>
        if writes ∧ d.dirtyLines ps ≠ [] then d.waitLines (d.dirtyLines ps)
        else f (e.touch c.who (.mem va) size) { c with t := t } ps

/-- R372 ldk: the thread's own spills and frames are before it, those included that wait at their home slice (R233). -/
def execLdk (d a : Reg) (off : BitVec 10) (size : Size) (s : State) : Out :=
  s.act 1 <| withRegs [a.toNat] (groupIdx d size.regs) <| afterAcquire <| stackAccess false a off size.bytes fun dev c ps =>
    .done dev (c.t.setGroup d size.regs (leValue (dev.asPosted.rdPieces ps)))

def execStk (d a : Reg) (off : BitVec 10) (size : Size) (s : State) : Out :=
  s.act 1 <| withRegs (a.toNat :: groupIdx d size.regs) [] <| afterAcquire <| stackAccess true a off size.bytes fun dev c ps =>
    .done (dev.wrPieces (leBytes (c.t.groupVal d size.regs) size.bytes) ps) c.t

/-! R373. -/

/-- R373: whether an OP is of 64 bits. -/
def atomWide (op : AtomOp) : Bool :=
  match op with
  | .dadd | .dmin | .dmax | .dor | .dxchg => true
  | .add | .min | .max | .minu | .maxu | .and | .or | .xor | .xchg | .fadd | .ld => false
/-- Bytes and registers of an OP. -/
def atomBytes (op : AtomOp) : Nat := if atomWide op then 8 else 4
def atomRegs (op : AtomOp) : Nat := if atomWide op then 2 else 1
/-- R373: the new value of a location, from its old value and the operand. -/
def atomNew (op : AtomOp) (m y : Nat) : Nat :=
  let m32 := BitVec.ofNat 32 m
  let y32 := BitVec.ofNat 32 y
  let m64 := BitVec.ofNat 64 m
  let y64 := BitVec.ofNat 64 y
  match op with
  | .add => (m32 + y32).toNat
  | .min => if m32.toInt ≤ y32.toInt then m32.toNat else y32.toNat
  | .max => if m32.toInt ≤ y32.toInt then y32.toNat else m32.toNat
  | .minu => if m32.toNat ≤ y32.toNat then m32.toNat else y32.toNat
  | .maxu => if m32.toNat ≤ y32.toNat then y32.toNat else m32.toNat
  | .and => (m32 &&& y32).toNat
  | .or => (m32 ||| y32).toNat
  | .xor => (m32 ^^^ y32).toNat
  | .xchg => y32.toNat
  | .fadd => (fpAdd .fp32 .rne m32.toNat y32.toNat).1
  | .dadd => (m64 + y64).toNat
  | .dmin => if m64.toInt ≤ y64.toInt then m64.toNat else y64.toNat
  | .dmax => if m64.toInt ≤ y64.toInt then y64.toNat else m64.toNat
  | .dor => (m64 ||| y64).toNat
  | .dxchg => y64.toNat
  | .ld => m32.toNat
/-- The registers of the operand: none for ld. -/
def atomOperand (op : AtomOp) (b : Reg) : List Nat :=
  match op with
  | .ld => []
  | .add | .min | .max | .minu | .maxu | .and | .or | .xor | .xchg | .fadd => groupIdx b 1
  | .dadd | .dmin | .dmax | .dor | .dxchg => groupIdx b 2

def execAtom (d a b : Reg) (op : AtomOp) (ord : Ord4) (scope : Scope) (s : State) : Out :=
  s.act 1 <| withRegs (a.toNat :: atomOperand op b) (groupIdx d (atomRegs op)) <| afterAcquire fun dev c =>
    match dev.scratchAt c.w (c.t.reg a) (atomBytes op) (atomBytes op) with
    | .error e => .fault e
    | .ok p =>
      let m := dev.scratchRd p (atomBytes op)
      let y := c.t.groupVal b (atomOperand op b).length
      let dev := (dev.released c (ordReleases ord) (scopeWide scope)).thrSaw c.who p (atomBytes op)
      .done (if op = .ld then dev else dev.thrWr p (atomBytes op) (atomNew op m y))
        (c.t.setGroup d (atomRegs op) m)

/-! R374. -/

/-- A compare-and-swap of `n` registers: gb on holds the expected value and then the new one. -/
def casAct (n : Nat) (d a b : Reg) (ord : Ord4) (scope : Scope) (dev : Dev) (c : Cur) : Act :=
  match dev.scratchAt c.w (c.t.reg a) (4 * n) (4 * n) with
  | .error e => .fault e
  | .ok p =>
    let m := dev.scratchRd p (4 * n)
    let y := c.t.groupVal b (2 * n)
    let dev := (dev.released c (ordReleases ord) (scopeWide scope)).thrSaw c.who p (4 * n)
    .done (if m = y % 2 ^ (32 * n) then dev.thrWr p (4 * n) (y / 2 ^ (32 * n)) else dev) (c.t.setGroup d n m)
def execCas (d a b : Reg) (ord : Ord4) (scope : Scope) (s : State) : Out :=
  s.act 1 <| withRegs (a.toNat :: groupIdx b 2) (groupIdx d 1) <| afterAcquire <| casAct 1 d a b ord scope
def execDcas (d a b : Reg) (ord : Ord4) (scope : Scope) (s : State) : Out :=
  s.act 1 <| withRegs (a.toNat :: groupIdx b 4) (groupIdx d 2) <| afterAcquire <| casAct 2 d a b ord scope

/-! R375. -/

/-- A barrier object of 16 bytes as its fields (R375): reserved bits are kept. -/
structure BarObj where
  remaining : Nat
  expected : Nat
  phase : Nat
  overrun : Bool
  res0 : Nat
  pending : Nat
  res1 : Nat
deriving DecidableEq, Repr
def barOf (v : Nat) : BarObj :=
  { remaining := bits v 0 16, expected := bits v 16 16, phase := bits v 32 4, overrun := bits v 36 1 == 1,
    res0 := bits v 37 27, pending := bits v 64 32, res1 := bits v 96 32 }
def barValue (o : BarObj) : Nat :=
  o.remaining + 2 ^ 16 * o.expected + 2 ^ 32 * o.phase + 2 ^ 36 * (if o.overrun then 1 else 0) + 2 ^ 37 * o.res0 +
    2 ^ 64 * o.pending + 2 ^ 96 * o.res1
/-- R375: the advance of the phase. -/
def barAdvance (o : BarObj) : BarObj :=
  if o.remaining = 0 ∧ o.pending = 0 then { o with remaining := o.expected, phase := (o.phase + 1) % 16 } else o
def Dev.barRd (d : Dev) (p : Place) : BarObj := barOf (d.scratchRd p 16)
def Dev.barWr (d : Dev) (p : Place) (o : BarObj) : Dev := d.thrWr p 16 (barValue o)
/-- R375: the object written with its advance tested. A phase that advances completes the byte arrivals on the barrier (R240). -/
def Dev.barTest (d : Dev) (p : Place) (o : BarObj) : Dev :=
  let d := d.barWr p (barAdvance o)
  if o.remaining = 0 ∧ o.pending = 0 then
    { d with stale := d.stale.map fun e => if e.bar = some (p.uid, p.off) then { e with phased := true } else e }
  else d
/-- R378: bytes of a copy performed: subtracted from PENDING, and the advance tested. -/
def Dev.barBytes (d : Dev) (p : Place) (n : Nat) : Dev :=
  let o := d.barRd p
  d.barTest p { o with pending := o.pending - n }
/-- R240, R246: a thread has seen the phase of a barrier advanced: it observes the copies that arrived on it. -/
def Dev.barSeen (d : Dev) (c : Cur) (p : Place) : Dev := d.observe c.who fun e => e.phased && e.bar == some (p.uid, p.off)

/-- R376. -/
def execBarinit (a b : Reg) (s : State) : Out :=
  s.act 1 <| withRegs [a.toNat, b.toNat] [] <| afterAcquire fun dev c =>
    match dev.scratchAt c.w (c.t.reg a) 16 16 with
    | .error e => .fault e
    | .ok p =>
      let n := bits (c.t.reg b).toNat 0 16
      .done ((dev.thrSaw c.who p 16).barWr p { dev.barRd p with remaining := n, expected := n, phase := 0, overrun := false, pending := 0 }) c.t

/-- R377: a rejected arrival completes and then faults. An arrival is a release (R244). -/
def execBararr (a b : Reg) (s : State) : Out :=
  s.act 1 <| withRegs [a.toNat, b.toNat] [] <| afterAcquire fun dev c =>
    match dev.scratchAt c.w (c.t.reg a) 16 16 with
    | .error e => .fault e
    | .ok p =>
      let dev := (dev.released c true true).thrSaw c.who p 16
      let o := dev.barRd p
      let n := (c.t.reg b).toNat
      if o.remaining < n then
        .after (dev.barWr p { o with overrun := true }) c.t (.at 0x08 0 ((c.t.reg a).setWidth 64))
      else .done (dev.barTest p { o with remaining := o.remaining - n }) c.t

/-- R369: the delivered clocks that a deadline operand allows; none is no limit. -/
def limitOf (v : Word) : Option Nat := if v = 0xFFFF_FFFF#32 then none else some (v.toNat * 1024)
/-- R369: the wait ends now: the deadline has passed, or is 0 at the first evaluation. -/
def Thread.outOfTime (t : Thread) (v : Word) : Bool := t.expired || v == 0#32

/-- R379. -/
def execBarwait (pd : PredReg) (d a b : Reg) (s : State) : Out :=
  s.act 1 <| withRegs [a.toNat, d.toNat, b.toNat] [d.toNat] <| afterAcquire fun dev c =>
    match dev.scratchAt c.w (c.t.reg a) 16 16 with
    | .error e => .fault e
    | .ok p =>
      let ph := (dev.barRd p).phase
      let want := bits (c.t.reg d).toNat 0 4
      let saw := dev.thrSaw c.who p 16
      if ph ≠ want then .done (saw.barSeen c p) ((c.t.setGroup d 1 ph).setPred pd true)
      else if c.t.outOfTime (c.t.reg b) then .done saw ((c.t.setGroup d 1 ph).setPred pd false)
      else .wait dev (.barrier p.uid p.off ph) (limitOf (c.t.reg b))
/-- R379. -/
def execBartest (pd : PredReg) (d a : Reg) (s : State) : Out :=
  s.act 1 <| withRegs [a.toNat, d.toNat] [d.toNat] <| afterAcquire fun dev c =>
    match dev.scratchAt c.w (c.t.reg a) 16 16 with
    | .error e => .fault e
    | .ok p =>
      let ph := (dev.barRd p).phase
      let won := decide (ph ≠ bits (c.t.reg d).toNat 0 4)
      let saw := dev.thrSaw c.who p 16
      .done (if won then saw.barSeen c p else saw) ((c.t.setGroup d 1 ph).setPred pd won)

end Sys2Proof.Machine
end

