-- ==== Sys2Proof/Machine/Tensors.lean ====
section
/-!
DEFINITION. Tensor descriptors (R283 to R285): their fields, the general checks, rows as packed elements (R265, R284), and
tdset and tdget (R401).
-/

namespace Sys2Proof

/-- R286: M, N and K of a shape. -/
def Shape.m (s : Shape) : Nat := if s.m128 then 128 else 64
def Shape.n (s : Shape) : Nat := if s.n128 then 128 else 64

/-- R286. -/
def Shape.kDim (s : Shape) : Nat :=
  match s.k with
  | .k64 => 64
  | .k128 => 128
  | .k256 => 256

end Sys2Proof

namespace Sys2Proof.Machine

/-- A field of a descriptor: `n` bits from bit `lo` of the byte at `off` (R283). -/
def Desc.field (x : Desc) (off lo n : Nat) : Nat := bits x.raw (8 * off + lo) n
def Desc.base (x : Desc) : Nat := x.field 0 0 64
def Desc.rank (x : Desc) : Nat := x.field 8 2 2 + 1
def Desc.space (x : Desc) : Nat := x.field 8 0 2
def Desc.fmtCode (x : Desc) : Nat := x.field 9 0 4
def Desc.gran (x : Desc) : Nat := x.field 10 6 2
def Desc.sparse (x : Desc) : Bool := x.field 10 5 1 == 1
def Desc.baxis (x : Desc) : Nat := x.field 10 3 2
/-- R266: elements of a block. -/
def Desc.block (x : Desc) : Nat := if x.field 10 2 1 = 1 then 64 else 32
def Desc.scfmt (x : Desc) : Nat := x.field 10 0 2
def Desc.tscale (x : Desc) : Nat := x.field 12 0 32
def Desc.dim (x : Desc) (k : Nat) : Nat := x.field (16 + 4 * k) 0 32
/-- STRIDE of dimension 1 to 3. -/
def Desc.stride (x : Desc) (k : Nat) : Nat := x.field (32 + 4 * (k - 1)) 0 32
def Desc.scbase (x : Desc) : Nat := x.field 48 0 64
def Desc.patva (x : Desc) : Nat := x.field 56 0 64

/-- R258: the format of an element code. -/
def fmtOf (code : Nat) : Option Fmt :=
  match code with
  | 0 => some .fp32
  | 1 => some .bf16
  | 2 => some .fp16
  | 3 => some .e5m2
  | 4 => some .e4m3
  | 5 => some .e3m2
  | 6 => some .e2m3
  | 7 => some .e2m1
  | 8 => some .t8
  | 9 => some .t6
  | 10 => some .fp64
  | _ => none
def Desc.fmt (x : Desc) : Fmt := (fmtOf x.fmtCode).getD .fp32
def Desc.scale (x : Desc) : Scale :=
  match x.scfmt with
  | 0 => .none
  | 1 => .e8m0
  | _ => .ue4m3
/-- R301: the granule size of a GRAN code. -/
def granOf (g : Nat) : Nat :=
  match g with
  | 0 => 16
  | 1 => 32
  | _ => 64

/-- R285: the conditions that hold of every descriptor an instruction names. -/
def Desc.ok (x : Desc) : Bool :=
  let inRank := fun k => decide (k < x.rank)
  (x.space == 1 || x.space == 2) && x.field 8 4 4 == 0 && x.field 9 4 4 == 0 && x.field 11 0 8 == 0 &&
  x.field 44 0 32 == 0 && (fmtOf x.fmtCode).isSome && x.scfmt != 3 && x.gran != 3 &&
  ([0, 1, 2, 3].all fun k => if inRank k then decide (1 ≤ x.dim k ∧ x.dim k < 2 ^ 24) else x.dim k == 1) &&
  ([1, 2, 3].all fun k => if inRank k then isMult (x.stride k) 16 else x.stride k == 0) &&
  isMult x.base 16 && (x.space != 1 || decide (x.base < 2 ^ 32)) && (x.scfmt != 0 || x.scbase == 0) &&
  (x.space != 1 || decide (x.scbase < 2 ^ 32)) && (if x.sparse then isMult x.patva 8 else x.patva == 0) &&
  inRank x.baxis && (!x.sparse || x.space == 1)

/-- A descriptor of the context on the die (R282). -/
def Dev.desc (d : Dev) (c : Cur) (n : Nat) : Desc :=
  match d.ctx? c.w.die c.w.ctx with
  | some k => { num := n, raw := readLE k.tdt (64 * n) 64 }
  | none => { num := n, raw := 0 }
/-- R227 TENSOR_DESC with the descriptor number. -/
def tensorDesc (n : Nat) : Trap := .here 0x0B n

/-- R284: where row `c1` of a tensor starts, with c₂ = c₃ = 0. -/
def Desc.rowAt (x : Desc) (c1 : Nat) : Nat := x.base + c1 * x.stride 1
/-- Byte offset and bytes of `n` elements from `c0` of a row, where c0 is a multiple of 32 (R265). -/
def Desc.segAt (x : Desc) (c0 : Nat) : Nat := c0 * x.fmt.width / 8
def Desc.segLen (x : Desc) (n : Nat) : Nat := (n * x.fmt.width + 7) / 8
/-- How many of `n` elements from `o` on lie below a size. -/
def within (size o n : Nat) : Nat := min n (size - o)
/-- Packed elements of `w` bits with the first `n` replaced by those of `new`. -/
def replaceLow (w old new n : Nat) : Nat := old / 2 ^ (w * n) * 2 ^ (w * n) + new % 2 ^ (w * n)
/-- R284: the scale of element (c₀, c₁) along the blocked axis 0 or 1. -/
def Desc.scaleAt (x : Desc) (c0 c1 : Nat) : Nat :=
  x.scbase + (if x.baxis = 0 then c0 / x.block + (x.dim 0 + x.block - 1) / x.block * c1 else c0 + x.dim 0 * (c1 / x.block))

/-- R287, R382: an origin register: o₁ and o₀. -/
def originOf (v : Word) : Nat × Nat := (bits v.toNat 16 16, bits v.toNat 0 16)
/-! R401. -/

/-- The 64 bytes named by tdset and tdget. -/
def tdPlace (a : Reg) (d : Dev) (c : Cur) : Except Trap Place :=
  let x := c.t.reg a
  if x.toNat % 16 ≠ 0 then .error (.at 0x05 0 (x.setWidth 64)) else d.scratchAt c.w x 64 16
def execTdset (a b : Reg) (s : State) : Out :=
  s.act 1 <| withRegs [a.toNat, b.toNat] [] <| afterAcquire fun d c =>
    match tdPlace a d c with
    | .error e => .fault e
    | .ok p =>
      let n := (c.t.reg b).toNat % 256
      .done ((d.thrSaw c.who p 64).modCtx c.w.die c.w.ctx fun k => { k with tdt := writeBytes k.tdt (64 * n) (d.scratchRdBytes p 64) }) c.t
def execTdget (a b : Reg) (s : State) : Out :=
  s.act 1 <| withRegs [a.toNat, b.toNat] [] <| afterAcquire fun d c =>
    match tdPlace a d c with
    | .error e => .fault e
    | .ok p => .done (((d.thrSaw c.who p 64).thrOver p 64).scratchWrBytes p (leBytes (d.desc c ((c.t.reg b).toNat % 256)).raw 64)) c.t

end Sys2Proof.Machine
end

