-- ==== Sys2Proof/Machine/Regions.lean ====
section
/-!
DEFINITION. What an engine command names (R239): the rows of a tensor region with its scales (R284), and the ranges of every body.
-/

namespace Sys2Proof.Machine

/-- The rows i below M whose row `o + i` lies within a tensor. -/
def rowsIn (x : Desc) (o1 m : Nat) : List Nat := List.range (within (x.dim 1) o1 m)
/-- The row segments of a region that lie within a tensor. -/
def destSegs (x : Desc) (o : Nat × Nat) (m n : Nat) : List (Nat × Nat) :=
  let k := within (x.dim 0) o.2 n
  if k = 0 then [] else (rowsIn x o.1 m).map fun i => (x.rowAt (o.1 + i) + x.segAt o.2, x.segLen k)
/-- The blocks of a region that meet a tensor: the place of the first position of each. -/
def blockStarts (x : Desc) (o : Nat × Nat) (m n : Nat) : List (Nat × Nat) :=
  let rows := rowsIn x o.1 m
  let cols := List.range (within (x.dim 0) o.2 n)
  if x.baxis = 0 then rows.flatMap fun i => (cols.filter fun j => isMult j x.block).map fun j => (i, j)
  else (rows.filter fun i => isMult i x.block).flatMap fun i => cols.map fun j => (i, j)
/-- A contiguous range of a tensor's space as a side. -/
def Dev.sideAt (d : Dev) (w : Wg) (x : Desc) (addr : Nat) : Side :=
  if x.space = 1 then let p := d.placeOf w addr; .scr p.uid p.off else .mem (BitVec.ofNat 64 addr)

/-! ## The bytes that a command names (R239) -/

/-- The rows of a region. -/
def Dev.regionNames (d : Dev) (w : Wg) (x : Desc) (o : Nat × Nat) (m n : Nat) : List (Side × Nat) :=
  (destSegs x o m n).map fun e => (d.sideAt w x e.1, e.2)
/-- The scales of a region's blocks. -/
def Dev.scaleNames (d : Dev) (w : Wg) (x : Desc) (o : Nat × Nat) (m n : Nat) : List (Side × Nat) :=
  if x.scfmt = 0 then [] else (blockStarts x o m n).map fun e => (d.sideAt w x (x.scaleAt (o.2 + e.2) (o.1 + e.1)), 1)
/-- An operand of a multiply, whose k axis is dimension 0 or 1: its whole region, that of a sparse one too. DEDUCED (log 66). -/
def Dev.operandNames (d : Dev) (w : Wg) (x : Desc) (o : Nat × Nat) (k0 : Bool) (lines k : Nat) : List (Side × Nat) :=
  let rows := if k0 then lines else k
  let cols := if k0 then k else lines
  d.regionNames w x o rows cols ++ d.scaleNames w x o rows cols
/-- The bytes of scratchpad that a matrix-engine command names. -/
def Dev.mtxNames (d : Dev) (w : Wg) (op : MtxOp) : List (Side × Nat) :=
  match op with
  | .mma _ _ ta tb m n k da db oa ob _ _ _ => d.operandNames w da oa (!ta) m k ++ d.operandNames w db ob tb n k
  | .drain quant _ _ _ _ dd m n _ od _ _ => d.regionNames w dd od m n ++ (if quant then d.scaleNames w dd od m n else [])
  | .txp _ _ _ _ _ _ | .patld _ _ => []
  | .patgen _ _ uid off cap _ | .patx _ _ _ uid off cap _ _ => [(.scr uid off, cap)]
  | .patpart _ _ uid off n => [(.scr uid off, 8 * (n + 1))]
  | .patptr _ _ _ uid off cap => [(.scr uid off, 4 * cap)]
  | .patsave _ uid off | .patrest _ uid off => [(.scr uid off, 1024)]
/-- The bytes of a barrier. -/
def barNames (bar : Option (Nat × Nat)) : List (Side × Nat) := bar.toList.map fun b => (.scr b.1 b.2, 16)
/-- R239: the ranges that a command names as it issues. What a gather or a scatter reaches in memory its index list names, and not the
command. DEDUCED (log 66). -/
def Dev.bodyNames (d : Dev) (w : Wg) (b : Body) : List (Side × Nat) :=
  match b with
  | .copy src dst n bar _ => (src, n) :: (dst, n) :: barNames bar
  | .copyt src dst os od m n bar _ => d.regionNames w src os m n ++ d.regionNames w dst od m n ++ barNames bar
  | .gather _ _ iu io du dof size left => [(.scr iu io, 4 * left.length), (.scr du dof, size * left.length)]
  | .hget uid off _ => [(.scr uid off, 64)]
  | .mtx op => d.mtxNames w op
  | .prefetch _ | .pagein _ _ | .atomg _ _ _ | .casg _ _ _ _ | .arm _ _ | .xcvt _ _ _ | .onceclr _ | .remote | .spread _ | .finished => []
/-- R239, R240: the commands whose writes come before a command that a thread issues: it has observed their completion, and has accessed bytes
that the command names since. DEDUCED (log 66). -/
def Dev.pastOf (d : Dev) (w : Wg) (tid : Nat) (b : Body) : List Nat :=
  ((d.touched.filter fun t => t.by_ == (w.uid, tid) && (d.bodyNames w b).any fun e => d.meets e.1 e.2 t).map Touch.cmd).eraseDups

end Sys2Proof.Machine
end

