-- ==== Sys2Proof/Machine/Engine.lean ====
section
/-!
DEFINITION. Engine commands: how one issues (R368), the copy engine (R380 to R385) with its granules (R161, R162, R179), and
how a command completes.
-/

namespace Sys2Proof.Machine

/-! ## Issue (R368, R200, R201) -/

/-- R368, R400: places of a class at a core. -/
def Cls.places (k : Cls) : Nat :=
  match k with
  | .cpy => 256
  | .atm => 64
  | .rmt => 1024
  | .mtx => 32
def Cls.code (k : Cls) : Nat :=
  match k with
  | .cpy => 0
  | .atm => 1
  | .rmt => 2
  | .mtx => 3
/-- Outstanding commands of a class at a core. -/
def Dev.taken (d : Dev) (die core : Nat) (k : Cls) : Nat :=
  (d.cmds.filter fun x => x.die == die && x.core == core && x.cls == k).length
/-- R200, R201, R227 ENGINE_QUEUE. -/
def engineQueue (n : Nat) : Trap := .here 0x12 n

/-- R368 steps 3 to 5: a command of a class with its token (first register and count), the pages it was translated with, what
its token holds so far, and what it has to do. The flags rise before the command waits for a place, and once. It comes after the
thread's acquires (R243). -/
def Dev.issue (d : Dev) (c : Cur) (cls : Cls) (token : Option (Nat × Nat)) (pages : List Nat) (result : Dword)
    (body : Body) : Act :=
  let regs := match token with
    | some (r, n) => (List.range n).map (· + r)
    | none => []
  let past := d.pastOf c.w c.tid body
  let flags := c.t.raised.getD (hdrSets c.hdr1)
  let rise := if c.t.raised.isSome then [] else flags
  match regs.find? fun i => c.t.pend.contains i with
  | some i => .fault (engineQueue i)
  | none =>
    match rise.find? fun f => decide (65535 ≤ natAt c.w.flags f) with
    | some f => .fault (engineQueue f)
    | none =>
      if d.acquiring c.who ≠ [] then .wait d (.commands (d.acquiring c.who) []) none else
      let d := d.modWg c.w.uid fun w => { w with flags := rise.foldl (fun fs f => updAt fs f (· + 1)) w.flags }
      if cls.places ≤ d.taken c.w.die c.w.core cls then .wait d (.place cls.code) none
      else
        let cmd : Cmd :=
          { id := d.nextCmd, uid := c.w.uid, tid := c.tid, die := c.w.die, core := c.w.core, ctx := c.w.ctx, cls := cls,
            flags := flags, token := token, body := body, result := result, bad := [], sticky := 0, pages := pages,
            walking := none, walkFail := [], metered := [], early := [], earlyMem := [], past := past, barred := [], acq := false }
        .done { d with cmds := d.cmds ++ [cmd], nextCmd := d.nextCmd + 1 }
          { c.t.note regs with pend := c.t.pend ++ regs, locked := c.t.locked ++ regs }

/-- The token of an instruction with a TK bit. -/
def tokenIf (tk : Bool) (d : Reg) : Option (Nat × Nat) := if tk then some (d.toNat, 1) else none
/-- Its registers as indices. -/
def tokenIdx (tk : Bool) (d : Reg) : List Nat := if tk then [d.toNat] else []

/-! ## Completion (R368, R201, R200) -/

/-- R182, R184: where a thread's LVS image of a saved workgroup stands in its extent. DEDUCED (log 15). -/
def Wg.lvsImage (w : Wg) (tid : Nat) : Nat := 256 + 32 * w.threads.length + 4 * (64 + w.stackc) * tid

/-- R184: where a token of a saved workgroup goes in memory: the register's place in the LVS image; none for a resident workgroup, in the
slack, and for a thread that has ended (R228, R357). -/
def Dev.tokenPa (d : Dev) (w : Wg) (tid pos : Nat) : Option Nat :=
  match w.threads[tid]? with
  | none => none
  | some t =>
    if w.isResident ∨ t.regs ≤ pos ∨ t.pos = .exited then none
    else (d.xlateNow w.die w.ctx (accLocal true) (d.extentVa w (w.lvsImage tid + 4 * pos))).toOption
/-- A token written into an LVS position: directly for a resident workgroup, into the LVS image for a saved one; that of a thread
that has ended is discarded (R228, R357). DEDUCED (log 13). -/
def Dev.writeToken (d : Dev) (w : Wg) (tid pos : Nat) (v : Word) : Dev :=
  let d' := d.modThread w.uid tid fun t =>
    { t with pend := t.pend.erase pos, row := if pos < t.regs ∧ t.pos ≠ .exited then t.row.set pos v else t.row }
  match d.tokenPa w tid pos with
  | some pa => d'.wr pa 4 v.toNat
  | none => d'
/-- R184, R137: the words of a saved workgroup's image that the completion of a command writes. -/
def Dev.tokenPas (d : Dev) (x : Cmd) : List Nat :=
  match d.wg? x.uid, x.token with
  | some w, some (r, n) => (List.range n).filterMap fun i => d.tokenPa w x.tid (r + i)
  | _, _ => []

/-- R368: the token is written and the flags fall in one step; the place frees; the issuing thread's sticky bits are set
(R277). The token of a thread that has ended is discarded (R228). -/
def Dev.complete (d : Dev) (x : Cmd) : Dev :=
  let d := { d with cmds := d.cmds.filter fun k => k.id != x.id }
  match d.wg? x.uid with
  | none => d
  | some w =>
    let d := d.modWg x.uid fun w => { w with flags := x.flags.foldl (fun fs f => updAt fs f (· - 1)) w.flags }
    let d := d.modThread x.uid x.tid fun t => t.raise x.sticky
    match x.token with
    | none => d
    | some (r, n) =>
      let d := d.writeToken w x.tid r (x.result.extractLsb' 0 32)
      if n = 2 then d.writeToken w x.tid (r + 1) (x.result.extractLsb' 32 32) else d

/-! ## Copies (R381) -/

/-- The pieces of a range of `n` bytes from offset `off` on, cut at the 4 KiB granules of two addresses. -/
def piecesFrom (a b off : Nat) : Nat → Nat → List (Nat × Nat)
  | 0, _ => []
  | _, 0 => []
  | fuel + 1, n =>
    let k := min n (min (4096 - (a + off) % 4096) (4096 - (b + off) % 4096))
    (off, k) :: piecesFrom a b (off + k) fuel (n - k)
def pieces (a b n : Nat) : List (Nat × Nat) := piecesFrom a b 0 (n / 4 + 1) n

/-- R381, R378: the barrier of a command with BA = 1: its place, with the byte count that would overflow PENDING refused. -/
def barrierOf (arr : Option Reg) (bytes : Nat) (d : Dev) (c : Cur) : Except Trap (Option Place) :=
  match arr with
  | none => .ok none
  | some r =>
    let x := c.t.reg r
    match d.scratchAt c.w x 16 16 with
    | .error e => .error e
    | .ok p =>
      if 0xFFFF_FFFF < (d.barRd p).pending + bytes then .error (.at 0x08 0 (x.setWidth 64)) else .ok (some p)
/-- R378: the byte count is added to PENDING. -/
def Dev.announce (d : Dev) (p : Option Place) (bytes : Nat) : Dev :=
  match p with
  | none => d
  | some p => let o := d.barRd p; d.barWr p { o with pending := o.pending + bytes }
/-- R378: it is added when the command issues. -/
def Act.announced (r : Act) (p : Option Place) (bytes : Nat) : Act :=
  match r with
  | .done d t => .done (d.announce p bytes) t
  | r => r
/-- A barrier's place as a command keeps it. -/
def barPair (p : Option Place) : Option (Nat × Nat) := p.map fun p => (p.uid, p.off)

/-- A scratchpad range of a copy: nothing is checked for no bytes. -/
def copyScr (d : Dev) (c : Cur) (x : Word) (n : Nat) : Except Trap Side :=
  if n = 0 then .ok (.scr c.w.uid 0)
  else
    match d.scratchRange c.w x n 4 with
    | .ok p => .ok (.scr p.uid p.off)
    | .error e => .error e
/-- A memory range of a copy, which must be canonical (R150). -/
def copyMem (va : Dword) (n : Nat) : Except Trap Side :=
  if n = 0 ∨ canonicalRange va n then .ok (.mem va) else .error (.at 0x0F rNoncanon va)

/-- R227 MISALIGNED unless the address is a multiple. -/
def aligned (a : Dword) (m : Nat) : Except Trap Unit := if a.toNat % m = 0 then .ok () else .error (.at 0x05 0 a)

/-- R381: the two sides with the checks of steps 1 to 3. -/
def copySides (dir : Dir) (a : Reg) (n : Word) (d : Dev) (c : Cur) : Except Trap (Side × Side) := do
  let lo := c.t.reg a
  let hi := c.t.reg (a + 2)
  let wide := fun (x : Word) => (x.setWidth 64 : Dword)
  if n.toNat % 4 ≠ 0 then .error (.here 0x05 0)
  match dir with
  | .ms =>
    aligned (c.t.pair a) 4
    aligned (wide hi) 4
    let dst ← copyScr d c hi n.toNat
    let src ← copyMem (c.t.pair a) n.toNat
    pure (src, dst)
  | .sm =>
    aligned (wide lo) 4
    aligned (c.t.pair (a + 2)) 4
    let src ← copyScr d c lo n.toNat
    let dst ← copyMem (c.t.pair (a + 2)) n.toNat
    pure (src, dst)
  | .mm =>
    aligned (c.t.pair a) 4
    aligned (c.t.pair (a + 2)) 4
    let src ← copyMem (c.t.pair a) n.toNat
    let dst ← copyMem (c.t.pair (a + 2)) n.toNat
    pure (src, dst)
  | .ss =>
    aligned (wide lo) 4
    aligned (wide hi) 4
    let src ← copyScr d c lo n.toNat
    let dst ← copyScr d c hi n.toNat
    pure (src, dst)
/-- The registers of the group that a direction reads: the odd register of a scratchpad side is ignored. -/
def copyReads (dir : Dir) (a : Reg) : List Nat :=
  match dir with
  | .ms => [a.toNat, a.toNat + 1, a.toNat + 2]
  | .sm => [a.toNat, a.toNat + 2, a.toNat + 3]
  | .mm => groupIdx a 4
  | .ss => [a.toNat, a.toNat + 2]
/-- The address of a side whose 4 KiB granules cut a copy; 0 for scratchpad. -/
def Side.cut (x other : Side) : Nat :=
  match x, other with
  | .mem va, _ => va.toNat
  | .scr _ _, .mem va => va.toNat
  | .scr _ _, .scr _ _ => 0

/-- R381 copy. The MOD hint stands where BA = 1 and only there (R312). -/
def execCopy (d a b : Reg) (tk : Bool) (dir : Dir) (bar : Bool) (arr : Option Reg) (s : State) : Out :=
  s.act (sizeOf arr) fun dev c =>
    if bar ≠ arr.isSome then .fault illegal
    else if !c.t.able (groupIdx a 4) then .fault regRange
    else
      let barReg := if bar then arr else none
      let barIdx := (barReg.map fun r => [r.toNat]).getD []
      withRegs (copyReads dir a ++ [b.toNat] ++ barIdx) (tokenIdx tk d) (fun dev c =>
        let n := c.t.reg b
        match copySides dir a n dev c with
        | .error e => .fault e
        | .ok (src, dst) =>
          match barrierOf barReg n.toNat dev c with
          | .error e => .fault e
          | .ok p =>
            (dev.issue c .cpy (tokenIf tk d) [] 1#64
              (.copy src dst n.toNat (barPair p) (pieces (src.cut dst) (dst.cut src) n.toNat))).announced p n.toNat) dev c

/-! ## Tensor copies (R382) -/

/-- R382: the conditions on the descriptors, source first. -/
def copytDesc (x other : Desc) (o0 : Nat) : Bool :=
  x.ok && !x.sparse && x.scfmt == 0 && x.fmtCode == other.fmtCode && x.fmtCode != 10 && isMult o0 32
/-- R382, R231: a descriptor's row segments in scratchpad are checked; a memory tensor's are not. -/
def Dev.checkRows (d : Dev) (w : Wg) (x : Desc) (o : Nat × Nat) (m n : Nat) : Except Trap Unit :=
  if x.space ≠ 1 then .ok ()
  else
    let k := within (x.dim 0) o.2 n
    (rowsIn x o.1 m).foldl (fun r i => match r with
      | .error e => .error e
      | .ok _ => d.scratchSeg w (x.rowAt (o.1 + i) + x.segAt o.2) (x.segLen k)) (.ok ())
/-- R156, R150: a descriptor's row segments in memory must be canonical. DEDUCED (log 20). -/
def canonicalRows (x : Desc) (o : Nat × Nat) (m n : Nat) : Except Trap Unit :=
  let k := x.segLen (within (x.dim 0) o.2 n)
  if x.space = 1 ∨ k = 0 then .ok ()
  else
    match (rowsIn x o.1 m).find? fun i => decide (2 ^ 57 < x.rowAt (o.1 + i) + x.segAt o.2 + k) with
    | some i => .error (.at 0x0F rNoncanon (BitVec.ofNat 64 (x.rowAt (o.1 + i) + x.segAt o.2)))
    | none => .ok ()
/-- R382: the checks of both tensors: R231, then R150. -/
def Dev.checkTensors (d : Dev) (w : Wg) (da db : Desc) (os od : Nat × Nat) (m n : Nat) : Except Trap Unit := do
  d.checkRows w da os m n
  d.checkRows w db od m n
  canonicalRows da os m n
  canonicalRows db od m n
/-- R161, R179: `n` bytes of row `i` of a tensor copy from byte `lo` on, cut at the 4 KiB granules of both sides, so that a part stands in one
granule of each. -/
def rowParts (src dst : Desc) (os od : Nat × Nat) (i lo n : Nat) : List (Nat × Nat × Nat) :=
  let a := src.rowAt (os.1 + i) + src.segAt os.2
  let b := dst.rowAt (od.1 + i) + dst.segAt od.2
  if src.space = 1 ∧ dst.space = 1 then [(i, lo, n)]
  else (piecesFrom (if src.space = 1 then b else a) (if dst.space = 1 then a else b) lo (n + 1) n).map fun e => (i, e.1, e.2)
/-- R382 with the DESC hint. -/
def copytIssue (d a b : Reg) (tk : Bool) (shape : Shape) (bar : Bool) (h : TileHint) (dev : Dev) (c : Cur) : Act :=
  let da := dev.desc c h.da.toNat
  let db := dev.desc c h.db.toNat
  let os := originOf (c.t.reg a)
  let od := originOf (c.t.reg b)
  if !copytDesc da db os.2 then .fault (tensorDesc h.da.toNat)
  else if !copytDesc db da od.2 then .fault (tensorDesc h.db.toNat)
  else
    let k := within (db.dim 0) od.2 shape.n
    let rows := if k = 0 then [] else rowsIn db od.1 shape.m
    let bytes := rows.length * db.segLen k
    match dev.checkTensors c.w da db os od shape.m shape.n with
    | .error e => .fault e
    | .ok _ =>
      match barrierOf (if bar then some h.arr else none) bytes dev c with
      | .error e => .fault e
      | .ok p =>
        (dev.issue c .cpy (tokenIf tk d) [] 1#64
          (.copyt da db os od shape.m shape.n (barPair p) (rows.flatMap fun i => rowParts da db os od i 0 (db.segLen k)))).announced p bytes
/-- R382 copyt. The DESC hint is required (R312). -/
def execCopyt (d a b : Reg) (tk : Bool) (shape : Shape) (bar : Bool) (hint : Option TileHint) (s : State) : Out :=
  match hint with
  | none => s.act 1 fun _ _ => .fault illegal
  | some h =>
    s.act 2 <| withRegs ([a.toNat, b.toNat] ++ (if bar then [h.arr.toNat] else [])) (tokenIdx tk d) <|
      copytIssue d a b tk shape bar h

/-! ## Gathers (R383), prefetch (R384), page-in (R385) -/

def Esz.bytes (e : Esz) : Nat :=
  match e with
  | .e4 => 4
  | .e8 => 8
  | .e16 => 16

/-- R383. Of the memory side the base is known at issue: it must be canonical where there is an element (R156); an element's address
that is not fails as the engine reaches it. DEDUCED (log 20). -/
def gatherIssue (scatter : Bool) (d a b : Reg) (size : Nat) (dev : Dev) (c : Cur) : Act :=
  let base := c.t.pair a
  let list := c.t.reg (a + 2)
  let data := c.t.reg (a + 3)
  let n := min (c.t.reg b).toNat 64
  let checks : Except Trap (Side × Side) := do
    aligned base size
    aligned (list.setWidth 64) 4
    aligned (data.setWidth 64) size
    if n = 0 then pure (.scr c.w.uid 0, .scr c.w.uid 0)
    else
      let l ← dev.scratchRange c.w list (4 * n) 4
      let p ← dev.scratchRange c.w data (size * n) size
      if !canonicalVa base then .error (.at 0x0F rNoncanon base)
      pure (.scr l.uid l.off, .scr p.uid p.off)
  match checks with
  | .ok (.scr lu lo, .scr pu po) =>
    dev.issue c .cpy (some (d.toNat, 2)) [] 0#64 (.gather scatter base lu lo pu po size ((List.range n).map fun i => { i := i, idx := none, lo := 0, n := size }))
  | .ok _ => .fault regRange
  | .error e => .fault e
def execGather (d a b : Reg) (esz : Esz) (s : State) : Out :=
  s.act 1 <| withRegs (groupIdx a 4 ++ [b.toNat]) (groupIdx d 2) (gatherIssue false d a b (Esz.bytes esz))
def execScatter (d a b : Reg) (esz : Esz) (s : State) : Out :=
  s.act 1 <| withRegs (groupIdx a 4 ++ [b.toNat]) (groupIdx d 2) (gatherIssue true d a b (Esz.bytes esz))

/-- R384: the pages of a range, each with its bytes of it. -/
def pageParts (va n : Nat) : List (Nat × Nat) :=
  (pagesOf va n).map fun p => (p, min (va + n) (4096 * p + 4096) - max va (4096 * p))
/-- R384. -/
def execPrefetch (a b : Reg) (s : State) : Out :=
  s.act 1 <| withRegs (groupIdx a 2 ++ [b.toNat]) [] fun dev c =>
    let va := c.t.pair a
    let n := (c.t.reg b).toNat
    match copyMem va n with
    | .error e => .fault e
    | .ok _ => dev.issue c .cpy none [] 0#64 (.prefetch (pageParts va.toNat n))

/-- R149: a REQUESTID: an open value from 1 to 0xFFFF_FFFF, moved on to the first that is not outstanding. -/
def freshId (used : List Nat) (v : Nat) : Nat → Nat
  | 0 => v % 0xFFFF_FFFF + 1
  | n + 1 => if used.contains (v % 0xFFFF_FFFF + 1) then freshId used (v + 1) n else v % 0xFFFF_FFFF + 1
/-- R149: a request joins an outstanding one of its context on the die with the same first page, and else becomes an entry for
the event ring. -/
def Dev.askPages (d : Dev) (c : Cur) (page n cmd : Nat) : Dev :=
  let die := c.w.die
  let ctx := c.w.ctx
  let same := fun (r : PageReq) => r.die == die && r.ctx == ctx && r.page == page
  if d.pageReqs.any same then
    { d with pageReqs := d.pageReqs.map fun r => if same r then { r with cmds := r.cmds ++ [cmd] } else r }
  else
    let (v, d) := d.draw
    let used := d.pageReqs.map PageReq.id
    let id := freshId used v.toNat used.length
    { d with
      pageReqs := d.pageReqs ++ [{ id := id, die := die, ctx := ctx, page := page, n := n, since := d.raw, cmds := [cmd] }]
      records := d.records ++
        [{ type := 2, cause := 0, ctx := ctx, die := d.dieId die, time := d.ns, va := BitVec.ofNat 64 (page * 4096),
           detail0 := BitVec.ofNat 64 (id + n % 65536 * 2 ^ 32), detail1 := (c.w.threadField c.tid).setWidth 64 }] }
/-- R385, R167. -/
def execPagein (d a b : Reg) (s : State) : Out :=
  s.act 1 <| withRegs (groupIdx a 2 ++ [b.toNat]) [d.toNat] fun dev c =>
    let va := c.t.pair a
    let n := min (c.t.reg b).toNat 65535
    if !canonicalVa va then .fault (.at 0x0F rNoncanon va)
    else if n = 0 then dev.issue c .cpy (some (d.toNat, 1)) [] 1#64 .finished
    else
      match dev.issue c .cpy (some (d.toNat, 1)) [] 0#64 (.pagein (pageOf va) n) with
      | .done d' t => .done (d'.askPages c (pageOf va) n dev.nextCmd) t
      | r => r

end Sys2Proof.Machine
end

