-- ==== Sys2Proof/Machine/Copying.lean ====
section
/-!
DEFINITION. The copy engine at work (R161, R162, R234, R239): one granule, row, element or page of a copy-engine command.
-/

namespace Sys2Proof.Machine

/-- Where one side of a granule is. -/
inductive Spot where
  | pa (a : Nat)
  | scr (p : Place)
  | bad
  | walk (page : Nat)
deriving DecidableEq, Repr

/-- R161: a granule of a side fails: NRCOUNT rises for NOTRESIDENT, ERROR is set for another reason, PARTIAL in both. -/
def Cmd.failGranule (x : Cmd) (dst : Bool) (page reason : Nat) : Cmd :=
  if x.bad.contains (dst, page) then x
  else
    let v := x.result.toNat
    let nr := bits v 8 8
    let nr := if reason = rNotResident then min 255 (nr + 1) else nr
    let err := bits v 2 1 == 1 || decide (reason ≠ rNotResident)
    { x with bad := (dst, page) :: x.bad, walkFail := x.walkFail.filter fun e => !(e.1 == page && e.2.1 == accCopy dst),
             result := BitVec.ofNat 64 (v % 2 + 2 + (if err then 4 else 0) + 256 * nr) }

/-- R135: companion memory with both ports down. -/
def Dev.cutOff (d : Dev) (pa : Nat) : Bool := isCompanion pa && !d.pwnA && !d.pwnB

/-- R156, R161: the translation of a granule's address for a copy-engine command, with the command's failures so far. -/
def Dev.spotVa (d : Dev) (x : Cmd) (dst : Bool) (va : Dword) : Spot × Cmd :=
  if x.bad.contains (dst, pageOf va) then (.bad, x)
  else
    match d.xlate x.die x.ctx (.copy x.core) (accCopy dst) x.walkFail va with
    | .miss => (.walk (pageOf va), x)
    | .fail r => (.bad, x.failGranule dst (pageOf va) r)
    | .hit pa => if d.cutOff pa then (.bad, x.failGranule dst (pageOf va) 0) else (.pa pa, x)
def Dev.spotOf (d : Dev) (x : Cmd) (dst : Bool) (s : Side) (off : Nat) : Spot × Cmd :=
  match s with
  | .scr uid o => (.scr { uid := uid, off := o + off }, x)
  | .mem va => d.spotVa x dst (va + BitVec.ofNat 64 off)

/-- R242: the paths of engine commands. -/
def pathCpy : Nat := 1
def pathMtx : Nat := 2
/-- The bytes at a spot: zeros where its granule failed. -/
def Dev.readSpot (d : Dev) (s : Spot) (n : Nat) : List Byte :=
  match s with
  | .pa a => d.rdBytes a n
  | .scr p => d.rangeRd p n
  | .bad | .walk _ => List.replicate n 0#8
/-- What a copy-engine command reads at a source spot, with the choice of R239 made for its words. -/
def Dev.fetchSpot (d : Dev) (x : Cmd) (s : Spot) (n : Nat) : List Byte × Dev :=
  match s with
  | .scr p => let d := d.settleAt x pathCpy p n; (d.engineRd x pathCpy p n, d)
  | .pa a => (d.engineMem x a n, d)
  | .bad | .walk _ => (d.readSpot s n, d)
/-- R239: a command reads the words of a source spot ahead of its writes; a word that it has read ahead it does not read again. -/
def Dev.readAhead (d : Dev) (x : Cmd) (s : Spot) (n : Nat) : Dev × Cmd :=
  match s with
  | .scr p =>
    let d := d.settleAt x pathCpy p n
    let v := d.engineView x pathCpy
    let new := (d.rangeWords p n).filter fun q => !x.early.any fun e => e.1 == q.uid && e.2.1 == q.off
    (d, { x with early := new.map (fun q => (q.uid, q.off, BitVec.ofNat 32 (v.scratchRd q 4))) ++ x.early })
  | .pa a =>
    let words := (List.range ((a % 4 + n + 3) / 4)).map fun i => a / 4 * 4 + 4 * i
    let new := words.filter fun q => !x.earlyMem.any fun e => e.1 == q
    (d, { x with earlyMem := new.map (fun q => (q, BitVec.ofNat 32 (d.rd q 4))) ++ x.earlyMem })
  | .bad | .walk _ => (d, x)
/-- Bytes that a command writes to a spot: nothing where its granule failed. -/
def Dev.writeSpot (d : Dev) (x : Cmd) (s : Spot) (bs : List Byte) : Dev :=
  match s with
  | .pa a => d.storeBytes a bs
  | .scr p => d.rangeWrBy x pathCpy p bs
  | .bad | .walk _ => d
/-- R137: whether a write to a spot may be performed now. -/
def Dev.spotClean (d : Dev) (s : Spot) (n : Nat) : Bool :=
  match s with
  | .pa a => d.clean a n
  | .scr _ | .bad | .walk _ => true
def Dev.spotFlush (d : Dev) (s : Spot) (n : Nat) : Dev :=
  match s with
  | .pa a => d.flush a n
  | .scr _ | .bad | .walk _ => d
/-! ## The DRAM budget (R179) -/

/-- A granule of a side that the command has reached already. -/
def Cmd.met (x : Cmd) (dst : Bool) (page : Nat) : Bool := x.metered.any fun e => e.1 == dst && e.2.1 == page
/-- R179: the first time a command reaches a 4 KiB granule, all its bytes of the granule are charged. -/
def Dev.meter (d : Dev) (x : Cmd) (dst : Bool) (s : Spot) (page total : Nat) : Dev × Cmd :=
  match s with
  | .pa a =>
    if x.met dst page then (d, x)
    else (d.dramUse x.die x.ctx a total, { x with metered := (dst, page, total) :: x.metered })
  | .scr _ | .bad | .walk _ => (d, x)
/-- R179 for elements, whose granules are known one by one: the units that the granule's bytes come to are charged as they grow. -/
def Dev.meterMore (d : Dev) (x : Cmd) (dst : Bool) (pa page n : Nat) : Dev × Cmd :=
  let old := ((x.metered.find? fun e => e.1 == dst && e.2.1 == page).map fun e => e.2.2).getD 0
  let units := (old + n + 255) / 256 - (old + 255) / 256
  (d.dramUse x.die x.ctx pa (256 * units),
   { x with metered := (dst, page, old + n) :: x.metered.filter fun e => !(e.1 == dst && e.2.1 == page) })

/-- A command replaced. -/
def Dev.putCmd (d : Dev) (x : Cmd) : Dev := d.modCmd x.id fun _ => x
/-- The command waits for the walk of a page; where the walk queue is full it will ask again (R166). -/
def Dev.cmdWalk (d : Dev) (x : Cmd) (dst : Bool) (page : Nat) : Dev :=
  if (d.die x.die).mayAsk x.ctx page then
    (d.putCmd { x with walking := some page }).ask x.die x.ctx page (.command x.id) (.copy x.core) (accCopy dst)
  else d.putCmd x
/-- Pages a command has used (R168). -/
def Cmd.used (x : Cmd) (page : Nat) : Cmd := { x with pages := insertNat page x.pages }
/-- R378: bytes of granules subtracted from the barrier. -/
def Dev.barDone (d : Dev) (bar : Option (Nat × Nat)) (n : Nat) : Dev :=
  match bar with
  | some (uid, off) => if n = 0 then d else d.barBytes { uid := uid, off := off } n
  | none => d
/-- R378: granules with their bytes leave PENDING, each once. -/
def Dev.barAll (d : Dev) (x : Cmd) (bar : Option (Nat × Nat)) (gs : List (Nat × Nat)) : Dev × Cmd :=
  let new := gs.filter fun g => !x.barred.contains g.1
  (d.barDone bar ((new.map Prod.snd).foldl (· + ·) 0), { x with barred := new.map Prod.fst ++ x.barred })

/-! ## Choosing a piece (R239)

The words of a command are read and written independently of each other: a step moves a whole piece, or one of its words, or it reads one word
ahead. -/

/-- Element `pick` of a list, wrapped round its length, and the others. -/
def choose {α : Type} (l : List α) (pick : Nat) : Option (α × List α) :=
  match l[pick % l.length]? with
  | some v => some (v, l.eraseIdx (pick % l.length))
  | none => none
/-- A range cut: all of it, or word k − 1 of it with what lies before and behind. -/
def cutRange (off n k : Nat) : (Nat × Nat) × List (Nat × Nat) :=
  if k = 0 then ((off, n), [])
  else
    let j := 4 * ((k - 1) % ((n + 3) / 4))
    ((off + j, min 4 (n - j)), [(off, j), (off + j + 4, n - j - 4)].filter fun e => e.2 != 0)

/-- Word `k` of a range of `n` bytes, wrapped round: its offset in the range and its bytes. -/
def wordAtPick (n k : Nat) : Nat × Nat :=
  let j := 4 * (k % ((n + 3) / 4))
  (j, min 4 (n - j))

/-! ## Copies (R381) -/

/-- The page of a side at an offset; a scratchpad side has none. -/
def Side.page (s : Side) (off : Nat) : Option Nat :=
  match s with
  | .mem va => some (pageOf (va + BitVec.ofNat 64 off))
  | .scr _ _ => none
/-- Bytes of a range of `n` bytes that stand in the 4 KiB granule of offset `off`, with granules counted from `cut`. -/
def granuleBytes (cut n off : Nat) : Nat :=
  let g := (cut + off) / 4096
  min n ((g + 1) * 4096 - cut) - (g * 4096 - cut)
/-- A side of a piece charged and its page noted. -/
def Dev.meterSide (d : Dev) (x : Cmd) (dst : Bool) (side : Side) (s : Spot) (n off : Nat) : Dev × Cmd :=
  match side with
  | .mem va =>
    let page := pageOf (va + BitVec.ofNat 64 off)
    d.meter (x.used page) dst s page (granuleBytes va.toNat n off)
  | .scr _ _ => (d, x)
/-- R381, R161, R378: one piece moved; `left` is what then remains. The bytes of a destination granule leave PENDING when its last
piece is performed. -/
def Dev.copyPiece (d : Dev) (x : Cmd) (src dst : Side) (n : Nat) (bar : Option (Nat × Nat)) (p : Nat × Nat)
    (left : List (Nat × Nat)) : Dev :=
  let (ss, x) := d.spotOf x false src p.1
  match ss with
  | .walk page => d.cmdWalk x false page
  | .pa _ | .scr _ | .bad =>
    let (ds, x) := d.spotOf x true dst p.1
    match ds with
    | .walk page => d.cmdWalk x true page
    | .pa _ | .scr _ | .bad =>
      if !d.spotClean ds p.2 then (d.putCmd x).spotFlush ds p.2
      else
        let (bs, d) := d.fetchSpot x ss p.2
        let (d, x) := d.meterSide x false src ss n p.1
        let (d, x) := d.meterSide x true dst ds n p.1
        let cut := dst.cut src
        let g := (cut + p.1) / 4096
        let done := if left.any fun e => (cut + e.1) / 4096 == g then [] else [(g, granuleBytes cut n p.1)]
        let (d, x) := (d.writeSpot x ds bs).barAll x bar done
        d.putCmd { x with body := .copy src dst n bar left }

/-- R239: one word of the source of a copy read ahead, at an offset of the copy. -/
def Dev.copyAhead (d : Dev) (x : Cmd) (src : Side) (n : Nat) (p : Nat × Nat) : Dev :=
  let (ss, x) := d.spotOf x false src p.1
  match ss with
  | .walk page => d.cmdWalk x false page
  | .pa _ | .scr _ | .bad =>
    let (d, x) := d.meterSide x false src ss n p.1
    let (d, x) := d.readAhead x ss p.2
    d.putCmd x

/-! ## Rows (R382) -/

/-- The spots of pieces of a side of a command: a page to wait for, or the spots with the command's failures. -/
def Dev.rowSpots (d : Dev) (x : Cmd) (s : Side) (dst : Bool) : List (Nat × Nat) → (Option Nat × List Spot) × Cmd
  | [] => ((none, []), x)
  | (off, _) :: ps =>
    let (sp, x) := d.spotOf x dst s off
    match sp with
    | .walk p => ((some p, []), x)
    | .pa _ | .scr _ | .bad =>
      let ((m, rest), x) := d.rowSpots x s dst ps
      ((m, sp :: rest), x)
/-- What a command reads at the source spots of pieces. -/
def Dev.fetchSpots (d : Dev) (x : Cmd) : List Spot → List (Nat × Nat) → List Byte × Dev
  | s :: ss, (_, n) :: ps =>
    let (bs, d) := d.fetchSpot x s n
    let (more, d) := d.fetchSpots x ss ps
    (bs ++ more, d)
  | _, _ => ([], d)
/-- The bytes at the spots of pieces. -/
def Dev.readSpots (d : Dev) : List Spot → List (Nat × Nat) → List Byte
  | s :: ss, (_, n) :: ps => d.readSpot s n ++ d.readSpots ss ps
  | _, _ => []
/-- Bytes written to the spots of pieces. -/
def Dev.writeSpots (d : Dev) (x : Cmd) : List Spot → List (Nat × Nat) → List Byte → Dev
  | s :: ss, (_, n) :: ps, bs => (d.writeSpot x s (bs.take n)).writeSpots x ss ps (bs.drop n)
  | _, _, _ => d
/-- Whether every spot may be written now; and what invalidates them. -/
def Dev.spotsClean (d : Dev) : List Spot → List (Nat × Nat) → Bool
  | s :: ss, (_, n) :: ps => d.spotClean s n && d.spotsClean ss ps
  | _, _ => true
def Dev.spotsFlush (d : Dev) : List Spot → List (Nat × Nat) → Dev
  | s :: ss, (_, n) :: ps => (d.spotFlush s n).spotsFlush ss ps
  | _, _ => d
/-- The pieces of a range of `n` bytes at an address of a tensor. -/
def rowPieces (x : Desc) (addr n : Nat) : List (Nat × Nat) :=
  if n = 0 then [] else if x.space = 1 then [(0, n)] else piecesFrom addr addr 0 (n + 1) n
/-- Bytes that two ranges share. -/
def overlap (a n b m : Nat) : Nat := min (a + n) (b + m) - max a b

/-- A tensor copy (R382). -/
structure TileOp where
  src : Desc
  dst : Desc
  os : Nat × Nat
  od : Nat × Nat
  m : Nat
  n : Nat
  bar : Option (Nat × Nat)
deriving DecidableEq, Repr

/-- Elements of a destination row, and of the source row for it; where the rows start. -/
def TileOp.k (o : TileOp) : Nat := within (o.dst.dim 0) o.od.2 o.n
def TileOp.ks (o : TileOp) (i : Nat) : Nat := if o.os.1 + i < o.src.dim 1 then min o.k (within (o.src.dim 0) o.os.2 o.n) else 0
def TileOp.sa (o : TileOp) (i : Nat) : Nat := o.src.rowAt (o.os.1 + i) + o.src.segAt o.os.2
def TileOp.da (o : TileOp) (i : Nat) : Nat := o.dst.rowAt (o.od.1 + i) + o.dst.segAt o.od.2
def TileOp.rows (o : TileOp) : List Nat := if o.k = 0 then [] else rowsIn o.dst o.od.1 o.m
/-- The bytes of the source or of the destination in a 4 KiB granule. -/
def TileOp.srcBytes (o : TileOp) (page : Nat) : Nat :=
  (o.rows.map fun i => overlap (o.sa i) (o.src.segLen (o.ks i)) (page * 4096) 4096).foldl (· + ·) 0
def TileOp.dstBytes (o : TileOp) (page : Nat) : Nat :=
  (o.rows.map fun i => overlap (o.da i) (o.dst.segLen o.k) (page * 4096) 4096).foldl (· + ·) 0
/-- The pages of pieces of a memory tensor. -/
def piecePages (x : Desc) (addr : Nat) (ps : List (Nat × Nat)) : List Nat :=
  if x.space = 1 then [] else ps.map fun e => (addr + e.1) / 4096
/-- R378: what leaves PENDING when a part of a row is performed: the granules in memory, or the row in scratchpad, that then have no
part left, with their bytes. -/
def TileOp.granules (o : TileOp) (part : Nat × Nat × Nat) (left : List (Nat × Nat × Nat)) : List (Nat × Nat) :=
  if o.dst.space = 1 then (if left.any fun e => e.1 == part.1 then [] else [(part.1, o.dst.segLen o.k)])
  else
    let pages := fun (e : Nat × Nat × Nat) => pagesOf (o.da e.1 + e.2.1) e.2.2
    ((pages part).filter fun p => !left.any fun e => (pages e).contains p).map fun p => (p, o.dstBytes p)
/-- Pieces charged and their pages noted. -/
def Dev.meterSpots (d : Dev) (x : Cmd) (dst : Bool) (bytes : Nat → Nat) : List Spot → List Nat → Dev × Cmd
  | s :: ss, p :: ps =>
    let (d, x) := d.meter (x.used p) dst s p (bytes p)
    d.meterSpots x dst bytes ss ps
  | _, _ => (d, x)

/-- R382: a part of a row of a tensor copy, `len` bytes from `lo` on: elements beyond the source are code 0, elements beyond the
destination stay. DEDUCED (log 38). -/
def Dev.copyRow (d : Dev) (x : Cmd) (w : Wg) (o : TileOp) (part : Nat × Nat × Nat) (left : List (Nat × Nat × Nat)) : Dev :=
  let (i, lo, len) := part
  let sbits := min (8 * len) (o.src.fmt.width * o.ks i - 8 * lo)
  let dbits := min (8 * len) (o.dst.fmt.width * o.k - 8 * lo)
  let sa := o.sa i + lo
  let da := o.da i + lo
  let sp := rowPieces o.src sa ((sbits + 7) / 8)
  let dp := rowPieces o.dst da len
  let ((m, ss), x) := d.rowSpots x (d.sideAt w o.src sa) false sp
  match m with
  | some p => d.cmdWalk x false p
  | none =>
    let ((m, ds), x) := d.rowSpots x (d.sideAt w o.dst da) true dp
    match m with
    | some p => d.cmdWalk x true p
    | none =>
      if !d.spotsClean ds dp then (d.putCmd x).spotsFlush ds dp
      else
        let (bs, d) := d.fetchSpots x ss sp
        let sv := leValue bs % 2 ^ sbits
        let dv := leValue (d.readSpots ds dp)
        let (d, x) := d.meterSpots x false o.srcBytes ss (piecePages o.src sa sp)
        let (d, x) := d.meterSpots x true o.dstBytes ds (piecePages o.dst da dp)
        let (d, x) := (d.writeSpots x ds dp (leBytes (replaceLow 1 dv sv dbits) len)).barAll x o.bar (o.granules part left)
        d.putCmd { x with body := .copyt o.src o.dst o.os o.od o.m o.n o.bar left }

/-- Bytes of the source that a part of a row has: elements beyond the source are code 0. -/
def TileOp.srcLen (o : TileOp) (part : Nat × Nat × Nat) : Nat :=
  (min (8 * part.2.2) (o.src.fmt.width * o.ks part.1 - 8 * part.2.1) + 7) / 8
/-- R239: one word of the source of a part of a row read ahead. -/
def Dev.rowAhead (d : Dev) (x : Cmd) (w : Wg) (o : TileOp) (part : Nat × Nat × Nat) (k : Nat) : Dev :=
  let n := o.srcLen part
  if n = 0 then d
  else
    let (j, k) := wordAtPick n k
    let sa := o.sa part.1 + part.2.1 + j
    let (ss, x) := d.spotOf x false (d.sideAt w o.src sa) 0
    match ss with
    | .walk page => d.cmdWalk x false page
    | .pa _ | .scr _ | .bad =>
      let (d, x) := if o.src.space = 1 then (d, x) else d.meter (x.used (sa / 4096)) false ss (sa / 4096) (o.srcBytes (sa / 4096))
      let (d, x) := d.readAhead x ss k
      d.putCmd x

/-! ## Elements (R383) -/

/-- A gather or scatter (R383). -/
structure ElemOp where
  scatter : Bool
  base : Dword
  list : Place
  data : Place
  size : Nat
deriving DecidableEq, Repr

def ElemOp.body (o : ElemOp) (left : List Elem) : Body :=
  .gather o.scatter o.base o.list.uid o.list.off o.data.uid o.data.off o.size left
/-- R383: the address of an element. -/
def ElemOp.va (o : ElemOp) (idx : Nat) : Dword := o.base + BitVec.ofNat 64 (idx * o.size)
/-- R249: the index of an element, read from scratchpad once. -/
def Dev.elemIndex (d : Dev) (x : Cmd) (o : ElemOp) (e : Elem) : Nat × Dev :=
  match e.idx with
  | some i => (i, d)
  | none => let (bs, d) := d.fetchSpot x (.scr { o.list with off := o.list.off + 4 * e.i }) 4; (leValue bs, d)
/-- R383, R162: an element fails: its mask bit is set, and a gather writes zeros. -/
def Dev.loseElem (d : Dev) (x : Cmd) (o : ElemOp) (e : Elem) (left : List Elem) : Dev :=
  let d := if o.scatter then d
    else d.rangeWrBy x pathCpy { o.data with off := o.data.off + o.size * e.i } (List.replicate o.size 0#8)
  d.putCmd { x with result := x.result ||| (1#64 <<< e.i), body := o.body (left.filter fun f => f.i != e.i) }
/-- R383, R162: bytes of one element of a gather or scatter. -/
def Dev.moveElem (d : Dev) (x : Cmd) (o : ElemOp) (e : Elem) (left : List Elem) : Dev :=
  let (idx, d) := d.elemIndex x o e
  let seen := fun (f : Elem) => if f.i = e.i then { f with idx := some idx } else f
  let left := left.map seen
  let va := o.va idx + BitVec.ofNat 64 e.lo
  let slot : Place := { o.data with off := o.data.off + o.size * e.i + e.lo }
  let wait := { x with body := o.body (seen e :: left) }
  match d.xlate x.die x.ctx (.copy x.core) (accCopy o.scatter) x.walkFail va with
  | .miss => d.cmdWalk wait o.scatter (pageOf va)
  | .fail _ => d.loseElem x o e left
  | .hit pa =>
    if d.cutOff pa then d.loseElem x o e left
    else if o.scatter && !d.clean pa e.n then (d.putCmd wait).flush pa e.n
    else
      let (d, x) := d.meterMore (x.used (pageOf va)) o.scatter pa (pageOf va) e.n
      let (bs, d) := d.fetchSpot x (if o.scatter then .scr slot else .pa pa) e.n
      let d := if o.scatter then d.storeBytes pa bs else d.rangeWrBy x pathCpy slot bs
      d.putCmd { x with body := o.body left }

/-- R239: one word of an element read ahead, and its index where it is not known; the bytes of a gather are charged when they move. -/
def Dev.elemAhead (d : Dev) (x : Cmd) (o : ElemOp) (e : Elem) (left : List Elem) (k : Nat) : Dev :=
  let (idx, d) := d.elemIndex x o e
  let x := { x with body := o.body (left.map fun f => if f.i = e.i then { f with idx := some idx } else f) }
  let (j, k) := wordAtPick e.n k
  if o.scatter then
    let (d, x) := d.readAhead x (.scr { o.data with off := o.data.off + o.size * e.i + e.lo + j }) k
    d.putCmd x
  else
    let va := o.va idx + BitVec.ofNat 64 (e.lo + j)
    match d.xlate x.die x.ctx (.copy x.core) (accCopy false) x.walkFail va with
    | .miss => d.cmdWalk x false (pageOf va)
    | .fail _ => d.putCmd x
    | .hit pa =>
      if d.cutOff pa then d.putCmd x
      else
        let (d, x) := d.readAhead (x.used (pageOf va)) (.pa pa) k
        d.putCmd x

/-- R384: one page warmed; the bytes that it reads are charged (R179). -/
def Dev.warmPage (d : Dev) (x : Cmd) (page n : Nat) (left : List (Nat × Nat)) : Dev :=
  match d.xlate x.die x.ctx (.copy x.core) (accCopy false) x.walkFail (BitVec.ofNat 64 (page * 4096)) with
  | .miss => d.cmdWalk x false page
  | .fail _ => d.putCmd { x with body := .prefetch left }
  | .hit pa => (d.dramUse x.die x.ctx pa n).putCmd { x.used page with body := .prefetch left }

/-! ## Words of the matrix engine (R239, R400) -/

/-- R290: the oldest MTX command of a core that has not been accepted. DEDUCED (log 21). -/
def Dev.nextMtx (d : Dev) (die core : Nat) : Option (Cmd × MtxOp) :=
  d.cmds.findSome? fun x =>
    if x.die = die ∧ x.core = core then (match x.body with
      | .mtx op => some (x, op)
      | _ => none) else none
/-- R239: the matrix engine reads a word of the scratchpads it may name while it accepts its oldest command. -/
def Dev.readEarly (d : Dev) (x : Cmd) (pick : Nat) : Dev :=
  match d.wg? x.uid with
  | none => d
  | some w =>
    if (d.nextMtx x.die x.core).map (fun e => e.1.id) ≠ some x.id then d
    else
      let ws := d.wgs.filter fun p => p.die == w.die && p.group == w.group && p.isResident
      match choose ws pick with
      | none => d
      | some (p, _) =>
        let off := pick / ws.length % 2 ^ 20 * 4
        if off < p.scratch ∧ !(x.early.any fun e => e.1 == p.uid && e.2.1 == off) then
          let at_ : Place := { uid := p.uid, off := off }
          let d := d.settleAt x pathMtx at_ 4
          d.putCmd { x with early := (p.uid, off, BitVec.ofNat 32 (leValue (d.engineRd x pathMtx at_ 4))) :: x.early }
        else d
/-- R239, R405: a word that an accepted command writes, whole. Of a word that it covers in part, what it writes back is what it has
read there, and it may also read it again: a store to the other bytes in between is lost or not. -/
def Dev.spreadWord (d : Dev) (x : Cmd) (e : TileWord) (again : Bool) (left : List TileWord) : Dev :=
  let p : Place := { uid := e.uid, off := e.off }
  if again ∧ e.mask ≠ BitVec.allOnes 32 then
    d.putCmd { x with body := .spread ({ e with base := BitVec.ofNat 32 (d.scratchRd p 4) } :: left) }
  else
    let v := (e.base &&& ~~~e.mask) ||| (e.value &&& e.mask)
    (d.rangeWrBy x pathMtx p (leBytes v.toNat 4)).putCmd { x with body := if left.isEmpty then .finished else .spread left }

/-- R131, R239: a word of an HGET's reply written to scratchpad, on the CPY path, while the workgroup is resident. DEDUCED (log 36). -/
def Dev.hgetWord (d : Dev) (x : Cmd) (uid off : Nat) (e : Nat × List Byte) (left : List (Nat × List Byte)) : Dev :=
  match d.wg? x.uid with
  | some w =>
    if w.isResident then (d.rangeWrBy x pathCpy { uid := uid, off := off + e.1 } e.2).putCmd { x with body := .hget uid off (some left) } else d
  | none => d
/-- A command goes on with the piece, or the word, that `pick` chooses: half of it for a copy, a tensor copy, a gather or a scatter, which
reads a word ahead where `pick` is odd (R239). Scatters write in ascending order, since of two elements with one address the higher
stands (R383). DEDUCED (log 38). -/
def Dev.copyStep (d : Dev) (x : Cmd) (pick : Nat) : Dev :=
  let k := pick / 2
  let ahead := pick % 2 == 1
  match x.body with
  | .copy src dst n bar left =>
    (match choose left k with
    | some (e, rest) =>
      if ahead then
        let w := wordAtPick e.2 (k / left.length)
        d.copyAhead x src n (e.1 + w.1, w.2)
      else
        let (p, more) := cutRange e.1 e.2 (k / left.length)
        d.copyPiece x src dst n bar p (more ++ rest)
    | none => d)
  | .copyt src dst os od m n bar left =>
    (match choose left k, d.wg? x.uid with
    | some (e, rest), some w =>
      let o : TileOp := { src := src, dst := dst, os := os, od := od, m := m, n := n, bar := bar }
      if ahead then d.rowAhead x w o e (k / left.length)
      else
        let (p, more) := cutRange e.2.1 e.2.2 (k / left.length)
        d.copyRow x w o (e.1, p) (more.map (fun q => (e.1, q)) ++ rest)
    | _, _ => d)
  | .gather scatter base iu io du dof size left =>
    let o : ElemOp :=
      { scatter := scatter, base := base, list := { uid := iu, off := io }, data := { uid := du, off := dof }, size := size }
    (match choose left (if scatter && !ahead then 0 else k) with
    | some (e, rest) =>
      if ahead then d.elemAhead x o e left (k / left.length)
      else
        let (p, more) := cutRange e.lo e.n (k / left.length)
        d.moveElem x o { e with lo := p.1, n := p.2 } (more.map (fun q => { e with lo := q.1, n := q.2 }) ++ rest)
    | none => d)
  | .prefetch left =>
    (match choose left pick with
    | some (p, rest) => d.warmPage x p.1 p.2 rest
    | none => d)
  | .mtx _ => d.readEarly x pick
  | .spread left =>
    (match choose left pick with
    | some (e, rest) => d.spreadWord x e (pick / left.length % 2 == 1) rest
    | none => d)
  | .hget uid off (some left) =>
    (match choose left pick with
    | some (e, rest) => d.hgetWord x uid off e rest
    | none => d)
  | .pagein _ _ | .atomg _ _ _ | .casg _ _ _ _ | .arm _ _ | .xcvt _ _ _ | .onceclr _ | .remote | .hget _ _ none
  | .finished => d

/-- R182 step 3: the commands of a workgroup that is being saved drain, the DRAM budget aside. -/
def Dev.saving (d : Dev) (uid : Nat) : Bool :=
  match d.wg? uid with
  | some w => w.stopping
  | none => false
/-- R179: a piece whose granules the command has reached already, or a word read ahead in such a granule: what is admitted is admitted
whole. -/
def Dev.begun (d : Dev) (x : Cmd) (pick : Nat) : Bool :=
  let k := pick / 2
  let ahead := pick % 2 == 1
  match x.body with
  | .copy src dst _ _ left =>
    (match choose left k with
    | some (e, _) => (src.page e.1).all (x.met false) && (ahead || (dst.page e.1).all (x.met true))
    | none => true)
  | .copyt src dst os od m n bar left =>
    (match choose left k with
    | some (e, _) =>
      let o : TileOp := { src := src, dst := dst, os := os, od := od, m := m, n := n, bar := bar }
      (src.space == 1 || (pagesOf (o.sa e.1 + e.2.1) (o.srcLen e)).all (x.met false)) &&
        (ahead || dst.space == 1 || (pagesOf (o.da e.1 + e.2.1) e.2.2).all (x.met true))
    | none => true)
  | .gather scatter base iu io du dof size left =>
    (match choose left (if scatter && !ahead then 0 else k) with
    | some (e, _) =>
      let o : ElemOp :=
        { scatter := scatter, base := base, list := { uid := iu, off := io }, data := { uid := du, off := dof }, size := size }
      x.met scatter (pageOf (o.va (d.elemIndex x o e).1 + BitVec.ofNat 64 e.lo))
    | none => true)
  | .mtx _ | .spread _ | .hget _ _ (some _) => true
  | .prefetch _ | .pagein _ _ | .atomg _ _ _ | .casg _ _ _ _ | .arm _ _ | .xcvt _ _ _ | .onceclr _
  | .remote | .hget _ _ none | .finished => false
/-- R161, R179: one granule of a copy-engine command, while the context's DRAM budget lasts, or a word of an MTX command or of an HGET. -/
def execCopyGranule (cmd pick : Nat) (s : State) : Out :=
  s.onDev fun d =>
    match d.cmd? cmd with
    | some x =>
      if x.walking.isNone && !d.tripped x.die && (d.dramOpen x.die x.ctx || d.saving x.uid || d.begun x pick) then d.copyStep x pick
      else d
    | none => d

end Sys2Proof.Machine
end

