-- ==== Sys2Proof/Machine/Fetch.lean ====
section
/-!
DEFINITION. Which instruction the current thread reaches (R312, R314, R315, R319), and the placing of one instruction where
the next step fetches.
-/

namespace Sys2Proof.Machine

/-- R314: the word at an offset of a block. -/
def Cur.word (c : Cur) (off : Nat) : Word := wordAt c.b.words (off + 1)

/-- R315, R319: the instruction at the current thread's offset. Words that are no instruction, a terminator below LEN and
anything else at LEN are ILLEGAL_INSTR. -/
def Cur.instr (c : Cur) : Instr :=
  let len := hdrLen c.hdr0
  let off := c.t.off
  if off = 0 ∨ len < off then .illegalInstr
  else
    match decodeUnit (c.word off) (if off < len then some (c.word (off + 1)) else none) with
    | .error _ => .illegalInstr
    | .ok (i, n) => if i.isTerminator = decide (off + n - 1 = len) then i else .illegalInstr

/-- The workgroup in which a placed word runs: one thread on core 0 of die 0, with 4 KiB of scratchpad, eight tiles and a
spill stack. -/
def Wg.forWord (uid : Nat) : Wg :=
  { uid := uid, die := 0, ctx := 0, kind := .launch 0, loc := .resident 0 0 0, rank := 0, prio := 0, group := uid,
    cgsize := 1, flat := 0, dims := (1, 1, 1), grid := (1, 1, 1), regs0 := 64, stackc := 64, spill := 4096,
    scratch := 4096, acc := 8, extent := some (0, 16), flags := List.replicate 12 0, mem := [], tiles := [],
    tsrc := List.replicate 8 (.fin false 1 1), gens := List.replicate 4 none,
    threads := [{ Thread.fresh 64 4096 0 with pos := .running, off := 1 }], forward := 0,
    stopping := false, ended := false, proof := false, order := 0, savedRot := 0 }

/-- A bundle of a whole cohort at the first offset of a block at address 0. -/
def Bundle.forWord (uid : Nat) : Bundle :=
  { uid := uid, channel := 0, blk := 0, words := [0xFC04_0020#32, 0x00FF_0000#32], cohort := true, tids := [0], issued := none }

/-- A device with a bundle in front: as it is, or with a context, a workgroup and a bundle placed for the word.
DESIGN CHOICE (log 3). -/
def Dev.withCur (d : Dev) : Dev :=
  if d.cur.isSome then d
  else
    let d := if (d.ctx? 0 0).isSome then d
      else d.modDie 0 fun x => { x with ctxs := { Ctx.fresh 0 0 with trap := 8 } :: x.ctxs }
    { d with wgs := Wg.forWord d.nextUid :: d.wgs, flight := Bundle.forWord d.nextUid :: d.flight,
             nextUid := d.nextUid + 1 }

/-- The words of a block whose offset `off` holds `w`: the block ends there when `w` is a terminator, and with an exit after
it otherwise. -/
def placeWord (words : List Word) (off : Nat) (w : Word) : List Word :=
  let term := match decodeUnit w none with
    | .ok (i, _) => i.isTerminator
    | .error _ => false
  let len := if term then off else off + 1
  let body := (List.range (off - 1)).map fun k => wordAt words (k + 2)
  [(wordAt words 0 &&& ~~~(0xFF#32 <<< 18)) ||| pl (BitVec.ofNat 8 len) 18, wordAt words 1] ++ body ++
    (if term then [w] else [w, 0xF380_0004#32])

/-- The device with the word where the current thread fetches. -/
def Dev.placeWord (d : Dev) (w : Word) : Dev :=
  let d := d.withCur
  match d.flight, d.cur with
  | b :: bs, some c => { d with flight := { b with words := Sys2Proof.Machine.placeWord b.words c.t.off w } :: bs }
  | _, _ => d

end Sys2Proof.Machine
end

