-- ==== Sys2Proof/Machine/Convert.lean ====
section
/-!
DEFINITION. Conversions (R343 to R348).
-/

namespace Sys2Proof.Machine

/-! R343, R344. -/

def execF2i (d a : Reg) (rm : Rm) (s : State) : Out := s.pure 1 (opFR d a (f2iCode rm))
def execF2u (d a : Reg) (rm : Rm) (s : State) : Out := s.pure 1 (opFR d a (f2uCode rm))
def execI2f (d a : Reg) (rm : Rm) (s : State) : Out := s.pure 1 (opFR d a fun x => fromInt rm x.toInt)
def execU2f (d a : Reg) (rm : Rm) (s : State) : Out := s.pure 1 (opFR d a fun x => fromInt rm x.toNat)
def execFrint (d a : Reg) (rm : Rm) (s : State) : Out := s.pure 1 (opFR d a (frintCode rm))
/-- The code of an FP32 value in another format, in the low bits. -/
def narrowTo (f : Fmt) (rm : Rm) (x : Word) : Word × BitVec 7 :=
  let r := roundTo f rm.mode false (valueOf .fp32 x.toNat)
  (BitVec.ofNat 32 r.1, r.2)
def execF2bf (d a : Reg) (rm : Rm) (s : State) : Out := s.pure 1 (opFR d a (narrowTo .bf16 rm))
def execF2h (d a : Reg) (rm : Rm) (s : State) : Out := s.pure 1 (opFR d a (narrowTo .fp16 rm))
/-- The FP32 code of a 16-bit code: exact, no flag. -/
def widen (f : Fmt) (x : Word) : Word :=
  BitVec.ofNat 32 (roundTo .fp32 .rne false (valueOf f (x.toNat % 65536))).1
def execBf2f (d a : Reg) (s : State) : Out := s.pure 1 (opRR d a (widen .bf16))
def execH2f (d a : Reg) (s : State) : Out := s.pure 1 (opRR d a (widen .fp16))

/-! R345 to R347. -/

/-- R346: how many elements cvtnp converts. -/
def packCount (f : Fmt) : Nat :=
  match f with
  | .fp32 => 1
  | .bf16 | .fp16 => 2
  | .e5m2 | .e4m3 | .t8 => 4
  | .e3m2 | .e2m3 | .t6 => 4
  | .e2m1 => 8
  | .fp64 => 1

/-- R347: the codes of the elements, element j at index + j, and their flags. -/
def convertAll (f : Fmt) (rm : Rm3) (sat : Bool) (seed : Dword) (stream : BitVec 8) (index : Dword) :
    List Word → List Nat × BitVec 7
  | [] => ([], 0#7)
  | x :: xs =>
    let r := roundTo f (rm.mode (srValue seed stream index)) sat (valueOf .fp32 x.toNat)
    let rest := convertAll f rm sat seed stream (index + 1) xs
    (r.1 :: rest.1, r.2 ||| rest.2)
/-- R265, R346: codes of `w` bits each, the first lowest. -/
def packCodes (w : Nat) : List Nat → Nat
  | [] => 0
  | c :: cs => c + 2 ^ w * packCodes w cs

/-- R347, R345: a conversion of `n` registers from ga up; b is the index pair under SR alone. -/
def opCvt (n : Nat) (seed : Dword) (d a b : Reg) (f : Fmt) (rm : Rm3) (sat : Bool) (stream : Option (BitVec 8))
    (t : Thread) : Except Trap Thread :=
  match t.getGroup a.toNat n, (if rm = .sr then t.getD b.toNat else .ok 0#64) with
  | .ok xs, .ok index =>
    let r := convertAll f rm sat seed (stream.getD 0#8) index xs
    ((t.note (groupIdx a n ++ (if rm = .sr then groupIdx b 2 else []))).raise r.2).put d.toNat
      (BitVec.ofNat 32 (packCodes f.width r.1))
  | .error e, _ => .error e
  | .ok _, .error e => .error e

/-- SRSEED of the context of the current thread (R140); the walker has no context. -/
def Dev.seed (d : Dev) (c : Cur) : Dword :=
  match d.ctx? c.w.die c.w.ctx with
  | some k => k.seed
  | none => 0#64

def execCvtn (d a b : Reg) (fmt : Fmt) (rm : Rm3) (sat : Bool) (stream : Option (BitVec 8)) (s : State) : Out :=
  s.act (sizeOf stream) fun dev c => pureAct (opCvt 1 (dev.seed c) d a b fmt rm sat stream) dev c
def execCvtnp (d a b : Reg) (fmt : Fmt) (rm : Rm3) (sat : Bool) (stream : Option (BitVec 8)) (s : State) : Out :=
  s.act (sizeOf stream) fun dev c => pureAct (opCvt (packCount fmt) (dev.seed c) d a b fmt rm sat stream) dev c

/-! R348, R276. -/

/-- R348: one element dequantised. -/
def deqCode (f : Fmt) (sc : Scale) (x y : Word) : Word × BitVec 7 :=
  let b := y.extractLsb' 0 8
  let m := XVal.mul (valueOf f x.toNat) (scaleValue sc b)
  let r := roundTo .fp32 .rne false m.1
  (BitVec.ofNat 32 r.1, r.2 ||| (if m.2 then fNV else 0#7) ||| (if badScale sc b then fBADSCALE else 0#7))
/-- R348: gb is read only for a scale. -/
def execDeq (d a b : Reg) (fmt : Fmt) (scale : Scale) (s : State) : Out :=
  s.pure 1 (if scale = .none then opFR d a fun x => deqCode fmt .none x 0#32 else opFRR d a b (deqCode fmt scale))

end Sys2Proof.Machine
end

