-- ==== Sys2Proof/Machine/Local.lean ====
section
/-!
DEFINITION. Operations on die-local main memory at the home slices: L2 atomics (R386, R387), fences (R388, R242), and the
arrival words with their waits (R389 to R391, R90).
-/

namespace Sys2Proof.Machine

/-- A translation made at issue, precise (R156, R157): the thread waits for a missing walk. -/
def withPa (u : TlbUnit) (acc : Access) (va : Dword) (f : Nat → Act) (d : Dev) (c : Cur) : Act :=
  match d.xlate c.w.die c.w.ctx u acc c.t.walkFail va with
  | .hit pa => f pa
  | .miss => d.waitWalk c u acc (pageOf va)
  | .fail r => .fault (.at 0x0F r va)

/-- R244: the orders that acquire. -/
def ordAcquires (o : Ord4) : Bool :=
  match o with
  | .acq | .acqrel => true
  | .none | .rel => false
/-- R243, R244: the command that an instruction issues as number `id` acquires. -/
def Act.acquires (r : Act) (ord : Ord4) (id : Nat) : Act :=
  match r with
  | .done d t => .done (if ordAcquires ord then d.modCmd id fun x => { x with acq := true } else d) t
  | r => r
/-- R386: an L2 atomic of `n` registers. OP ld only reads. -/
def atomIssue (ord : Ord4) (scope : Scope) (va : Dword) (writes : Bool) (n : Nat) (token : Reg) (body : Nat → Body) (d : Dev) (c : Cur) : Act :=
  match aligned va (4 * n) with
  | .error e => .fault e
  | .ok _ =>
    withPa .atm (accLocal writes) va (fun pa =>
      ((d.released c (ordReleases ord) (scopeWide scope)).issue c .atm (some (token.toNat, n)) [pageOf va] 0#64 (body pa)).acquires
        ord d.nextCmd) d c

/-- R386 atomg. -/
def execAtomg (d a b : Reg) (op : AtomOp) (ord : Ord4) (scope : Scope) (s : State) : Out :=
  s.act 1 <| withRegs (groupIdx a 2 ++ atomOperand op b) (groupIdx d (atomRegs op)) fun dev c =>
    let y : Dword := BitVec.ofNat 64 (c.t.groupVal b (atomOperand op b).length)
    atomIssue ord scope (c.t.pair a) (op != .ld) (atomRegs op) d (fun pa => .atomg op pa y) dev c
/-- R387 casg. -/
def execCasg (d a b : Reg) (ord : Ord4) (scope : Scope) (s : State) : Out :=
  s.act 1 <| withRegs (groupIdx a 2 ++ groupIdx b 2) [d.toNat] fun dev c =>
    let y := c.t.groupVal b 2
    atomIssue ord scope (c.t.pair a) true 1 d
      (fun pa => .casg false pa (BitVec.ofNat 64 (y % 2 ^ 32)) (BitVec.ofNat 64 (y / 2 ^ 32))) dev c
/-- R387 dcasg. -/
def execDcasg (d a b : Reg) (ord : Ord4) (scope : Scope) (s : State) : Out :=
  s.act 1 <| withRegs (groupIdx a 2 ++ groupIdx b 4) (groupIdx d 2) fun dev c =>
    let y := c.t.groupVal b 4
    atomIssue ord scope (c.t.pair a) true 2 d (fun pa => .casg true pa (BitVec.ofNat 64 y) (BitVec.ofNat 64 (y / 2 ^ 64))) dev c

/-- R242, R388: every access that the fence waits for has been performed already, but for what engine commands wrote to scratchpad.
DESIGN CHOICE (log 8). -/
def execFence (before after : BitVec 5) (scope : Scope) (s : State) : Out :=
  s.act 1 fun d c => .done (if after = 0 then d else d.performed c.who before (scopeWide scope)) c.t

/-! ## Arrival words (R90) -/

/-- R389 arm. -/
def execArm (a b : Reg) (s : State) : Out :=
  s.act 1 <| withRegs (groupIdx a 2 ++ [b.toNat]) [] fun dev c =>
    let va := c.t.pair a
    match aligned va 8 with
    | .error e => .fault e
    | .ok _ =>
      withPa .rmt (accLocal true) va
        (fun pa => dev.issue c .rmt none [pageOf va] 0#64 (.arm pa (c.t.reg b))) dev c

/-- R390: the thread's own arms of an arrival word that are not yet applied. -/
def Dev.armsOn (d : Dev) (c : Cur) (pa : Nat) : List Nat :=
  (d.cmds.filter fun x => x.uid == c.w.uid && x.tid == c.tid &&
    (match x.body with
    | .arm p _ => p == pa
    | _ => false)).map Cmd.id
/-- R90: COUNT is at least TARGET. -/
def Dev.arrived (d : Dev) (pa : Nat) : Bool := decide (d.rd (pa + 4) 4 ≤ d.rd pa 4)
/-- R227 DEADLINE. -/
def deadlinePassed : Trap := .here 0x07 0

/-- R390 waitcnt. The word is read once the thread's earlier arms of it are applied; a deadline of 0 ends the wait at that first reading
(R369). -/
def execWaitcnt (a b : Reg) (s : State) : Out :=
  s.act 1 <| withRegs (groupIdx a 2 ++ [b.toNat]) [] <| afterAcquire fun dev c =>
    let va := c.t.pair a
    match aligned va 8 with
    | .error e => .fault e
    | .ok _ =>
      withPa .rmt (accLocal false) va (fun pa =>
        if dev.armsOn c pa ≠ [] then
          (if c.t.expired then .fault deadlinePassed
          else .wait dev (.commands (dev.armsOn c pa) []) (if c.t.reg b = 0#32 then none else limitOf (c.t.reg b)))
        else if dev.arrived pa then .done dev c.t
        else if c.t.outOfTime (c.t.reg b) then .fault deadlinePassed
        else .wait dev (.arrival pa) (limitOf (c.t.reg b))) dev c

/-- R391 waitline. -/
def execWaitline (pd : PredReg) (d a b : Reg) (s : State) : Out :=
  s.act 1 <| withRegs (groupIdx a 2 ++ groupIdx d 2 ++ [b.toNat]) (groupIdx d 2) <| afterAcquire fun dev c =>
    let va := c.t.pair a
    match aligned va 8 with
    | .error e => .fault e
    | .ok _ =>
      withPa .rmt (accLocal false) va (fun pa =>
        let v : Dword := BitVec.ofNat 64 (dev.rd pa 8)
        if v ≠ c.t.pair d then .done dev ((c.t.setGroup d 2 v.toNat).setPred pd true)
        else if c.t.outOfTime (c.t.reg b) then .done dev ((c.t.setGroup d 2 v.toNat).setPred pd false)
        else .wait dev (.line pa (c.t.pair d)) (limitOf (c.t.reg b))) dev c

/-! ## At the home slice -/

/-- R386, R387: an L2 atomic performed: the memory after it and the old value. A compare that fails writes nothing. -/
def Dev.atomAt (d : Dev) (op : AtomOp) (pa : Nat) (y : Dword) : Dev × Nat :=
  let m := d.rd pa (atomBytes op)
  (if op = .ld then d else d.store pa (atomBytes op) (atomNew op m y.toNat), m)
def Dev.casAt (d : Dev) (wide : Bool) (pa : Nat) (old new : Dword) : Dev × Nat :=
  let n := if wide then 8 else 4
  let m := d.rd pa n
  (if m = old.toNat then d.store pa n new.toNat else d, m)

end Sys2Proof.Machine
end

