-- ==== Sys2Proof/Machine/Messages.lean ====
section
/-!
DEFINITION. Messages (R41, R45, R63, R70, R71, R134): their header, tags and end-to-end code; the issuing side of tagged messages
(R72 to R76, R61, R66); and the error queue (R102 to R104, R163).
-/

namespace Sys2Proof.Machine

/-! ## Headers -/

/-- A field of the first header word (R45). -/
def msgField (ws : List Dword) (lo n : Nat) : Nat := bits (dwordAt ws 0).toNat lo n
def msgDst (ws : List Dword) : Nat := msgField ws 0 14
def msgSrc (ws : List Dword) : Nat := msgField ws 14 14
def msgClass (ws : List Dword) : Nat := msgField ws 28 2
def msgSinc (ws : List Dword) : Nat := msgField ws 32 4
def msgLen (ws : List Dword) : Nat := msgField ws 40 5
def msgKind (ws : List Dword) : Nat := msgField ws 48 8
def msgHops (ws : List Dword) : Nat := msgField ws 56 8
/-- A field of the 64-bit word of a message at a byte offset. -/
def msgAt (ws : List Dword) (off lo n : Nat) : Nat := bits (dwordAt ws (off / 8)).toNat lo n

/-- R41: the class of a kind. -/
def classOf (kind : Nat) : Option Nat :=
  if 0x01 ≤ kind ∧ kind ≤ 0x06 then some 0
  else if 0x20 ≤ kind ∧ kind ≤ 0x22 then some 1
  else if 0x40 ≤ kind ∧ kind ≤ 0x47 then some 2
  else if 0x60 ≤ kind ∧ kind ≤ 0x66 then some 3
  else none

/-- R41, R45: a message that its receiver does not discard as malformed. -/
def msgOk (ws : List Dword) : Bool :=
  decide (2 ≤ msgLen ws ∧ msgLen ws ≤ 26 ∧ msgLen ws = ws.length ∧ 1 ≤ msgHops ws ∧ msgHops ws ≤ 64) &&
  classOf (msgKind ws) == some (msgClass ws) && msgField ws 30 2 == 0 && msgField ws 36 4 == 0 && msgField ws 45 3 == 0 &&
  bits (dwordAt ws 1).toNat 32 32 == 0

/-- One bit of the CRC-32C with polynomial 0x1EDC_6F41, least significant bit first. -/
def crcBit (c : Word) : Word := if c.getLsbD 0 then (c >>> 1) ^^^ 0x82F6_3B78#32 else c >>> 1
def crcByte (c : Word) (b : Byte) : Word :=
  crcBit <| crcBit <| crcBit <| crcBit <| crcBit <| crcBit <| crcBit <| crcBit <| c ^^^ b.setWidth 32
/-- PRESUMED (log 39). -/
def crc32c (bs : List Byte) : Word := ~~~(bs.foldl crcByte 0xFFFF_FFFF#32)
/-- R63: E2E over the whole message, with E2E and HOPS taken as zero. -/
def e2eOf (ws : List Dword) : Word :=
  match ws with
  | a :: b :: rest => crc32c (bytesOf ((a &&& 0x00FF_FFFF_FFFF_FFFF#64) :: (b &&& 0xFFFF_FFFF_0000_0000#64) :: rest))
  | _ => 0
def msgE2eOk (ws : List Dword) : Bool := (dwordAt ws 1).extractLsb' 0 32 == e2eOf ws
/-- A message with its E2E. -/
def sealMsg (ws : List Dword) : List Dword := ws.set 1 ((dwordAt ws 1 &&& 0xFFFF_FFFF_0000_0000#64) ||| (e2eOf ws).setWidth 64)

/-- A message of a die: its header with HOPS 1, and the words from offset 16 on. -/
def mkMsg (kind dst src : Nat) (inc : BitVec 4) (body : List Dword) : List Dword :=
  BitVec.ofNat 64 (dst % 2 ^ 14 + 2 ^ 14 * (src % 2 ^ 14) + 2 ^ 28 * ((classOf kind).getD 0) + 2 ^ 32 * inc.toNat +
    2 ^ 40 * (body.length + 2) + 2 ^ 48 * kind + 2 ^ 56) :: 0 :: body

/-! ## Tags (R72 to R74) -/

/-- R72. -/
def tagOf (dieId : Nat) (inc : BitVec 4) (ctx seq : Nat) : Dword :=
  BitVec.ofNat 64 (dieId * 2 ^ 50 + inc.toNat * 2 ^ 46 + ctx % 64 * 2 ^ 40 + seq % 2 ^ 40)
def tagDie (t : Dword) : Nat := bits t.toNat 50 14
def tagInc (t : Dword) : Nat := bits t.toNat 46 4
def tagCtx (t : Dword) : Nat := bits t.toNat 40 6
def tagSeq (t : Dword) : Nat := bits t.toNat 0 40
/-- (a − b) mod 2⁴⁰. -/
def seqDiff (a b : Nat) : Nat := (a + 2 ^ 40 - b % 2 ^ 40) % 2 ^ 40
/-- R73: a is ahead of b. -/
def seqAhead (a b : Nat) : Bool := decide (1 ≤ seqDiff a b ∧ seqDiff a b < 2 ^ 39)
/-- The next sequence of a context number. -/
def Die.nextSeq (x : Die) (c : Nat) : Nat := natAt x.seqs c
/-- R74: OLDEST. -/
def Die.oldest (x : Die) (c : Nat) : Nat :=
  match x.outs.find? fun o => o.ctx == c with
  | some o => o.seq
  | none => x.nextSeq c
def Dev.tag (d : Dev) (die ctx seq : Nat) : Dword := tagOf (d.dieId die) (d.die die).inc ctx seq

/-! ## The error queue (R102 to R104) -/

/-- R104, R163: an entry that is lost. -/
def Dev.errqLost (d : Dev) (die ctx : Nat) (k : Ctx) : Dev :=
  let d := if k.ovf then d else d.record 0x08 ctx die 0 0 0
  d.modCtx die ctx fun k => { k with ovf := true }
/-- R102: the 32 bytes of an entry. -/
def errqBytes (cause kind peer : Nat) (thread : Word) (va tag : Dword) (time : Nat) : List Byte :=
  [BitVec.ofNat 8 cause, BitVec.ofNat 8 kind] ++ leBytes (peer % 2 ^ 14) 2 ++ leBytes thread.toNat 4 ++
    leBytes (va.toNat % 2 ^ 57) 8 ++ leBytes tag.toNat 8 ++ leBytes time 8
/-- R103: entries of an error queue that are on their way to memory and not yet counted. -/
def Dev.errqWaiting (d : Dev) (die ctx : Nat) : Nat := (d.posted.filter fun p => p.order == .errq die ctx).length
/-- R102 to R104: an entry written at HEAD + COUNT, behind those on their way; COUNT rises once it has been written. Entries on their way
take their places: with COUNT they are what fills the queue. DESIGN CHOICE (log 90). -/
def Dev.errq (d : Dev) (die ctx cause kind peer : Nat) (thread : Word) (va tag : Dword) : Dev :=
  match d.ctx? die ctx with
  | none => d
  | some k =>
    let n := k.count + d.errqWaiting die ctx
    if 1024 ≤ n then d.errqLost die ctx k
    else
      match d.xlateNow die ctx (accLocal true) (k.errqVa + BitVec.ofNat 64 (32 * ((k.head + n) % 1024))) with
      | .error _ => d.errqLost die ctx k
      | .ok pa => d.post (.errq die ctx) pa (errqBytes cause kind peer thread va tag d.ns)

/-! ## Sending -/

/-- The note of a message that brings nothing beside its words. -/
def plainNote : Note := { fwd := false, va := 0, freed := false }
/-- A sealed message leaves a die: back to the die itself, or into the fabric; the die has held it since a raw time (R77). -/
def Dev.emitSince (d : Dev) (die : Nat) (ws : List Dword) (note : Note) (since : Nat) : Dev :=
  let m : Msg := { ws := sealMsg ws, unit := none, flit := 0, since := since, dl := false, out := false, held := false, note := note }
  if msgDst ws = d.dieId die then d.modDie die fun x => { x with inbox := x.inbox ++ [m] }
  else d.modDie die fun x => { x with transit := x.transit ++ [m] }
/-- One that the die makes now. -/
def Dev.emitAs (d : Dev) (die : Nat) (ws : List Dword) (note : Note) : Dev := d.emitSince die ws note d.raw
def Dev.emit (d : Dev) (die : Nat) (ws : List Dword) : Dev := d.emitAs die ws plainNote

/-- R74: the message with the OLDEST of the moment, at the place its kind has for it. -/
def withOldest (ws : List Dword) (kind oldest : Nat) : List Dword :=
  let put := fun (i : Nat) => ws.set i ((dwordAt ws i &&& 0xFFFF_FF00_0000_0000#64) ||| BitVec.ofNat 64 (oldest % 2 ^ 40))
  if kind = 0x47 then put 7
  else if kind = 0x01 ∨ kind = 0x04 then ws
  else put 3
/-- R71, R88: an RREAD request names the parts not yet received. -/
def partsOf (n : Nat) : Nat := (n + 63) / 64
def withNeed (ws : List Dword) (r : ReadRec) : List Dword :=
  ws.set 5 (BitVec.ofNat 64 (((List.range (partsOf r.n)).map fun p => if r.got.contains p then 0 else 2 ^ p).foldl (· + ·) 0))
def Die.readRec (x : Die) (c seq : Nat) : Option ReadRec := x.reads.find? fun r => r.ctx == c && r.seq == seq
/-- The words of a transmission of an outstanding message. -/
def Die.wordsOf (x : Die) (o : Outst) : List Dword :=
  let ws := withOldest o.ws o.kind (x.oldest o.ctx)
  if o.kind = 0x01 then
    match x.readRec o.ctx o.seq with
    | some r => withNeed ws r
    | none => ws
  else ws

/-- R61: whether the budgets of a context let a message leave of a kind that leaves the die: an exhausted UPDMSGS holds its update
messages, and requests go on. DEDUCED (log 40). -/
def Ctx.admits (k : Ctx) (kind : Nat) : Bool :=
  (k.fab == 0 || decide (0 < k.fabLeft)) && (classOf kind != some 2 || k.upd == 0 || decide (0 < k.updLeft))
def Dev.admits (d : Dev) (die ctx kind : Nat) (dst : Nat) : Bool :=
  dst == d.dieId die ||
    (match d.ctx? die ctx with
    | some k => k.admits kind
    | none => true)
/-- R61: the charge of a message that leaves the die. -/
def Dev.fabCharge (d : Dev) (die ctx kind dst len : Nat) : Dev :=
  if dst = d.dieId die then d
  else d.modCtx die ctx fun k =>
    { k with fabLeft := k.fabLeft - (8 * len : Nat), updLeft := if classOf kind = some 2 then k.updLeft - 1 else k.updLeft }

def Die.modOut (x : Die) (c seq : Nat) (f : Outst → Outst) : Die :=
  { x with outs := x.outs.map fun o => if o.ctx = c ∧ o.seq = seq then f o else o }
def Die.out? (x : Die) (c seq : Nat) : Option Outst := x.outs.find? fun o => o.ctx == c && o.seq == seq
def Die.dropOut (x : Die) (c seq : Nat) : Die :=
  { x with outs := x.outs.filter (fun o => !(o.ctx == c && o.seq == seq)),
           reads := x.reads.filter fun r => !(r.ctx == c && r.seq == seq) }

/-- R171: a launch entry is freed once its arrival has been sent. -/
def Die.launched (x : Die) (a : After) : Die :=
  match a with
  | .launch id => { x with launches := x.launches.filter fun l => l.id != id }
  | .none | .command _ | .arrival _ _ | .moved _ | .toldOrigin _ _ | .invoked _ => x
/-- One transmission of an outstanding message; its retransmission time runs from the first (R61). It counts as leaving the die, and is charged,
when the budgets admit it, before it is routed. DESIGN CHOICE (log 87). -/
def Dev.transmit (d : Dev) (die : Nat) (o : Outst) (dst : Nat) : Dev :=
  let ws := (d.die die).wordsOf o
  let d := d.modDie die fun x => (x.modOut o.ctx o.seq fun p =>
    { p with sent := true, sentAt := if p.sent then p.sentAt else d.raw, due := false }).launched o.after
  (d.fabCharge die o.ctx o.kind dst ws.length).emitAs die ws o.note

/-- A command whose effect is complete, with its token's value. -/
def Dev.settle (d : Dev) (id : Nat) (v : Dword) : Dev := d.modCmd id fun c => { c with result := v, body := .finished }
/-- R394. -/
def remoteToken (st : Nat) : Dword := BitVec.ofNat 64 (1 + 2 * st)

/-- R102, R142: the error-queue entry of a message. -/
def Dev.errqOf (d : Dev) (die : Nat) (o : Outst) (cause kind peer : Nat) : Dev :=
  if o.quiet then d else d.errq die o.ctx cause kind peer o.thread o.va (d.tag die o.ctx o.seq)
/-- R393, R159: an operation whose target is not resident sends nothing: it completes at once, with an error-queue entry and
STATUS 7. -/
def Dev.notResident (d : Dev) (die : Nat) (o : Outst) : Dev :=
  let d := (d.errqOf die o 0x07 o.kind (d.dieId die)).modDie die fun x => x.dropOut o.ctx o.seq
  match o.after with
  | .command id => d.settle id (remoteToken 7)
  | .none | .arrival _ _ | .moved _ | .toldOrigin _ _ | .invoked _ | .launch _ => d

/-- Whether an unsent message may leave (R66, R395). -/
def Die.mayStart (x : Die) (o : Outst) : Bool :=
  !x.draining && (o.kind != 0x01 || decide ((x.outs.filter fun p => p.kind == 0x01 && p.sent).length < 4096))
/-- An unsent message leaves if it may. -/
def Dev.trySend (d : Dev) (die : Nat) (o : Outst) : Dev :=
  if o.sent then d
  else
    match o.dst with
    | none => d.notResident die o
    | some dst => if (d.die die).mayStart o && d.admits die o.ctx o.kind dst then d.transmit die o dst else d
/-- R61: a re-sending that has waited for a budget. -/
def Dev.resend (d : Dev) (die : Nat) (o : Outst) : Dev :=
  match o.dst with
  | some dst => if d.admits die o.ctx o.kind dst then d.transmit die o dst else d
  | none => d

/-- R76, R140: the retransmission time of a context; 0 selects 50 µs. -/
def Dev.retransOf (d : Dev) (die ctx : Nat) : Nat :=
  match d.ctx? die ctx with
  | some k => if k.retrans = 0 then 50 else k.retrans
  | none => 50

/-! ## Sequences (R72, R74) -/

/-- R74: the next sequence of a context may be assigned. -/
def Die.windowOpen (x : Die) (c : Nat) : Bool := decide (seqDiff (x.nextSeq c) (x.oldest c) < 4096)
/-- R74: a message of a context may take its sequence: no earlier one waits for its own. DEDUCED (log 40). -/
def Die.mayAssign (x : Die) (c : Nat) : Bool := x.windowOpen c && !x.unsent.any fun u => u.ctx == c
/-- R72: a message takes the context's next sequence. -/
def Dev.assign (d : Dev) (die : Nat) (u : Unsent) : Dev :=
  let seq := (d.die die).nextSeq u.ctx
  let ws := mkMsg u.kind (u.dst.getD 0) (d.dieId die) (d.die die).inc (u.body.set 0 (d.tag die u.ctx seq))
  let o : Outst :=
    { ctx := u.ctx, seq := seq, ws := ws, dst := u.dst, sent := false, sentAt := d.raw, resends := 0, due := false,
      quiet := ((d.ctx? die u.ctx).map fun k => k.ending.isSome).getD true, retrans := d.retransOf die u.ctx, thread := u.thread,
      va := u.va, kind := u.kind, after := u.after, note := u.note }
  let d := d.modDie die fun x =>
    { x with seqs := x.seqs.set u.ctx ((seq + 1) % 2 ^ 40), outs := x.outs ++ [o],
             reads := x.reads ++ (u.read.map fun r => { r with seq := seq }).toList }
  d.trySend die o
/-- R74: a message takes a sequence, or waits for one. -/
def Dev.submitMsg (d : Dev) (die : Nat) (u : Unsent) : Dev :=
  if (d.die die).mayAssign u.ctx then d.assign die u else d.modDie die fun x => { x with unsent := x.unsent ++ [u] }
/-- R431: aborted contexts of a die whose messages have ended. -/
def Dev.sweepAborted (d : Dev) (die : Nat) : Dev :=
  (((d.die die).ctxs.filter fun k => k.ending == some .aborted).map Ctx.ctx).foldl Dev.sweepCtx d
/-- Every message of a die that may take a sequence does, and every one that may leave; contexts whose messages have ended go. -/
def Dev.pump (d : Dev) (die : Nat) : Dev :=
  let us := (d.die die).unsent
  let d := us.foldl (fun d u => d.submitMsg die u) (d.modDie die fun x => { x with unsent := [] })
  let d := ((d.die die).outs.filter fun o => !o.sent).foldl (fun d o => d.trySend die o) d
  let d := ((d.die die).outs.filter fun o => o.sent && o.due).foldl (fun d o => d.resend die o) d
  d.sweepAborted die

/-- A message with its note and the read record of an RREAD; `body` gives the words from offset 16 on for its tag. DEDUCED (log 40). -/
def Dev.enqueueAs (d : Dev) (die ctx kind : Nat) (dst : Option Nat) (body : Dword → List Dword) (thread : Word) (va : Dword)
    (after : After) (note : Note) (read : Option ReadRec) : Dev :=
  d.submitMsg die { ctx := ctx, kind := kind, dst := dst, body := body 0, thread := thread, va := va, after := after, note := note,
                    read := read }
/-- DEDUCED (log 40). -/
def Dev.enqueue (d : Dev) (die ctx kind : Nat) (dst : Option Nat) (body : Dword → List Dword) (thread : Word) (va : Dword)
    (after : After) : Dev :=
  d.enqueueAs die ctx kind dst body thread va after plainNote none

/-- R102, R105: THREAD of a message that the device issued on a context's behalf. -/
def devThread : Word := 0x8000_0000#32

/-- R70: the words from offset 16 on of an update. -/
def updateBody (ty : Nat) (arrv : Bool) (e nw pa arrpa : Nat) (operand : List Dword) (tag : Dword) : List Dword :=
  [tag, BitVec.ofNat 64 ((if arrv then 2 ^ 63 else 0) + e % 512 * 2 ^ 54 + nw * 2 ^ 44 + ty * 2 ^ 40),
   BitVec.ofNat 64 pa, BitVec.ofNat 64 arrpa] ++ operand

/-- R105: a RARRIVE with n = 1 that the device sends on a context's behalf. -/
def Dev.sendRarrive (d : Dev) (die ctx pa : Nat) (va : Dword) (after : After) : Dev :=
  d.enqueue die ctx 0x45 (some (homeOf pa)) (updateBody 0x9 false 0 0 pa 0 [1#64]) devThread va after
/-- R105, R112: the completion arrival of a handle; ARRPA zero names no word (R134). -/
def Dev.sendArrival (d : Dev) (die ctx pa : Nat) (va : Dword) : Dev := if pa = 0 then d else d.sendRarrive die ctx pa va .none

end Sys2Proof.Machine
end

