-- ==== Sys2Proof/Machine/Stipple.lean ====
section
/-!
DEFINITION. Pattern programs (R295 to R299): words as sets of positions, the granules of a generator context with their records
(R301, R302), split points and pointers (R304, R305), and the image of a context (R306).
-/

namespace Sys2Proof.Machine

/-! ## Programs -/

/-- A set of positions (R296). -/
inductive PatSet where
  | full
  | empty
  | band (lo hi : Int)
  | dil (off : Int) (w d : Nat)
  | bdiag (off : Int) (bs : Nat)
  | kron (rb cb : Nat) (x y : PatSet)
  | hash (bij : Bool) (l kh : Nat) (seed : Nat)
  | clip (columns : Bool) (lo hi : Nat) (x : PatSet)
  | shift (dr dc : Int) (x : PatSet)
  | union (x y : PatSet)
  | isect (x y : PatSet)
deriving DecidableEq, Repr

/-- A two's-complement field of a pattern word. -/
def sbits (v lo n : Nat) : Int := if bits v (lo + n - 1) 1 = 1 then (bits v lo n : Int) - 2 ^ n else bits v lo n
/-- R297: the column of row `r` for one j. -/
def hashCol (bij : Bool) (l seed r j : Nat) : Nat :=
  if bij then ((2 * (seed / 65536) + 1) * ((r + j) % 2 ^ l) + seed % 65536) % 2 ^ l
  else (mix64 ((BitVec.ofNat 64 seed <<< 32) ^^^ (BitVec.ofNat 64 r <<< 8) ^^^ BitVec.ofNat 64 j)).toNat % 2 ^ l
/-- R295, R296: whether a position belongs to a set. -/
def PatSet.mem : PatSet → Nat → Nat → Bool
  | .full, _, _ => true
  | .empty, _, _ => false
  | .band lo hi, r, c => decide (lo ≤ (c : Int) - r ∧ (c : Int) - r ≤ hi)
  | .dil off w d, r, c =>
    let x : Int := (c : Int) - r - off
    decide (0 ≤ x ∧ x % d = 0 ∧ x / d < w)
  | .bdiag off bs, r, c => decide (((c / bs : Nat) : Int) = (r / bs : Nat) + off)
  | .kron rb cb x y, r, c => x.mem (r / rb) (c / cb) && y.mem (r % rb) (c % cb)
  | .hash bij l kh seed, r, c => (List.range kh).any fun j => hashCol bij l seed r j == c
  | .clip columns lo hi x, r, c => (let k := if columns then c else r; decide (lo ≤ k ∧ k < hi)) && x.mem r c
  | .shift dr dc x, r, c => decide (0 ≤ (r : Int) - dr ∧ 0 ≤ (c : Int) - dc) && x.mem ((r : Int) - dr).toNat ((c : Int) - dc).toNat
  | .union x y, r, c => x.mem r c || y.mem r c
  | .isect x y, r, c => x.mem r c && y.mem r c

/-- R296: what a word does to the stack, the top first: nothing where its OP is reserved, a reserved bit is set, a field is
outside its limits, or the stack does not allow it (R299). -/
def patWord (w : Nat) (st : List PatSet) : Option (List PatSet) :=
  let zero := fun (lo n : Nat) => bits w lo n == 0
  let push := fun (ok : Bool) (x : PatSet) => if ok && decide (st.length < 4) then some (x :: st) else none
  match bits w 60 4, st with
  | 0x1, _ => push (zero 0 60) .full
  | 0x2, _ => push (zero 0 60) .empty
  | 0x3, _ => push (zero 56 4 && decide (sbits w 28 28 ≤ sbits w 0 28)) (.band (sbits w 28 28) (sbits w 0 28))
  | 0x4, _ =>
    push (zero 56 4 && decide (1 ≤ bits w 16 12 ∧ 1 ≤ bits w 0 16)) (.dil (sbits w 28 28) (bits w 16 12) (bits w 0 16))
  | 0x5, _ => push (zero 56 4 && decide (1 ≤ bits w 0 28)) (.bdiag (sbits w 28 28) (bits w 0 28))
  | 0x6, y :: x :: rest =>
    if zero 56 4 && decide (1 ≤ bits w 28 28 ∧ 1 ≤ bits w 0 28) then some (.kron (bits w 28 28) (bits w 0 28) x y :: rest)
    else none
  | 0x7, _ =>
    push (zero 32 14 && decide (bits w 54 5 ≤ 24 ∧ 1 ≤ bits w 46 8 ∧ bits w 46 8 ≤ min 255 (2 ^ bits w 54 5)))
      (.hash (bits w 59 1 == 1) (bits w 54 5) (bits w 46 8) (bits w 0 32))
  | 0x8, x :: rest =>
    if zero 56 3 && decide (bits w 28 28 ≤ bits w 0 28) then
      some (.clip (bits w 59 1 == 1) (bits w 28 28) (bits w 0 28) x :: rest)
    else none
  | 0x9, x :: rest => if zero 58 2 then some (.shift (sbits w 29 29) (sbits w 0 29) x :: rest) else none
  | 0xA, y :: x :: rest => if zero 0 60 then some (.union x y :: rest) else none
  | 0xB, y :: x :: rest => if zero 0 60 then some (.isect x y :: rest) else none
  | _, _ => none
/-- R295, R299: the set of a program, or the index of its failing word. -/
def parsePat : List Dword → Nat → List PatSet → Except Nat PatSet
  | [], _, _ => .error 15
  | w :: ws, i, st =>
    if bits w.toNat 60 4 = 0 then
      match st with
      | [x] => if w = 0 then .ok x else .error i
      | _ => .error i
    else
      match patWord w.toNat st with
      | some st => parsePat ws (i + 1) st
      | none => .error i
/-- R295: the words up to the first END. -/
def patWords : List Dword → List Dword
  | [] => []
  | w :: ws => if bits w.toNat 60 4 = 0 then [w] else w :: patWords ws
/-- R298: no word is a HASH with BIJ = 0. -/
def invertible (ws : List Dword) : Bool := ws.all fun w => !(bits w.toNat 60 4 == 7 && bits w.toNat 59 1 == 0)

/-! ## Granules (R301) -/

/-- A pattern over a tensor: its set, R, C and the granule size. -/
structure Pat where
  set : PatSet
  rows : Nat
  cols : Nat
  gran : Nat
deriving DecidableEq, Repr

def Gen.pat (g : Gen) : Pat :=
  { set := match parsePat g.words 0 [] with
      | .ok x => x
      | .error _ => .empty
    rows := g.rows, cols := g.cols, gran := g.gran }
/-- R295: the member set of the tensor. -/
def Pat.member (p : Pat) (r c : Nat) : Bool := decide (r < p.rows ∧ c < p.cols) && p.set.mem r c
/-- Major and minor lines of a direction. -/
def Pat.lines (p : Pat) (t : Bool) : Nat := ((if t then p.cols else p.rows) + p.gran - 1) / p.gran
def Pat.minors (p : Pat) (t : Bool) : Nat := p.lines (!t)
/-- The position at major offset `a` and minor offset `b` of a granule. -/
def Pat.at_ (p : Pat) (t : Bool) (maj min a b : Nat) : Bool :=
  if t then p.member (p.gran * min + b) (p.gran * maj + a) else p.member (p.gran * maj + a) (p.gran * min + b)
/-- R301: a granule that holds a member. -/
def Pat.present (p : Pat) (t : Bool) (maj min : Nat) : Bool :=
  (List.range p.gran).any fun a => (List.range p.gran).any fun b => p.at_ t maj min a b
/-- R301: the mask of a granule. -/
def Pat.mask (p : Pat) (t : Bool) (maj min : Nat) : Nat :=
  (List.range p.gran).foldr (fun a m =>
    (List.range p.gran).foldr (fun b v => 2 * v + (if p.at_ t maj min a b then 1 else 0)) 0 + 2 ^ p.gran * m) 0
/-- The present granules of a major line, their minor indices ascending. -/
def Pat.line (p : Pat) (t : Bool) (maj : Nat) : List Nat := (List.range (p.minors t)).filter fun m => p.present t maj m
/-- R301, R302: the present granules from a place on, in order. -/
def Pat.from_ (p : Pat) (t : Bool) (cur : Nat × Nat) : List (Nat × Nat) :=
  (List.range (p.lines t)).flatMap fun i =>
    if i < cur.1 then [] else ((p.line t i).filter fun m => decide (cur.1 < i ∨ cur.2 ≤ m)).map fun m => (i, m)
/-- R301: the record of a granule with a mask. -/
def recordOf (g maj min mask : Nat) : List Byte :=
  let full := decide (mask = 2 ^ (g * g) - 1)
  leBytes (maj % 2 ^ 24 + 2 ^ 32 * (min % 2 ^ 24) + (if full then 2 ^ 63 else 0)) 8 ++ (if full then [] else leBytes mask (g * g / 8))

/-! ## What the pattern commands write -/

/-- R409: the records that fit in a limit and a capacity, and the granules that remain. -/
def Pat.records (p : Pat) (t : Bool) : List (Nat × Nat) → Nat → Nat → List Byte × Nat × List (Nat × Nat)
  | [], _, _ => ([], 0, [])
  | g :: gs, limit, cap =>
    let r := recordOf p.gran g.1 g.2 (p.mask t g.1 g.2)
    match limit with
    | 0 => ([], 0, g :: gs)
    | l + 1 =>
      if cap < r.length then ([], 0, g :: gs)
      else
        let (bs, k, left) := p.records t gs l (cap - r.length)
        (r ++ bs, k + 1, left)
/-- R301, R409: the cursor after the granules that remain; the end is the line after the last. -/
def Pat.cursorOf (p : Pat) (t : Bool) (left : List (Nat × Nat)) : Nat × Nat :=
  match left with
  | g :: _ => g
  | [] => (p.lines t, 0)

/-- R303: the records of one major line of two patterns. -/
def Pat.both (p q : Pat) (t : Bool) (i : Nat) : List (List Byte) :=
  (p.line t i).filterMap fun m =>
    let k := p.mask t i m &&& q.mask t i m
    if k = 0 then none else some (recordOf p.gran i m k)
/-- R303, R410: whole lines from `i` on: bytes, records and the first line not written. -/
def Pat.intersect (p q : Pat) (t : Bool) : Nat → Nat → Nat → Nat → List Byte × Nat × Nat
  | 0, i, _, _ => ([], 0, i)
  | n + 1, i, limit, cap =>
    let rs := p.both q t i
    let bs := rs.flatten
    if limit < rs.length ∨ cap < bs.length + 4 then ([], 0, i)
    else
      let (more, k, next) := p.intersect q t n (i + 1) (limit - rs.length) (cap - bs.length)
      (bs ++ more, rs.length + k, next)

/-- R304: P(0) to P(NL). -/
def running : Nat → List Nat → List Nat
  | s, [] => [s]
  | s, n :: ns => s :: running (s + n) ns
def Pat.pointers (p : Pat) (t : Bool) : List Nat := running 0 ((List.range (p.lines t)).map fun i => (p.line t i).length)
/-- R304: split point s of n. -/
def splitPoint (ps : List Nat) (n s : Nat) : Nat × Nat :=
  let nl := ps.length - 1
  let d := s * (nl + natAt ps nl) / n
  let i := ((List.range ps.length).filter fun i => decide (i + natAt ps i ≤ d)).foldl max 0
  (i, d - i)
/-- R305, R412: the counts of members before each element line. -/
def Pat.elements (p : Pat) (t : Bool) : List Nat :=
  let n := if t then p.cols else p.rows
  let k := if t then p.rows else p.cols
  running 0 ((List.range n).map fun i =>
    ((List.range k).filter fun j => if t then p.member j i else p.member i j).length)

/-! ## Images (R306, R413) -/

/-- The state bytes of an image from byte 136 on: descriptor, granule, R, C, direction and where the program was read, under
the mask of Config, since their layout is not architectural. -/
def Gen.stateBytes (g : Gen) : List Byte :=
  [BitVec.ofNat 8 g.desc, BitVec.ofNat 8 g.gran, if g.transposed then 1#8 else 0#8] ++ leBytes g.rows 4 ++ leBytes g.cols 4 ++
    leBytes g.patva.toNat 8
/-- Bytes under the mask of a place. DESIGN CHOICE (log 7). -/
def masked (off : Nat) (bs : List Byte) : List Byte := bs.zipIdx.map fun e => e.1 ^^^ Config.saveMask (off + e.2)
/-- R306: the image of a context; places that hold nothing hold the mask. -/
def Gen.image (g : Gen) : List Byte :=
  let ws := bytesOf g.words
  let st := g.stateBytes
  let body := ws ++ masked ws.length (List.replicate (128 - ws.length) 0#8) ++
    leBytes (g.cursor.1 % 2 ^ 24 + 2 ^ 32 * (g.cursor.2 % 2 ^ 24)) 8 ++ masked 136 (st ++ List.replicate (884 - st.length) 0#8)
  body ++ leBytes (crc32c body).toNat 4
/-- R306: a cursor that a context can hold: the start (R408), a granule still to be written, which is present (R409), or the end. -/
def Gen.cursorOk (g : Gen) : Bool :=
  (!g.transposed && g.cursor == (0, 0)) || g.cursor == (g.pat.lines g.transposed, 0) ||
    (decide (g.cursor.1 < g.pat.lines g.transposed ∧ g.cursor.2 < g.pat.minors g.transposed) &&
      g.pat.present g.transposed g.cursor.1 g.cursor.2)
/-- R306, R413: the context of an image, or nothing where the image is rejected. The address that the program was read from is a
PATVA, a multiple of 8 (R285), whose words are canonical (R408). A transposed context may hold a program that is not invertible: one that a
patld loads before a patgen.t that was checked at its issue (R302). DEDUCED (log 21). -/
def imageGen (bs : List Byte) : Option Gen :=
  let body := bs.take 1020
  let st := masked 136 ((body.drop 136).take 19)
  let f := fun (off n : Nat) => leValue ((st.drop off).take n)
  let cur := leValue ((body.drop 128).take 8)
  let words := patWords (dwordsOf (body.take 128))
  let g : Gen :=
    { words := words, patva := BitVec.ofNat 64 (f 11 8), desc := f 0 1, gran := f 1 1, rows := f 3 4, cols := f 7 4,
      transposed := f 2 1 == 1, cursor := (bits cur 0 24, bits cur 32 24) }
  let ok := leValue ((bs.drop 1020).take 4) == (crc32c body).toNat && (match parsePat words 0 [] with
      | .ok _ => true
      | .error _ => false) &&
    (g.gran == 16 || g.gran == 32 || g.gran == 64) && decide (1 ≤ g.rows ∧ g.rows < 2 ^ 24 ∧ 1 ≤ g.cols ∧ g.cols < 2 ^ 24) &&
    decide (f 2 1 ≤ 1) && bits cur 24 8 == 0 && bits cur 56 8 == 0 &&
    isMult (f 11 8) 8 && decide (f 11 8 + 8 * words.length ≤ 2 ^ 57) && g.cursorOk
  if ok then some g else none

end Sys2Proof.Machine
end

