-- ==== Sys2Proof/Machine/Matrix.lean ====
section
/-!
DEFINITION. The matrix engine: issue of the MTX commands (R286 to R293, R400 to R413) and what each does when the engine accepts
it (R290).
-/

namespace Sys2Proof.Machine

/-! ## Accumulator tiles (R288) -/

/-- The number of a tile word. -/
def tileKey (tile r c : Nat) : Nat := tile * 16384 + r * 128 + c
def Wg.acc_ (w : Wg) (tile r c : Nat) : Word := getKey 0#32 w.tiles (tileKey tile r c)
/-- A region of a tile written, row by row. -/
def Wg.setTile (w : Wg) (tile r c m n : Nat) (f : Nat → Nat → Word) : Wg :=
  { w with tiles := (List.range m).foldl (fun ts i =>
      (List.range n).foldl (fun ts j => setKey 0#32 ts (tileKey tile (r + i) (c + j)) (f i j)) ts) w.tiles }
def Wg.scaleOfTile (w : Wg) (tile : Nat) : XVal := (w.tsrc[tile]?).getD (.fin false 1 1)
/-- R289: equal as exact reals; NaN equals NaN. -/
def XVal.same (a b : XVal) : Bool := (a.isNan && b.isNan) || XVal.eqv a b
/-- R227 ACCUM_RANGE. -/
def accumRange (tile : Nat) : Trap := .here 0x0C tile
/-- R288: the conditions on a tile and a region. -/
def tileOk (acc tile r c m n : Nat) : Bool :=
  decide (tile < acc ∧ r + m ≤ 128 ∧ c + n ≤ 128) && isMult r 64 && isMult c 64
/-- TSCALE of a descriptor as a value. -/
def Desc.tensorScale (x : Desc) : XVal := valueOf .fp32 x.tscale

/-! ## Operands (R287, R294) -/

/-- An operand of a multiply: its descriptor, origin, whether its k axis is dimension 0, and the pattern of a sparse one. -/
structure MmaSide where
  desc : Desc
  o : Nat × Nat
  k0 : Bool
  pat : Option Pat
deriving DecidableEq, Repr

/-- R278. -/
def operandFmt (code : Nat) : Bool := decide (1 ≤ code ∧ code ≤ 9)
/-- R287: the conditions on an operand, R403 step 2. -/
def mmaDesc (x : Desc) (o : Nat × Nat) (k0 isB sparse : Bool) : Bool :=
  x.ok && x.space == 1 && operandFmt x.fmtCode && isMult o.2 32 &&
    (x.scfmt == 0 || (x.baxis == (if k0 then 0 else 1) && isMult (if k0 then o.2 else o.1) x.block)) &&
    (if isB then !x.sparse
     else x.sparse == sparse && (!sparse || (isMult o.1 (granOf x.gran) && isMult o.2 (granOf x.gran))))

/-- The coordinates (c₁, c₀) of element `k` of line `x`. -/
def MmaSide.coord (s : MmaSide) (x k : Nat) : Nat × Nat :=
  if s.k0 then (s.o.1 + x, s.o.2 + k) else (s.o.1 + k, s.o.2 + x)
def Desc.inside (x : Desc) (c : Nat × Nat) : Bool := decide (c.1 < x.dim 1 ∧ c.2 < x.dim 0)
/-- R294: whether the command reads an element: it lies in the tensor, and in a granule with a member. -/
def MmaSide.reads (s : MmaSide) (c : Nat × Nat) : Bool :=
  s.desc.inside c && (match s.pat with
    | some p => p.present false (c.1 / p.gran) (c.2 / p.gran)
    | none => true)
/-- R278: the group size of two operands. -/
def groupSize (a b : Desc) : Nat :=
  match a.scfmt == 0, b.scfmt == 0 with
  | true, true => 32
  | true, false => b.block
  | false, true => a.block
  | false, false => min a.block b.block

/-- The code of an element of a tensor in scratchpad (R265, R284). -/
def Dev.elemCode (d : Dev) (w : Wg) (x : Desc) (c : Nat × Nat) : Nat :=
  let bit := c.2 * x.fmt.width
  bits (leValue (d.rangeRd (d.placeOf w (x.rowAt c.1 + bit / 8)) ((bit % 8 + x.fmt.width + 7) / 8))) (bit % 8) x.fmt.width
/-- R287, R294: the value of element `k` of line `x`; an element outside the tensor, or that is no member, is an exact zero. -/
def Dev.elemValue (d : Dev) (w : Wg) (s : MmaSide) (c : Nat × Nat) : XVal :=
  if s.desc.inside c && (match s.pat with
      | some p => p.member c.1 c.2
      | none => true)
  then valueOf s.desc.fmt (d.elemCode w s.desc c) else .fin false 0 1
/-- The scale byte of the block that holds a place, where the command reads an element of the block. -/
def Dev.scaleByte (d : Dev) (w : Wg) (s : MmaSide) (x k : Nat) : Option Byte :=
  if s.desc.scfmt = 0 then none
  else
    let b := s.desc.block
    let at_ := k / b * b
    if (List.range b).any fun i => s.reads (s.coord x (at_ + i)) then
      let c := s.coord x at_
      some (BitVec.ofNat 8 (d.scratchRd (d.placeOf w (s.desc.scaleAt c.2 c.1)) 1))
    else none
/-- A line of an operand: for each group its elements and its scale; and whether a scale sets BADSCALE. -/
def Dev.mmaLine (d : Dev) (w : Wg) (s : MmaSide) (g kDim x : Nat) : List (List XVal × XVal) × Bool :=
  let gs := (List.range (kDim / g)).map fun i =>
    let sb := d.scaleByte w s x (i * g)
    (((List.range g).map fun k => d.elemValue w s (s.coord x (i * g + k)),
      (sb.map (scaleValue s.desc.scale)).getD (.fin false 1 1)),
     (sb.map (badScale s.desc.scale)).getD false)
  (gs.map Prod.fst, gs.any Prod.snd)

/-- R278, R279: one group: P. -/
def groupProduct (a b : List XVal × XVal) : XVal :=
  let s := (a.1.zip b.1).foldl (fun s e => (XVal.add false s (XVal.mul e.1 e.2).1).1) (.fin false 0 1)
  (XVal.mul (XVal.mul s a.2).1 b.2).1
/-- R278: the accumulation of one element; an exact zero leaves it unchanged. -/
def accumulate (acc : Word) (a b : List (List XVal × XVal)) : Word :=
  (a.zip b).foldl (fun acc e =>
    let p := groupProduct e.1 e.2
    if p.isZero then acc
    else BitVec.ofNat 32 (roundTo .fp32 .rne false (XVal.add false (valueOf .fp32 acc.toNat) p).1).1) acc

/-! ## Issue of multiplies (R403) -/

/-- The first failing check of a list of ranges. -/
def Dev.checkSegs (d : Dev) (w : Wg) : List (Nat × Nat) → Except Trap Unit
  | [] => .ok ()
  | (a, n) :: rest =>
    match d.scratchSeg w a n with
    | .error e => .error e
    | .ok _ => d.checkSegs w rest
/-- R403 step 5: the row segments of an operand's region that lie in the tensor, and in present granules of a sparse one. -/
def MmaSide.segments (s : MmaSide) (nx kDim : Nat) : List (Nat × Nat) :=
  let nr := if s.k0 then nx else kDim
  let nc := if s.k0 then kDim else nx
  let row := fun (c1 c0 n : Nat) => (s.desc.rowAt c1 + s.desc.segAt c0, s.desc.segLen n)
  (List.range (within (s.desc.dim 1) s.o.1 nr)).flatMap fun i =>
    match s.pat with
    | none =>
      let n := within (s.desc.dim 0) s.o.2 nc
      if n = 0 then [] else [row (s.o.1 + i) s.o.2 n]
    | some p =>
      ((List.range (nc / p.gran)).filter fun j => p.present false ((s.o.1 + i) / p.gran) (s.o.2 / p.gran + j)).map fun j =>
        let c0 := s.o.2 + j * p.gran
        row (s.o.1 + i) c0 (within (s.desc.dim 0) c0 p.gran)
/-- R403 step 5: the scale bytes of blocks that hold an element the command reads. -/
def MmaSide.scaleSegs (s : MmaSide) (nx kDim : Nat) : List (Nat × Nat) :=
  if s.desc.scfmt = 0 then []
  else
    let b := s.desc.block
    (List.range nx).flatMap fun x =>
      ((List.range (kDim / b)).filter fun i => (List.range b).any fun k => s.reads (s.coord x (i * b + k))).map fun i =>
        let c := s.coord x (i * b)
        (s.desc.scaleAt c.2 c.1, 1)

/-- R227 PATTERN_FORMAT with the program's address where there is a program. -/
def patternFormat (detail : Nat) (g : Option Gen) : Trap :=
  { code := 0x0A, detail := detail, addr := g.map Gen.patva }
/-- R298 NONINV. -/
def nonInv (c : Nat) (g : Gen) : Trap := .at 0x09 c g.patva
/-- The generator context of a workgroup. -/
def Wg.gen (w : Wg) (c : Nat) : Option Gen := (w.gens[c]?).getD none
/-- An MTX command (R400): token 1. -/
def Dev.mtx (d : Dev) (c : Cur) (tk : Bool) (rd : Reg) (op : MtxOp) : Act :=
  d.issue c .mtx (tokenIf tk rd) [] 1#64 (.mtx op)
/-- TSRC of a tile set when a command has issued (R289). -/
def Act.withTsrc (r : Act) (uid tile : Nat) (v : XVal) : Act :=
  match r with
  | .done d t => .done (d.modWg uid fun w => { w with tsrc := w.tsrc.set tile v }) t
  | r => r

/-- R403. -/
def mmaIssue (zero : Bool) (rd a : Reg) (tk : Bool) (shape : Shape) (sparse : Bool) (h : DescHint) (d : Dev) (c : Cur) : Act :=
  let da := d.desc c h.da.toNat
  let db := d.desc c h.db.toNat
  let oa := originOf (c.t.reg a)
  let ob := originOf (c.t.reg (a + 1))
  let oc := originOf (c.t.reg (a + 2))
  let tile := bits (c.t.reg (a + 3)).toNat 0 3
  let gi := bits (c.t.reg (a + 3)).toNat 4 2
  let tprod := (XVal.mul da.tensorScale db.tensorScale).1
  let run := fun (pat : Option Pat) =>
    let sa : MmaSide := { desc := da, o := oa, k0 := !h.ta, pat := pat }
    let sb : MmaSide := { desc := db, o := ob, k0 := h.tb, pat := none }
    match d.checkSegs c.w (sa.segments shape.m shape.kDim ++ sb.segments shape.n shape.kDim ++
        sa.scaleSegs shape.m shape.kDim ++ sb.scaleSegs shape.n shape.kDim) with
    | .error e => Act.fault e
    | .ok _ =>
      if !zero && !XVal.same tprod (c.w.scaleOfTile tile) then .fault (tensorDesc h.da.toNat)
      else
        let r := d.mtx c tk rd (.mma zero sparse h.ta h.tb shape.m shape.n shape.kDim da db oa ob oc tile gi)
        if zero then r.withTsrc c.w.uid tile tprod else r
  if !mmaDesc da oa (!h.ta) false sparse then .fault (tensorDesc h.da.toNat)
  else if !mmaDesc db ob h.tb true sparse then .fault (tensorDesc h.db.toNat)
  else if !tileOk c.w.acc tile oc.1 oc.2 shape.m shape.n then .fault (accumRange tile)
  else if sparse then
    match c.w.gen gi with
    | none => .fault (patternFormat 16 none)
    | some g =>
      if g.desc ≠ h.da.toNat then .fault (patternFormat 16 (some g))
      else if h.ta && !invertible g.words then .fault (nonInv gi g)
      else run (some g.pat)
  else run none
/-- The DESC hint is required (R311, R312). -/
def State.mma (zero : Bool) (d a : Reg) (tk : Bool) (shape : Shape) (sparse : Bool) (hint : Option DescHint) (s : State) : Out :=
  match hint with
  | none => s.act 1 fun _ _ => .fault illegal
  | some h => s.act 2 <| withRegs (groupIdx a 4) (tokenIdx tk d) <| mmaIssue zero d a tk shape sparse h
/-- R402, R403 mma. -/
def execMma (d a : Reg) (tk : Bool) (shape : Shape) (sparse : Bool) (hint : Option DescHint) (s : State) : Out :=
  s.mma false d a tk shape sparse hint
/-- R402, R403 mmaz. -/
def execMmaz (d a : Reg) (tk : Bool) (shape : Shape) (sparse : Bool) (hint : Option DescHint) (s : State) : Out :=
  s.mma true d a tk shape sparse hint

/-- R289: a multiply accepted: the workgroup after it and BADSCALE. -/
def Dev.runMma (d : Dev) (w : Wg) (zero sparse ta tb : Bool) (m n k : Nat) (da db : Desc) (oa ob oc : Nat × Nat)
    (tile gi : Nat) : Wg × Bool :=
  let pat := if sparse then some (((w.gen gi).map Gen.pat).getD { set := .empty, rows := 1, cols := 1, gran := 16 }) else none
  let sa : MmaSide := { desc := da, o := oa, k0 := !ta, pat := pat }
  let sb : MmaSide := { desc := db, o := ob, k0 := tb, pat := none }
  let g := groupSize da db
  let ls := (List.range m).map fun i => d.mmaLine w sa g k i
  let rs := (List.range n).map fun j => d.mmaLine w sb g k j
  let line := fun (l : List (List (List XVal × XVal) × Bool)) (i : Nat) => ((l[i]?).getD ([], false)).1
  (w.setTile tile oc.1 oc.2 m n fun i j =>
    accumulate (if zero then 0#32 else w.acc_ tile (oc.1 + i) (oc.2 + j)) (line ls i) (line rs j),
   ls.any Prod.snd || rs.any Prod.snd)

/-! ## Draining and quantising (R292, R293, R404, R405) -/

/-- R292. R275 accepts SR only where the target is narrower than FP32; no rule names the fault of another target. DEDUCED (log 85). -/
def drainDesc (x : Desc) (o : Nat × Nat) (rm : Rm3) : Bool :=
  x.ok && x.space == 1 && x.scfmt == 0 && !x.sparse && x.fmtCode != 10 && isMult o.2 32 && (rm != .sr || decide (x.fmt.width < 32))
/-- R293. -/
def quantDesc (x : Desc) (o : Nat × Nat) (m n : Nat) : Bool :=
  x.ok && x.space == 1 && decide (3 ≤ x.fmtCode ∧ x.fmtCode ≤ 9) && (x.scfmt == 1 || x.scfmt == 2) &&
    (if x.baxis = 0 then isMult o.2 x.block && isMult n x.block else x.baxis == 1 && isMult o.1 x.block && isMult m x.block) &&
    isMult o.2 32
/-- R404. -/
def drainIssue (quant : Bool) (rd a : Reg) (tk : Bool) (rm : Rm3) (sat : Bool) (stream : BitVec 8) (d : Dev) (c : Cur) : Act :=
  let oacc := originOf (c.t.reg a)
  let od := originOf (c.t.reg (a + 1))
  let v := (c.t.reg (a + 2)).toNat
  let dn := bits v 0 8
  let m := if bits v 8 1 = 1 then 128 else 64
  let n := if bits v 9 1 = 1 then 128 else 64
  let tile := bits v 12 3
  let dd := d.desc c dn
  if !(if quant then quantDesc dd od m n else drainDesc dd od rm) then .fault (tensorDesc dn)
  else if !tileOk c.w.acc tile oacc.1 oacc.2 m n then .fault (accumRange tile)
  else
    let scales := if quant then (blockStarts dd od m n).map fun e => (dd.scaleAt (od.2 + e.2) (od.1 + e.1), 1) else []
    match d.checkSegs c.w (destSegs dd od m n ++ scales) with
    | .error e => .fault e
    | .ok _ =>
      d.mtx c tk rd (.drain quant rm sat stream (d.seed c) dd m n oacc od tile
        (XVal.mul (c.w.scaleOfTile tile) dd.tensorScale).1)
def State.drain (quant : Bool) (d a : Reg) (tk : Bool) (rm : Rm3) (sat : Bool) (stream : BitVec 8) (s : State) : Out :=
  s.act 1 fun dev c =>
    if !c.t.able (groupIdx a 4) then .fault regRange
    else withRegs (groupIdx a 3) (tokenIdx tk d) (drainIssue quant d a tk rm sat stream) dev c
def execDrain (d a : Reg) (tk : Bool) (rm : Rm3) (sat : Bool) (stream : BitVec 8) (s : State) : Out :=
  s.drain false d a tk rm sat stream
def execTquant (d a : Reg) (tk : Bool) (rm : Rm3) (sat : Bool) (stream : BitVec 8) (s : State) : Out :=
  s.drain true d a tk rm sat stream

/-- What a drain needs of its command. -/
structure DrainOp where
  quant : Bool
  rm : Rm3
  sat : Bool
  stream : BitVec 8
  seed : Dword
  dd : Desc
  m : Nat
  n : Nat
  oacc : Nat × Nat
  odst : Nat × Nat
  tile : Nat
  scale : XVal
deriving DecidableEq, Repr

/-- R280: v of element (i, j) of the region. -/
def DrainOp.value (o : DrainOp) (w : Wg) (i j : Nat) : XVal :=
  (XVal.mul (valueOf .fp32 (w.acc_ o.tile (o.oacc.1 + i) (o.oacc.2 + j)).toNat) o.scale).1
/-- R271: the mode of an element, whose index is its flat index in DD. -/
def DrainOp.mode (o : DrainOp) (i j : Nat) : Mode :=
  o.rm.mode (srValue o.seed o.stream (BitVec.ofNat 64 (o.odst.2 + j + o.dd.dim 0 * (o.odst.1 + i))))
/-- R405, R267: the scale byte of the block whose first position in the region is (i, j): over its positions within DD. -/
def DrainOp.blockScale (o : DrainOp) (w : Wg) (i j : Nat) : Byte :=
  let places := (List.range o.dd.block).map fun k => if o.dd.baxis = 0 then (i, j + k) else (i + k, j)
  scaleOf o.dd.scale o.dd.fmt
    ((places.filter fun e => o.dd.inside (o.odst.1 + e.1, o.odst.2 + e.2)).map fun e => o.value w e.1 e.2)
/-- R292, R293: the code of element (i, j). -/
def DrainOp.code (o : DrainOp) (w : Wg) (scale : Nat → Nat → Byte) (i j : Nat) : Nat :=
  if o.quant then blockElement o.dd.scale o.dd.fmt (scale i j) (o.mode i j) o.sat (o.value w i j)
  else (roundTo o.dd.fmt (o.mode i j) o.sat (o.value w i j)).1
/-- Bits that a command writes: the place of the lowest, how many they are, and their value. -/
abbrev TileBits := Place × Nat × Nat
/-- Whole bytes. -/
def tileBits (p : Place) (bs : List Byte) : TileBits := (p, 8 * bs.length, leValue bs)
/-- R405: the rows and the scale bytes that a drain writes; bits beyond a row's elements are not covered. -/
def Dev.runDrain (d : Dev) (w : Wg) (o : DrainOp) : List TileBits :=
  let b := o.dd.block
  let starts := blockStarts o.dd o.odst o.m o.n
  let bytes := if o.quant then starts.map fun e => (e, o.blockScale w e.1 e.2) else []
  let start := fun (i j : Nat) => if o.dd.baxis = 0 then (i, j / b * b) else (i / b * b, j)
  let scale := fun (i j : Nat) => ((bytes.find? fun e => e.1 == start i j).map Prod.snd).getD 0#8
  let k := within (o.dd.dim 0) o.odst.2 o.n
  let row := fun (i : Nat) =>
    (d.placeOf w (o.dd.rowAt (o.odst.1 + i) + o.dd.segAt o.odst.2), o.dd.fmt.width * k,
     packCodes o.dd.fmt.width ((List.range k).map (o.code w scale i)))
  (if k = 0 then [] else (rowsIn o.dd o.odst.1 o.m).map row) ++
    bytes.map fun e => (d.placeOf w (o.dd.scaleAt (o.odst.2 + e.1.2) (o.odst.1 + e.1.1)), 8, e.2.toNat)

/-! ## Tile transpose (R406) -/

def execTxp (d a : Reg) (tk : Bool) (shape : Shape) (s : State) : Out :=
  s.act 1 fun dev c =>
    if !c.t.able (groupIdx a 4) then .fault regRange
    else
      withRegs (groupIdx a 3) (tokenIdx tk d) (fun dev c =>
        let os := originOf (c.t.reg a)
        let od := originOf (c.t.reg (a + 1))
        let st := bits (c.t.reg (a + 2)).toNat 0 3
        let dt := bits (c.t.reg (a + 2)).toNat 8 3
        let whole := shape.m128 && shape.n128
        if !tileOk c.w.acc st os.1 os.2 shape.m shape.n then .fault (accumRange st)
        else if !tileOk c.w.acc dt od.1 od.2 shape.n shape.m then .fault (accumRange dt)
        else if !whole && !XVal.same (c.w.scaleOfTile dt) (c.w.scaleOfTile st) then .fault (tensorDesc 0)
        else
          let r := dev.mtx c tk d (.txp shape.m shape.n os od st dt)
          if whole then r.withTsrc c.w.uid dt (c.w.scaleOfTile st) else r) dev c

/-! ## Pattern instructions (R407 to R413) -/

/-- R408 step 2: the program words, read through the copy-engine TLB up to the first END; they are die-local (R136). -/
def patRead (d : Dev) (c : Cur) (va : Dword) : Nat → List Dword → (List Dword → Act) → Act
  | 0, ws, f => f ws
  | n + 1, ws, f =>
    let a := va + BitVec.ofNat 64 (8 * ws.length)
    match d.xlate c.w.die c.w.ctx (.copy c.w.core) (accLocal false) c.t.walkFail a with
    | .miss => d.waitWalk c (.copy c.w.core) (accLocal false) (pageOf a)
    | .fail r => .fault (.at 0x0F r a)
    | .hit pa =>
      let w : Dword := BitVec.ofNat 64 (d.rd pa 8)
      if bits w.toNat 60 4 = 0 then f (ws ++ [w]) else patRead d c va n (ws ++ [w]) f
/-- R408 patld. -/
def execPatld (d b : Reg) (tk : Bool) (ci : BitVec 2) (s : State) : Out :=
  s.act 1 <| withRegs [b.toNat] (tokenIdx tk d) fun dev c =>
    let n := (c.t.reg b).toNat % 256
    let x := dev.desc c n
    let va : Dword := BitVec.ofNat 64 x.patva
    if !(x.ok && x.sparse) then .fault (tensorDesc n)
    else
      patRead dev c va 16 [] fun ws =>
        match parsePat ws 0 [] with
        | .error i => .fault (.at 0x0A i va)
        | .ok _ =>
          -- the pages of the words are recorded for R168
          dev.issue c .mtx (tokenIf tk d) (pagesOf va.toNat (8 * ws.length)) 1#64 (.mtx (.patld ci.toNat
            { words := ws, patva := va, desc := n, gran := granOf x.gran, rows := x.dim 1, cols := x.dim 0, transposed := false,
              cursor := (0, 0) }))

/-- R407: a pattern instruction on a context that is not empty, with R298 for T = 1. -/
def withGen (ci : BitVec 2) (t : Bool) (f : Gen → Act) (c : Cur) : Act :=
  match c.w.gen ci.toNat with
  | none => .fault (patternFormat 16 none)
  | some g => if t && !invertible g.words then .fault (nonInv ci.toNat g) else f g
/-- A destination or source of `n` bytes whose address is a multiple of `m`. -/
def withRange (x : Word) (m n : Nat) (f : Place → Act) (d : Dev) (c : Cur) : Act :=
  match aligned (x.setWidth 64) m with
  | .error e => .fault e
  | .ok _ =>
    match d.scratchSeg c.w x.toNat n with
    | .error e => .fault e
    | .ok _ => f (d.placeOf c.w x.toNat)

/-- R409 patgen. -/
def execPatgen (d a b : Reg) (tk t : Bool) (ci : BitVec 2) (s : State) : Out :=
  s.act 1 <| withRegs (groupIdx a 2 ++ [b.toNat]) (tokenIdx tk d) fun dev c =>
    withGen ci t (fun _ =>
      let cap := (c.t.reg (a + 1)).toNat
      withRange (c.t.reg a) 8 cap (fun p =>
        dev.mtx c tk d (.patgen t ci.toNat p.uid p.off cap (min (c.t.reg b).toNat (2 ^ 24 - 1)))) dev c) c
/-- R410 patx. -/
def execPatx (d a b : Reg) (tk t : Bool) (ci : BitVec 2) (s : State) : Out :=
  s.act 1 <| withRegs (groupIdx a 4 ++ [b.toNat]) (tokenIdx tk d) fun dev c =>
    let c2 := bits (c.t.reg (a + 3)).toNat 0 2
    match c.w.gen ci.toNat, c.w.gen c2 with
    | some g, some h =>
      if g.gran ≠ h.gran ∨ g.rows ≠ h.rows ∨ g.cols ≠ h.cols then .fault (patternFormat 16 (some g))
      else if t && !invertible g.words then .fault (nonInv ci.toNat g)
      else if t && !invertible h.words then .fault (nonInv c2 h)
      else
        let cap := (c.t.reg (a + 1)).toNat
        withRange (c.t.reg a) 8 cap (fun p =>
          dev.mtx c tk d (.patx t ci.toNat c2 p.uid p.off cap (c.t.reg (a + 2)).toNat (c.t.reg b).toNat)) dev c
    | _, _ => .fault (patternFormat 16 none)
/-- R411 patpart. -/
def execPatpart (d a b : Reg) (tk t : Bool) (ci : BitVec 2) (s : State) : Out :=
  s.act 1 <| withRegs [a.toNat, b.toNat] (tokenIdx tk d) fun dev c =>
    withGen ci t (fun g =>
      let n := (c.t.reg b).toNat
      match aligned ((c.t.reg a).setWidth 64) 8 with
      | .error e => .fault e
      | .ok _ =>
        if n = 0 ∨ 4096 < n then .fault (patternFormat 18 (some g))
        else withRange (c.t.reg a) 8 (8 * (n + 1)) (fun p => dev.mtx c tk d (.patpart t ci.toNat p.uid p.off n)) dev c) c
/-- R412 patptr. -/
def execPatptr (d a b : Reg) (tk t el : Bool) (ci : BitVec 2) (s : State) : Out :=
  s.act 1 <| withRegs [a.toNat, b.toNat] (tokenIdx tk d) fun dev c =>
    withGen ci t (fun _ =>
      let cap := (c.t.reg b).toNat
      withRange (c.t.reg a) 4 (4 * cap) (fun p => dev.mtx c tk d (.patptr t el ci.toNat p.uid p.off cap)) dev c) c
/-- R413 patsave. -/
def execPatsave (d a : Reg) (tk : Bool) (ci : BitVec 2) (s : State) : Out :=
  s.act 1 <| withRegs [a.toNat] (tokenIdx tk d) fun dev c =>
    withGen ci false (fun _ =>
      withRange (c.t.reg a) 64 1024 (fun p => dev.mtx c tk d (.patsave ci.toNat p.uid p.off)) dev c) c
/-- R413 patrest. -/
def execPatrest (d a : Reg) (tk : Bool) (ci : BitVec 2) (s : State) : Out :=
  s.act 1 <| withRegs [a.toNat] (tokenIdx tk d) fun dev c =>
    withRange (c.t.reg a) 64 1024 (fun p => dev.mtx c tk d (.patrest ci.toNat p.uid p.off)) dev c

/-! ## Acceptance (R290, R407) -/

/-- A generator context of a workgroup replaced. -/
def Dev.setGen (d : Dev) (uid c : Nat) (g : Gen) : Dev := d.modWg uid fun w => { w with gens := w.gens.set c (some g) }
/-- What an accepted command comes to: the device but for the scratchpad, what it writes there, its token, and the flags of STATUS that
it sets. -/
structure MtxDone where
  d : Dev
  writes : List TileBits
  token : Nat
  sticky : BitVec 7
deriving DecidableEq, Repr

/-- R409: patgen accepted. DEDUCED (log 22). -/
def Dev.runPatgen (d : Dev) (uid c : Nat) (g : Gen) (t : Bool) (p : Place) (cap limit : Nat) : MtxDone :=
  if limit = 0 then
    { d := d, writes := [], token := if (g.pat.from_ g.transposed g.cursor).isEmpty then 2 ^ 31 else 0, sticky := 0 }
  else
    let cur := if t = g.transposed then g.cursor else (0, 0)
    let (bs, k, left) := g.pat.records t (g.pat.from_ t cur) limit cap
    let g' := { g with transposed := t, cursor := g.pat.cursorOf t left }
    { d := d.setGen uid c g', writes := [tileBits p bs], token := k + (if left.isEmpty then 2 ^ 31 else 0), sticky := 0 }
/-- R410: patx accepted. The trailing word is written where the capacity has room for it. -/
def Dev.runPatx (d : Dev) (g h : Gen) (t : Bool) (p : Place) (cap start limit : Nat) : MtxDone :=
  let nl := g.pat.lines t
  let (bs, k, next) := g.pat.intersect h.pat t (nl - start) start limit cap
  let more := (List.range nl).any fun i => decide (next ≤ i) && !(g.pat.both h.pat t i).isEmpty
  let stuck := decide (next = start ∧ start < nl)
  { d := d
    writes := tileBits p bs :: (if bs.length + 4 ≤ cap then [tileBits { p with off := p.off + bs.length } (leBytes next 4)] else [])
    token := k % 2 ^ 24 + (if stuck then 2 ^ 30 else 0) + (if more || stuck then 2 ^ 31 else 0), sticky := 0 }
/-- R411: patpart accepted. -/
def Dev.runPatpart (d : Dev) (g : Gen) (t : Bool) (p : Place) (n : Nat) : MtxDone :=
  let ps := g.pat.pointers t
  let points := (List.range (n + 1)).map (splitPoint ps n)
  { d := d, writes := [tileBits p (points.flatMap fun e => leBytes e.1 4 ++ leBytes e.2 4)], token := n + 1, sticky := 0 }
/-- R412: patptr accepted. A count of 2³² or more is a value that the spec does not state. -/
def Dev.runPatptr (d : Dev) (g : Gen) (t el : Bool) (p : Place) (cap : Nat) : MtxDone :=
  let ps := if el then g.pat.elements t else g.pat.pointers t
  let k := min ps.length cap
  let word := fun (e : Nat × Nat) =>
    leBytes (if e.1 < 2 ^ 32 then e.1 else (Config.freeValue (d.free + e.2)).toNat) 4
  { d := { d with free := d.free + (if ps.any fun v => decide (2 ^ 32 ≤ v) then ps.length else 0) }
    writes := [tileBits p ((ps.take k).zipIdx.flatMap word)]
    token := k % 2 ^ 24 + (if k < ps.length then 2 ^ 31 else 0), sticky := 0 }

/-- The effect of an accepted command, which reads scratchpad as it stands in `v`. A command that names a context which is empty by
then writes nothing. DEDUCED (log 21). -/
def Dev.runMtx (d v : Dev) (w : Wg) (op : MtxOp) : MtxDone :=
  let idle : MtxDone := { d := d, writes := [], token := 0, sticky := 0 }
  let one : MtxDone := { idle with token := 1 }
  let gen1 := fun (c : Nat) (f : Gen → MtxDone) =>
    match w.gen c with
    | some g => f g
    | none => idle
  match op with
  | .mma zero sparse ta tb m n k da db oa ob oc tile gi =>
    let (w', bad) := v.runMma w zero sparse ta tb m n k da db oa ob oc tile gi
    { one with d := d.modWg w.uid fun _ => w', sticky := if bad then fBADSCALE else 0#7 }
  | .drain quant rm sat stream seed dd m n oacc odst tile scale =>
    { one with writes := d.runDrain w { quant := quant, rm := rm, sat := sat, stream := stream, seed := seed, dd := dd, m := m, n := n,
                                        oacc := oacc, odst := odst, tile := tile, scale := scale } }
  | .txp m n os od st dt =>
    { one with d := d.modWg w.uid fun w => w.setTile dt od.1 od.2 n m fun j i => w.acc_ st (os.1 + i) (os.2 + j) }
  | .patld c g => { one with d := d.setGen w.uid c g }
  | .patgen t c uid off cap limit => gen1 c fun g => d.runPatgen w.uid c g t { uid := uid, off := off } cap limit
  | .patx t c c2 uid off cap start limit =>
    gen1 c fun g =>
      match w.gen c2 with
      | some h => d.runPatx g h t { uid := uid, off := off } cap start limit
      | none => idle
  | .patpart t c uid off n => gen1 c fun g => d.runPatpart g t { uid := uid, off := off } n
  | .patptr t el c uid off cap => gen1 c fun g => d.runPatptr g t el { uid := uid, off := off } cap
  | .patsave c uid off => gen1 c fun g => { one with writes := [tileBits { uid := uid, off := off } g.image] }
  | .patrest c uid off =>
    match imageGen (v.rangeRd { uid := uid, off := off } 1024) with
    | some g => { one with d := d.setGen w.uid c g }
    | none => { idle with token := 3 }

/-- The words of scratchpad that bits from a place on stand in. -/
def Dev.wordsOf (d : Dev) (p : Place) (nb v : Nat) : List TileWord :=
  let sh := 8 * (p.off % 4)
  (List.range ((sh + nb + 31) / 32)).map fun i =>
    let q : Place := { uid := p.uid, off := p.off / 4 * 4 + 4 * i }
    { uid := q.uid, off := q.off, mask := BitVec.ofNat 32 ((2 ^ nb - 1) * 2 ^ sh / 2 ^ (32 * i)),
      value := BitVec.ofNat 32 (v % 2 ^ nb * 2 ^ sh / 2 ^ (32 * i)), base := BitVec.ofNat 32 (d.scratchRd q 4) }
/-- The words of what a command writes in the allocations; the rest goes nowhere. DESIGN CHOICE (log 65). -/
def Dev.wordsOfBits (d : Dev) (b : TileBits) : List TileWord :=
  ((d.spans 18 b.1 ((b.2.1 + 7) / 8)).foldl (fun (acc : List TileWord × Nat) e =>
    (if e.2.2 then acc.1 ++ d.wordsOf e.1 (min (8 * e.2.1) (b.2.1 - acc.2)) (b.2.2 / 2 ^ acc.2) else acc.1, acc.2 + 8 * e.2.1))
    ([], 0)).1
/-- A word joined to others: what it covers goes over what one of its place holds. -/
def mergeWord (ws : List TileWord) (e : TileWord) : List TileWord :=
  if ws.any fun w => w.uid == e.uid && w.off == e.off then
    ws.map fun w =>
      if w.uid = e.uid ∧ w.off = e.off then { w with mask := w.mask ||| e.mask, value := (w.value &&& ~~~e.mask) ||| (e.value &&& e.mask) }
      else w
  else ws ++ [e]
/-- R239: the words of scratchpad that an accepted command writes, each once and whole. -/
def Dev.tileWords (d : Dev) (bs : List TileBits) : List TileWord := ((bs.flatMap d.wordsOfBits).filter fun e => e.mask != 0#32).foldl mergeWord []
/-- R290 MTX_ACCEPT: the command reads scratchpad and acts on the tiles; what it writes to scratchpad it writes word by word. -/
def execMtxAccept (die core : Nat) (s : State) : Out :=
  s.onDev fun d =>
    match d.nextMtx die core with
    | none => d
    | some (x, op) =>
      match d.wg? x.uid with
      | none => d
      | some w =>
        if d.tripped die then d
        else
          let d := d.catchUp x pathMtx fun _ => true
          let r := d.runMtx (d.engineView x pathMtx) w op
          let left := d.tileWords r.writes
          r.d.modCmd x.id fun c =>
            { c with body := if left.isEmpty then .finished else .spread left, result := BitVec.ofNat 64 r.token,
                     sticky := c.sticky ||| r.sticky, early := [] }

end Sys2Proof.Machine
end

