-- ==== Sys2Proof/Machine/Remote.lean ====
section
/-!
DEFINITION. The remote operations as instructions (R392 to R397): checks, translations (R156, R159, R68), and the messages or
home-slice work that they start.
-/

namespace Sys2Proof.Machine

/-- What a remote update sends (R392): the message kind, TYPE, alignment of the target, E, NW, operand words. -/
structure Update where
  kind : Nat
  ty : Nat
  align : Nat
  e : Nat
  nw : Nat
  operand : List Dword
deriving DecidableEq, Repr

/-- R392: the target's alignment; the words of an RWONCE lie in one line. -/
def Update.fits (u : Update) (va : Dword) : Bool :=
  isMult va.toNat u.align && (u.ty != 0x8 || decide (va.toNat % 64 + 4 * (u.nw + 1) ≤ 64))

/-- R393: the attached arrival word translated; NOTLOCAL when it is homed on another die than a resolved target. -/
def withArrival (arr : Option Reg) (t : Option Nat) (f : Option (Dword × Nat) → Act) (d : Dev) (c : Cur) : Act :=
  match arr with
  | none => f none
  | some r =>
    withPa .rmt (accRemote true) (c.t.pair r) (fun w =>
      match t with
      | some pa => if homeOf w = homeOf pa then f (some (c.t.pair r, w)) else .fault (.at 0x0F rNotLocal (c.t.pair r))
      | none => f (some (c.t.pair r, w))) d c
/-- R159: a translation for which NOTRESIDENT is no fault. -/
def withTarget (writes : Bool) (va : Dword) (f : Option Nat → Act) (d : Dev) (c : Cur) : Act :=
  match d.xlate c.w.die c.w.ctx .rmt (accRemote writes) c.t.walkFail va with
  | .hit pa => f (some pa)
  | .miss => d.waitWalk c .rmt (accRemote writes) (pageOf va)
  | .fail r => if r = rNotResident then f none else .fault (.at 0x0F r va)

/-- A remote-operation command with its message (R368, R393). -/
def Dev.issueMsg (d : Dev) (c : Cur) (token : Option (Nat × Nat)) (pages : List Nat) (kind : Nat) (dst : Option Nat)
    (va : Dword) (body : Dword → List Dword) (read : Option ReadRec) : Act :=
  match d.issue c .rmt token pages 0#64 .remote with
  | .done d' t =>
    .done (d'.enqueueAs c.w.die c.w.ctx kind dst body (c.w.threadField c.tid) va (.command d.nextCmd) plainNote read) t
  | r => r

/-- R393. -/
def updateIssue (u : Update) (a : Reg) (arr : Option Reg) (token : Option (Nat × Nat)) (d : Dev) (c : Cur) : Act :=
  let va := c.t.pair a
  let lost := match arr with
    | some r => !isMult (c.t.pair r).toNat 8
    | none => false
  if !u.fits va then .fault (.at 0x05 0 va)
  else if lost then .fault (.at 0x05 0 (c.t.pair (arr.getD 0)))
  else
    withTarget true va (fun t =>
      withArrival arr t (fun w =>
        let wpa := (w.map fun e => e.2).getD 0
        let wpage := (w.map fun e => pageOf e.1).toList
        d.issueMsg c token (pageOf va :: wpage) u.kind (t.map homeOf) va
          (updateBody u.ty w.isSome u.e u.nw (t.getD 0) wpa u.operand) none) d c) d c

/-- The pair that a hint attaches (R311). DEDUCED (log 14). -/
def hintArr (hint : Option ArrHint) : Option Reg :=
  match hint with
  | some h => if h.av then some h.arr else none
  | none => none
def hintIdx (hint : Option ArrHint) : List Nat :=
  match hintArr hint with
  | some r => groupIdx r 2
  | none => []
/-- R392: a remote update that reads the registers `reads` beside its target's pair. -/
def State.update (hint : Option ArrHint) (a d : Reg) (tk : Bool) (reads : List Nat) (f : Thread → Update) (s : State) : Out :=
  s.act (sizeOf hint) <| withRegs (groupIdx a 2 ++ reads ++ hintIdx hint) (tokenIdx tk d) fun dev c =>
    updateIssue (f c.t) a (hintArr hint) (tokenIf tk d) dev c

/-- The operand of one register or of a pair as 8 bytes. -/
def opWord (t : Thread) (b : Reg) : List Dword := [(t.reg b).setWidth 64]
def opPair (t : Thread) (b : Reg) : List Dword := [t.pair b]
/-- Consecutive registers packed two to a word, the last padded with zeros. -/
def opGroup (t : Thread) (b : Reg) (n : Nat) : List Dword := dwordsOf (leBytes (t.groupVal b n) (4 * n))

/-- R392 radd: for `.win` a is a group of four, of which the fourth register is ignored. -/
def execRadd (d a b : Reg) (tk : Bool) (ty : AddTy) (hint : Option ArrHint) (s : State) : Out :=
  match ty with
  | .i32 =>
    s.update hint a d tk [b.toNat] fun t => { kind := 0x40, ty := 0x0, align := 4, e := 0, nw := 0, operand := opWord t b }
  | .full =>
    s.update hint a d tk [b.toNat] fun t => { kind := 0x40, ty := 0x5, align := 64, e := 0, nw := 0, operand := opWord t b }
  | .i64 =>
    s.update hint a d tk (groupIdx b 2) fun t =>
      { kind := 0x40, ty := 0x2, align := 8, e := 0, nw := 0, operand := opPair t b }
  | .win =>
    s.act (sizeOf hint) fun dev c =>
      if !c.t.able (groupIdx a 4) then .fault regRange
      else
        withRegs (groupIdx a 3 ++ groupIdx b 8 ++ hintIdx hint) (tokenIdx tk d) (fun dev c =>
          updateIssue
            { kind := 0x40, ty := 0x6, align := 64, e := (c.t.reg (a + 2)).toNat % 512, nw := 0, operand := opGroup c.t b 8 }
            a (hintArr hint) (tokenIf tk d) dev c) dev c
/-- R392: TYPE, alignment and registers of rmin and rmax. -/
def minTy (ty : MinTy) : Nat × Nat × Nat :=
  match ty with
  | .i32 => (0x0, 4, 1)
  | .n32 => (0x1, 4, 1)
  | .i64 => (0x2, 8, 2)
  | .n64 => (0x3, 8, 2)
  | .f32 => (0x4, 4, 1)
def minUpdate (kind : Nat) (ty : MinTy) (b : Reg) (t : Thread) : Update :=
  { kind := kind, ty := (minTy ty).1, align := (minTy ty).2.1, e := 0, nw := 0,
    operand := if (minTy ty).2.2 = 1 then opWord t b else opPair t b }
def execRmin (d a b : Reg) (tk : Bool) (ty : MinTy) (hint : Option ArrHint) (s : State) : Out :=
  s.update hint a d tk (groupIdx b (minTy ty).2.2) (minUpdate 0x41 ty b)
def execRmax (d a b : Reg) (tk : Bool) (ty : MinTy) (hint : Option ArrHint) (s : State) : Out :=
  s.update hint a d tk (groupIdx b (minTy ty).2.2) (minUpdate 0x42 ty b)
def execRor (d a b : Reg) (tk : Bool) (hint : Option ArrHint) (s : State) : Out :=
  s.update hint a d tk (groupIdx b 2) fun t =>
    { kind := 0x43, ty := 0x7, align := 8, e := 0, nw := 0, operand := opPair t b }
/-- NW of the hint: words − 1. -/
def hintNw (hint : Option ArrHint) : Nat := (hint.map fun h => h.nw.toNat).getD 0
def execRwonce (d a b : Reg) (tk : Bool) (hint : Option ArrHint) (s : State) : Out :=
  s.update hint a d tk (groupIdx b (hintNw hint + 1)) fun t =>
    { kind := 0x44, ty := 0x8, align := 4, e := 0, nw := hintNw hint, operand := opGroup t b (hintNw hint + 1) }
def execRarrive (d a b : Reg) (tk : Bool) (hint : Option ArrHint) (s : State) : Out :=
  s.update hint a d tk [b.toNat] fun t =>
    { kind := 0x45, ty := 0x9, align := 8, e := 0, nw := 0, operand := opWord t b }
def execRclose (d a : Reg) (tk : Bool) (hint : Option ArrHint) (s : State) : Out :=
  s.update hint a d tk [] fun _ => { kind := 0x46, ty := 0xA, align := 8, e := 0, nw := 0, operand := [0#64] }

/-! R395. -/

/-- Local pages translated one by one, precise (R395 step 2); `name` is the operand's address (R433). -/
def withPages (writes : Bool) (name : Dword) (f : List Nat → Act) (d : Dev) (c : Cur) : List Nat → List Nat → Act
  | [], pas => f pas
  | p :: ps, pas =>
    match d.xlate c.w.die c.w.ctx .rmt (accLocal writes) c.t.walkFail (BitVec.ofNat 64 (p * 4096)) with
    | .hit pa => withPages writes name f d c ps (pas ++ [pa])
    | .miss => d.waitWalk c .rmt (accLocal writes) p
    | .fail r => .fault (.at 0x0F r name)
/-- The physical addresses of `n` lines from `va` up, whose pages lie at `pas`. -/
def linesAt (va : Dword) (pas : List Nat) (n : Nat) : List Nat :=
  (List.range n).map fun i =>
    let a := va.toNat + 64 * i
    natAt pas (a / 4096 - pageOf va) + a % 4096
/-- R71: the words from offset 16 on of an RREAD request; NEED is filled in when it is sent. -/
def rreadBody (n pa : Nat) (tag : Dword) : List Dword := [tag, BitVec.ofNat 64 n, BitVec.ofNat 64 pa, 0]

/-- R395. NBYTES of 0 sends nothing and completes at once. -/
def execRread (d a : Reg) (tk : Bool) (s : State) : Out :=
  s.act 1 fun dev c =>
    if !c.t.able (groupIdx a 8) then .fault regRange
    else
      withRegs (groupIdx a 7) (tokenIdx tk d) (fun dev c =>
        let src := c.t.pair a
        let land := c.t.pair (a + 2)
        let arr := c.t.pair (a + 4)
        let nb := (c.t.reg (a + 6)).toNat
        let n := min nb 4096
        if !isMult src.toNat 4 then .fault (.at 0x05 0 src)
        else if !isMult nb 4 then .fault (.here 0x05 0)
        else if !isMult land.toNat 64 then .fault (.at 0x05 0 land)
        else if !isMult arr.toNat 8 then .fault (.at 0x05 0 arr)
        else
          withPages true land (fun pas =>
            withPa .rmt (accLocal true) arr (fun arrPa =>
              if n = 0 then dev.issue c .rmt (tokenIf tk d) [] (remoteToken 1) .finished
              else if !canonicalRange src n then .fault (.at 0x0F rNoncanon src)
              else
                withTarget false src (fun t =>
                  let pages := pageOf src :: pageOf arr :: pagesOf land.toNat n
                  let read : ReadRec :=
                    { ctx := c.w.ctx, seq := 0, cmd := dev.nextCmd, landing := linesAt land pas (partsOf n),
                      arrival := arrPa, n := n, got := [], fail7 := false, conflict := false, allBenign := true }
                  dev.issueMsg c (tokenIf tk d) pages 0x01 (t.map homeOf) src (rreadBody n (t.getD 0)) (some read)) dev c) dev c)
            dev c (pagesOf land.toNat n) []) dev c

/-! R396, R397. -/

/-- R396. -/
def execOnceclr (d a b : Reg) (tk : Bool) (s : State) : Out :=
  s.act 1 <| withRegs (groupIdx a 2 ++ [b.toNat]) (tokenIdx tk d) fun dev c =>
    let va := c.t.pair a
    let n := min (c.t.reg b).toNat 1024
    match aligned va 64 with
    | .error e => .fault e
    | .ok _ =>
      let pages := pagesOf va.toNat (64 * n)
      withPages true va (fun pas =>
        dev.issue c .rmt (tokenIf tk d) pages 1#64 (.onceclr (linesAt va pas n))) dev c pages []
/-- R397. -/
def execXcvt (d a : Reg) (f64 : Bool) (idx : BitVec 3) (s : State) : Out :=
  s.act 1 <| withRegs (groupIdx a 2) (groupIdx d (if f64 then 2 else 1)) fun dev c =>
    let va := c.t.pair a
    match aligned va 64 with
    | .error e => .fault e
    | .ok _ =>
      withPa .rmt (accLocal false) va (fun pa =>
        dev.issue c .rmt (some (d.toNat, if f64 then 2 else 1)) [pageOf va] 0#64 (.xcvt pa f64 idx.toNat)) dev c

end Sys2Proof.Machine
end

