-- ==== Sys2Proof/Machine/Hosts.lean ====
section
/-!
DEFINITION. Handles (R113 to R133): the handle resolution table, host records, the location cache, forwarding records, the
inboxes with their cursors, breakage, and tail-forwarding. The operations here are what the device does; the messages that
drive them are read in Home.lean, the instructions stand in Invoke.lean.
-/

namespace Sys2Proof.Machine

/-! ## Handle values (R113, R115, R127) -/

def hOrigin (h : Dword) : Nat := bits h.toNat 50 14
def hSlot (h : Dword) : Nat := bits h.toNat 34 16
def hGen (h : Dword) : Nat := bits h.toNat 26 8
def hCtx (h : Dword) : Nat := bits h.toNat 20 6
def mkHandle (origin slot gen ctx : Nat) : Dword :=
  BitVec.ofNat 64 (origin * 2 ^ 50 + slot * 2 ^ 34 + gen * 2 ^ 26 + ctx * 2 ^ 20)

def hPENDING : Nat := 1
def hDONE : Nat := 2
def hBROKEN : Nat := 3
def cFAULT : Byte := 1
def cRESET : Byte := 2
def cSTALE : Byte := 3
def cUPSTREAM : Byte := 4
def cDELIVERY : Byte := 5
def cBADFN : Byte := 6
def cNOCTX : Byte := 7
def cCYCLE : Byte := 8

/-- R114: the generation after one. -/
def nextGen (g : Nat) : Nat := g % 255 + 1

/-! ## The tables of a die -/

def HrtSlot.empty : HrtSlot :=
  { used := false, ctx := 0, state := 0, gen := 0, loc := 0, locv := false, ver := 0, cause := 0, fcode := 0, root := 0,
    held := [], freeing := none }
def Die.slot (x : Die) (n : Nat) : HrtSlot := getKey HrtSlot.empty x.hrt n
def Die.setSlot (x : Die) (n : Nat) (e : HrtSlot) : Die := { x with hrt := setKey HrtSlot.empty x.hrt n e }
/-- R116: the lowest-numbered free slot from 1 to 65,535. -/
def Die.freeSlot (x : Die) : Option Nat :=
  ((List.range (x.hrt.length + 1)).map (· + 1)).find? fun k => !(x.slot k).used && decide (k < 65536)
/-- R117, R132: the slot of a handle of this die whose generation matches; it is allocated, to a handle of the context. DEDUCED (log 64). -/
def Dev.slotOf (d : Dev) (die : Nat) (h : Dword) : Option HrtSlot :=
  let e := (d.die die).slot (hSlot h)
  if hOrigin h = d.dieId die ∧ e.used ∧ e.gen = hGen h ∧ e.ctx = hCtx h then some e else none

def Die.host? (x : Die) (h : Dword) : Option HostRec := x.hosts.find? fun r => r.h == h
def Die.modHost (x : Die) (h : Dword) (f : HostRec → HostRec) : Die :=
  { x with hosts := x.hosts.map fun r => if r.h = h then f r else r }
def Die.dropHost (x : Die) (h : Dword) : Die := { x with hosts := x.hosts.filter fun r => r.h != h }
def Die.forward? (x : Die) (h : Dword) : Option Forward := x.forwards.find? fun r => r.h == h
def Die.dropForward (x : Die) (h : Dword) : Die := { x with forwards := x.forwards.filter fun r => r.h != h }
def Die.loc? (x : Die) (h : Dword) : Option LocEntry := x.locs.find? fun e => e.h == h

/-- R117: where a die sends a message addressed to a handle. -/
def Dev.whereTo (d : Dev) (die : Nat) (h : Dword) : Nat :=
  match (d.die die).loc? h with
  | some e => e.loc
  | none => hOrigin h

/-- R126: the messages and cursors held in the inboxes of a die, and the messages held under R117. -/
def Die.inboxUse (x : Die) : Nat :=
  (x.hosts.map fun r => r.inbox.length + r.cursors.length).foldl (· + ·) 0 +
    (x.hrt.map fun e => e.2.held.length).foldl (· + ·) 0

/-! ## The invocation table (R107, R108) -/

/-- An entry of the invocation table. -/
structure FnEntry where
  entry : Nat
  wgsize : Nat
  regs : Nat
  stackc : Nat
  spill : Nat
  scratch : Nat
  acc : Nat
  prio : Nat
  argb : Nat
  resb : Nat
deriving DecidableEq, Repr

/-- The field of `n` bytes at an offset of entry `fn`. -/
def fnField (table : List Byte) (fn off n : Nat) : Nat := leValue ((table.drop (32 * fn + off)).take n)
/-- R107: an entry whose fields keep their limits; a bit of PRIO[7:2] that is set breaks them. DESIGN CHOICE (log 86). -/
def fnEntry (table : List Byte) (fn : Nat) : Option FnEntry :=
  let f := fnField table fn
  let e : FnEntry :=
    { entry := f 0 8, wgsize := f 8 2, regs := f 10 1, stackc := f 11 1, spill := f 12 4, scratch := f 16 4, acc := f 20 1,
      prio := f 21 1, argb := f 22 1, resb := f 23 1 }
  if isMult e.entry 8 && decide (e.entry < 2 ^ 57 ∧ 1 ≤ e.wgsize ∧ e.wgsize ≤ 1024 ∧ 1 ≤ e.regs ∧ e.regs ≤ 64 ∧
      e.stackc ≤ 192 ∧ 256 ≤ e.scratch ∧ e.scratch ≤ 2 ^ 22 ∧ e.acc ≤ 8 ∧ e.prio ≤ 3 ∧ e.argb ≤ 64 ∧ 4 ≤ e.resb ∧
      e.resb ≤ 64) && isMult e.stackc 8 && isMult e.spill 64 && isMult e.argb 4 && isMult e.resb 4 && f 24 8 == 0
  then some e else none
/-- R108: the entry of a function in a die's own copy. -/
def Dev.fnOf (d : Dev) (die ctx fn : Nat) : Option FnEntry :=
  match d.ctx? die ctx with
  | some k => if fn < k.invcnt then fnEntry k.invt fn else none
  | none => none

/-! ## Location updates and arrivals (R112, R118, R134) -/

/-- R134: a location update. -/
def Dev.sendLoc (d : Dev) (die : Nat) (r : HostRec) (dst : Nat) (after : After) : Dev :=
  d.enqueue die (hCtx r.h) 0x47 (some dst)
    (fun tag => [tag, BitVec.ofNat 64 (r.state + 2 ^ 8 * r.cause.toNat + 2 ^ 16 * r.fcode.toNat + 2 ^ 24 * (r.ver % 65536)), r.h,
      BitVec.ofNat 64 (d.dieId die), r.root, 0]) devThread 0 after

/-- A record as R118 creates it. -/
def HostRec.fresh (t : Task) (resb : Nat) : HostRec :=
  { h := t.newh, state := hPENDING, resb := resb, result := [], arrpa := t.arrpa, arrva := t.arrva, cause := 0, fcode := 0, root := 0, ver := 0,
    aliasOf := none, aliases := [], inbox := [], cursors := [], queued := none, running := none, lastPlaced := 0, aged := false,
    freed := false, incoming := none, moving := none }
/-- R118: a host record created, and its location told to the handle's ORIGIN. -/
def Dev.createRec (d : Dev) (die : Nat) (r : HostRec) : Dev :=
  (d.modDie die fun x => { x with hosts := x.hosts ++ [r] }).sendLoc die r (hOrigin r.h) .none

/-! ## Results, breakage and admission (R120, R123, R125, R128) -/

/-- A handle to be made final. -/
structure Final where
  h : Dword
  state : Nat
  result : List Byte
  cause : Byte
  fcode : Byte
  root : Dword
deriving DecidableEq, Repr

def Final.broken (h : Dword) (cause : Byte) (root : Dword) : Final :=
  { h := h, state := hBROKEN, result := [], cause := cause, fcode := 0, root := root }

/-- R125: EXPECT of an issuer's order. -/
def HostRec.expect (r : HostRec) (die base : Nat) : Nat :=
  match r.cursors.find? fun c => c.die == die && c.base == base with
  | some c => c.expect
  | none => 0
/-- The cursor moved on; a new order gets one. -/
def HostRec.bump (r : HostRec) (die base : Nat) : HostRec :=
  if r.cursors.any fun c => c.die == die && c.base == base then
    { r with cursors := r.cursors.map fun c =>
        if c.die = die ∧ c.base = base then { c with expect := (c.expect + 1) % 65536 } else c }
  else { r with cursors := r.cursors ++ [{ die := die, base := base, expect := 1 }] }
def HostRec.due (r : HostRec) (t : Task) : Bool := t.isq == r.expect (hOrigin t.newh) t.base
/-- R125: a message enters an inbox: the cursor of its order starts at 0. -/
def HostRec.newOrder (r : HostRec) (t : Task) : Bool := !r.cursors.any fun c => c.die == hOrigin t.newh && c.base == t.base
def HostRec.enter (r : HostRec) (t : Task) : HostRec :=
  { r with inbox := r.inbox ++ [t],
           cursors := if r.newOrder t then r.cursors ++ [{ die := hOrigin t.newh, base := t.base, expect := 0 }] else r.cursors }
/-- R125: a task of the same order has been submitted and not yet placed. -/
def Die.orderBusy (x : Die) (t : Task) : Bool :=
  x.hosts.any fun r => match r.queued with
    | some (_, q, _) => q.addrh == t.addrh && hOrigin q.newh == hOrigin t.newh && q.base == t.base
    | none => false
/-- Bytes cut or padded with zeros (R123, R125). -/
def fitBytes (bs : List Byte) (n : Nat) : List Byte := bs.take n ++ List.replicate (n - bs.length) 0#8

/-- R125, R111: a task submitted to the work distributor of a die; an invalid entry breaks the handle instead (R108). -/
def Dev.submit (d : Dev) (die : Nat) (t : Task) (upres : List Byte) : Dev × List Final :=
  match d.fnOf die (hCtx t.newh) t.fn with
  | none => (d, [.broken t.newh cBADFN t.newh])
  | some e =>
    let d := d.modDie die fun x =>
      x.modHost t.newh fun r => { r with resb := e.resb, queued := some (d.nextSeq, t, fitBytes upres 64), lastPlaced := d.raw }
    ({ d with nextSeq := d.nextSeq + 1, passDue := insertNat die d.passDue }, [])

/-- R125, R128: the inbox of a final record admitted, message by message: a task to the distributor once the earlier one of its order has
been placed, or a new handle that breaks. -/
def Dev.admitInbox (d : Dev) (die : Nat) (h : Dword) : Nat → Dev × List Final
  | 0 => (d, [])
  | n + 1 =>
    match (d.die die).host? h with
    | none => (d, [])
    | some r =>
      match r.inbox.find? fun t => r.due t && (r.state == hBROKEN || !(d.die die).orderBusy t) with
      | none => (d, [])
      | some t =>
        let d := d.modDie die fun x => x.modHost h fun r => { r with inbox := r.inbox.erase t }.bump (hOrigin t.newh) t.base
        let (d, fs) := if r.state = hBROKEN then (d, [.broken t.newh cUPSTREAM r.root]) else d.submit die t r.result
        let (d, more) := d.admitInbox die h n
        (d, fs ++ more)
def Dev.admitNext (d : Dev) (die : Nat) (h : Dword) : Dev × List Final :=
  d.admitInbox die h ((((d.die die).host? h).map fun r => r.inbox.length).getD 0)
/-- R133: a released record goes once it is final and its inbox holds nothing that waits. -/
def Die.sweep (x : Die) (h : Dword) : Die :=
  match x.host? h with
  | some r => if r.freed && r.state != hPENDING && r.inbox.isEmpty then x.dropHost h else x
  | none => x

/-- What is to be done for handles that become final: one made final, or the news of one that has broken. -/
inductive Work where
  | settle (f : Final)
  | tell (h : Dword)
deriving DecidableEq, Repr

/-- R120, R128: a final record's location update, and its completion arrival after it. -/
def Dev.tellFinal (d : Dev) (die : Nat) (h : Dword) : Dev :=
  match (d.die die).host? h with
  | some r => (d.sendLoc die r (hOrigin r.h) (.arrival r.arrpa r.arrva)).modDie die fun x => x.sweep h
  | none => d
/-- R123, R127: what an alias becomes. DEDUCED (log 33). -/
def Final.alias_ (f : Final) (a : Dword) : Final := if f.state = hBROKEN then .broken a cUPSTREAM f.root else { f with h := a }
/-- R120, R123, R128: one record made final, and what follows: for a broken one the handles of its inbox, then its aliases, then its own
news; else its own news first. A record that is final stays as it is (R115). -/
def Dev.settleOne (d : Dev) (die : Nat) (f : Final) : Dev × List Work :=
  match (d.die die).host? f.h with
  | none => (d, [])
  | some r =>
    if r.state ≠ hPENDING then (d, [])
    else
      let r := { r with state := f.state, result := if f.state = hDONE then fitBytes f.result r.resb else [], cause := f.cause,
                        fcode := f.fcode, root := f.root, queued := none }
      let d := d.modDie die fun x => x.modHost f.h fun _ => r
      let also := r.aliases.map fun a => Work.settle (f.alias_ a)
      if f.state = hBROKEN then
        let (d, more) := d.admitNext die f.h
        (d, more.map Work.settle ++ also ++ [.tell f.h])
      else
        let (d, more) := (d.tellFinal die f.h).admitNext die f.h
        (d.modDie die fun x => x.sweep f.h, more.map Work.settle ++ also)
/-- Handles made final one after the other, with all that follows from each before the next. -/
def Dev.settleAll (d : Dev) (die : Nat) : Nat → List Work → Dev
  | 0, _ => d
  | _, [] => d
  | n + 1, .settle f :: ws =>
    let (d, more) := d.settleOne die f
    d.settleAll die n (more ++ ws)
  | n + 1, .tell h :: ws => (d.tellFinal die h).settleAll die n ws
/-- A bound on how many handles can follow: each record has each alias and each queued message once. -/
def Die.handleBound (x : Die) : Nat :=
  (x.hosts.map fun r => 1 + r.aliases.length + r.inbox.length).foldl (· + ·) 2
def Dev.finish (d : Dev) (die : Nat) (fs : List Final) : Dev :=
  d.settleAll die (fs.length + (d.die die).handleBound) (fs.map Work.settle)
/-- R125: a task has been placed: the later messages of its order are examined. -/
def Dev.placed (d : Dev) (die : Nat) (t : Task) : Dev :=
  if t.addrh = 0 then d
  else
    let (d, fs) := d.admitNext die t.addrh
    (d.finish die fs).modDie die fun x => x.sweep t.addrh

/-- A new handle that breaks on a die which is not its host yet: the record is created there, broken (R117, R127). R117 does not say which die
keeps it: the one that answers. DESIGN CHOICE (log 78). -/
def Dev.breakNew (d : Dev) (die : Nat) (t : Task) (cause : Byte) : Dev :=
  let d := if ((d.die die).host? t.newh).isSome then d
    else d.modDie die fun x => { x with hosts := x.hosts ++ [HostRec.fresh t 4] }
  d.finish die [.broken t.newh cause t.newh]

/-! ## Forwarding (R117, R118) -/

/-- R122: what a die holds of a handle whose record moves a die sends on to another follows them there. -/
def Die.redirect (x : Die) (h : Dword) (id via dst : Nat) : Die :=
  let follow := fun (m : Move) => if m.toward = via then { m with toward := dst } else m
  { x with
    hosts := x.hosts.map fun r => if r.h = h then { r with moving := r.moving.map follow } else r
    forwards := x.forwards.map fun f => if f.h = h ∧ f.loc = via ∧ dst ≠ id then { f with loc := dst } else f }
/-- R122: a die sends the record moves of a handle on: the forwarding record of the old host is toward the new one, wherever in the package
it stands. DEDUCED (log 35). -/
def Dev.redirect (d : Dev) (die : Nat) (h : Dword) (dst : Nat) : Dev :=
  [0, 1, 2, 3].foldl (fun d n => d.modDie n fun x => x.redirect h (d.dieId n) (d.dieId die) dst) d
/-- A handle request forwarded under the die's own tag: the words from offset 24 on stay (R118). The VA of an error-queue entry is the one
that the invocation named for its completion word, and zero for a record move (R105). DESIGN CHOICE (log 58). -/
def Dev.passOn (d : Dev) (die ctx : Nat) (m : Msg) (dst : Nat) : Dev :=
  let d := if msgKind m.ws = 0x06 then d.redirect die (dwordAt m.ws 4) dst else d
  let after := if msgKind m.ws = 0x02 ∨ msgKind m.ws = 0x03 then After.invoked (dwordAt m.ws 4) else After.none
  let va := if msgKind m.ws = 0x06 then 0 else m.note.va
  d.enqueueAs die ctx (msgKind m.ws) (some dst) (fun tag => tag :: m.ws.drop 3) devThread va after { m.note with fwd := true } none
/-- R133: HFREE sent to a host. DESIGN CHOICE (log 58). -/
def Dev.sendFree (d : Dev) (die : Nat) (h : Dword) (dst : Nat) (thread : Word) : Dev :=
  d.enqueue die (hCtx h) 0x05 (some dst) (fun tag => [tag, 0, h]) thread 0 .none
/-- R134: the words from offset 16 on of an INVOKE or INVOKEH. -/
def Task.body (t : Task) (tag : Dword) : List Dword :=
  let head := [tag, BitVec.ofNat 64 (t.fn * 2 ^ 52 + t.args.length / 4 * 2 ^ 47), t.newh, BitVec.ofNat 64 t.arrpa]
  if t.addrh = 0 then head ++ dwordsOf t.args
  else head ++ [t.addrh, BitVec.ofNat 64 (t.base + t.isq * 2 ^ 40), t.issuer.setWidth 64] ++ dwordsOf t.args
/-- R122: a queued INVOKEH sent on as a forwarded message; its new handle may have been released. -/
def Dev.passTask (d : Dev) (die : Nat) (t : Task) (freed : Bool) (dst : Nat) : Dev :=
  d.enqueueAs die (hCtx t.newh) 0x03 (some dst) t.body devThread t.arrva (.invoked t.newh) { fwd := true, va := t.arrva, freed := freed } none

/-- R116, R133: a slot becomes free; its generation has risen already. -/
def Die.freeHrt (x : Die) (n : Nat) : Die :=
  x.setSlot n { HrtSlot.empty with gen := (x.slot n).gen }
/-- R133: HFREE at the ORIGIN, on behalf of a thread or of the device. DEDUCED (log 37). -/
def Dev.release (d : Dev) (die : Nat) (h : Dword) (thread : Word) : Dev :=
  match d.slotOf die h with
  | none => d
  | some e =>
    if e.locv then
      (d.modDie die fun x => (x.setSlot (hSlot h) { e with gen := nextGen e.gen }).freeHrt (hSlot h)).sendFree die h e.loc thread
    else d.modDie die fun x => x.setSlot (hSlot h) { e with gen := nextGen e.gen, freeing := some thread }

/-! ## Tail-forwarding (R122, R123) -/

/-- The cursors of a record in messages of at most 8. -/
def chunksOf : Nat → List Cursor → List (List Cursor)
  | 0, _ => [[]]
  | n + 1, cs => if cs.length ≤ 8 then [cs] else cs.take 8 :: chunksOf n (cs.drop 8)
def Cursor.words (c : Cursor) : List Dword := [BitVec.ofNat 64 (c.base + c.die * 2 ^ 40), BitVec.ofNat 64 c.expect]
/-- R122, R134: a record move. -/
def Dev.sendMove (d : Dev) (die : Nat) (r : HostRec) (m : Move) (first : Bool) (cs : List Cursor) : Dev :=
  let last := m.left.isEmpty
  let ctl := cs.length * 2 ^ 40 + (if first then 2 ^ 44 else 0) + (if last then 2 ^ 45 else 0)
  d.enqueueAs die (hCtx r.h) 0x06 (some m.dst)
    (fun tag => [tag, BitVec.ofNat 64 ctl, r.h, m.fwd, BitVec.ofNat 64 r.arrpa] ++ cs.flatMap Cursor.words) devThread 0 (.moved r.h)
    { fwd := false, va := r.arrva, freed := false } none
/-- R122: a pending record starts to move to where messages for the forward handle go. -/
def Dev.startMove (d : Dev) (die : Nat) (fwd : Dword) (dst : Nat) (h : Dword) : Dev :=
  match (d.die die).host? h with
  | none => d
  | some r =>
    if r.state ≠ hPENDING ∨ r.moving.isSome then d
    else
      match chunksOf r.cursors.length r.cursors with
      | [] => d
      | cs :: left =>
        let m : Move := { fwd := fwd, dst := dst, toward := dst, left := left }
        (d.modDie die fun x => x.modHost h fun r => { r with moving := some m }).sendMove die r m true cs
/-- Whether handle `h` is `m` or an alias of it, directly or through others. -/
def Die.aliasesTo (x : Die) (m : Dword) : Nat → Dword → Bool
  | 0, _ => false
  | n + 1, h =>
    h == m || (match (x.host? h).bind fun r => r.aliasOf with
    | some g => x.aliasesTo m n g
    | none => false)
/-- R123: a handle and its aliases on its host, directly or through others. -/
def Die.family (x : Die) (h : Dword) : List Dword :=
  h :: ((x.hosts.map HostRec.h).filter fun a => a != h && x.aliasesTo h (x.hosts.length + 1) a)
/-- R123: the handles of a cycle break on a die, each for itself. -/
def Dev.breakAll (d : Dev) (die : Nat) (all : List Dword) : Dev :=
  let d := d.modDie die fun x => { x with hosts := x.hosts.map fun q => if all.contains q.h then { q with aliases := [] } else q }
  d.finish die (all.map fun a => .broken a cCYCLE a)
/-- R123: two handles, one of which is an alias of the other, and every alias of either break with cause CYCLE. -/
def Dev.breakCycle (d : Dev) (die : Nat) (h fwd : Dword) : Dev :=
  d.breakAll die ((d.die die).family h ++ (d.die die).family fwd).eraseDups
/-- R123: the aliases that a moved handle has here, its own forward handle among them: two handles that have moved to each other's hosts at
once. Each of these hosts breaks the handles that came to it; those whose records are on their way break where they arrive. -/
def Die.crossed (x : Die) (h : Dword) : List Dword :=
  (x.family h).filter fun a => a != h && (x.host? a).any fun r => r.moving.isNone
/-- R122, R123: a task's own handle and its aliases move to the forward handle; toward one of those aliases they would be a cycle. -/
def Dev.tailForward (d : Dev) (die : Nat) (h fwd : Dword) : Dev :=
  if ((d.die die).host? h).isNone then d
  else if ((d.die die).family h).contains fwd then d.breakCycle die h fwd
  else ((d.die die).family h).foldl (fun d a => d.startMove die fwd (d.whereTo die fwd) a) d
/-- R122: where the record of a moved handle goes: within the package where its moves have been sent on to; else where the forward handle is
known to be, or where they were sent. DEDUCED (log 35). -/
def Dev.newHost (d : Dev) (die : Nat) (m : Move) : Nat :=
  if d.isHere m.toward then m.toward
  else
    let known := ((d.slotOf die m.fwd).map HrtSlot.loc).toList ++ (((d.die die).loc? m.fwd).map LocEntry.loc).toList
    (known.find? fun l => l != d.dieId die).getD m.toward

/-- R122: a record's queued messages sent on, with the records of their new handles and what those hold; aliases of such a
record move after it. -/
def Dev.passInbox (d : Dev) (die dst : Nat) : Nat → List Task → Dev
  | 0, _ => d
  | _, [] => d
  | n + 1, t :: ts =>
    match (d.die die).host? t.newh with
    | none => (d.passTask die t false dst).passInbox die dst n ts
    | some r =>
      let d := d.passTask die t r.freed dst
      let d := r.aliases.foldl (fun d a => d.startMove die t.newh dst a) d
      (d.modDie die fun x => x.dropHost t.newh).passInbox die dst n (ts ++ r.inbox)
/-- R122: every record move is acknowledged: the record goes, a forwarding record stays, and the inbox is sent on. A record whose moves come
back to its own die ends its move there (`attach`), and stays. Where the forward handle has moved here as an alias, the aliases break with
cause CYCLE (R123). -/
def Dev.moved (d : Dev) (die : Nat) (h : Dword) : Dev :=
  match (d.die die).host? h with
  | none => d
  | some r =>
    match r.moving with
    | none => d
    | some m =>
      match m.left with
      | cs :: left =>
        let m' := { m with left := left }
        (d.modDie die fun x => x.modHost h fun r => { r with moving := some m' }).sendMove die r m' false cs
      | [] =>
        let dst := d.newHost die m
        if r.state ≠ hPENDING then d.modDie die fun x => x.modHost h fun r => { r with moving := none }
        else if dst = d.dieId die then d
        else
          let cycle := ((d.die die).family h).contains m.fwd
          let all := (d.die die).crossed h
          let d := d.modDie die fun x =>
            { x.dropHost h with
              forwards := x.forwards ++ [{ h := h, loc := dst, resb := r.resb, arrpa := r.arrpa, arrva := r.arrva, ver := r.ver }] }
          let d := if cycle then d.breakAll die all else r.aliases.foldl (fun d a => d.startMove die m.fwd dst a) d
          let d := d.passInbox die dst ((d.die die).handleBound + r.inbox.length) r.inbox
          if r.freed then d.sendFree die h dst devThread else d

/-- The RESB and VER of a record that moves, which no record move carries: as the old host in the package still has them, and
open values otherwise. DEDUCED (log 35). -/
def Dev.oldFacts (d : Dev) (h : Dword) (old : Nat) : (Nat × Nat × Nat) × Dev :=
  let at_ := fun (n : Nat) =>
    match (d.die n).host? h, (d.die n).forward? h with
    | some r, _ => if r.incoming.isNone then some (r.resb, r.ver, d.dieId n) else none
    | none, some f => some (f.resb, f.ver, d.dieId n)
    | none, none => none
  match [0, 1, 2, 3].findSome? at_ with
  | some v => (v, d)
  | none =>
    let (v, d) := d.draw
    let (w, d) := d.draw
    ((4 * (v.toNat % 16) + 4, w.toNat % 65536, old), d)

/-- R122, R123: the last record move of `h`, whose forward handle has its record here: the alias is attached, VER rises, and
the ORIGIN is told; a cycle breaks both; a forward handle that is final makes the alias final. DEDUCED (log 33). -/
def Dev.attach (d : Dev) (die : Nat) (h fwd : Dword) : Dev :=
  match (d.die die).host? h, (d.die die).host? fwd with
  | some r, some f =>
    let old := r.incoming.getD (d.dieId die)
    let r' := { r with ver := (r.ver + 1) % 65536, incoming := none, moving := none }
    let d := d.modDie die fun x => (x.modHost h fun _ => r').dropForward h
    if ((d.die die).family h).contains fwd then d.breakCycle die h fwd
    else
      let r' := { r' with aliasOf := some fwd }
      let d := d.modDie die fun x =>
        (x.modHost h fun _ => r').modHost fwd fun f => { f with aliases := f.aliases ++ [h] }
      let d := d.sendLoc die r' (hOrigin h) (.toldOrigin h old)
      if f.state = hPENDING then d
      else
        d.finish die [Final.alias_
          { h := fwd, state := f.state, result := f.result, cause := f.cause, fcode := f.fcode, root := f.root } h]
  | _, _ => d

/-! ## The end of a task (R120, R127) -/

/-- The result bytes of a task's workgroup. -/
def Wg.resultBytes (w : Wg) (n : Nat) : List Byte := readBytes w.mem 128 n
/-- R120 to R122: the last EXIT of an invocation's workgroup. A record that was dropped is not there any more (R428). -/
def Dev.taskEnd (d : Dev) (w : Wg) (h : Dword) : Dev :=
  match (d.die w.die).host? h with
  | none => d
  | some r =>
    if r.running ≠ some w.uid then d
    else
      let d := d.modDie w.die fun x => x.modHost h fun r => { r with running := none }
      if r.state ≠ hPENDING then d
      else if w.forward ≠ 0 then d.tailForward w.die h w.forward
      else
        d.finish w.die [{ h := h, state := hDONE, result := w.resultBytes r.resb, cause := 0, fcode := 0, root := 0 }]
/-- R127 FAULT: a thread of a task ends inside its trap handler. DEDUCED (log 34). -/
def Dev.taskFault (d : Dev) (w : Wg) (code : Byte) : Dev :=
  match w.kind with
  | .task h =>
    match (d.die w.die).host? h with
    | some r =>
      if r.running = some w.uid then
        d.finish w.die [{ h := h, state := hBROKEN, result := [], cause := cFAULT, fcode := code, root := h }]
      else d
    | none => d
  | .launch _ | .supervisor | .walker => d

/-! ## What a JOIN ends (R129, R428) -/

/-- R129, R428: the die with identifier `id` has reset. The invocation of a record that goes is not placed, and so leaves the inbox in which
it waits. A record whose move toward that die is not yet acknowledged breaks as one that stands behind a forwarding record toward it: R129
does not say. DESIGN CHOICE (log 77). -/
def Dev.handlesReset (d : Dev) (die id : Nat) : Dev :=
  let x := d.die die
  let lost := x.hosts.filter fun r => hOrigin r.h == id
  let ends := lost.flatMap fun r => (r.aliases ++ r.inbox.map Task.newh).map fun a => Final.broken a cUPSTREAM r.h
  let gone := lost.map HostRec.h
  let d := d.modDie die fun x =>
    { x with
      hrt := x.hrt.map (fun e => if e.2.used ∧ e.2.state = hPENDING ∧ e.2.loc = id then
        (e.1, { e.2 with state := hBROKEN, cause := cRESET,
                         root := mkHandle (d.dieId die) e.1 (e.2.gen) e.2.ctx }) else e)
      hosts := (x.hosts.filter fun r => !gone.contains r.h).map fun r =>
        { r with aliases := r.aliases.filter (fun a => !gone.contains a), inbox := r.inbox.filter fun t => !gone.contains t.newh } }
  let d := d.finish die ends
  let away := (d.die die).forwards.filter fun f => f.loc == id
  let d := away.foldl (fun d f =>
    let r := { HostRec.fresh { newh := f.h, fn := 0, args := [], arrpa := f.arrpa, arrva := f.arrva, addrh := 0, base := 0, isq := 0, issuer := 0 }
      f.resb with ver := f.ver }
    (d.modDie die fun x => { x.dropForward f.h with hosts := x.hosts ++ [r] }).finish die [.broken f.h cRESET f.h]) d
  let going := (d.die die).hosts.filter fun r => (r.moving.map Move.dst) == some id
  d.finish die (going.map fun r => .broken r.h cRESET r.h)

end Sys2Proof.Machine
end

