-- ==== Sys2Proof/Machine/Invoke.lean ====
section
/-!
DEFINITION. Invocation and handle instructions (R398, R399, R109, R110, R114, R121, R124, R130 to R133), and exit (R357, R228,
R127).
-/

namespace Sys2Proof.Machine

/-- R227 HANDLE_INVALID. -/
def handleInvalid : Trap := .here 0x0D 0
/-- R114. -/
def handleOk (h : Dword) (ctx : Nat) : Bool := bits h.toNat 0 20 == 0 && hGen h != 0 && hCtx h == ctx

/-- What an invocation names. -/
inductive Target where
  | die
  | addr
  | handle
deriving DecidableEq, Repr

/-- R398 step 1. -/
def invokeOk (k : Machine.Target) (a : Reg) (d : Dev) (c : Cur) : Bool :=
  let fn := (c.t.reg (a + 2)).toNat
  let cnt := match d.ctx? c.w.die c.w.ctx with
    | some x => x.invcnt
    | none => 0
  decide (fn < 4096 ∧ fn < cnt) &&
    (match k with
    | .die => d.inTorus (c.t.reg a).toNat
    | .addr => true
    | .handle => handleOk (c.t.pair a) c.w.ctx)
/-- R110: how many argument bytes are read. -/
def argBytes (fn : Nat) (d : Dev) (c : Cur) : Nat :=
  match d.ctx? c.w.die c.w.ctx with
  | some x => min (fnField x.invt fn 22 1) 64 / 4 * 4
  | none => 0
/-- R398 step 3. -/
def invokeArgs (a : Reg) (d : Dev) (c : Cur) : Except Trap (List Byte) :=
  let n := argBytes (c.t.reg (a + 2)).toNat d c
  if n = 0 then .ok []
  else
    match d.scratchAt c.w (c.t.reg (a + 3)) n 4 with
    | .ok p => .ok (d.scratchRdBytes p n)
    | .error e => .error e
/-- R236, R239: the thread has read its arguments. -/
def Dev.argsSeen (d : Dev) (c : Cur) (a : Reg) : Dev :=
  let n := argBytes (c.t.reg (a + 2)).toNat d c
  if n = 0 then d
  else
    match d.scratchAt c.w (c.t.reg (a + 3)) n 4 with
    | .ok p => d.thrSaw c.who p n
    | .error _ => d
/-- R398 step 4: the die an invocation goes to. -/
def withDie (k : Machine.Target) (a : Reg) (f : Nat → Act) (d : Dev) (c : Cur) : Act :=
  match k with
  | .die => f (c.t.reg a).toNat
  | .addr => withPa .rmt (accRemote false) (c.t.pair a) (fun pa => f (homeOf pa)) d c
  | .handle => f (d.whereTo c.w.die (c.t.pair a))
/-- R398 step 4: the completion word, which must be local: its physical and its virtual address; 0 for none. -/
def withCompletion (arr : Option Reg) (f : Nat → Dword → Act) (d : Dev) (c : Cur) : Act :=
  match arr with
  | none => f 0 0
  | some r => withPa .rmt (accLocal true) (c.t.pair r) (fun pa => f pa (c.t.pair r)) d c
/-- R124: the order-table entry of a thread and a handle. -/
def Die.order? (x : Die) (uid tid : Nat) (h : Dword) : Option OrderEnt :=
  x.orders.find? fun o => o.uid == uid && o.tid == tid && o.h == h
/-- R72, R74: the sequence that the next message of a context will take: sequences are assigned in order, so those that wait for theirs come
first. DEDUCED (log 40). -/
def Die.comingSeq (x : Die) (c : Nat) : Nat := (x.nextSeq c + (x.unsent.filter fun u => u.ctx == c).length) % 2 ^ 40
/-- R124: the order of an INVOKEH: BASE and ISQ, and the table with NEXT raised. -/
def Die.takeOrder (x : Die) (uid tid : Nat) (h : Dword) (own : Nat) : (Nat × Nat) × Die :=
  match x.order? uid tid h with
  | some o =>
    ((o.base, o.next), { x with orders := x.orders.map fun p =>
      if p.uid = uid ∧ p.tid = tid ∧ p.h = h then { p with next := (p.next + 1) % 65536 } else p })
  | none => ((own, 0), { x with orders := x.orders ++ [{ uid := uid, tid := tid, h := h, base := own, next := 1 }] })

/-- R110, R116: the effect: the slot, the handle, the message. The VA of an error-queue entry is the target address of an invoke.addr, and
0 for the other forms, which name none. DESIGN CHOICE (log 58). -/
def invokeRun (k : Machine.Target) (rd a : Reg) (slot die arrpa : Nat) (arrva : Dword) (args : List Byte) (d : Dev) (c : Cur) :
    Act :=
  let x := d.die c.w.die
  let ctx := c.w.ctx
  let gen := if (x.slot slot).gen = 0 then 1 else (x.slot slot).gen
  let h := mkHandle (d.dieId c.w.die) slot gen ctx
  let e : HrtSlot := { HrtSlot.empty with used := true, ctx := ctx, state := hPENDING, gen := gen, loc := die }
  let up := if k = .handle then c.t.pair a else 0
  let ((base, isq), x) := if k = .handle then x.takeOrder c.w.uid c.tid up (x.comingSeq ctx) else ((0, 0), x)
  let d := d.setDie c.w.die (x.setSlot slot e)
  let t : Task :=
    { newh := h, fn := (c.t.reg (a + 2)).toNat, args := args, arrpa := arrpa, arrva := arrva, addrh := up, base := base,
      isq := isq, issuer := c.w.threadField c.tid }
  .done (d.enqueueAs c.w.die ctx (if k = .handle then 0x03 else 0x02) (some die) t.body (c.w.threadField c.tid)
    (if k = .addr then c.t.pair a else 0) (.invoked h) { plainNote with va := arrva } none) (c.t.setGroup rd 2 h.toNat)

/-- R398, R110, R130. -/
def invokeIssue (k : Machine.Target) (rd a b : Reg) (arr : Option Reg) (d : Dev) (c : Cur) : Act :=
  let lost := match arr with
    | some r => !isMult (c.t.pair r).toNat 8
    | none => false
  let addr : Dword := (c.t.reg (a + 3)).setWidth 64
  if !invokeOk k a d c then .fault handleInvalid
  else if !isMult addr.toNat 4 then .fault (.at 0x05 0 addr)
  else if lost then .fault (.at 0x05 0 (c.t.pair (arr.getD 0)))
  else
    match invokeArgs a d c with
    | .error e => .fault e
    | .ok args =>
      withDie k a (fun die =>
        withCompletion arr (fun pa va =>
          let x := d.die c.w.die
          let wait := fun (w : Wait) =>
            if c.t.outOfTime (c.t.reg b) then Act.fault deadlinePassed else .wait d w (limitOf (c.t.reg b))
          match x.freeSlot with
          | none => wait .slot
          | some slot =>
            if k = .handle ∧ (x.order? c.w.uid c.tid (c.t.pair a)).isNone ∧ 4096 ≤ x.orders.length then wait .order
            else invokeRun k rd a slot die pa va args (d.argsSeen c a) c) d c) d c

/-- The registers of the group of four that a form reads: G(a+1) is ignored by invoke.die. -/
def State.invoke (k : Machine.Target) (d a b : Reg) (hint : Option ArrHint) (s : State) : Out :=
  s.act (sizeOf hint) fun dev c =>
    if !c.t.able (groupIdx a 4) then .fault regRange
    else
      let reads := if k = .die then [a.toNat, a.toNat + 2, a.toNat + 3] else groupIdx a 4
      withRegs (reads ++ [b.toNat] ++ hintIdx hint) (groupIdx d 2)
        (afterAcquire fun dev c => invokeIssue k d a b (hintArr hint) dev c) dev c
def execInvokeDie (d a b : Reg) (hint : Option ArrHint) (s : State) : Out := s.invoke .die d a b hint
def execInvokeAddr (d a b : Reg) (hint : Option ArrHint) (s : State) : Out := s.invoke .addr d a b hint
def execInvokeh (d a b : Reg) (hint : Option ArrHint) (s : State) : Out := s.invoke .handle d a b hint

/-! R399. -/

/-- R121 reth. -/
def execReth (a : Reg) (s : State) : Out :=
  s.act 1 <| withRegs (groupIdx a 2) [] fun dev c =>
    let h := c.t.pair a
    match c.w.kind with
    | .task self =>
      if h ≠ 0 ∧ (handleOk h c.w.ctx = false ∨ h = self) then .fault handleInvalid
      else .done (dev.modWg c.w.uid fun w => { w with forward := h }) c.t
    | .launch _ | .supervisor | .walker => .fault handleInvalid

/-- R131 hget: the request goes to the handle's location; its reply comes back under the request's tag.
DESIGN CHOICE (log 58). -/
def execHget (d a b : Reg) (s : State) : Out :=
  s.act 1 <| withRegs (groupIdx a 2 ++ [b.toNat]) [d.toNat] fun dev c =>
    let h := c.t.pair a
    let x := c.t.reg b
    if !handleOk h c.w.ctx then .fault handleInvalid
    else if !isMult x.toNat 4 then .fault (.at 0x05 0 (x.setWidth 64))
    else
      match dev.scratchRange c.w x 64 4 with
      | .error e => .fault e
      | .ok p =>
        match dev.issue c .rmt (some (d.toNat, 1)) [] 0#64 (.hget p.uid p.off none) with
        | .done d' t =>
          .done (d'.enqueue c.w.die c.w.ctx 0x04 (some (dev.whereTo c.w.die h)) (fun tag => [tag, 0, h]) (c.w.threadField c.tid) 0
            (.command dev.nextCmd)) t
        | r => r

/-- R132: what the die knows of a handle: state, CAUSE, FCODE. -/
def Dev.statOf (d : Dev) (die : Nat) (h : Dword) : Nat × Byte × Byte :=
  match d.slotOf die h, (d.die die).loc? h with
  | some e, _ => (e.state, e.cause, e.fcode)
  | none, some e => (e.state, e.cause, e.fcode)
  | none, none => (0, 0, 0)
/-- R132 hstat. -/
def execHstat (pd : PredReg) (d a : Reg) (s : State) : Out :=
  s.act 1 <| withRegs (groupIdx a 2) [d.toNat] fun dev c =>
    let h := c.t.pair a
    if !handleOk h c.w.ctx then .fault handleInvalid
    else
      let (st, cause, fcode) := dev.statOf c.w.die h
      .done dev ((c.t.setGroup d 1 (st + 2 ^ 8 * cause.toNat + 2 ^ 16 * fcode.toNat)).setPred pd (decide (st = hDONE)))

/-- R133 hfree; R124: the order entries of the handle on the die are freed. -/
def execHfree (a : Reg) (s : State) : Out :=
  s.act 1 <| withRegs (groupIdx a 2) [] <| afterAcquire fun dev c =>
    let h := c.t.pair a
    if !handleOk h c.w.ctx then .fault handleInvalid
    else
      let dev := dev.modDie c.w.die fun x => { x with orders := x.orders.filter fun o => o.h != h }
      if hOrigin h = dev.dieId c.w.die then .done (dev.release c.w.die h (c.w.threadField c.tid)) c.t
      else .done (dev.sendFree c.w.die h (dev.whereTo c.w.die h) (c.w.threadField c.tid)) c.t

/-- R357, R228: the thread ends; inside its trap handler it breaks the handle of its task (R127). It waits for no pending token; the end of
the workgroup, where RESULT is read (R120), waits for its L2 atomics. -/
def execExit (s : State) : Out :=
  s.act 1 fun d c =>
    let d := if 0 < c.t.trapDepth then d.taskFault c.w (c.t.trapCause.extractLsb' 0 8) else d
    .leave d { c.t with pos := .exited, retired := c.t.retired + 1, susp := none }

end Sys2Proof.Machine
end

