-- ==== Sys2Proof/Machine/Xal.lean ====
section
/-!
DEFINITION. What an update does at its home slice (R82 to R86, R90, R93 to R100): integers, write-once words, arrival words, exact
accumulator lines, closing, and the conversion of a line (R98).
-/

namespace Sys2Proof.Machine

/-- `n` bits of a number from bit `lo` up replaced. -/
def setBits (v lo n x : Nat) : Nat := v - bits v lo n * 2 ^ lo + x % 2 ^ n * 2 ^ lo
/-- One bit of a line set. -/
def setBit (v k : Nat) : Nat := setBits v k 1 1

/-! ## Write-once words (R83, R84) -/

/-- What a write-once did: accepted, benign and conflicting words. -/
structure Once where
  accepted : Nat
  benign : Nat
  conflict : Nat
deriving DecidableEq, Repr

/-- R84: one word. -/
def Dev.writeWord (d : Dev) (die pa v : Nat) (o : Once) : Dev × Once :=
  if d.written.contains (pa / 4) then
    if d.rd pa 4 = v then
      (d.modDie die fun x => x.count fun c => { c with rembenign := satInc c.rembenign }, { o with benign := o.benign + 1 })
    else
      (d.modDie die fun x => x.count fun c =>
        { c with remconflict := satInc c.remconflict, conflictpa := BitVec.ofNat 64 (pa % 2 ^ 52) },
       { o with conflict := o.conflict + 1 })
  else ({ d.store pa 4 v with written := insertNat (pa / 4) d.written }, { o with accepted := o.accepted + 1 })
/-- R84: words from an address up. -/
def Dev.writeOnce (d : Dev) (die pa : Nat) : List Nat → Once → Dev × Once
  | [], o => (d, o)
  | v :: vs, o =>
    let (d, o) := d.writeWord die pa v o
    d.writeOnce die (pa + 4) vs o
/-- The first `n` 32-bit words of 64-bit words. -/
def wordsOfDwords (ws : List Dword) (n : Nat) : List Nat :=
  (List.range n).map fun i => bits (dwordAt ws (i / 2)).toNat (32 * (i % 2)) 32

/-- R90: an arrival of `n` at an arrival word; COUNT saturates. -/
def Dev.arrive (d : Dev) (pa n : Nat) : Dev := d.store pa 4 (min (d.rd pa 4 + n) 0xFFFF_FFFF)

/-! ## Exact accumulator lines (R93 to R98) -/

def fp32Nan (c : Nat) : Bool := decide (0x7F80_0000 < c % 2 ^ 31)
def fp32Inf (c : Nat) : Bool := c % 2 ^ 31 == 0x7F80_0000
def fp32Neg (c : Nat) : Bool := decide (2 ^ 31 ≤ c)
/-- The magnitude of a finite FP32 code in units of 2⁻¹⁴⁹. -/
def fp32Units (c : Nat) : Nat :=
  let e := bits c 23 8
  if e = 0 then c % 2 ^ 23 else (2 ^ 23 + c % 2 ^ 23) * 2 ^ (e - 1)
/-- A sum of two's-complement numbers of `n` bits with a signed magnitude. -/
def addSigned (n acc : Nat) (neg : Bool) (mag : Nat) : Nat :=
  if neg then (acc + 2 ^ n - mag % 2 ^ n) % 2 ^ n else (acc + mag) % 2 ^ n
def xalKind (l : Nat) : Nat := bits l 509 3

/-- R95: a full-range RADD: the line after it and the status. -/
def xalFull (l x : Nat) : Nat × Nat :=
  if xalKind l = 2 then (setBit l 507, 6)
  else if 3 ≤ xalKind l then (l, 6)
  else if bits l 320 32 = 0x8000_0000 then (l, 5)
  else
    let l := setBits l 509 3 1
    let l := if fp32Nan x then setBit l 354
      else if fp32Inf x then (if fp32Neg x then setBit l 353 else setBit l 352)
      else setBits l 0 320 (addSigned 320 (bits l 0 320) (fp32Neg x) (fp32Units x))
    (setBits l 320 32 (bits l 320 32 + 1), 1)

/-- R96: the signed exponent of a 9-bit field. -/
def exp9 (e : Nat) : Int := if 256 ≤ e % 512 then (e % 512 : Nat) - (512 : Int) else ((e % 512 : Nat) : Int)
/-- The integer nearest m ÷ 2^n, ties to even. -/
def nearestShift (m n : Nat) : Nat :=
  let q := m / 2 ^ n
  let r := 2 * (m % 2 ^ n)
  if 2 ^ n < r ∨ (r = 2 ^ n ∧ q % 2 = 1) then q + 1 else q
/-- R97: |x| ÷ 2^E rounded to an integer. -/
def winUnits (c e : Nat) : Nat :=
  match -149 - exp9 e with
  | .ofNat n => fp32Units c * 2 ^ n
  | .negSucc n => nearestShift (fp32Units c) (n + 1)
/-- R97: one value of a windowed RADD. -/
def xalWinOne (e l : Nat) (i : Nat) (x : Nat) : Nat :=
  if fp32Nan x then setBit l 504
  else if fp32Inf x then (if fp32Neg x then setBit l 503 else setBit l 502)
  else
    let q := winUnits x e
    if 2 ^ 47 ≤ q then setBit l 508
    else setBits l (56 * i) 56 (addSigned 56 (bits l (56 * i) 56) (fp32Neg x) q)
def xalWinAll (e : Nat) : Nat → List Nat → Nat → Nat
  | _, [], l => l
  | i, x :: xs, l => xalWinAll e (i + 1) xs (xalWinOne e l i x)
/-- R97: a windowed RADD. -/
def xalWin (l e : Nat) (xs : List Nat) : Nat × Nat :=
  if xalKind l = 1 then (setBit l 357, 6)
  else if xalKind l = 2 ∧ bits l 464 9 ≠ e % 512 then (setBit l 507, 6)
  else if 3 ≤ xalKind l then (l, 6)
  else if bits l 448 16 = 256 then (l, 5)
  else
    let l := setBits (setBits l 509 3 2) 464 9 e
    let l := xalWinAll e 0 xs l
    (setBits l 448 16 (bits l 448 16 + 1), 1)

/-- R99, R100: CLOSED and LATE of a line that is an XAL line. -/
def xalMark (l full win : Nat) : Nat :=
  if xalKind l = 1 then setBit l full else if xalKind l = 2 then setBit l win else l

/-- The exact value of a two's-complement number of `n` bits in units of 2^u. -/
def xalValue (n v : Nat) (u : Int) : XVal :=
  let neg := decide (2 ^ (n - 1) ≤ v)
  let mag := if neg then 2 ^ n - v else v
  match u with
  | .ofNat k => .fin neg (mag * 2 ^ k) 1
  | .negSucc k => .fin neg mag (2 ^ (k + 1))
/-- R98: the code that XCVT gives. -/
def xcvtCode (l : Nat) (f : Fmt) (i : Nat) : Nat :=
  let round := fun (v : XVal) => (roundTo f .rne false v).1
  let pick := fun (nan pinf ninf : Bool) (v : XVal) =>
    if nan || (pinf && ninf) then round .nan
    else if pinf then round (.inf false)
    else if ninf then round (.inf true)
    else round v
  match xalKind l with
  | 0 => round (.fin false 0 1)
  | 1 => pick (l.testBit 354) (l.testBit 352) (l.testBit 353) (xalValue 320 (bits l 0 320) (-149))
  | 2 =>
    pick (l.testBit 504 || l.testBit 508) (l.testBit 502) (l.testBit 503)
      (xalValue 56 (bits l (56 * (i % 8)) 56) (exp9 (bits l 464 9)))
  | _ => round .nan

/-! ## Updates (R70, R82, R99, R100, R160) -/

/-- R82: FP32 order with −0 below +0. -/
def fp32Key (c : Nat) : Int := if fp32Neg c then -((c % 2 ^ 31 : Nat) : Int) - 1 else ((c % 2 ^ 31 : Nat) : Int)
/-- R82: RMIN and RMAX of two codes of a TYPE. -/
def minMax (larger : Bool) (ty m x : Nat) : Nat :=
  let pick := fun (lt : Bool) => if lt != larger then m else x
  match ty with
  | 0x0 => pick (decide ((BitVec.ofNat 32 m).toInt < (BitVec.ofNat 32 x).toInt))
  | 0x2 => pick (decide ((BitVec.ofNat 64 m).toInt < (BitVec.ofNat 64 x).toInt))
  | 0x4 => if fp32Nan m || fp32Nan x then 0x7FC0_0000 else pick (decide (fp32Key m < fp32Key x))
  | _ => pick (decide (m < x))
/-- Bytes of the target of a TYPE. -/
def typeBytes (ty : Nat) : Nat :=
  match ty with
  | 0x2 | 0x3 | 0x7 => 8
  | _ => 4

/-- The fields of an update message (R70). -/
def updType (ws : List Dword) : Nat := msgAt ws 24 40 4
def updPa (ws : List Dword) : Nat := msgAt ws 32 0 52
def updArr (ws : List Dword) : Option Nat := if msgAt ws 24 63 1 = 1 then some (msgAt ws 40 0 52) else none
def updNw (ws : List Dword) : Nat := msgAt ws 24 44 4
def updE (ws : List Dword) : Nat := msgAt ws 24 54 9
/-- Operand words of an update. -/
def updLen (ws : List Dword) : Nat :=
  match updType ws with
  | 0x6 => 4
  | 0x8 => (updNw ws + 2) / 2
  | _ => 1
/-- R70: the TYPE is one of the kind's, no reserved bit is set, and LEN fits. The bytes of the operand words that the operand does not fill
are no reserved bits, but for an RCLOSE (R99). DESIGN CHOICE (log 75). -/
def updOk (kind : Nat) (ws : List Dword) : Bool :=
  let tys := match kind with
    | 0x40 => [0x0, 0x2, 0x5, 0x6]
    | 0x41 | 0x42 => [0x0, 0x1, 0x2, 0x3, 0x4]
    | 0x43 => [0x7]
    | 0x44 => [0x8]
    | 0x45 => [0x9]
    | 0x46 => [0xA]
    | _ => []
  tys.contains (updType ws) && msgAt ws 24 48 6 == 0 && msgAt ws 32 52 12 == 0 && msgAt ws 40 52 12 == 0 &&
    ws.length == 6 + updLen ws && (kind != 0x46 || dwordAt ws 6 == 0)

/-- R160: an address in the reserved region or in a retired frame. -/
def Dev.unbacked (d : Dev) (pa : Nat) : Bool := isReserved pa || d.isRetired pa
def Dev.updUnbacked (d : Dev) (ws : List Dword) : Bool :=
  d.unbacked (updPa ws) || ((updArr ws).map d.unbacked).getD false
def Dev.updClosed (d : Dev) (ws : List Dword) : Bool :=
  d.isClosed (updPa ws) || ((updArr ws).map d.isClosed).getD false
def lineBase (pa : Nat) : Nat := pa / 64 * 64

/-- The effect of an update that is neither unbacked nor late: the device, the status, and what its arrival adds (R85). -/
def Dev.updEffect (d : Dev) (die kind : Nat) (ws : List Dword) : Dev × Nat × Nat :=
  let pa := updPa ws
  let n := typeBytes (updType ws)
  let op := (dwordAt ws 6).toNat % 2 ^ (8 * n)
  let line := d.rd (lineBase pa) 64
  let xal := fun (r : Nat × Nat) =>
    (if r.1 = line then d else d.store (lineBase pa) 64 r.1, r.2, if r.2 = 1 then 1 else 0)
  match kind with
  | 0x40 =>
    if updType ws = 0x5 then xal (xalFull line op)
    else if updType ws = 0x6 then xal (xalWin line (updE ws) (wordsOfDwords (ws.drop 6) 8))
    else (d.store pa n (d.rd pa n + op), 1, 1)
  | 0x41 => (d.store pa n (minMax false (updType ws) (d.rd pa n) op), 1, 1)
  | 0x42 => (d.store pa n (minMax true (updType ws) (d.rd pa n) op), 1, 1)
  | 0x43 => (d.store pa 8 (d.rd pa 8 ||| op), 1, 1)
  | 0x44 =>
    let (d, o) := d.writeOnce die pa (wordsOfDwords (ws.drop 6) (updNw ws + 1)) { accepted := 0, benign := 0, conflict := 0 }
    (d, if o.conflict ≠ 0 then 3 else if o.accepted = 0 then 2 else 1, o.accepted)
  | 0x45 => (d.arrive pa op, 1, 1)
  | _ =>
    let d := if line = xalMark line 355 505 then d else d.store (lineBase pa) 64 (xalMark line 355 505)
    ({ d with closed := insertNat (lineOf pa) d.closed }, 1, 1)

/-- R160, R100, R82 to R99: an update applied at its home, with its arrival. -/
def Dev.applyUpdate (d : Dev) (die kind : Nat) (ws : List Dword) : Dev × Nat :=
  if d.updUnbacked ws then (d, 7)
  else if kind ≠ 0x46 ∧ d.updClosed ws then
    let line := d.rd (lineBase (updPa ws)) 64
    let d := if line = xalMark line 356 506 then d else d.store (lineBase (updPa ws)) 64 (xalMark line 356 506)
    (d.modDie die fun x => x.count fun c => { c with remlate := satInc c.remlate }, 4)
  else
    let (d, st, n) := d.updEffect die kind ws
    match updArr ws with
    | some a => (if n = 0 then d else d.arrive a n, st)
    | none => (d, st)

/-- R137: an update waits until the lines that it may write are clean, and invalidates them until then. DEDUCED (log 52). -/
def Dev.updWait (d : Dev) (ws : List Dword) : Option Dev :=
  let spots := (lineBase (updPa ws)) :: ((updArr ws).map lineBase).toList
  if d.updUnbacked ws || spots.all (fun a => d.clean a 64) then none
  else some (spots.foldl (fun d a => d.flush a 64) d)

end Sys2Proof.Machine
end

