-- ==== Sys2Proof/Machine/Home.lean ====
section
/-!
DEFINITION. Messages at the die they are for: what is discarded (R63, R65, R70, R77, R81), deduplication (R78, R79), updates, reads
(R87 to R89, R101), acknowledgements and timers (R75, R76, R80), and the handle messages (R111, R117 to R134).
-/

namespace Sys2Proof.Machine

/-! ## Discarding -/

/-- R59: a message dropped as malformed is counted where it arrived. -/
def Die.malformed (x : Die) (unit : Option Nat) : Die :=
  match unit with
  | some u => x.modLink u fun l => { l with malformed := satInc8 l.malformed 1 }
  | none => x.count fun c => { c with msgmalf := satInc c.msgmalf }
/-- R65: the incarnation that a die has recorded for a die identifier; its own is its own. -/
def Dev.incOf (d : Dev) (die id : Nat) : Nat :=
  if id = d.dieId die then (d.die die).inc.toNat else getKey 0 (d.die die).peerInc id
/-- R77: held for more than 1 ms. -/
def Dev.heldLong (d : Dev) (m : Msg) : Bool :=
  (msgClass m.ws == 0 || msgClass m.ws == 2) && decide (rawOfUs 1000 < d.raw - m.since)
/-- R81: a request or update that arrived in the quarantine of a die that has reset. -/
def Die.quarantined (x : Die) (m : Msg) : Bool :=
  (msgClass m.ws == 0 || msgClass m.ws == 2) && x.quarantine.any fun t => decide (m.since < t)
/-- Why a message for the die is discarded: the counter that rises. One that came in the quarantine and has been held for more than 1 ms
raises REMHELD (R77) and not REMSTALE (R81). DESIGN CHOICE (log 91). -/
def Dev.screen (d : Dev) (die : Nat) (m : Msg) : Option (Counters → Counters) :=
  if d.heldLong m then some fun c => { c with remheld := satInc c.remheld }
  else if !msgE2eOk m.ws then some fun c => { c with e2efail := satInc c.e2efail }
  else if msgClass m.ws ≠ 3 ∧ d.incOf die (msgSrc m.ws) ≠ msgSinc m.ws then some fun c => { c with remstale := satInc c.remstale }
  else if (d.die die).quarantined m then some fun c => { c with remstale := satInc c.remstale }
  else none
/-- Message `idx` of a die's inbox when it is of a kind. -/
def Dev.pick (d : Dev) (die idx kind : Nat) : Option Msg :=
  match (d.die die).inbox[idx]? with
  | some m => if msgKind m.ws = kind then some m else none
  | none => none
def Dev.consume (d : Dev) (die idx : Nat) : Dev := d.modDie die fun x => { x with inbox := x.inbox.eraseIdx idx }
/-- A message of a kind read: discarded, or given to `f` with the device from which it has been taken. -/
def Dev.onMsg (d : Dev) (die idx kind : Nat) (ok : List Dword → Bool) (f : Dev → Msg → Dev) : Dev :=
  match d.pick die idx kind with
  | none => d
  | some m =>
    match d.screen die m with
    | some g => (d.consume die idx).modDie die fun x => x.count g
    | none =>
      if ok m.ws then f (d.consume die idx) m
      else (d.consume die idx).modDie die fun x => x.malformed m.unit

/-! ## Deduplication (R78) -/

/-- R75: one acknowledgement entry. -/
def Dev.acknowledge (d : Dev) (die : Nat) (tag : Dword) (st : Nat) : Dev :=
  d.emit die (mkMsg 0x20 (tagDie tag) (d.dieId die) (d.die die).inc [tag, BitVec.ofNat 64 st])
def Die.window? (x : Die) (src ctx : Nat) : Option Window := x.windows.find? fun w => w.src == src && w.ctx == ctx
def Die.putWindow (x : Die) (w : Window) : Die :=
  { x with windows := (x.windows.filter fun v => !(v.src == w.src && v.ctx == w.ctx)) ++ [w] }
/-- R78: the window after LWM has moved to a message's OLDEST. -/
def Window.advance (w : Window) (oldest : Nat) : Window :=
  if seqAhead oldest w.lwm then { w with lwm := oldest, seen := w.seen.filter fun e => !seqAhead oldest e.1 } else w
/-- R78, R119: a tagged message with its OLDEST. `wait` says that it cannot be applied yet, and what happens meanwhile; `f` applies
it and gives its status. -/
def Dev.tagged (d : Dev) (die idx kind : Nat) (ok : List Dword → Bool) (oldest : List Dword → Nat)
    (wait : Dev → Msg → Option Dev) (f : Dev → Msg → Dev × Nat) : Dev :=
  d.onMsg die idx kind ok fun e m =>
    let tag := dwordAt m.ws 2
    let x := e.die die
    match x.window? (tagDie tag) (tagCtx tag) with
    | none =>
      if 8192 ≤ x.windows.length then e.modDie die fun x => x.count fun c => { c with remnowin := satInc c.remnowin }
      else go e m tag { src := tagDie tag, ctx := tagCtx tag, lwm := oldest m.ws, seen := [], lastAt := e.raw }
    | some w => go e m tag { w with lastAt := e.raw }
where
  go (e : Dev) (m : Msg) (tag : Dword) (w : Window) : Dev :=
    let w := w.advance (oldest m.ws)
    let s := tagSeq tag
    let rep := fun (x : Die) => (x.putWindow w).count fun c => { c with remdup := satInc c.remdup }
    if seqAhead w.lwm s then e.modDie die rep
    else
      match findKey s w.seen with
      | some st => (e.modDie die rep).acknowledge die tag st
      | none =>
        match wait d m with
        | some d' => d'
        | none =>
          let (e, st) := f e m
          (e.modDie die fun x => x.putWindow { w with seen := putKey s st w.seen }).acknowledge die tag st

/-- OLDEST of a message whose CTL word holds it (R70, R134). -/
def ctlOldest (ws : List Dword) : Nat := msgAt ws 24 0 40

/-! ## Updates -/

def Dev.update (d : Dev) (die idx kind : Nat) : Dev :=
  d.tagged die idx kind (updOk kind) ctlOldest (fun d m => d.updWait m.ws) fun d m => d.applyUpdate die kind m.ws
def execRaddUpdate (die idx : Nat) (s : State) : Out := s.onDev fun d => d.update die idx 0x40
def execRminUpdate (die idx : Nat) (s : State) : Out := s.onDev fun d => d.update die idx 0x41
def execRmaxUpdate (die idx : Nat) (s : State) : Out := s.onDev fun d => d.update die idx 0x42
def execRorUpdate (die idx : Nat) (s : State) : Out := s.onDev fun d => d.update die idx 0x43
def execRwonceUpdate (die idx : Nat) (s : State) : Out := s.onDev fun d => d.update die idx 0x44
def execRarriveUpdate (die idx : Nat) (s : State) : Out := s.onDev fun d => d.update die idx 0x45
def execRcloseUpdate (die idx : Nat) (s : State) : Out := s.onDev fun d => d.update die idx 0x46

/-! ## What follows an answer (R75, R76, R92, R112, R122, R127) -/

/-- What an outstanding message is answered with: an acknowledgement of a status, or nothing any more. -/
inductive Answer where
  | status (st : Nat)
  | abandoned
deriving DecidableEq, Repr

/-- R395: the token of an RREAD, from its record; 0 for one that was abandoned. -/
def ReadRec.status (r : ReadRec) : Nat := if r.fail7 then 7 else if r.conflict then 3 else if r.allBenign then 2 else 1
def ReadRec.token (r : ReadRec) (st : Nat) : Dword := BitVec.ofNat 64 (1 + 2 * st + 2 ^ 16 * r.got.length)

/-- R127 DELIVERY: an INVOKE or INVOKEH, or a forward of one, was abandoned. -/
def Dev.undelivered (d : Dev) (die : Nat) (o : Outst) (h : Dword) : Dev :=
  if hOrigin h = d.dieId die then
    match d.slotOf die h with
    | some e =>
      if e.state = hPENDING then
        d.modDie die fun x => x.setSlot (hSlot h) { e with state := hBROKEN, cause := cDELIVERY, root := h }
      else d
    | none => d
  else
    d.breakNew die
      { newh := h, fn := 0, args := [], arrpa := bits (dwordAt o.ws 5).toNat 0 52, arrva := o.note.va, addrh := 0, base := 0, isq := 0,
        issuer := 0 }
      cDELIVERY

/-- R122: the ORIGIN of a moved handle has acknowledged its new host, which now tells the old one with its own die as LOC and the new VER. A
record that has gone since is told of as the ORIGIN was. -/
def Dev.tellOld (d : Dev) (die : Nat) (o : Outst) (h : Dword) (old : Nat) : Dev :=
  if old = d.dieId die then d
  else
    match (d.die die).host? h with
    | some r => d.sendLoc die r old .none
    | none => d.enqueue die o.ctx 0x47 (some old) (fun tag => tag :: o.ws.drop 3) devThread 0 .none
/-- The handle procedure or the command that waited for a message goes on. A record whose record move is abandoned stays as it is, PENDING and
moving: R122 gives it no other end. DESIGN CHOICE (log 76). -/
def Dev.follow (d : Dev) (die : Nat) (o : Outst) (r : Option ReadRec) (a : Answer) : Dev :=
  match o.after, a with
  | .none, _ => d
  | .command id, .status st => d.settle id (remoteToken st)
  | .command id, .abandoned =>
    if o.kind = 0x01 then d.settle id ((r.map fun r => r.token 0).getD 1#64)
    else if o.kind = 0x04 then d.modCmd id fun c => { c with
      result := 0x500#64,
      body := match c.body with
        | .hget uid off _ => .hget uid off (some [])
        | b => b }
    else d.settle id (remoteToken 0)
  | .arrival pa va, .status _ => d.sendArrival die o.ctx pa va
  | .moved h, .status _ => d.moved die h
  | .toldOrigin h old, .status _ => d.tellOld die o h old
  | .invoked h, .abandoned => d.undelivered die o h
  | .arrival _ _, .abandoned | .moved _, .abandoned | .toldOrigin _ _, .abandoned | .invoked _, .status _ | .launch _, _ => d

/-- R75, R427: an acknowledged message: the error-queue entry comes first; OLDEST advances. -/
def Dev.answered (d : Dev) (die : Nat) (o : Outst) (st : Nat) : Dev :=
  let d := if 3 ≤ st ∧ st ≤ 7 then d.errqOf die o st o.kind (o.dst.getD 0) else d
  let d := d.modDie die fun x => x.dropOut o.ctx o.seq
  (d.follow die o none (.status st)).pump die
/-- R76, R80: an abandoned message: RETRY_EXHAUSTED. DEDUCED (log 34). -/
def Dev.abandon (d : Dev) (die : Nat) (o : Outst) : Dev :=
  let r := (d.die die).readRec o.ctx o.seq
  let d := (d.errqOf die o 0x01 o.kind (o.dst.getD 0)).modDie die fun x => x.dropOut o.ctx o.seq
  (d.follow die o r .abandoned).pump die

/-- The outstanding message of a tag of this die's present incarnation (R43, R81). -/
def Dev.outOf (d : Dev) (die : Nat) (tag : Dword) : Option Outst :=
  if tagDie tag = d.dieId die ∧ tagInc tag = (d.die die).inc.toNat then
    match (d.die die).out? (tagCtx tag) (tagSeq tag) with
    | some o => if o.sent then some o else none
    | none => none
  else none
/-- R75: one entry of an acknowledgement; reads are answered by their replies. -/
def Dev.ackEntry (d : Dev) (die : Nat) (tag : Dword) (st : Nat) : Dev :=
  match d.outOf die tag with
  | some o => if o.kind = 0x01 ∨ o.kind = 0x04 then d else d.answered die o st
  | none => d
/-- R71: the entries of an acknowledgement. -/
def ackEntries : List Dword → List (Dword × Nat)
  | t :: s :: ws => (t, bits s.toNat 0 3) :: ackEntries ws
  | _ => []
/-- R71: N from 1 to 12, no reserved bit set, no reserved status. -/
def ackOk (ws : List Dword) : Bool :=
  isMult ws.length 2 && decide (4 ≤ ws.length) &&
    (List.range ((ws.length - 2) / 2)).all fun i => decide (1 ≤ (dwordAt ws (3 + 2 * i)).toNat ∧ (dwordAt ws (3 + 2 * i)).toNat ≤ 7)
def execAcknowledgement (die idx : Nat) (s : State) : Out :=
  s.onDev fun d => d.onMsg die idx 0x20 ackOk fun d m =>
    (ackEntries (m.ws.drop 2)).foldl (fun d e => d.ackEntry die e.1 e.2) d

/-- R76, R88, R61: each time the retransmission time passes, counted from the first transmission whatever the budgets, a message is due
to be sent again; it goes when the budgets let it. After the eighth time it is abandoned. -/
def Outst.fallsDue (o : Outst) : Outst := { o with resends := o.resends + 1, sentAt := o.sentAt + rawOfUs o.retrans, due := true }
def execRetransmissionTimer (die ctx seq : Nat) (s : State) : Out :=
  s.onDev fun d =>
    match (d.die die).out? ctx seq with
    | none => d
    | some o =>
      if !o.sent || decide (d.raw - o.sentAt < rawOfUs o.retrans) then d
      else if 8 ≤ o.resends then d.abandon die o
      else (d.modDie die fun x => x.modOut ctx seq Outst.fallsDue).resend die o.fallsDue

/-- R77: a request or update held for more than 1 ms, in the inbox, on its way, or waiting for a link, is discarded. -/
def Die.dropHeld (x : Die) (long : Msg → Bool) (idx : Nat) : Option Die :=
  match x.inbox[idx]? with
  | some m => if long m then some { x with inbox := x.inbox.eraseIdx idx } else none
  | none =>
    let i := idx - x.inbox.length
    match x.transit[i]? with
    | some m => if long m then some { x with transit := x.transit.eraseIdx i } else none
    | none =>
      let go := x.links.any fun l => l.queue.any long
      if go then some { x with links := x.links.map fun l => { l with queue := l.queue.filter fun m => !long m } } else none
def execHeldMessageTimeout (die idx : Nat) (s : State) : Out :=
  s.onDev fun d =>
    match (d.die die).dropHeld d.heldLong idx with
    | some x =>
      let n := (d.die die).links.foldl (fun n l => n + (l.queue.filter d.heldLong).length) 0
      let k := if idx < (d.die die).inbox.length + (d.die die).transit.length then 1 else n
      d.setDie die (x.count fun c => { c with remheld := (List.range k).foldl (fun v _ => satInc v) c.remheld })
    | none => d

/-- R79: a window that has received no message for 192 ms. -/
def execWindowExpiry (die src ctx : Nat) (s : State) : Out :=
  s.onDev fun d =>
    d.modDie die fun x => { x with windows := x.windows.filter fun w =>
      !(w.src == src && w.ctx == ctx && decide (rawOfUs 192000 ≤ d.raw - w.lastAt)) }

/-! ## Remote reads (R87 to R89, R101) -/

/-- R71: an RREAD request without a reserved bit set. -/
def rreadOk (ws : List Dword) : Bool :=
  let n := msgAt ws 24 0 13
  ws.length == 6 && msgAt ws 24 13 51 == 0 && decide (4 ≤ n ∧ n ≤ 4096) && isMult n 4 && msgAt ws 32 52 12 == 0
/-- R71, R87, R160: one reply. -/
def Dev.readPart (d : Dev) (die : Nat) (ws : List Dword) (p : Nat) : Dev :=
  let n := min 64 (msgAt ws 24 0 13 - 64 * p)
  let pa := msgAt ws 32 0 52 + 64 * p
  let st := if d.unbacked pa || d.unbacked (pa + n - 1) then 7 else 0
  let data := if st = 0 then dwordsOf (d.rdBytes pa n) else []
  let tag := dwordAt ws 2
  d.emit die (mkMsg 0x21 (tagDie tag) (d.dieId die) (d.die die).inc
    ([tag, BitVec.ofNat 64 (p + n * 2 ^ 6 + st * 2 ^ 13)] ++ data))
def execRreadRequest (die idx : Nat) (s : State) : Out :=
  s.onDev fun d => d.onMsg die idx 0x01 rreadOk fun d m =>
    ((List.range (partsOf (msgAt m.ws 24 0 13))).filter fun p => msgAt m.ws 40 p 1 == 1).foldl
      (fun d p => d.readPart die m.ws p) d

/-- R89, R101, R426: an error-queue entry that a reply causes. DEDUCED (log 41). -/
def Dev.replyError (d : Dev) (die : Nat) (o : Outst) (cause : Nat) : Dev :=
  d.errqOf die o cause 0x21 (o.dst.getD 0)
/-- R88, R89, R101: the effect of one part, and the record after it. A part with STATUS 7 is HOME_TRANSLATION whether or not its line is
closed, and REMLATE does not change: it has no words that the close could turn away. DESIGN CHOICE (log 59). One whose landing line or
arrival word lies in a frame retired since the issue (R164) counts as one with STATUS 7. DESIGN CHOICE (log 89). -/
def Dev.takePart (d : Dev) (die : Nat) (o : Outst) (r : ReadRec) (ws : List Dword) (p : Nat) : Dev × ReadRec :=
  let pa := natAt r.landing p
  let r := { r with got := r.got ++ [p] }
  if msgAt ws 24 13 3 ≠ 0 ∨ d.isRetired pa ∨ d.isRetired r.arrival then (d.replyError die o 0x07, { r with fail7 := true, allBenign := false })
  else if d.isClosed pa || d.isClosed r.arrival then
    ((d.modDie die fun x => x.count fun c => { c with remlate := satInc c.remlate }).replyError die o 0x04,
     { r with allBenign := false })
  else
    let n := min 64 (r.n - 64 * p) / 4
    let (d, w) := d.writeOnce die pa (wordsOfDwords (ws.drop 4) n) { accepted := 0, benign := 0, conflict := 0 }
    let d := if w.accepted = 0 then d else d.arrive r.arrival w.accepted
    let d := if w.conflict = 0 then d else d.replyError die o 0x03
    (d, { r with conflict := r.conflict || w.conflict != 0, allBenign := r.allBenign && w.benign == n })
def replyOk (ws : List Dword) : Bool :=
  let st := msgAt ws 24 13 3
  let n := msgAt ws 24 6 7
  decide (4 ≤ n ∧ n ≤ 64) && (st == 0 || st == 7) && msgAt ws 24 16 48 == 0 &&
    ws.length == 4 + (if st = 0 then (n + 7) / 8 else 0)
/-- R88, R425: a part of an outstanding read; the last one frees the record and completes the command. -/
def execReadReply (die idx : Nat) (s : State) : Out :=
  s.onDev fun d => d.onMsg die idx 0x21 replyOk fun e m =>
    let p := msgAt m.ws 24 0 6
    match e.outOf die (dwordAt m.ws 2) with
    | none => e
    | some o =>
      match (e.die die).readRec o.ctx o.seq with
      | none => e
      | some r =>
        if partsOf r.n ≤ p ∨ r.got.contains p then e
        else if !(e.clean (natAt r.landing p) 64 && e.clean (lineBase r.arrival) 64) then
          (d.flush (natAt r.landing p) 64).flush (lineBase r.arrival) 64
        else
          let (e, r) := e.takePart die o r m.ws p
          if r.got.length < partsOf r.n then
            e.modDie die fun x =>
              { x.modOut o.ctx o.seq (fun o => { o with sentAt := e.raw }) with
                reads := x.reads.map fun q => if q.ctx = r.ctx ∧ q.seq = r.seq then r else q }
          else
            let e := e.modDie die fun x => x.dropOut o.ctx o.seq
            (match o.after with
            | .command id => e.settle id (r.token r.status)
            | .none | .arrival _ _ | .moved _ | .toldOrigin _ _ | .invoked _ | .launch _ => e).pump die

/-! ## Handle messages -/

/-- R117: what the receiving die does with a message addressed to a handle. -/
inductive Route where
  | act (r : HostRec)
  | pass (dst : Nat)
  | hold
  | stale
deriving DecidableEq, Repr
def Dev.route (d : Dev) (die : Nat) (h : Dword) : Route :=
  match (d.die die).host? h, (d.die die).forward? h with
  | some r, _ => .act r
  | none, some f => .pass f.loc
  | none, none =>
    if hOrigin h ≠ d.dieId die then .pass (hOrigin h)
    else
      match d.slotOf die h with
      | some e => if e.locv then .pass e.loc else .hold
      | none => .stale
/-- R142, R431: a context that the die does not have, or that has been aborted. -/
def Dev.noCtx (d : Dev) (die : Nat) (h : Dword) : Bool :=
  match d.ctx? die (hCtx h) with
  | some k => k.ending == some .aborted
  | none => true
/-- What a message without a task of its own tells of a handle: its completion word. -/
def Task.named (h : Dword) (arrpa : Nat) (arrva : Dword) : Task :=
  { newh := h, fn := 0, args := [], arrpa := arrpa, arrva := arrva, addrh := 0, base := 0, isq := 0, issuer := 0 }
/-- R127 NOCTX: told to the ORIGIN; no record is kept. -/
def Dev.tellNoCtx (d : Dev) (die : Nat) (h : Dword) (arrpa : Nat) (arrva : Dword) (ver : Nat) : Dev :=
  let r := HostRec.fresh (.named h arrpa arrva) 4
  d.sendLoc die { r with state := hBROKEN, cause := cNOCTX, root := h, ver := ver } (hOrigin h) (.arrival arrpa arrva)

/-- R134: the invocation that a message brings. -/
def taskOf (kind : Nat) (m : Msg) : Task :=
  let ws := m.ws
  let n := 4 * msgAt ws 24 47 5
  let off := if kind = 0x03 then 72 else 48
  { newh := dwordAt ws 4, fn := msgAt ws 24 52 12, args := (bytesOf (ws.drop (off / 8))).take n, arrpa := msgAt ws 40 0 52,
    arrva := m.note.va, addrh := if kind = 0x03 then dwordAt ws 6 else 0, base := if kind = 0x03 then msgAt ws 56 0 40 else 0,
    isq := if kind = 0x03 then msgAt ws 56 40 16 else 0, issuer := if kind = 0x03 then (dwordAt ws 8).extractLsb' 0 32 else 0 }
def invokeMsgOk (kind : Nat) (ws : List Dword) : Bool :=
  let argw := msgAt ws 24 47 5
  decide (argw ≤ 16) && msgAt ws 40 52 12 == 0 && msgAt ws 24 40 7 == 0 &&
    ws.length == (if kind = 0x03 then 9 else 6) + (argw + 1) / 2
/-- R126, R130: no room for one more host record. -/
def Dev.hostsFull (d : Dev) (die : Nat) : Bool := decide (65536 ≤ (d.die die).hosts.length)

/-- R118, R108: the record of the new handle of a message, which may have been released already (R133). -/
def Dev.recordOf (d : Dev) (die : Nat) (t : Task) (freed : Bool) : Dev :=
  d.createRec die
    { HostRec.fresh t (((d.fnOf die (hCtx t.newh) t.fn).map FnEntry.resb).getD 4) with freed := freed }
/-- R111, R108: an INVOKE accepted. -/
def Dev.acceptInvoke (d : Dev) (die : Nat) (t : Task) : Dev :=
  let d := d.recordOf die t false
  let (d, fs) := d.submit die t []
  d.finish die fs
/-- R111 INVOKE_MESSAGE. -/
def execInvokeMessage (die idx : Nat) (s : State) : Out :=
  s.onDev fun d => d.tagged die idx 0x02 (invokeMsgOk 0x02) ctlOldest
    (fun d _ => if d.hostsFull die then some d else none) fun d m =>
      let t := taskOf 0x02 m
      if d.noCtx die t.newh then (d.tellNoCtx die t.newh t.arrpa t.arrva 0, 1) else (d.acceptInvoke die t, 1)

/-- R126, R117: a handle request that finds no room waits in its virtual channel: `queued` says how many messages and cursors it would add
to the inbox of the record that it is for; a message held at the ORIGIN is one. -/
def Dev.noRoom (d : Dev) (die : Nat) (h : Dword) (needsRec : Bool) (queued : HostRec → Nat) : Option Dev :=
  let full := fun (n : Nat) => decide (16384 < (d.die die).inboxUse + n)
  match d.route die h with
  | .act r => if full (queued r) || (needsRec && d.hostsFull die) then some d else none
  | .hold => if full 1 then some d else none
  | .pass _ => none
  | .stale => if needsRec && d.hostsFull die then some d else none
/-- R117: a message held at the ORIGIN until the handle's location is confirmed. -/
def Dev.holdAt (d : Dev) (die : Nat) (h : Dword) (m : Msg) : Dev :=
  d.modDie die fun x => let e := x.slot (hSlot h); x.setSlot (hSlot h) { e with held := e.held ++ [m] }
/-- R118: the host of an addressed handle tells it to the issuer of a message that was forwarded at least once: a forwarded INVOKEH carries
the tag of another die than its new handle's ORIGIN, which issued it. -/
def Dev.tellIssuer (d : Dev) (die : Nat) (r : HostRec) (m : Msg) (issuer : Nat) : Dev :=
  if m.note.fwd || tagDie (dwordAt m.ws 2) != issuer then d.sendLoc die r issuer .none else d

/-- R118, R125, R128: an INVOKEH at the host of its addressed handle. -/
def Dev.acceptInvokeh (d : Dev) (die : Nat) (r : HostRec) (t : Task) (m : Msg) : Dev :=
  let d := ((d.recordOf die t m.note.freed).modDie die fun x => x.modHost r.h fun r => r.enter t).tellIssuer die r m (hOrigin t.newh)
  if r.state = hPENDING ∨ r.incoming.isSome then d
  else
    let (d, fs) := d.admitNext die r.h
    d.finish die fs
/-- R133: HFREE at the host. -/
def Dev.freeAt (d : Dev) (die : Nat) (h : Dword) : Dev :=
  d.modDie die fun x => (x.modHost h fun r => { r with freed := true }).sweep h
/-- R117, R127: the new handle of an INVOKEH whose addressed handle has an old generation. -/
def Dev.staleNew (d : Dev) (die : Nat) (t : Task) (m : Msg) : Dev :=
  let d := d.breakNew die t cSTALE
  if m.note.freed then d.freeAt die t.newh else d
/-- R117 INVOKEH_MESSAGE. -/
def execInvokehMessage (die idx : Nat) (s : State) : Out :=
  s.onDev fun d => d.tagged die idx 0x03 (invokeMsgOk 0x03) ctlOldest
    (fun d m => let t := taskOf 0x03 m; d.noRoom die t.addrh true fun r => if r.newOrder t then 2 else 1) fun d m =>
      let t := taskOf 0x03 m
      if d.noCtx die t.newh then (d.tellNoCtx die t.newh t.arrpa t.arrva 0, 1)
      else
        match d.route die t.addrh with
        | .act r => if r.freed then (d.staleNew die t m, 1) else (d.acceptInvokeh die r t m, 1)
        | .pass dst => (d.passOn die (hCtx t.newh) m dst, 1)
        | .hold => (d.holdAt die t.addrh m, 1)
        | .stale => (d.staleNew die t m, 1)

/-- R131, R134: the reply to an HGET request. -/
def Dev.sendResult (d : Dev) (die : Nat) (tag : Dword) (state : Nat) (cause fcode : Byte) (root : Dword) (data : List Byte) : Dev :=
  d.emit die (mkMsg 0x22 (tagDie tag) (d.dieId die) (d.die die).inc
    ([tag, BitVec.ofNat 64 (state + 2 ^ 8 * cause.toNat + 2 ^ 16 * fcode.toNat + 2 ^ 24 * data.length), root] ++ dwordsOf data))
/-- R118: an HGET request forwarded as it arrived: its destination alone changes, and HOPS where this die receives it once more; it visits
at most 64 dies (R39), and this die has held it since it came (R77). -/
def Dev.passHget (d : Dev) (die dst : Nat) (m : Msg) : Dev :=
  let hops := if dst = d.dieId die then msgHops m.ws + 1 else msgHops m.ws
  if 64 < hops then d.modDie die fun x => x.count fun c => { c with unroute := satInc c.unroute }
  else
    let keep := dwordAt m.ws 0 &&& 0x00FF_FFFF_FFFF_C000#64
    d.emitSince die (m.ws.set 0 (keep ||| BitVec.ofNat 64 (hops * 2 ^ 56 + dst % 2 ^ 14))) { m.note with fwd := true } m.since
/-- R131 HGET_REQUEST: answered at once by the host; no state is kept. -/
def execHgetRequest (die idx : Nat) (s : State) : Out :=
  s.onDev fun d => d.onMsg die idx 0x04 (fun ws => ws.length == 5 && dwordAt ws 3 == 0) fun d m =>
    let tag := dwordAt m.ws 2
    let h := dwordAt m.ws 4
    if d.noCtx die h then d.sendResult die tag hBROKEN cNOCTX 0 h []
    else
      match d.route die h with
      | .act r =>
        if r.freed then d.sendResult die tag hBROKEN cSTALE 0 h []
        else
          let d := d.sendResult die tag r.state r.cause r.fcode (if r.state = hBROKEN then r.root else 0) r.result
          d.tellIssuer die r m (tagDie tag)
      | .pass dst => d.passHget die dst m
      | .hold => d.sendResult die tag hPENDING 0 0 0 []
      | .stale => d.sendResult die tag hBROKEN cSTALE 0 h []

/-- R133: HFREE that has reached the host without the ORIGIN: the ORIGIN's slot must be released too, and is told. DEDUCED (log 37). -/
def Dev.freeHere (d : Dev) (die : Nat) (r : HostRec) (m : Msg) : Dev :=
  let d' := d.freeAt die r.h
  if r.freed || tagDie (dwordAt m.ws 2) == hOrigin r.h || d.dieId die == hOrigin r.h then d'
  else d'.passOn die (hCtx r.h) m (hOrigin r.h)
/-- R133 HFREE_MESSAGE. At the ORIGIN the slot is released, which sends the HFREE on to the host or holds it. -/
def execHfreeMessage (die idx : Nat) (s : State) : Out :=
  s.onDev fun d => d.tagged die idx 0x05 (fun ws => ws.length == 5 && msgAt ws 24 40 24 == 0) ctlOldest (fun _ _ => none)
    fun d m =>
      let h := dwordAt m.ws 4
      if d.noCtx die h then (d, 1)
      else if (d.slotOf die h).isSome then (d.release die h devThread, 1)
      else
        match d.route die h with
        | .act r => (d.freeHere die r m, 1)
        | .pass dst => (d.passOn die (hCtx h) m dst, 1)
        | .hold | .stale => (d, 1)

/-- R134: the cursors of a record move. -/
def moveCursors (ws : List Dword) : List Cursor :=
  (List.range (msgAt ws 24 40 4)).map fun i =>
    { die := bits (dwordAt ws (7 + 2 * i)).toNat 40 14, base := bits (dwordAt ws (7 + 2 * i)).toNat 0 40,
      expect := bits (dwordAt ws (8 + 2 * i)).toNat 0 16 }
def moveOk (ws : List Dword) : Bool :=
  decide (msgAt ws 24 40 4 ≤ 8) && msgAt ws 24 46 18 == 0 && msgAt ws 48 52 12 == 0 && ws.length == 7 + 2 * msgAt ws 24 40 4
/-- R122: a record move taken in: the record it carries, made here unless it is this die's own, and its cursors. -/
def Dev.moveIn (d : Dev) (die src : Nat) (m : Msg) : Dev :=
  let h := dwordAt m.ws 4
  let arr := msgAt m.ws 48 0 52
  let cs := moveCursors m.ws
  match (d.die die).host? h with
  | some r =>
    if r.incoming.isSome then d.modDie die fun x => x.modHost h fun r => { r with arrpa := arr, cursors := r.cursors ++ cs } else d
  | none =>
    let ((resb, ver, old), d) := d.oldFacts h src
    let r := HostRec.fresh (.named h arr m.note.va) resb
    d.modDie die fun x => { x with hosts := x.hosts ++ [{ r with ver := ver, cursors := cs, incoming := some old }] }
/-- R122 RECORD_MOVE. A move toward a handle of an old generation breaks the moved handle with cause STALE. DEDUCED (log 34). -/
def execRecordMove (die idx : Nat) (s : State) : Out :=
  s.onDev fun d => d.tagged die idx 0x06 moveOk ctlOldest
    (fun d m =>
      let here := (d.die die).host? (dwordAt m.ws 4)
      let n := if here.all fun r => r.incoming.isSome then (moveCursors m.ws).length else 0
      d.noRoom die (dwordAt m.ws 5) here.isNone fun _ => n) fun d m =>
    let h := dwordAt m.ws 4
    let fwd := dwordAt m.ws 5
    let src := msgSrc m.ws
    let last := msgAt m.ws 24 45 1 == 1
    if d.noCtx die h then
      let ((_, ver, _), d) := d.oldFacts h src
      (if last then d.tellNoCtx die h (msgAt m.ws 48 0 52) m.note.va ((ver + 1) % 65536) else d, 1)
    else
      match d.route die fwd with
      | .act _ =>
        let d := d.moveIn die src m
        (if last then d.attach die h fwd else d, 1)
      | .pass dst => (d.passOn die (hCtx h) m dst, 1)
      | .hold => (d.holdAt die fwd m, 1)
      | .stale =>
        let d := d.moveIn die src m
        if last then
          let d := d.modDie die fun x => x.modHost h fun r => { r with ver := (r.ver + 1) % 65536, incoming := none }
          (d.finish die [.broken h cSTALE h], 1)
        else (d, 1)

/-- R131, R239: the words of a reply, each with its offset. -/
def wordsFrom (bs : List Byte) : List (Nat × List Byte) :=
  (List.range ((bs.length + 3) / 4)).map fun i => (4 * i, (bs.drop (4 * i)).take 4)
/-- R131 RESULT_REPLY: the reply stands in the landing line until its words are copied to scratchpad (COPY_GRANULE). -/
def execResultReply (die idx : Nat) (s : State) : Out :=
  s.onDev fun d => d.onMsg die idx 0x22
    (fun ws => decide (5 ≤ ws.length ∧ msgAt ws 24 24 7 ≤ 64) && ws.length == 5 + (msgAt ws 24 24 7 + 7) / 8) fun d m =>
      match d.outOf die (dwordAt m.ws 2) with
      | none => d
      | some o =>
        if o.kind ≠ 0x04 then d
        else
          let st := msgAt m.ws 24 0 4
          let n := msgAt m.ws 24 24 7
          let (bs, tok) :=
            if st = hDONE then ((bytesOf (m.ws.drop 5)).take n, 2 + 2 ^ 24 * n)
            else if st = hBROKEN then
              (leBytes (dwordAt m.ws 4).toNat 8, 3 + 2 ^ 8 * msgAt m.ws 24 8 8 + 2 ^ 16 * msgAt m.ws 24 16 8 + 2 ^ 24 * 8)
            else ([], 1)
          let d := d.modDie die fun x => x.dropOut o.ctx o.seq
          (match o.after with
          | .command id => d.modCmd id fun c => { c with
              result := BitVec.ofNat 64 tok
              body := match c.body with
                | .hget uid off _ => .hget uid off (some (wordsFrom bs))
                | b => b }
          | .none | .arrival _ _ | .moved _ | .toldOrigin _ _ | .invoked _ | .launch _ => d).pump die

/-- R118, R134: a VER that is not behind another. The spec gives no rule for the wrap of its 16 bits: the model takes it modulo 2¹⁶, and as
behind in the half of the values before the other. DESIGN CHOICE (log 92). -/
def verOk (new held : Nat) : Bool := decide ((new + 65536 - held % 65536) % 65536 < 32768)
/-- R117, R133: the messages held at a slot sent on to its location, and a held HFREE after them. -/
def Dev.unhold (d : Dev) (die slot : Nat) (h : Dword) : Dev :=
  let e := (d.die die).slot slot
  let d := d.modDie die fun x => x.setSlot slot { e with held := [] }
  let d := e.held.foldl (fun d m => d.passOn die e.ctx m e.loc) d
  match e.freeing with
  | some thread => (d.modDie die fun x => x.freeHrt slot).sendFree die h e.loc thread
  | none => d
/-- R118, R122, R134: a location update applied. -/
def Dev.applyLoc (d : Dev) (die : Nat) (ws : List Dword) : Dev :=
  let h := dwordAt ws 4
  let st := msgAt ws 24 0 4
  let cause : Byte := BitVec.ofNat 8 (msgAt ws 24 8 8)
  let fcode : Byte := BitVec.ofNat 8 (msgAt ws 24 16 8)
  let ver := msgAt ws 24 24 16
  let loc := msgAt ws 40 0 14
  let behind := ((d.die die).forward? h).any fun f => !verOk ver f.ver
  let d := if loc = d.dieId die || behind then d else d.modDie die fun x => x.dropForward h
  if hOrigin h = d.dieId die then
    let n := hSlot h
    let e := (d.die die).slot n
    let mine := e.used && e.ctx == hCtx h && (e.gen == hGen h || (e.freeing.isSome && e.gen == nextGen (hGen h)))
    if mine && verOk ver e.ver then
      let e' := { e with loc := loc, ver := ver, locv := true }
      let e' := if e.state = hPENDING ∧ st ≠ hPENDING then
          { e' with state := st, cause := cause, fcode := fcode, root := dwordAt ws 6 } else e'
      let d := d.modDie die fun x => x.setSlot n e'
      if e.locv then d else d.unhold die n h
    else d
  else
    d.modDie die fun x =>
      match x.loc? h with
      | some e =>
        if verOk ver e.ver then
          let keep := decide (e.state ≠ hPENDING ∧ st = hPENDING)
          let e' := if keep then { e with loc := loc, ver := ver }
            else { e with loc := loc, ver := ver, state := st, cause := cause, fcode := fcode }
          { x with locs := x.locs.map fun p => if p.h = h then e' else p }
        else x
      | none =>
        { x with locs := x.locs.drop (x.locs.length - 16383) ++
            [{ h := h, loc := loc, ver := ver, state := st, cause := cause, fcode := fcode }] }
/-- R134 LOCATION_UPDATE. -/
def execLocationUpdate (die idx : Nat) (s : State) : Out :=
  s.onDev fun d => d.tagged die idx 0x47
    (fun ws => ws.length == 8 && msgAt ws 40 14 50 == 0 && decide (1 ≤ msgAt ws 24 0 4 ∧ msgAt ws 24 0 4 ≤ 3))
    (fun ws => msgAt ws 56 0 40) (fun _ _ => none) fun d m =>
      (if d.noCtx die (dwordAt m.ws 4) then d else d.applyLoc die m.ws, 1)

/-! ## What a JOIN ends (R79, R80, R129) -/

/-- R80: unacknowledged updates homed on a die that has reset, and reads from it, end. -/
def Dev.opsReset (d : Dev) (die id : Nat) : Dev :=
  ((d.die die).outs.filter fun o => o.dst == some id && (classOf o.kind == some 2 || o.kind == 0x01)).foldl
    (fun d o => d.abandon die o) d
/-- R64, R65: an incarnation recorded in one die, with what a new one ends. -/
def Dev.recordInc (d : Dev) (die id inc : Nat) : Dev :=
  if d.incOf die id = inc ∨ id = d.dieId die then d
  else
    let d := d.modDie die fun x =>
      { x with peerInc := setKey 0 x.peerInc id (inc % 16), windows := x.windows.filter fun w => w.src != id }
    (d.opsReset die id).handlesReset die id

end Sys2Proof.Machine
end

