-- ==== Sys2Proof/Machine/System.lean ====
section
/-!
DEFINITION. System instructions (R414 to R424): launching work, resizing a thread's registers, software traps, special registers,
and translation maintenance by programs and by the walker routine.
-/

namespace Sys2Proof.Machine

/-! ## Faults of the instruction stream (R319, R414, R417) -/

/-- R319: the current thread reaches a word that is no instruction. -/
def execIllegalInstr (s : State) : Out := s.act 1 fun _ _ => .fault illegal
/-- R417: the trap completes and then faults. -/
def execTrap (imm : BitVec 8) (s : State) : Out := s.act 1 fun d c => .after d c.t (.here 0x0E imm.toNat)
/-- R414: a privileged instruction. DEDUCED (log 17). -/
def withPriv (f : Dev → Cur → Act) (d : Dev) (c : Cur) : Act := if c.w.kind = .walker then f d c else .fault (.here 0x06 0)

/-! ## Register allocation (R216, R217, R188, R174) -/

/-- R174: LVS registers of a core. -/
def lvsOf (core : Nat) : Nat := if core = 0 then 261120 else 262144
/-- The workgroups that hold resources of a core; the walker's are reserved apart (R165). DESIGN CHOICE (log 60). -/
def Dev.on (d : Dev) (die core : Nat) : List Wg :=
  d.wgs.filter fun w => w.die == die && w.live && w.core == core && w.kind != .walker
/-- LVS registers of a workgroup: for each thread its allocation and its stack cache. -/
def Wg.lvs (w : Wg) : Nat := (w.threads.map fun t => t.alloc + w.stackc).foldl (· + ·) 0
def Dev.lvsFree (d : Dev) (die core : Nat) : Nat := lvsOf core - ((d.on die core).map Wg.lvs).foldl (· + ·) 0
/-- R188: the parking orders of the threads parked on a core. -/
def Thread.parkOrder (t : Thread) : Option Nat :=
  match t.pos, t.susp with
  | .exited, _ => none
  | .waiting, some s | .running, some s =>
    (match s.why with
    | .parked k _ => some k
    | _ => none)
  | .waiting, none | .running, none => none
def Dev.parkedOn (d : Dev) (die core : Nat) : List Nat := (d.on die core).flatMap fun w => w.threads.filterMap Thread.parkOrder
/-- R188: a GROW of `need` registers may be met: no older one is parked, and the core holds them. -/
def Dev.growMet (d : Dev) (die core need : Nat) (order : Option Nat) : Bool :=
  need == 0 || (decide (need ≤ d.lvsFree die core) && (d.parkedOn die core).all fun k => match order with
    | some o => decide (o ≤ k)
    | none => false)
/-- Registers from index `i` on are zero. -/
def zeroFrom (row : List Word) (i : Nat) : List Word := row.zipIdx.map fun e => if i ≤ e.2 then 0#32 else e.1
/-- R217: REGS changed; registers that come or go read zero. -/
def Thread.resize (t : Thread) (n : Nat) : Thread :=
  let k := min n t.regs
  { t with regs := n, row := zeroFrom t.row k, work := zeroFrom t.work k }

/-- R416, R217 grow: the range first, then R216, then R188. DEDUCED (log 18). -/
def execGrow (n : BitVec 12) (s : State) : Out :=
  s.act 1 fun d c =>
    let n := n.toNat
    if n = 0 ∨ 64 < n then .fault regRange
    else if c.pending then .wait d .tokens none
    else if n ≤ c.t.regs then .done (d.drained c) c.t
    else if c.t.expired then .fault regRange
    else
      let order := c.t.parkOrder
      if d.growMet c.w.die c.w.core (allocOf n - c.t.alloc) order then .done (d.drained c) (c.t.resize n)
      else
        let need := allocOf n - c.t.alloc
        match order with
        | some k => .wait d (.parked k need) none
        | none => .wait { d with nextSeq := d.nextSeq + 1 } (.parked d.nextSeq need) none
/-- R416, R217 shrink. -/
def execShrink (n : BitVec 12) (s : State) : Out :=
  s.act 1 fun d c =>
    let n := n.toNat
    if n = 0 ∨ 64 < n then .fault regRange
    else if c.pending then .wait d .tokens none
    else if c.t.regs ≤ n then .done (d.drained c) c.t
    else .done (d.drained c) (c.t.resize n)

/-! ## Special registers (R418, R103, R225, R420) -/

/-- R103: ERRQ as it reads. -/
def Ctx.errqWord (k : Ctx) : Word :=
  BitVec.ofNat 32 (k.head % 1024 + 2 ^ 16 * k.count + (if k.ovf then 2 ^ 31 else 0))
/-- R103: a write of ERRQ: OVF is cleared by a 1, and HEAD releases entries. -/
def Ctx.writeErrq (k : Ctx) (v : Word) : Ctx :=
  let n := (v.toNat % 1024 + 1024 - k.head % 1024) % 1024
  let k := if v.getLsbD 31 then { k with ovf := false } else k
  if k.count < n then k else { k with head := v.toNat % 1024, count := k.count - n }
/-- R103 ERRQ_WRITE. -/
def execErrqWrite (die ctx : Nat) (value : Word) (s : State) : Out :=
  s.onDev fun d => d.modCtx die ctx fun k => k.writeErrq value
/-- R225 STATUS_WRITE. -/
def execStatusWrite (uid tid : Nat) (value : Word) (s : State) : Out :=
  s.onDev fun d => d.modThread uid tid fun t => t.clearStatus value

/-- The walk that a walker thread holds. -/
def Die.held? (x : Die) (uid tid : Nat) : Option Walk := x.walks.find? fun v => v.holder == some (uid, tid)
/-- R420: a walker thread that holds no walk takes the oldest queued one. -/
def Die.takeWalk (x : Die) (uid tid : Nat) : Die :=
  if (x.held? uid tid).isSome then x
  else
    match x.walks.find? fun v => v.holder.isNone with
    | none => x
    | some v => { x with walks := x.walks.map fun u => if u = v then { u with holder := some (uid, tid) } else u }
/-- R420: WALKINFO as it reads. -/
def walkInfo (h : Option Walk) : Word :=
  match h with
  | some v => BitVec.ofNat 32 (2 ^ 31 + v.ctx % 64 * 256)
  | none => 0
/-- R420 WALKINFO_READ. -/
def execWalkinfoRead (uid tid : Nat) (s : State) : Out :=
  s.onDev fun d =>
    match d.wg? uid with
    | some w => if w.kind = .walker ∧ tid < w.threads.length then d.modDie w.die fun x => x.takeWalk uid tid else d
    | none => d

/-- R418: whether a special register is of 64 bits, and whether it is privileged. -/
def sregWide (r : SReg) : Bool :=
  match r with
  | .wgid | .wgdim | .griddim | .cycle | .retired | .srseed | .trapaddr | .walkva | .walkroot => true
  | .tid | .core | .cluster | .die | .package | .ctx | .status | .trapcause | .errq | .walkinfo => false
def sregPrivileged (r : SReg) : Bool :=
  match r with
  | .walkinfo | .walkva | .walkroot => true
  | .tid | .wgid | .wgdim | .griddim | .core | .cluster | .die | .package | .ctx | .cycle | .retired | .status | .srseed
  | .trapcause | .trapaddr | .errq => false
def sregRegs (r : SReg) : Nat := if sregWide r then 2 else 1
/-- Three sizes in one 64-bit word (R418). -/
def packDims (d : Nat × Nat × Nat) (a b : Nat) : Nat := d.1 % 2 ^ a + 2 ^ a * (d.2.1 % 2 ^ 16) + 2 ^ b * (d.2.2 % 2 ^ 16)
/-- R419: the count at the issue of the instruction, one for every thread of the bundle. -/
def Cur.cycleAt (c : Cur) (d : Dev) : Nat :=
  match c.b.issued with
  | some (off, n) => if off = c.t.off then n else d.clock c.w.die c.w.core
  | none => d.clock c.w.die c.w.core
/-- R419: the front bundle with the count at which its instruction was issued. -/
def Dev.noteIssue (d : Dev) (c : Cur) : Dev :=
  match d.flight with
  | b :: bs => { d with flight := { b with issued := some (c.t.off, c.cycleAt d) } :: bs }
  | [] => d
/-- R418: what a special register reads as for the current thread. The walker's per-context registers read 0 (R414). -/
def sregValue (d : Dev) (c : Cur) (r : SReg) : Nat :=
  let ctx := d.ctx? c.w.die c.w.ctx
  let own := fun (f : Ctx → Nat) => if c.w.kind = .walker then 0 else (ctx.map f).getD 0
  let held := (d.die c.w.die).held? c.w.uid c.tid
  match r with
  | .tid => c.tid
  | .wgid => c.w.flat
  | .wgdim => packDims c.w.dims 16 32
  | .griddim => packDims c.w.grid 31 47
  | .core => c.w.core
  | .cluster => c.w.cluster
  | .die => d.dieId c.w.die
  | .package => d.pkg.toNat
  | .ctx => if c.w.kind = .walker then 0 else c.w.ctx
  | .cycle => if c.w.proof then c.t.retired.toNat else c.cycleAt d
  | .retired => c.t.retired.toNat
  | .status => (c.t.status c.w.proof).toNat
  | .srseed => own fun k => k.seed.toNat
  | .trapcause => c.t.trapCause.toNat
  | .trapaddr => c.t.trapAddr.toNat
  | .errq => own fun k => k.errqWord.toNat
  | .walkinfo => (walkInfo held).toNat
  | .walkva => (held.map fun v => v.page * 4096).getD 0
  | .walkroot => (held.bind fun v => (d.ctx? c.w.die v.ctx).map Ctx.root).getD 0

/-- R418 srd. -/
def execSrd (d : Reg) (reg : SReg) (s : State) : Out :=
  s.act 1 fun dev c =>
    let go := withRegs [] (groupIdx d (sregRegs reg)) fun dev c =>
      let dev := if reg = .walkinfo then dev.modDie c.w.die fun x => x.takeWalk c.w.uid c.tid
        else if reg = .cycle then dev.noteIssue c else dev
      .done dev (c.t.setGroup d (sregRegs reg) (sregValue dev c reg))
    if sregPrivileged reg then withPriv go dev c else go dev c
/-- R418 swr: STATUS, SRSEED and ERRQ have writable fields. -/
def execSwr (d : Reg) (reg : SReg) (s : State) : Out :=
  s.act 1 fun dev c =>
    let go := withRegs (groupIdx d (sregRegs reg)) [] fun dev c =>
      let own := fun (f : Ctx → Ctx) => if c.w.kind = .walker then dev else dev.modCtx c.w.die c.w.ctx f
      match reg with
      | .status => .done dev (c.t.clearStatus (c.t.reg d))
      | .srseed => .done (own fun k => { k with seed := c.t.pair d }) c.t
      | .errq => .done (own fun k => k.writeErrq (c.t.reg d)) c.t
      | .tid | .wgid | .wgdim | .griddim | .core | .cluster | .die | .package | .ctx | .cycle | .retired | .trapcause
      | .trapaddr | .walkinfo | .walkva | .walkroot => .done dev c.t
    if sregPrivileged reg then withPriv go dev c else go dev c

/-! ## Translation maintenance (R420 to R424, R168) -/

/-- R421 ptld. DEDUCED (log 22). -/
def execPtld (d a : Reg) (s : State) : Out :=
  s.act 1 <| withPriv <| withRegs (groupIdx a 2) (groupIdx d 2) fun dev c =>
    let v := c.t.pair a
    let pa := v.toNat % 2 ^ 52
    if !isMult v.toNat 8 then .fault (.at 0x05 0 v)
    else if !isCompanion pa && homeOf pa != dev.dieId c.w.die then .fault (.at 0x0F rNotLocal v)
    else if dev.isRetired pa then .fault (.at 0x0F rRetired v)
    else .done dev (c.t.setGroup d 2 (dev.rd pa 8))
/-- R422: the reason that a walk ends with, from the outcome operand and the leaf; success gives the level. -/
def walkOutcome (leaf : Dword) (b : Word) : Except Nat (Nat × Dword) :=
  let reason := bits b.toNat 0 8
  let level := bits b.toNat 8 2
  if reason = 0 then
    if bits leaf.toNat 0 2 ≠ 3 ∨ leaf.getLsbD 63 ∨ bits leaf.toNat 52 2 = 3 ∨ 2 < level ∨ !leafAligned leaf level then
      .error rMalformed
    else .ok (level, leaf)
  else .error (if reason ≤ rWalkFail then reason else rMalformed)
/-- R422 tlbw. -/
def execTlbw (a b : Reg) (s : State) : Out :=
  s.act 1 <| withPriv <| withRegs (groupIdx a 2 ++ [b.toNat]) [] fun dev c =>
    match (dev.die c.w.die).held? c.w.uid c.tid with
    | none => .done dev c.t
    | some w => .done (dev.endWalk c.w.die w (walkOutcome (c.t.pair a) (c.t.reg b))) c.t
/-- R423 halt. -/
def execHalt (s : State) : Out :=
  s.act 1 <| withPriv fun d c =>
    .leave (d.modDie c.w.die fun x => x.release c.w.uid c.tid) { c.t with pos := .exited, retired := c.t.retired + 1, susp := none }
/-- R31 step 4: the verified image that runs: its body, which holds the walker routine and the supervisor firmware. -/
def Mgmt.firmware (m : Mgmt) : List Byte := ((m.running.bind fun g => Config.flash g.slotB).map FlashImage.body).getD []
/-- R155: where the reserved region of a die begins. -/
def reservedBase (id : Nat) : Nat := id * 2 ^ 37 + 0x1F_0000_0000
/-- R31 step 4, R32 step 3, R423: the firmware of the image loaded into the reserved region of a die. The spec does not say how the image
lies there: its body lies from the region's start on, and the walker routine is entered there. DESIGN CHOICE (log 63). -/
def Dev.loadFirmware (d : Dev) (die : Nat) (body : List Byte) : Dev := d.storeBytes (reservedBase (d.dieId die)) (body.take (2 ^ 32))
def Dev.walkerEntry (d : Dev) (die : Nat) : Dword := BitVec.ofNat 64 (reservedBase (d.dieId die))
/-- The threads of a walker routine at its start. -/
def Wg.restarted (w : Wg) (entry : Dword) : Wg := { w with threads := w.threads.map fun _ => Thread.fresh w.regs0 w.spill entry }
/-- R423 WALKER_RESTART: every thread of a die's walker routine has ended: the routine is loaded again and starts again. -/
def execWalkerRestart (die : Nat) (s : State) : Out :=
  s.onDev fun d =>
    let halted := fun (w : Wg) => w.die == die && w.kind == .walker && w.threads.all fun t => t.pos == .exited
    if d.wgs.any halted then
      let d := d.loadFirmware die s.mgmt.firmware
      let again := (d.wgs.filter halted).map fun w => w.restarted (d.walkerEntry die)
      again.foldl Dev.occupyAll { d with wgs := d.wgs.map fun w => if halted w then w.restarted (d.walkerEntry die) else w }
    else d

/-- R168, R424: the entries of a context on a die that map one of `n` pages from `page` on, or all for n = 0. -/
def TlbEnt.gone (e : TlbEnt) (ctx page n : Nat) : Bool :=
  e.ctx == ctx && (n == 0 || decide (page < (e.vpn + 1) * 512 ^ e.level ∧ e.vpn * 512 ^ e.level < page + n))
/-- A page of a command was translated with an entry that goes. -/
def Die.stale (x : Die) (ctx page n p : Nat) : Bool :=
  n == 0 || decide (page ≤ p ∧ p < page + n) ||
    x.tlb.any fun e => e.gone ctx page n && e.vpn == p / 512 ^ e.level
/-- R168: the removal at its instant. -/
def Die.invalidateTlb (x : Die) (ctx page n : Nat) : Die :=
  { x with tlb := x.tlb.filter fun e => !e.gone ctx page n
           walks := x.walks.map fun w => if w.ctx = ctx ∧ w.holder.isSome then { w with overtaken := true } else w }
/-- R168: outstanding commands of a context on a die that were translated with an entry that goes. -/
def Dev.staleCmds (d : Dev) (die ctx page n : Nat) : List Nat :=
  (d.cmds.filter fun k => k.die == die && k.ctx == ctx && k.pages.any fun p => (d.die die).stale ctx page n p).map Cmd.id
def Dev.running (d : Dev) (ids : List Nat) : List Nat := ids.filter fun i => (d.cmd? i).isSome
/-- The arrivals of launches that a die has not sent yet or that have not ended: launch and virtual address of DONEVA. -/
def Die.launchArrivals (x : Die) (ctx : Nat) : List (Nat × Dword) :=
  let one := fun (c : Nat) (a : After) (va : Dword) => match a with
    | .launch id => if c = ctx then some (id, va) else none
    | .none | .command _ | .arrival _ _ | .moved _ | .toldOrigin _ _ | .invoked _ => none
  x.outs.filterMap (fun o => one o.ctx o.after o.va) ++ x.unsent.filterMap fun u => one u.ctx u.after u.va
/-- R168, R400: those that were translated with an entry that goes. -/
def Dev.staleArrivals (d : Dev) (die ctx page n : Nat) : List Nat :=
  (((d.die die).launchArrivals ctx).filter fun e => (d.die die).stale ctx page n (pageOf e.2)).map Prod.fst
def Dev.awaited (d : Dev) (die ctx : Nat) (ids : List Nat) : List Nat :=
  ids.filter fun i => ((d.die die).launchArrivals ctx).any fun e => e.1 == i

/-- R424, R168 tlbinv. The walker, which is in no context, has no entries to remove. -/
def execTlbinv (a b : Reg) (s : State) : Out :=
  s.act 1 fun dev c =>
    if !c.t.able (groupIdx a 2 ++ [b.toNat]) then .fault regRange
    else
      let n := (c.t.reg b).toNat
      withRegs ((if n = 0 then [] else groupIdx a 2) ++ [b.toNat]) [] (fun dev c =>
        let va := c.t.pair a
        let page := pageOf va
        let start := if n ≠ 0 ∧ ¬(canonicalVa va ∧ (page + n) * 4096 ≤ 2 ^ 57) then Act.fault (.at 0x0F rNoncanon va)
          else if c.w.kind = .walker then .done dev c.t
          else
            let ids := dev.staleCmds c.w.die c.w.ctx page n
            let as := dev.staleArrivals c.w.die c.w.ctx page n
            let dev := dev.modDie c.w.die fun x => x.invalidateTlb c.w.ctx page n
            if ids.isEmpty && as.isEmpty then .done dev c.t else .wait dev (.commands ids as) none
        match c.t.susp with
        | some { why := .commands ids as, .. } =>
          let ids := dev.running ids
          let as := dev.awaited c.w.die c.w.ctx as
          if ids.isEmpty && as.isEmpty then .done dev c.t else .wait dev (.commands ids as) none
        | _ => start) dev c

/-! ## Launching (R415, R146, R147) -/

/-- A field of a launch record. -/
def recField (r off n : Nat) : Nat := bits r (8 * off) (8 * n)
/-- R146: the fields with a limit, by offset, and whether each keeps it. -/
def launchChecks (r : Nat) : List (Nat × Bool) :=
  let f := recField r
  let threads := f 20 2 * f 22 2 * f 24 2
  let cg := f 37 1
  let ndep := f 39 1
  [(0, isMult (f 0 8) 8 && decide (f 0 8 < 2 ^ 57)), (8, decide (1 ≤ f 8 4 ∧ f 8 4 < 2 ^ 31)),
   (12, decide (1 ≤ f 12 4 ∧ f 12 4 ≤ 65535)), (16, decide (1 ≤ f 16 4 ∧ f 16 4 ≤ 65535)),
   (20, decide (1 ≤ threads ∧ threads ≤ 1024)), (22, decide (1 ≤ f 22 2)), (24, decide (1 ≤ f 24 2)),
   (26, decide (1 ≤ f 26 1 ∧ f 26 1 ≤ 64)), (27, isMult (f 27 1) 8 && decide (f 27 1 ≤ 192)), (28, isMult (f 28 4) 64),
   (32, isMult (f 32 4) 256 && decide (256 ≤ f 32 4 ∧ f 32 4 ≤ 2 ^ 22)), (36, decide (f 36 1 ≤ 8)),
   (37, (cg == 1 || cg == 2 || cg == 4 || cg == 8) && isMult (f 8 4) cg), (38, decide (f 38 1 ≤ 3)),
   (39, decide (ndep ≤ 4))] ++
  ((List.range 4).flatMap fun i =>
    [(48 + 16 * i, isMult (f (48 + 16 * i) 8) 8 && (decide (i < ndep) || f (48 + 16 * i) 8 == 0)),
     (56 + 16 * i, decide (i < ndep) || f (56 + 16 * i) 4 == 0), (60 + 16 * i, f (60 + 16 * i) 4 == 0)]) ++
  [(112, isMult (f 112 8) 8), (120, f 120 8 == 0)]
/-- R147: the offset of the failing field with the lowest offset. -/
def launchBad (r : Nat) : Option Nat := ((launchChecks r).find? fun e => !e.2).map Prod.fst

/-- R175: bytes of an extent, and its 64 KiB units. -/
def extentBytes (t stackc scratch acc spill : Nat) : Nat :=
  256 + 32 * t + 4 * t * (64 + stackc) + scratch + 65536 * acc + 4096 + t * spill
def extentUnits (t stackc scratch acc spill : Nat) : Nat := (extentBytes t stackc scratch acc spill + 65535) / 65536
/-- R174: scratchpad bytes of a core. -/
def scratchOf (core : Nat) : Nat := if core = 0 then 2 ^ 22 - 65536 else 2 ^ 22
/-- R147, R190: a core, or a cluster, that is empty cannot hold a workgroup of these sizes. DEDUCED (log 22). -/
def launchNoFit (k : Ctx) (r : Nat) : Bool :=
  let f := recField r
  let t := f 20 2 * f 22 2 * f 24 2
  let core := if k.proof then k.supCore else 1
  decide (lvsOf core < t * (allocOf (f 26 1) + f 27 1) ∨ scratchOf core < f 32 4 ∨
    2 ^ 20 < extentUnits t (f 27 1) (f 32 4) (f 36 1) (f 28 4)) || (k.proof && decide (1 < f 37 1))

/-- R415 step 5 for the dependence words: their addresses, or the status NOTLOCAL. -/
def withDeps (r : Nat) (f : Option (List (Nat × Nat)) → Act) (d : Dev) (c : Cur) : List Nat → List (Nat × Nat) → Act
  | [], ps => f (some ps)
  | i :: is, ps =>
    let va : Dword := BitVec.ofNat 64 (recField r (48 + 16 * i) 8)
    match d.xlate c.w.die c.w.ctx .rmt (accLocal false) c.t.walkFail va with
    | .hit pa => withDeps r f d c is (ps ++ [(pa, recField r (56 + 16 * i) 4)])
    | .miss => d.waitWalk c .rmt (accLocal false) (pageOf va)
    | .fail e => if e = rNotLocal then f none else .fault (.at 0x0F e va)
/-- R415 step 5 for the completion word; 0 for none. -/
def withDone (va : Dword) (f : Nat → Act) (d : Dev) (c : Cur) : Act :=
  if va = 0 then f 0 else withPa .rmt (accRemote true) va f d c
/-- R147, R171: the record entered among the die's launch entries. -/
def Dev.enter (d : Dev) (w : Wg) (r : Nat) (deps : List (Nat × Nat)) (donePa : Nat) : Dev :=
  let f := recField r
  let l : Launch :=
    { id := d.nextSeq, ctx := w.ctx, entry := BitVec.ofNat 64 (f 0 8), grid := (f 8 4, f 12 4, f 16 4),
      dims := (f 20 2, f 22 2, f 24 2), regs := f 26 1, stackc := f 27 1, spill := f 28 4, scratch := f 32 4, acc := f 36 1,
      cgsize := f 37 1, prio := f 38 1, arg := BitVec.ofNat 64 (f 40 8), deps := deps, doneVa := BitVec.ofNat 64 (f 112 8),
      donePa := donePa, eligible := none, next := 0, ended := 0,
      lastPlaced := d.raw, aged := false }
  let d := { d with nextSeq := d.nextSeq + 1 }.modDie w.die fun x => { x with launches := x.launches ++ [l] }
  if d.depsMet l then d.examine w.die l.id else d
/-- R415 launch. The walker, which is in no context, launches nothing: its translations find no context. -/
def execLaunch (d a b : Reg) (s : State) : Out :=
  s.act 1 <| withRegs [a.toNat, b.toNat] [d.toNat] <| afterAcquire fun dev c =>
    let addr := c.t.reg a
    match aligned (addr.setWidth 64) 16 with
    | .error e => .fault e
    | .ok _ =>
      match dev.scratchAt c.w addr 128 16 with
      | .error e => .fault e
      | .ok p =>
        let r := dev.scratchRd p 128
        let saw := fun (d : Dev) => d.thrSaw c.who p 128
        let status := fun (v : Nat) => Act.done (saw dev) (c.t.setGroup d 1 v)
        let k := (dev.ctx? c.w.die c.w.ctx).getD (Ctx.fresh 0 0)
        match launchBad r with
        | some off => status (1 + 256 * off)
        | none =>
          if launchNoFit k r then status 2
          else
            withDeps r (fun deps =>
              match deps with
              | none => status 3
              | some ps =>
                withDone (BitVec.ofNat 64 (recField r 112 8)) (fun donePa =>
                  if 256 ≤ (dev.die c.w.die).launches.length then
                    (if c.t.outOfTime (c.t.reg b) then .fault deadlinePassed else .wait dev .entry (limitOf (c.t.reg b)))
                  else .done ((saw dev).enter c.w r ps donePa) (c.t.setGroup d 1 0)) dev c)
              dev c (List.range (recField r 39 1)) []

end Sys2Proof.Machine
end

