-- ==== Sys2Proof/Machine/Place.lean ====
section
/-!
DEFINITION. The work distributor (R169 to R178, R190 to R192, R429): what fits where, the spill extents, the placing of new
workgroups and the start of supervisors (R143).
-/

namespace Sys2Proof.Machine

/-! ## Fit (R174) -/

/-- What a workgroup needs of a core (R174). -/
structure Needs where
  slots : Nat
  threads : Nat
  lvs : Nat
  scratch : Nat
  acc : Nat
deriving DecidableEq, Repr

def Needs.plus (a b : Needs) : Needs :=
  { slots := a.slots + b.slots, threads := a.threads + b.threads, lvs := a.lvs + b.lvs, scratch := a.scratch + b.scratch,
    acc := a.acc + b.acc }
/-- What a placed or saved workgroup holds. A supervisor's slot is its own (R143). -/
def Wg.needs (w : Wg) : Needs :=
  { slots := if w.kind = .supervisor then 0 else 1, threads := w.threads.length, lvs := w.lvs, scratch := w.scratch, acc := w.acc }
/-- The sum over a list. -/
def total {α : Type} (f : α → Nat) (l : List α) : Nat := l.foldl (fun n x => n + f x) 0

/-- R143, R165: slots of a core that are in use or held; a supervisor holds its slot while it is saved, too.
DEDUCED (log 24). -/
def Dev.heldSlots (d : Dev) (die core : Nat) : List Nat :=
  (d.on die core).map Wg.slot ++ (if core = 0 then [62] else []) ++
    (if d.wgs.any fun w => w.die == die && w.kind == .supervisor && (match d.ctx? die w.ctx with
      | some k => k.supCore == core
      | none => false) then [63] else [])
def Dev.freeSlots (d : Dev) (die core : Nat) : List Nat := (List.range 64).filter fun s => !(d.heldSlots die core).contains s
/-- R174, R176: resident threads of a core. The walker's 64 are not among them: R165 sets its resources apart. DESIGN CHOICE (log 60). -/
def Dev.threadsOn (d : Dev) (die core : Nat) : Nat := total (fun w => w.threads.length) (d.on die core)
/-- Scratchpad in use: that of an ended workgroup counts while a command holds it (R232). -/
def Dev.scratchUsed (d : Dev) (die core : Nat) : Nat :=
  total Wg.scratch (d.wgs.filter fun w => w.die == die && w.isResident && w.core == core && w.kind != .walker)
/-- R174: every line of the table holds. -/
def Dev.fits (d : Dev) (die core : Nat) (n : Needs) : Bool :=
  decide (core < 72 ∧ n.slots ≤ (d.freeSlots die core).length ∧ d.threadsOn die core + n.threads ≤ 4096 ∧
    n.lvs ≤ d.lvsFree die core ∧ d.scratchUsed die core + n.scratch ≤ scratchOf core ∧
    total Wg.acc (d.on die core) + n.acc ≤ 8) && (d.parkedOn die core).isEmpty

/-! ## Spill extents (R175) -/

/-- The runs of units in use in a context's spill area on a die. -/
def Dev.extentsOf (d : Dev) (die ctx : Nat) : List (Nat × Nat) :=
  (d.wgs.filter fun w => w.die == die && w.ctx == ctx).filterMap Wg.extent
/-- Whether `n` units from `u` up are in the area and free. -/
def runFree (used : List (Nat × Nat)) (n u : Nat) : Bool :=
  decide (u + n ≤ 2 ^ 20) && used.all fun e => decide (u + n ≤ e.1 ∨ e.1 + e.2 ≤ u)
/-- The least of a list of numbers. -/
def leastOf : List Nat → Option Nat
  | [] => none
  | a :: as => match leastOf as with
    | some b => some (min a b)
    | none => some a
/-- R175: the lowest free run of `n` units: it begins at 0 or at the end of another. -/
def lowestRun (used : List (Nat × Nat)) (n : Nat) : Option Nat :=
  leastOf ((0 :: used.map fun e => e.1 + e.2).filter (runFree used n))
/-- `k` runs, one after the other. -/
def lowestRuns (used : List (Nat × Nat)) (n : Nat) : Nat → Option (List Nat)
  | 0 => some []
  | k + 1 =>
    match lowestRun used n with
    | none => none
    | some u => (lowestRuns ((u, n) :: used) n k).map (u :: ·)

/-! ## Choosing a core (R176 to R178, R190) -/

/-- The cores of one placement, with what each is to hold. -/
abbrev Site := List (Nat × Needs)
def Dev.siteFits (d : Dev) (die : Nat) (s : Site) : Bool := s.all fun e => d.fits die e.1 e.2
def Dev.siteHot (d : Dev) (die : Nat) (s : Site) : Bool := s.any fun e => ((d.die die).core e.1).hot
def Dev.siteLoad (d : Dev) (die : Nat) (s : Site) : Nat := total (fun e => d.threadsOn die e.1) s
/-- The first element with the least value. -/
def leastBy {α : Type} (f : α → Nat) : List α → Option α
  | [] => none
  | a :: as => match leastBy f as with
    | some b => if f a ≤ f b then some a else some b
    | none => some a
/-- R176, R177: among the sites that fit, those without a HOT core come first; then the fewest resident threads, then the lowest
core. -/
def Dev.bestSite (d : Dev) (die : Nat) (sites : List Site) : Option Site :=
  let fit := sites.filter (d.siteFits die)
  let cool := fit.filter fun s => !d.siteHot die s
  leastBy (d.siteLoad die) (if cool.isEmpty then fit else cool)
/-- R177: the aligned sets of `c` cores; for `c` = 1 the cores. R190: a proof context has its supervisor core alone. -/
def sitesNew (k : Ctx) (c : Nat) (n : Needs) : List Site :=
  if k.proof then [[(k.supCore, n)]]
  else (List.range (72 / max c 1)).map fun i => (List.range c).map fun j => (i * c + j, n)
/-- R178: the same ranks of any cluster; a proof workgroup and a supervisor have their own core. -/
def sitesBack (k : Ctx) (ws : List Wg) : List Site :=
  match ws with
  | [] => []
  | w :: _ =>
    if w.proof || w.kind == .supervisor then
      [[(k.supCore, (ws.map Wg.needs).foldl Needs.plus { slots := 0, threads := 0, lvs := 0, scratch := 0, acc := 0 })]]
    else (List.range 9).map fun i => ws.map fun w => (8 * i + w.rank, w.needs)

/-! ## Placing -/

/-- R196: the threads resident on a channel of a core, the walker's not among them. DESIGN CHOICE (log 60). -/
def Dev.channelLoad (d : Dev) (die core ch : Nat) : Nat :=
  total (fun w => w.threads.length) ((d.on die core).filter fun w => w.channel == ch)
/-- R196: the free slot whose channel has the fewest resident threads. -/
def Dev.bestSlot (d : Dev) (die core : Nat) : Nat :=
  (leastBy (fun s => d.channelLoad die core (s % 4)) (d.freeSlots die core)).getD 0
/-- A new workgroup enters the machine on a core, with the next number. -/
def Dev.addWg (d : Dev) (w : Wg) : Dev :=
  let w := { w with uid := d.nextUid }
  ({ d with wgs := d.wgs ++ [w], nextUid := d.nextUid + 1 }).occupyAll w

/-- The sizes of a workgroup to be placed. -/
structure Sizes where
  threads : Nat
  regs : Nat
  stackc : Nat
  spill : Nat
  scratch : Nat
  acc : Nat
deriving DecidableEq, Repr

def Sizes.needs (z : Sizes) : Needs :=
  { slots := 1, threads := z.threads, lvs := z.threads * (allocOf z.regs + z.stackc), scratch := z.scratch, acc := z.acc }
def Sizes.units (z : Sizes) : Nat := extentUnits z.threads z.stackc z.scratch z.acc z.spill
/-- R197, R200, R231: a workgroup as placement makes it. -/
def Wg.fresh (die ctx : Nat) (kind : WgKind) (z : Sizes) (entry : Dword) (prio core slot since unit : Nat) (mem : NMap Byte) :
    Wg :=
  { uid := 0, die := die, ctx := ctx, kind := kind, loc := .resident core slot since, rank := core % 8, prio := prio, group := 0,
    cgsize := 1, flat := 0, dims := (z.threads, 1, 1), grid := (1, 1, 1), regs0 := z.regs, stackc := z.stackc, spill := z.spill,
    scratch := z.scratch, acc := z.acc, extent := some (unit, z.units), flags := List.replicate 12 0, mem := mem, tiles := [],
    tsrc := List.replicate 8 (.fin false 1 1), gens := List.replicate 4 none,
    threads := List.replicate z.threads (Thread.fresh z.regs z.spill entry), forward := 0, stopping := false, ended := false,
    proof := false, order := 0, savedRot := 0 }

/-- R146: the sizes of a launch's workgroups. -/
def Launch.sizes (l : Launch) : Sizes :=
  { threads := l.dims.1 * l.dims.2.1 * l.dims.2.2, regs := l.regs, stackc := l.stackc, spill := l.spill, scratch := l.scratch,
    acc := l.acc }
def Launch.total (l : Launch) : Nat := l.grid.1 * l.grid.2.1 * l.grid.2.2
/-- R146: the scratchpad header of a workgroup. -/
def headerMem (a b : Dword) : NMap Byte := tableOf (leBytes a.toNat 8 ++ leBytes b.toNat 8)
/-- R176, R177: the members of a cluster group placed, from flat index `j` on. -/
def Dev.placeMembers (d : Dev) (die : Nat) (k : Ctx) (l : Launch) (group : Nat) : Nat → List (Nat × Needs) → List Nat → Dev
  | j, (core, _) :: site, u :: us =>
    let w := Wg.fresh die l.ctx (.launch l.id) l.sizes l.entry l.prio core (d.bestSlot die core) d.raw u
      (headerMem l.arg (BitVec.ofNat 64 j))
    (d.addWg { w with group := group, cgsize := l.cgsize, flat := j, dims := l.dims, grid := l.grid, proof := k.proof,
                      order := l.id }).placeMembers die k l group (j + 1) site us
  | _, _, _ => d
def Die.modLaunch (x : Die) (id : Nat) (f : Launch → Launch) : Die :=
  { x with launches := x.launches.map fun l => if l.id = id then f l else l }
/-- The next workgroup or cluster group of a launch, if it fits. -/
def Dev.placeNext (d : Dev) (die id : Nat) : Option Dev :=
  match (d.die die).launches.find? fun l => l.id == id with
  | none => none
  | some l =>
    match d.ctx? die l.ctx with
    | none => none
    | some k =>
      match d.bestSite die (sitesNew k l.cgsize l.sizes.needs), lowestRuns (d.extentsOf die l.ctx) l.sizes.units l.cgsize with
      | some site, some us =>
        some ((d.placeMembers die k l d.nextUid l.next site us).modDie die fun x => x.modLaunch id fun l =>
          { l with next := l.next + l.cgsize, lastPlaced := d.raw })
      | _, _ => none
/-- Workgroups of a launch placed while they fit; whether one is left that fits nowhere. -/
def Dev.placeLaunch (d : Dev) (die id : Nat) : Nat → Dev × Bool
  | 0 => (d, false)
  | n + 1 =>
    match (d.die die).launches.find? fun l => l.id == id with
    | none => (d, false)
    | some l =>
      if l.total ≤ l.next then (d, false)
      else
        match d.placeNext die id with
        | none => (d, true)
        | some d => d.placeLaunch die id n

/-- R107: the sizes of a task's workgroup. -/
def FnEntry.sizes (e : FnEntry) : Sizes :=
  { threads := e.wgsize, regs := e.regs, stackc := e.stackc, spill := e.spill, scratch := e.scratch, acc := e.acc }
/-- R111: the invocation frame. -/
def frameMem (t : Task) (upres : List Byte) : NMap Byte :=
  tableOf (fitBytes t.args 64 ++ fitBytes upres 64 ++ List.replicate 64 0#8 ++ leBytes t.newh.toNat 8 ++
    leBytes t.addrh.toNat 8)
/-- R111: the workgroup of a task placed, if it fits; the later tasks of its order may be submitted then (R125). -/
def Dev.placeTask (d : Dev) (die : Nat) (h : Dword) : Option Dev :=
  match (d.die die).host? h, (d.ctx? die (hCtx h)).filter fun k => k.ending.isNone with
  | some r, some k =>
    match r.queued with
    | none => none
    | some (ord, t, upres) =>
      match d.fnOf die (hCtx h) t.fn with
      | none => none
      | some e =>
        match d.bestSite die (sitesNew k 1 e.sizes.needs), lowestRun (d.extentsOf die (hCtx h)) e.sizes.units with
        | some ((core, _) :: _), some u =>
          let w := Wg.fresh die (hCtx h) (.task h) e.sizes (BitVec.ofNat 64 e.entry) e.prio core (d.bestSlot die core) d.raw u
            (frameMem t upres)
          let uid := d.nextUid
          some (((d.addWg { w with group := uid, proof := k.proof, order := ord }).modDie die fun x =>
            x.modHost h fun r => { r with queued := none, running := some uid, lastPlaced := d.raw }).placed die t)
        | _, _ => none
  | _, _ => none

/-! ## Supervisors (R143, R145) -/

/-- R143, R145: the supervisor of a context on a die placed in slot 63 of its core, if it fits. -/
def Dev.placeSupervisor (d : Dev) (die ctx : Nat) (z : Sizes) (entry mbox : Dword) : Option Dev :=
  match d.ctx? die ctx with
  | none => none
  | some k =>
    if (d.heldSlots die k.supCore).contains 63 || !d.fits die k.supCore { z.needs with slots := 0 } then none
    else
      match lowestRun (d.extentsOf die ctx) z.units with
      | none => none
      | some u =>
        let w := Wg.fresh die ctx .supervisor z entry 3 k.supCore 63 d.raw u (headerMem mbox (BitVec.ofNat 64 die))
        some (d.addWg { w with group := d.nextUid })

end Sys2Proof.Machine
end

