-- ==== Sys2Proof/Machine/Saving.lean ====
section
/-!
DEFINITION. Saves and restores (R163, R182 to R186), the placement pass with its order and aging (R173, R429), pre-emption (R180,
R192), the whole-context switch (R187), and eviction (R189).
-/

namespace Sys2Proof.Machine

/-! ## The image of a workgroup in its extent (R175) -/

/-- R175: where the parts of an extent begin. -/
def Wg.scratchImage (w : Wg) : Nat := 256 + 32 * w.threads.length + 4 * w.threads.length * (64 + w.stackc)
def Wg.tileImage (w : Wg) : Nat := w.scratchImage + w.scratch
def Wg.patImage (w : Wg) : Nat := w.tileImage + 65536 * w.acc
/-- The bytes of the extent that a save writes: all but the spill stacks. -/
def Wg.imageBytes (w : Wg) : Nat := w.patImage + 4096
/-- Where the stack cache of a thread stands in the LVS image, behind its row; its frames follow each other, the newest first.
DEDUCED (log 15). -/
def Wg.cacheImage (w : Wg) (tid : Nat) : Nat := w.lvsImage tid + 256
/-- Where the image of a generator context stands (R175). -/
def Wg.genImage (w : Wg) (c : Nat) : Nat := w.patImage + 1024 * c
/-- The parts of an extent whose bytes a save leaves open, as offset and length: the header and the records, whose layout is not
architectural, and what stands behind the frames of a stack cache and for a generator context that is not held. -/
def Wg.openParts (w : Wg) : List (Nat × Nat) :=
  (0, 256 + 32 * w.threads.length) ::
    (List.range w.threads.length).map (fun i => (w.cacheImage i, 4 * w.stackc)) ++ [(w.patImage, 4096)]
/-- The parts of an image that hold frames of stack caches and held generator contexts (R306), with their bytes. -/
def Wg.heldParts (w : Wg) : List (Nat × List Byte) :=
  w.threads.zipIdx.map (fun e => (w.cacheImage e.2, e.1.cache.flatMap CallFrame.bytes)) ++
    w.gens.zipIdx.filterMap fun e => e.1.map fun g => (w.genImage e.2, g.image)
/-- `n` open bytes from an offset of an image up. DESIGN CHOICE (log 7). -/
def openBytes (free off : Nat) (n : Nat) (m : NMap Byte) : NMap Byte :=
  (List.range n).foldl (fun m i => setByte m (off + i) ((Config.freeValue (free + i)).extractLsb' 0 8)) m
/-- The bytes of an accumulator word table. -/
def tileBytes (base : Nat) (tiles : NMap Word) (m : NMap Byte) : NMap Byte :=
  tiles.foldl (fun m e => writeLE m (base + 4 * e.1) e.2.toNat 4) m
/-- R182 step 4: the image of a workgroup. -/
def Wg.image (w : Wg) (free : Nat) : NMap Byte :=
  let m := w.openParts.foldl (fun m e => openBytes (free + e.1) e.1 e.2 m) []
  let m := w.heldParts.foldl (fun m e => writeBytes m e.1 e.2) m
  let m := w.threads.zipIdx.foldl (fun m e =>
    (List.range 64).foldl (fun m r => writeLE m (w.lvsImage e.2 + 4 * r) (wordAt e.1.row r).toNat 4) m) m
  let m := w.mem.foldl (fun m e => setByte m (w.scratchImage + e.1) e.2) m
  tileBytes w.tileImage w.tiles m

/-- The pieces of a workgroup's image in memory: the translation of each 4 KiB page, as (offset, physical address). -/
def Dev.imagePages (d : Dev) (w : Wg) (acc : Access) : Nat → Option (List (Nat × Nat))
  | 0 => some []
  | n + 1 =>
    match d.imagePages w acc n, d.xlateNow w.die w.ctx acc (d.extentVa w (4096 * n)) with
    | some ps, .ok pa => some (ps ++ [(4096 * n, pa)])
    | _, _ => none
/-- R163: every page of the whole extent is resident, writable and homed on the die. -/
def Dev.extentReady (d : Dev) (w : Wg) : Option (List (Nat × Nat)) :=
  match w.extent with
  | some (_, n) => d.imagePages w (accLocal true) (16 * n)
  | none => none
/-- An image written to its pages, up to `n` bytes; a line that the companion shares is written once its copy is invalidated
(R137). -/
def Dev.wrImage (d : Dev) (n : Nat) (m : NMap Byte) : List (Nat × Nat) → Dev
  | [] => d
  | (off, pa) :: ps =>
    let k := min 4096 (n - off)
    (if k = 0 then d else d.postBytes pa (readBytes m off k)).wrImage n m ps
/-- An image read from its pages. -/
def Dev.rdImage (d : Dev) (n : Nat) : List (Nat × Nat) → NMap Byte
  | [] => []
  | (off, pa) :: ps =>
    ((sliceRange d.mem pa (min 4096 (n - off))).map fun e => (off + e.1, e.2)) ++ d.rdImage n ps

/-! ## Saves (R182 to R184) -/

/-- What is saved and restored together: a cluster group (R180), or the proof workgroups of a context (R192). -/
def Dev.unitOf (d : Dev) (w : Wg) : List Wg :=
  if w.proof then d.wgs.filter fun p => p.die == w.die && p.ctx == w.ctx && p.proof && p.live
  else d.wgs.filter fun p => p.die == w.die && p.group == w.group && p.live
/-- R182 step 1. -/
def Dev.stop (d : Dev) (uids : List Nat) : Dev :=
  { d with wgs := d.wgs.map fun w => if uids.contains w.uid then { w with stopping := true } else w }
/-- R182 step 3, R228: a command that a save and the end of a workgroup wait for. Of the remote operations and handle messages none is, not
even one that is still to be sent. DESIGN CHOICE (log 94). -/
def Cmd.local_ (x : Cmd) : Bool :=
  match x.body with
  | .copy _ _ _ _ _ | .copyt _ _ _ _ _ _ _ _ | .gather _ _ _ _ _ _ _ _ | .atomg _ _ _ | .casg _ _ _ _ | .mtx _ | .spread _ => true
  | .finished => x.cls == .cpy || x.cls == .atm || x.cls == .mtx
  | .prefetch _ | .pagein _ _ | .arm _ _ | .xcvt _ _ _ | .onceclr _ | .remote | .hget _ _ _ => false
def Dev.busy (d : Dev) (uid : Nat) : Bool := d.cmds.any fun x => x.uid == uid && x.local_
/-- R183: a thread as it is saved: it will execute its instruction from the start. The wait of a proof thread stays, since the
rotation holds or passes over it after the restore as without one (R191, R193). So does a parked GROW, which is then the oldest of
its core, where none is parked at a restore (R188). -/
def Thread.saved (proof : Bool) (t : Thread) : Thread :=
  if proof then { t with row := List.replicate 64 0, expired := false }
  else { t with row := List.replicate 64 0, susp := none, expired := false, walkFail := [] }
/-- The requests of a workgroup's threads leave the walks. -/
def Die.unask (x : Die) (uid : Nat) : Die :=
  { x with walks := x.walks.map fun v => { v with joined := v.joined.filter fun q => match q.1 with
      | .thread u _ => u != uid
      | .command _ => true } }
/-- R182 steps 4 to 6 for one workgroup, with the pages of its extent. -/
def Dev.saveOne (d : Dev) (w : Wg) (pages : List (Nat × Nat)) (order : Nat) : Dev :=
  let n := w.imageBytes
  let d := ({ d with free := d.free + n }.wrImage n (w.image d.free) pages).modDie w.die fun x => if w.proof then x else x.unask w.uid
  let p := match d.ctx? w.die w.ctx with
    | some k => k.rot
    | none => 0
  let d := if w.proof then d.modCtx w.die w.ctx fun k => { k with hold := none, passed := false } else d
  let d := d.modWg w.uid fun w =>
    { w with loc := .saved order, stopping := false, mem := [], tiles := [], threads := w.threads.map (Thread.saved w.proof),
             savedRot := p }
  { d with stale := d.stale.filter fun e => e.uid != w.uid }.tidyCores w.die [w.core]
/-- The members of a unit saved, oldest first. -/
def Dev.saveAll (d : Dev) (order : Nat) : List Wg → Dev
  | [] => d
  | w :: ws =>
    match d.extentReady w with
    | some pages => (d.saveOne w pages order).saveAll order ws
    | none => d.saveAll order ws
/-- R182 steps 2 and 3: the bundles and the commands of every member have ended. -/
def Dev.quiet (d : Dev) (ws : List Wg) : Bool :=
  ws.all fun w => w.stopping && !(d.flight.any fun b => b.uid == w.uid) && !d.busy w.uid &&
    w.threads.any fun t => t.pos != .exited
/-- R182 WORKGROUP_SAVE, while the cores run (R23). A page that is not resident and writable aborts the context (R163).
DEDUCED (log 23). -/
def Dev.save (d : Dev) (uid : Nat) : Dev :=
  match d.wg? uid with
  | none => d
  | some w =>
    let ws := d.unitOf w
    if d.coresStopped w.die || !w.live || !d.quiet ws then d
    else if ws.all fun p => (d.extentReady p).isSome then
      let d := { d with nextSeq := d.nextSeq + 1 }.saveAll d.nextSeq ws
      { d with passDue := insertNat w.die d.passDue }
    else
      let (v, d) := d.draw
      d.abort w.die w.ctx 0x0F (v.extractLsb' 0 32)
def execWorkgroupSave (uid : Nat) (s : State) : Out := s.onDev fun d => d.save uid

/-! ## Restores (R185, R178, R429) -/

/-- The 64 registers of a thread's LVS image. -/
def rowOf (m : NMap Byte) (off : Nat) : List Word := (List.range 64).map fun r => BitVec.ofNat 32 (readLE m (off + 4 * r) 4)
/-- The words of an image's tiles: those with a byte that is not zero. -/
def tilesOf (m : NMap Byte) : NMap Word :=
  m.foldl (fun t e => setKey 0#32 t (e.1 / 4) (BitVec.ofNat 32 (readLE m (e.1 / 4 * 4) 4))) []
/-- The frames of a stack cache of `w` from an offset of an image on; the thread's record tells how many there are. -/
def framesOf (m : NMap Byte) (off : Nat) : List CallFrame → List CallFrame
  | [] => []
  | f :: fs =>
    { ret := BitVec.ofNat 64 (readLE m off 8), slide := f.slide,
      regs := (List.range f.slide).map fun i => BitVec.ofNat 32 (readLE m (off + 32 + 4 * i) 4) } ::
      framesOf m (off + f.size) fs
/-- R183: a suspension of a restored thread: its deadline counts from the restore. -/
def Susp.restart (s : Susp) (clock : Nat) : Susp := { s with since := clock }
/-- A thread with its registers and its stack cache read back. -/
def Thread.restored (t : Thread) (row : List Word) (cache : List CallFrame) (clock : Nat) : Thread :=
  { t with row := row.mapIdx fun i v => if i < t.regs then v else 0#32
           cache := cache, susp := t.susp.map fun s => s.restart clock }
/-- A workgroup with its images read back, on a core. A generator context whose image no longer passes the check of R306 is empty.
DESIGN CHOICE (log 71). -/
def Wg.restored (w : Wg) (m : NMap Byte) (core slot since clock : Nat) : Wg :=
  { w with
    loc := .resident core slot since
    mem := sliceRange m w.scratchImage w.scratch
    tiles := tilesOf (sliceRange m w.tileImage (65536 * w.acc))
    gens := w.gens.mapIdx fun i g => g.bind fun _ => imageGen (readBytes m (w.genImage i) 1024)
    threads := w.threads.mapIdx fun i t =>
      t.restored (rowOf m (w.lvsImage i)) (framesOf m (w.cacheImage i) t.cache) clock }
/-- One member restored on a core; P becomes the saved value for a proof workgroup. A page that cannot be read aborts the
context, as at a save (R163). DEDUCED (log 23). -/
def Dev.restoreOne (d : Dev) (w : Wg) (core : Nat) : Dev :=
  match d.imagePages w (accLocal false) ((w.imageBytes + 4095) / 4096) with
  | none =>
    let (v, d) := d.draw
    d.abort w.die w.ctx 0x0F (v.extractLsb' 0 32)
  | some pages =>
    let slot := if w.kind = .supervisor then 63 else d.bestSlot w.die core
    let r := w.restored (d.asPosted.rdImage w.imageBytes pages) core slot d.raw (d.clock w.die core)
    let d := d.modWg w.uid fun _ => r
    let d := if w.proof then d.modCtx w.die w.ctx fun k => { k with rot := w.savedRot } else d
    d.occupyAll r
/-- The members of a unit restored on the cores of a site. A proof unit has one site entry for all. -/
def Dev.restoreAll (d : Dev) (site : Site) : List Wg → Dev
  | [] => d
  | w :: ws =>
    match site with
    | [] => d
    | [(core, _)] => (d.restoreOne w core).restoreAll [(core, w.needs)] ws
    | (core, _) :: rest => (d.restoreOne w core).restoreAll rest ws
/-- R185: the saved workgroups of a unit restored, if they fit. -/
def Dev.restore (d : Dev) (die : Nat) (uids : List Nat) : Option Dev :=
  match uids.filterMap d.wg? with
  | [] => some d
  | w :: ws =>
    match d.ctx? die w.ctx with
    | none => some d
    | some k => (d.bestSite die (sitesBack k (w :: ws))).map fun site => d.restoreAll site (w :: ws)

/-! ## The placement pass (R173) -/

/-- A candidate of a pass. -/
inductive Cand where
  | restore (uids : List Nat)
  | launch (id : Nat)
  | task (h : Dword)
deriving DecidableEq, Repr

/-- A candidate with its priority, the level at which a pass visits it, and its place in the order of that level. -/
structure Entry where
  cand : Cand
  prio : Nat
  level : Nat
  order : Nat
deriving DecidableEq, Repr

/-- R173: 2 ms without a placement. -/
def Dev.agesNow (d : Dev) (since : Nat) : Bool := decide (rawOfUs 2000 ≤ d.raw - since)
/-- DEDUCED (log 24). -/
def Die.ageOld (x : Die) (now : Nat → Bool) : Die :=
  { x with
    launches := x.launches.map fun l => if l.eligible.isSome && now l.lastPlaced then { l with aged := true } else l
    hosts := x.hosts.map fun r => if r.queued.isSome && now r.lastPlaced then { r with aged := true } else r }
/-- R173: the candidates that wait without workgroups saved. -/
def Dev.waiting (d : Dev) (die : Nat) : List Entry :=
  ((d.die die).launches.filterMap fun l =>
    match l.eligible with
    | some o =>
      if l.next < l.total then
        some { cand := .launch l.id, prio := l.prio, level := if l.aged then 3 else l.prio, order := o }
      else none
    | none => none) ++
  (d.die die).hosts.filterMap fun r =>
    match r.queued with
    | some (o, t, _) =>
      (d.fnOf die (hCtx t.newh) t.fn).map fun e =>
        { cand := .task r.h, prio := e.prio, level := if r.aged then 3 else e.prio, order := o }
    | none => none
/-- The saved workgroups of a die. -/
def Dev.savedOn (d : Dev) (die : Nat) : List (Wg × Nat) :=
  d.wgs.filterMap fun w => match w.loc with
    | .saved o => if w.die = die then some (w, o) else none
    | .resident _ _ _ => none
/-- The greatest of the priorities of workgroups. DEDUCED (log 24). -/
def topPrio (ws : List Wg) : Nat := ws.foldl (fun n w => max n w.prio) 0
/-- R173, R182: the restore list: what was saved together is one entry. R187: a supervisor waits until its cluster's THROTTLE
clears. -/
def Dev.restoreList (d : Dev) (die : Nat) : List Entry :=
  let saved := d.savedOn die
  let ready := fun (w : Wg) => w.kind != .supervisor || (match d.ctx? die w.ctx with
    | some k => !((d.die die).cluster (k.supCore / 8)).throttle
    | none => false)
  let mine := fun (w p : Wg) (o q : Nat) => q == o && (if w.proof then p.proof && p.ctx == w.ctx else p.group == w.group)
  saved.filterMap fun e =>
    let unit := (saved.filter fun f => mine e.1 f.1 e.2 f.2).map Prod.fst
    if (unit.head?.map Wg.uid) = some e.1.uid ∧ ready e.1 then
      some { cand := .restore (unit.map Wg.uid), prio := topPrio unit, level := topPrio unit, order := e.2 }
    else none
/-- Entries in ascending order of a number. -/
def insertBy {α : Type} (f : α → Nat) (a : α) : List α → List α
  | [] => [a]
  | b :: bs => if f a < f b then a :: b :: bs else b :: insertBy f a bs
def sortBy {α : Type} (f : α → Nat) (l : List α) : List α := l.foldl (fun acc a => insertBy f a acc) []
/-- R173: the order of a pass. -/
def Dev.visits (d : Dev) (die : Nat) : List Entry :=
  let back := sortBy Entry.order (d.restoreList die)
  let fresh := sortBy Entry.order (d.waiting die)
  [3, 2, 1, 0].flatMap fun p => (back.filter fun e => e.level == p) ++ fresh.filter fun e => e.level == p

/-- The context of a candidate on a die. -/
def Dev.candCtx (d : Dev) (die : Nat) (c : Cand) : Option Ctx :=
  match c with
  | .restore uids => (uids.head?.bind d.wg?).bind fun w => d.ctx? die w.ctx
  | .launch id => ((d.die die).launches.find? fun l => l.id == id).bind fun l => d.ctx? die l.ctx
  | .task h => d.ctx? die (hCtx h)
/-- A saved supervisor is no proof workgroup (R190). -/
def Dev.candService (d : Dev) (c : Cand) : Bool :=
  match c with
  | .restore uids => ((uids.head?.bind d.wg?).map Wg.isService).getD false
  | .launch _ | .task _ => false
/-- R192, R429: proof work of a context may be placed while none of it is resident. -/
def Dev.proofOpen (d : Dev) (die ctx : Nat) : Bool :=
  !d.wgs.any fun w => w.die == die && w.ctx == ctx && w.proof && w.live
/-- One candidate visited: what fits of it is placed, and whether it then fits nowhere. -/
def Dev.visit (d : Dev) (die : Nat) (c : Cand) : Dev × Bool :=
  match c with
  | .restore uids =>
    (match d.restore die uids with
    | some d => (d, false)
    | none => (d, true))
  | .launch id => d.placeLaunch die id 4608
  | .task h =>
    match d.placeTask die h with
    | some d => (d, false)
    | none => (d, true)
/-- The candidates of a pass visited in order; the first that fits nowhere. -/
def Dev.visitAll (d : Dev) (die : Nat) : List Entry → Dev × Option Entry
  | [] => (d, none)
  | e :: es =>
    let (d, stuck) := d.visit die e.cand
    let (d, rest) := d.visitAll die es
    (d, if stuck then some e else rest)

/-! ## Pre-emption (R180, R192) -/

/-- The sites where a candidate's next workgroups may go. -/
def Dev.sitesFor (d : Dev) (die : Nat) (c : Cand) : List Site :=
  match d.candCtx die c with
  | none => []
  | some k =>
    match c with
    | .restore uids => sitesBack k (uids.filterMap d.wg?)
    | .launch id =>
      (match (d.die die).launches.find? fun l => l.id == id with
      | some l => sitesNew k l.cgsize l.sizes.needs
      | none => [])
    | .task h =>
      match ((d.die die).host? h).bind HostRec.queued with
      | some (_, t, _) =>
        (match d.fnOf die k.ctx t.fn with
        | some e => sitesNew k 1 e.sizes.needs
        | none => [])
      | none => []
/-- The device as it will be without some workgroups. -/
def Dev.without (d : Dev) (uids : List Nat) : Dev := { d with wgs := d.wgs.filter fun w => !uids.contains w.uid }
/-- The lowest priority of a unit: proof workgroups count as one workgroup of it (R192). -/
def lowPrio (ws : List Wg) : Nat := (leastOf (ws.map Wg.prio)).getD 0
/-- R180: whether a unit may be pre-empted for priority `p`. -/
def Dev.mayPreempt (d : Dev) (p : Nat) (ws : List Wg) : Bool :=
  decide (lowPrio ws < p) && ws.all fun w => !w.isService && !w.stopping && (match w.loc with
    | .resident _ _ since => decide (rawOfUs 50 ≤ d.raw - since)
    | .saved _ => false)
/-- The units with a member on the cores of a site that may be pre-empted: lowest priority first, youngest first. -/
def Dev.victims (d : Dev) (die p : Nat) (s : Site) : List (List Wg) :=
  let here := s.flatMap fun e => d.on die e.1
  let units := (here.map d.unitOf).eraseDups.filter (d.mayPreempt p)
  let young := fun (ws : List Wg) => (ws.map Wg.uid).foldl max 0
  sortBy lowPrio (sortBy (fun ws => d.nextUid - young ws) units)
/-- R175, R174: a candidate's next workgroups find their spill extents; a restored workgroup has its own. A removal frees none, since a
saved workgroup keeps its extent. -/
def Dev.extentOpen (d : Dev) (die : Nat) (c : Cand) : Bool :=
  match d.candCtx die c, c with
  | none, _ => false
  | some _, .restore _ => true
  | some k, .launch id =>
    ((d.die die).launches.find? fun l => l.id == id).any fun l =>
      (lowestRuns (d.extentsOf die k.ctx) l.sizes.units l.cgsize).isSome
  | some k, .task h =>
    (((d.die die).host? h).bind HostRec.queued).any fun q =>
      (d.fnOf die k.ctx q.2.1.fn).any fun e => (lowestRun (d.extentsOf die k.ctx) e.sizes.units).isSome
/-- Units removed one after another until a site fits. -/
def Dev.removals (d : Dev) (die : Nat) (s : Site) : List (List Wg) → Option (List (List Wg))
  | [] => if d.siteFits die s then some [] else none
  | u :: us =>
    if d.siteFits die s then some []
    else ((d.without (u.map Wg.uid)).removals die s us).map (u :: ·)
/-- R192: the removals that a unit counts for: its workgroups, or one for proof workgroups. -/
def unitCount (ws : List Wg) : Nat := if ws.any Wg.proof then 1 else ws.length
/-- R180: the lowest highest priority, the fewest removals, the lowest core. -/
def removalRank (e : Site × List (List Wg)) : Nat :=
  (if e.2.isEmpty then 0 else 1 + (e.2.map lowPrio).foldl max 0) * 2 ^ 40 + total unitCount e.2 * 2 ^ 20 +
    ((e.1.head?.map Prod.fst).getD 0)
/-- R180: a candidate that fits no core pre-empts for itself, wherever it would then fit. DESIGN CHOICE (log 93). Workgroups whose save is
under way count as removed. -/
def Dev.preempt (d : Dev) (die : Nat) (e : Entry) : Dev :=
  if !d.extentOpen die e.cand then d else
  let gone := d.without ((d.wgs.filter Wg.stopping).map Wg.uid)
  let options := (d.sitesFor die e.cand).filterMap fun s => (gone.removals die s (d.victims die e.prio s)).map fun r => (s, r)
  match leastBy removalRank options with
  | some (_, r) => d.stop (r.flatMap fun u => u.map Wg.uid)
  | none => d

/-- R173, R429: a placement pass. -/
def Dev.place (d : Dev) (die : Nat) : Dev :=
  let d := { d with passDue := d.passDue.filter fun n => n != die }.modDie die fun x => x.ageOld d.agesNow
  let allowed := fun (e : Entry) => match d.candCtx die e.cand with
    | some k => !k.proof || d.candService e.cand || d.proofOpen die k.ctx
    | none => false
  let (d, stuck) := d.visitAll die ((d.visits die).filter allowed)
  match stuck with
  | some e => d.preempt die e
  | none => d
/-- R173 PLACEMENT_PASS. One that is due while the cores of a die stand still (R23, R64) stays due. -/
def execPlacementPass (die : Nat) (s : State) : Out :=
  s.onDev fun d => if die < 4 && !d.coresStopped die then d.place die else d
/-- R192: at a wrap of the rotation of a context, its proof work alone is placed. -/
def Dev.placeProof (d : Dev) (die ctx : Nat) : Dev :=
  let mine := fun (e : Entry) => (match d.candCtx die e.cand with
    | some k => k.proof && k.ctx == ctx
    | none => false) && !d.candService e.cand
  (d.visitAll die ((d.visits die).filter mine)).1
/-- R173 CANDIDATE_AGING: a launch entry, or an invocation by the place of its record, that has waited for 2 ms. -/
def execCandidateAging (die cand : Nat) (s : State) : Out :=
  s.onDev fun d => d.modDie die fun x =>
    match x.launches[cand]? with
    | some l =>
      if l.eligible.isSome && d.agesNow l.lastPlaced then x.modLaunch l.id fun l => { l with aged := true } else x
    | none =>
      match x.hosts[cand - x.launches.length]? with
      | some r => if r.queued.isSome && d.agesNow r.lastPlaced then x.modHost r.h fun r => { r with aged := true } else x
      | none => x

/-! ## Whole-context switch (R187) and eviction (R189) -/

/-- R187 WHOLE_CONTEXT_SWITCH. -/
def execWholeContextSwitch (die cluster : Nat) (s : State) : Out :=
  s.onDev fun d =>
    let k := (d.die die).cluster cluster
    if k.throttle && !k.switched && decide (rawOfUs 10000 ≤ d.raw - k.throttleSince) then
      let go := d.wgs.filter fun w => w.die == die && w.live && w.cluster == cluster && w.kind != .walker
      (d.stop (go.map Wg.uid)).modDie die fun x => x.modCluster cluster fun k => { k with switched := true }
    else d

/-- The thread of a core whose GROW has been parked longest. -/
def Dev.oldestParked (d : Dev) (die core : Nat) : Option (Nat × Nat) :=
  let all := (d.on die core).flatMap fun w => w.threads.zipIdx.filterMap fun e =>
    (e.1.parkOrder).map fun k => (k, w.uid, e.2)
  (leastBy (fun e => e.1) all).map fun e => e.2
/-- R189: every thread of the workgroups of a core has exited or is parked. -/
def Dev.allParked (d : Dev) (die core : Nat) : Bool :=
  (d.on die core).all fun w => w.isService || w.threads.all fun t => t.pos == .exited || t.parkOrder.isSome
/-- R188: the GROW of a thread is met by what is free now. -/
def Dev.metNow (d : Dev) (die core : Nat) (t : Thread) : Bool :=
  match t.susp with
  | some { why := .parked k need, .. } => d.growMet die core need (some k)
  | _ => true
/-- R189 EVICTION, while the cores run (R23). DEDUCED (log 25). -/
def execEviction (die core : Nat) (s : State) : Out :=
  s.onDev fun d =>
    match d.oldestParked die core with
    | none => d
    | some (uid, tid) =>
      let met := match d.thread? uid tid with
        | some t => t.expired || t.pos != .waiting || d.metNow die core t
        | none => true
      if d.coresStopped die || met || !d.allParked die core || ((d.on die core).any Wg.stopping) then d
      else
        match leastBy (fun (w : Wg) => d.nextUid - w.uid) ((d.on die core).filter fun w => !w.isService && w.uid != uid) with
        | some w => d.stop ((d.unitOf w).map Wg.uid)
        | none => d.modThread uid tid fun t => { t with expired := true }

end Sys2Proof.Machine
end

