-- ==== Sys2Proof/Machine/Select.lean ====
section
/-!
DEFINITION. The selector (R198 to R208, R211, R316): readiness, the active-block table, the decision of a channel, the rotation of
proof workgroups (R190 to R192), and the entry of a bundle's threads into their block.
-/

namespace Sys2Proof.Machine

/-! ## Blocks (R199, R313, R314, R316) -/

/-- What a look at a thread's block gives: its words; or a page to wait for or a failed translation, with the header where that can
be read. -/
inductive Fetched where
  | ok (words : List Word)
  | miss (hdr : List Word) (page : Nat)
  | fail (hdr : List Word) (reason : Nat) (va : Dword)
deriving DecidableEq, Repr

/-- R199: the first check of a header. -/
def headerBad (h0 h1 : Word) : Bool :=
  let a := (fld h1 11 4).toNat
  let b := (fld h1 6 4).toNat
  let av := h1.getLsbD 15
  let bv := h1.getLsbD 10
  fld h0 26 6 != 0x3F#6 || fld h0 0 3 != 0#3 || fld h1 0 6 != 0#6 || hdrClass h0 == 3 || hdrLen h0 == 0 ||
    (av && decide (11 < a)) || (bv && decide (11 < b)) || (av && bv && a == b) || (!av && a != 0) || (!bv && b != 0)
/-- R199: a group of LIVEIN or LIVEOUT lies wholly beyond the allocation. -/
def headerBeyond (h1 : Word) (alloc : Nat) : Bool :=
  (List.range 8).any fun g => (hdrLiveIn h1 ||| hdrLiveOut h1).getLsbD g && decide (alloc ≤ 8 * g)
/-- Words from a physical address up. -/
def Dev.wordsAt (d : Dev) (pa n : Nat) : List Word := (List.range n).map fun i => BitVec.ofNat 32 (d.rd (pa + 4 * i) 4)
/-- R316: the header and the words of a thread's block; one entered at an invalid header has no more. The walker routine is reached
by physical address (R155). DEDUCED (log 27). -/
def Dev.fetchBlock (d : Dev) (w : Wg) (t : Thread) : Fetched :=
  let page := fun (va : Dword) =>
    if w.kind = .walker then Xl.hit (va.toNat % 2 ^ 51) else d.xlate w.die w.ctx (.fetch w.core) accFetch t.walkFail va
  match page t.blk with
  | .miss => .miss [] (pageOf t.blk)
  | .fail r => .fail [] r t.blk
  | .hit pa =>
    let hdr := d.wordsAt pa 2
    let n := if t.off = 0 ∧ headerBad (wordAt hdr 0) (wordAt hdr 1) then 2 else 2 + hdrLen (wordAt hdr 0)
    let here := min n ((4096 - pa % 4096) / 4)
    if n ≤ here then .ok (d.wordsAt pa n)
    else
      let next := t.blk + BitVec.ofNat 64 (4 * here)
      match page next with
      | .miss => .miss hdr (pageOf next)
      | .fail r => .fail hdr r next
      | .hit pb => .ok (d.wordsAt pa here ++ d.wordsAt pb (n - here))

/-! ## Readiness (R202, R218) -/

/-- R218: the wait of a thread within its block has ended. -/
def Dev.waitOver (d : Dev) (w : Wg) (t : Thread) : Bool :=
  match t.susp with
  | none => true
  | some s =>
    t.expired ||
      (match s.why with
      | .tokens => t.pend.isEmpty
      | .parked k need => d.growMet w.die w.core need (some k)
      | .walk _ => false
      | .arrival pa => d.arrived pa || d.isRetired pa
      | .line pa v => d.rd pa 8 != v.toNat || d.isRetired pa
      | .barrier uid off phase => (d.barRd { uid := uid, off := off }).phase != phase
      | .place cls =>
        [Cls.cpy, Cls.atm, Cls.rmt, Cls.mtx].any fun k => k.code == cls && decide (d.taken w.die w.core k < k.places)
      | .slot => (d.die w.die).freeSlot.isSome
      | .order => decide ((d.die w.die).orders.length < 4096)
      | .entry => decide ((d.die w.die).launches.length < 256)
      | .commands ids as => (d.running ids).isEmpty && (d.awaited w.die w.ctx as).isEmpty
      | .queue => decide (((d.die w.die).walks.filter fun v => v.holder.isNone).length < 1024)
      | .lines ls => ls.all d.cleanLine
      | .over => true)
/-- R202: a thread at the header of a block whose words are these. -/
def headerReady (w : Wg) (t : Thread) (h0 h1 : Word) : Bool :=
  ((List.range 12).all fun i => !(hdrWait h0).getLsbD i || natAt w.flags i == 0) &&
    t.pend.all fun i => !(hdrLiveIn h1).getLsbD (i / 8)

/-- What a decision sees of a waiting thread. -/
structure Look where
  w : Wg
  tid : Nat
  t : Thread
  block : Fetched
deriving DecidableEq, Repr

/-- The words of a block that can be read; its header is among them where its first page is. -/
def Fetched.words (f : Fetched) : List Word :=
  match f with
  | .ok ws | .miss ws _ | .fail ws _ _ => ws
def Look.h0 (l : Look) : Word := wordAt l.block.words 0
def Look.h1 (l : Look) : Word := wordAt l.block.words 1
def Look.addr (l : Look) : Nat := l.t.resume.toNat
/-- R313: the block is a cohort block. -/
def Look.cohort (l : Look) : Bool := hdrCohort l.h0
/-- R205: urgent, normal, cold; an invalid class comes last. Walker threads run in the urgent class (R165). DEDUCED (log 26). -/
def Look.rank (l : Look) : Nat :=
  if l.w.kind = .walker then 0
  else
    match hdrClass l.h0 with
    | 1 => 0
    | 0 => 1
    | _ => 2
/-- R202, R218: ready, but for its cohort and a yield. Where the block cannot be fetched the thread is ready to fault, once a header
that can be read holds it no longer or the wait it suspended on has ended. -/
def Dev.readyAlone (d : Dev) (l : Look) : Bool :=
  match l.block with
  | .miss _ _ => false
  | .fail _ _ _ | .ok _ => (l.t.off != 0 || headerReady l.w l.t l.h0 l.h1) && d.waitOver l.w l.t
/-- The waiting threads of a channel of a core, oldest workgroup first; the walker's in slot 62 are among them (R165). -/
def Dev.looks (d : Dev) (die core channel : Nat) : List Look :=
  (sortBy Wg.uid (d.wgs.filter fun w => w.die == die && w.live && w.core == core && w.channel == channel && !w.stopping)).flatMap
    fun w =>
    w.threads.zipIdx.filterMap fun e =>
      if e.1.pos = .waiting then some { w := w, tid := e.2, t := e.1, block := d.fetchBlock w e.1 } else none

/-- R205, R208: every live thread of a thread's cohort waits at its header, ready. -/
def wholeCohort (ready : List Look) (l : Look) : Bool :=
  l.w.threads.zipIdx.all fun e =>
    e.2 / 64 != l.tid / 64 || e.1.pos == .exited ||
      ready.any fun m => m.w.uid == l.w.uid && m.tid == e.2 && m.t.off == 0 && m.t.blk == l.t.blk
/-- R205: the candidates among the ready threads at table addresses. -/
def candidates (ready : List Look) : List Look :=
  ready.filter fun l => l.t.off != 0 || !l.cohort || wholeCohort ready l

/-! ## The active-block table (R203, R204) -/

/-- R204: an entry in which no thread has been ready for 256 decisions of each channel changes places with the address that has
been parked longest. A channel that makes no decisions counts none, so that it keeps every entry. DESIGN CHOICE (log 83). -/
def Core.rotate (c : Core) : Nat → Core
  | 0 => c
  | n + 1 =>
    match c.abt.find? fun e => e.2.all fun k => decide (256 ≤ k), c.overflow with
    | some e, a :: rest => { c with abt := (c.abt.erase e) ++ [(a, [0, 0, 0, 0])], overflow := rest ++ [e.1] }.rotate n
    | _, _ => c
/-- R204: the table of a core before a decision. -/
def Dev.rotateCore (d : Dev) (die core : Nat) : Dev := (d.tidyCore die core).modDie die fun x => x.modCore core fun k => k.rotate 128
/-- R204: a decision of a channel counted at the entries in which none of its threads is ready. -/
def Core.counted (c : Core) (channel : Nat) (ready : List Dword) : Core :=
  { c with abt := c.abt.map fun e => (e.1, updAt e.2 channel fun k => if ready.contains e.1 then 0 else k + 1) }

/-! ## The choice of a bundle (R205, R206) -/

/-- What a decision chooses. -/
structure Pick where
  looks : List Look
  cohort : Bool
deriving DecidableEq, Repr

/-- The ready threads of the start's workgroup at its address from the start on, at most 64; a thread that resumes within a
cohort block is alone (R208). -/
def gather (cand : List Look) (s : Look) : Pick :=
  if s.t.off ≠ 0 ∧ s.cohort then { looks := [s], cohort := false }
  else if s.t.off = 0 ∧ s.cohort then
    { looks := cand.filter (fun l => l.w.uid == s.w.uid && l.tid / 64 == s.tid / 64), cohort := true }
  else
    { looks := (cand.filter fun l => l.w.uid == s.w.uid && l.t.blk == s.t.blk && l.t.off == s.t.off && decide (s.tid ≤ l.tid)).take 64,
      cohort := false }
/-- R205, R206. -/
def choose205 (cand : List Look) : Option Pick :=
  let old := cand.filter fun l => decide (64 ≤ l.t.age)
  let top := old.foldl (fun n l => max n l.t.age) 0
  match leastBy Look.addr (old.filter fun l => l.t.age == top) with
  | some s => some (gather cand s)
  | none =>
    match leastBy Look.addr (cand.filter fun l => l.t.off == 0 && l.cohort) with
    | some s => some (gather cand s)
    | none =>
      (leastBy (fun l => l.rank * 2 ^ 64 + l.addr) cand).map (gather cand)

/-! ## The rotation of proof workgroups (R191) -/

/-- What the rotation comes to. -/
inductive Turn where
  | pick (p : Pick) (at_ : Nat)
  /-- The channel waits at an address, a workgroup and a thread. -/
  | hold (at_ uid tid : Nat)
  /-- Every thread was passed over. -/
  | none
deriving DecidableEq, Repr

/-- A place in the rotation's order: an address with the lowest whole cohort of a workgroup at its header, or with a thread and
those above it at the address. -/
structure Stop where
  at_ : Nat
  cohort : Bool
  looks : List Look
deriving DecidableEq, Repr

/-- R191: a thread that is suspended in barwait with the phase unchanged. -/
def Dev.atBarrier (d : Dev) (l : Look) : Bool :=
  l.t.off != 0 && !l.t.expired && (match l.t.susp with
    | some { why := .barrier uid off phase, .. } => (d.barRd { uid := uid, off := off }).phase == phase
    | _ => false)
/-- R191: an engine command of a proof workgroup of the context is outstanding. -/
def Dev.proofBusy (d : Dev) (die ctx : Nat) : Bool :=
  d.cmds.any fun x => x.die == die && x.ctx == ctx && (match d.wg? x.uid with
    | some w => w.proof
    | none => false)
/-- The threads from the first on up to the first that is not ready. -/
def upToReady (d : Dev) : List Look → List Look
  | [] => []
  | l :: ls => if d.readyAlone l then l :: upToReady d ls else []
/-- R191: the lowest cohort of a workgroup whose every live thread waits at a header. -/
def cohortAt (ls : List Look) : Option (List Look) :=
  (ls.find? fun l => wholeCohort ls l).map fun l => ls.filter fun m => m.tid / 64 == l.tid / 64
/-- The threads of a workgroup at an address, each with those above it at the same instruction. -/
def threadStops (at_ : Nat) : List Look → List Stop
  | [] => []
  | l :: ls =>
    { at_ := at_, cohort := false, looks := l :: ls.filter fun m => m.t.blk == l.t.blk && m.t.off == l.t.off } :: threadStops at_ ls
/-- R191: the places of one workgroup at an address. -/
def stopsOf (at_ : Nat) (ls : List Look) : List Stop :=
  let heads := ls.filter fun l => l.t.off == 0 && l.cohort
  if heads.isEmpty then threadStops at_ ls
  else ((cohortAt heads).map fun c => { at_ := at_, cohort := true, looks := c }).toList
/-- R191: the places at one address, the workgroups in the order of their launches. -/
def stopsAt (all : List Look) (at_ : Nat) : List Stop :=
  let here := all.filter fun l => l.addr == at_
  let wgs := sortBy (fun (w : Wg) => w.order * 2 ^ 64 + w.flat) ((here.map fun l => l.w).eraseDups)
  wgs.flatMap fun w => stopsOf at_ (here.filter fun l => l.w.uid == w.uid)
/-- Whether the channel waits at a place. -/
def Stop.is (s : Stop) (h : Nat × Nat × Nat) : Bool :=
  s.at_ == h.1 && (match s.looks with
    | [] => false
    | l :: _ => l.w.uid == h.2.1 && l.tid == h.2.2)
/-- R191: the places in order up to the first that is chosen or holds the channel. -/
def Dev.runStops (d : Dev) (die ctx : Nat) : List Stop → Turn
  | [] => .none
  | s :: ss =>
    match s.looks with
    | [] => d.runStops die ctx ss
    | l :: ls =>
      if s.cohort then
        (if s.looks.all d.readyAlone then .pick { looks := s.looks, cohort := true } s.at_ else .hold s.at_ l.w.uid l.tid)
      else if d.atBarrier l then
        (if d.proofBusy die ctx then .hold s.at_ l.w.uid l.tid else d.runStops die ctx ss)
      else if !d.readyAlone l then .hold s.at_ l.w.uid l.tid
      else if l.t.off ≠ 0 ∧ l.cohort then .pick { looks := [l], cohort := false } s.at_
      else .pick { looks := (upToReady d (l :: ls)).take 64, cohort := false } s.at_
/-- The proof threads of a context that wait on a core, at parked addresses (R204) too. DESIGN CHOICE (log 95). -/
def Dev.proofLooks (d : Dev) (die core ctx : Nat) : List Look :=
  (d.looks die core 0).filter fun l => l.w.proof && l.w.ctx == ctx
/-- The places of the rotation at or above P, and those below it. -/
def rotation (all : List Look) (p : Nat) : List Stop × List Stop :=
  let addrs := sortBy id (all.map Look.addr).eraseDups
  ((addrs.filter fun a => decide (p ≤ a)).flatMap (stopsAt all), (addrs.filter fun a => decide (a < p)).flatMap (stopsAt all))
/-- R192, R429: the rotation wraps: proof work is placed. Where workgroups were restored the rotation follows the restored P, and
else goes on from the lowest address; the threads that it has passed over are passed over once more. -/
def Dev.wrap (d : Dev) (die core ctx : Nat) : Dev × Turn :=
  let saved := fun (d : Dev) => ((d.savedOn die).filter fun e => e.1.proof && e.1.ctx == ctx).length
  let d' := d.placeProof die ctx
  let p := ((d'.ctx? die ctx).map fun k => k.rot.toNat).getD 0
  let (up, low) := rotation (d'.proofLooks die core ctx) p
  (d', d'.runStops die ctx (if saved d' < saved d then up ++ low else low ++ up))
/-- R191, R192: the rotation of a context from P, or from the place at which the channel waits or that it has chosen. Where every
waiting thread was passed over, it chooses again once the deadline of a proof thread has passed. -/
def Dev.turn (d : Dev) (die core ctx : Nat) : Dev × Turn :=
  let k := (d.ctx? die ctx).getD (Ctx.fresh 0 0)
  if k.passed && !(d.proofLooks die core ctx).any (fun l => l.t.expired) then (d, .none) else
  let (up, low) := rotation (d.proofLooks die core ctx) k.rot.toNat
  let from_ := fun (ss : List Stop) (h : Nat × Nat × Nat) => ss.dropWhile fun s => !s.is h
  let onward := fun (ss : List Stop) => match d.runStops die ctx ss with
    | .none => if low.isEmpty then (d, Turn.none) else d.wrap die core ctx
    | t => (d, t)
  match k.hold with
  | some h =>
    if up.any fun s => s.is h then onward (from_ up h)
    else if low.any fun s => s.is h then (d, d.runStops die ctx (from_ (low ++ up) h))
    else onward up
  | none => onward up
/-- The place at which the rotation stands after a turn: one that holds it, or one that it has chosen and that is still to be
streamed. -/
def Turn.place (t : Turn) : Option (Nat × Nat × Nat) :=
  match t with
  | .hold a u i => some (a, u, i)
  | .pick p a => p.looks.head?.map fun l => (a, l.w.uid, l.tid)
  | .none => Option.none
/-- R191: what the context keeps of a turn. -/
def Dev.keepTurn (d : Dev) (die ctx : Nat) (t : Turn) : Dev :=
  d.modCtx die ctx fun k => { k with hold := t.place, passed := t == .none }

/-! ## Entry (R199, R211, R316) -/

/-- R211: the working copy at block entry. -/
def Thread.gatherIn (t : Thread) (liveIn : BitVec 8) : List Word :=
  (List.range 64).map fun i => if liveIn.getLsbD (i / 8) && decide (i < t.regs) then wordAt t.row i else 0#32
/-- R218: the working copy of a thread comes back from the spill stack; its bytes are charged (R179). -/
def Dev.unspill (d : Dev) (c : Cur) : Except Trap (Dev × Thread) :=
  let n := 4 * c.t.alloc
  match d.reach true c.w (accStack false) [] (d.stackVa c.w c.tid (c.t.sp + 64)) 4096 n with
  | .ok ps =>
    let bs := d.asPosted.rdPieces ps
    .ok (d.dramCharge c.w.die c.w.ctx n,
      { c.t with work := (List.range 64).map (fun i =>
            if i < c.t.alloc then BitVec.ofNat 32 (leValue ((bs.drop (4 * i)).take 4)) else 0#32)
                 sp := c.t.sp + roundUp (64 + n) 32, spilled := false })
  | .miss p => .error (.at 0x0F rNotResident (BitVec.ofNat 64 (p * 4096)))
  | .fail x => .error x
/-- R240: a thread that enters a block observes the completed commands whose token register is in a live-in group, and those that
counted against a flag of WAIT. -/
def Dev.entered (d : Dev) (uid tid : Nat) (h0 h1 : Word) : Dev :=
  d.observe (uid, tid) fun e => d.completed e && e.by_.1 == uid &&
    ((e.by_.2 == tid && e.token.any fun k => (List.range k.2).any fun i => (hdrLiveIn h1).getLsbD ((k.1 + i) / 8)) ||
      e.flags.any fun f => (hdrWait h0).getLsbD f)
/-- One thread of the front bundle enters its block, or resumes in it; it faults, or it runs. -/
def Dev.enterThread (d : Dev) (uid tid : Nat) (block : Fetched) : Dev :=
  match d.flight, d.wg? uid with
  | b :: _, some w =>
    match w.threads[tid]? with
    | none => d
    | some t =>
      let t := if t.off = 0 then { t with work := t.row } else t
      let c : Cur := { b := b, w := w, tid := tid, t := t }
      let here := if t.off = 0 then t.blk else c.addr
      match block with
      | .miss _ _ => d
      | .fail _ r va =>
        (match d.ctx? w.die w.ctx with
        | some k =>
          if k.trap = t.blk ∧ 0 < t.trapDepth then d.abort w.die w.ctx 0x0F (w.threadField tid)
          else d.takeFault c t t.off (.at 0x0F r va) here
        | none => d.takeFault c t t.off (.at 0x0F r va) here)
      | .ok ws =>
        if t.off = 0 then
          if headerBad (wordAt ws 0) (wordAt ws 1) then d.takeFault c t 0 illegal here
          else if headerBeyond (wordAt ws 1) t.alloc then d.takeFault c t 0 regRange here
          else (d.entered uid tid (wordAt ws 0) (wordAt ws 1)).commit c { t with work := t.gatherIn (hdrLiveIn (wordAt ws 1)), off := 1, locked := [], walkFail := [] }
        else if t.spilled then
          match d.unspill c with
          | .ok (d, t) => d.commit c t
          | .error x =>
            -- the frame of the working copy is given up with the suspension
            let t := { t with spilled := false, sp := t.sp + roundUp (64 + 4 * t.alloc) 32 }
            d.takeFault { c with t := t } t t.off x here
        else d
  | _, _ => d
/-- R205, R209: a bundle streamed. -/
def Dev.stream (d : Dev) (channel : Nat) (p : Pick) : Dev :=
  match p.looks with
  | [] => d
  | s :: _ =>
    let words := (p.looks.findSome? fun l => match l.block with
      | .ok ws => some ws
      | .miss _ _ | .fail _ _ _ => none).getD []
    let tids := p.looks.map fun l => l.tid
    let b : Bundle := { uid := s.w.uid, channel := channel, blk := s.t.blk, words := words, cohort := p.cohort, tids := tids,
                        issued := none }
    let d := { d with flight := b :: d.flight }
    let d := d.modWg s.w.uid fun w =>
      { w with threads := w.threads.mapIdx fun i t => if tids.contains i then { t with pos := .running, age := 0 } else t }
    let d := d.tidyCore s.w.die s.w.core
    p.looks.foldl (fun d l => d.enterThread l.w.uid l.tid l.block) d

/-! ## A decision (R205) -/

/-- The walks that the waiting threads of a channel need for their blocks are asked for, once each (R156, R166). -/
def Dev.askFetch (d : Dev) (ls : List Look) : Dev :=
  ls.foldl (fun d l =>
    match l.block with
    | .miss _ page =>
      let who := Requester.thread l.w.uid l.tid
      if (d.die l.w.die).walks.any fun v => v.ctx == l.w.ctx && v.page == page && v.joined.any fun q => q.1 == who then d
      else d.ask l.w.die l.w.ctx page who (.fetch l.w.core) accFetch
    | .ok _ | .fail _ _ _ => d) d
/-- Bundles of a channel in flight. -/
def Dev.inFlight (d : Dev) (die core channel : Nat) : Nat :=
  (d.flight.filter fun b => b.channel == channel && (match d.wg? b.uid with
    | some w => w.die == die && w.core == core
    | none => false)).length
/-- R190: the proof contexts of a core that have no bundle in flight. -/
def Dev.proofCtxs (d : Dev) (ls : List Look) : List Nat :=
  ((ls.filter fun l => l.w.proof).map fun l => l.w.ctx).eraseDups.filter fun c =>
    !d.flight.any fun b => match d.wg? b.uid with
      | some w => w.proof && w.ctx == c && (ls.head?.map fun l => l.w.die) == some w.die
      | none => false
/-- R358, R206, R204: after a decision: yields are over, the candidates that were not streamed have aged, and the decision counts
at the table's entries; `seen` are the threads that were ready, candidates or not. -/
def Dev.age (d : Dev) (channel : Nat) (ls cand seen : List Look) (chosen : List Look) : Dev :=
  let d := ls.foldl (fun d l => if l.t.yielded then d.modThread l.w.uid l.tid fun t => { t with yielded := false } else d) d
  let d := cand.foldl (fun d l =>
    if chosen.any fun m => m.w.uid == l.w.uid && m.tid == l.tid then d
    else d.modThread l.w.uid l.tid fun t => { t with age := min 255 (t.age + 1) }) d
  match ls with
  | [] => d
  | l :: _ => d.modDie l.w.die fun x => x.modCore l.w.core fun k => k.counted channel (seen.map fun m => m.t.resume)
/-- What a channel may do at a decision: its ready ordinary threads, those that are candidates, the ready proof threads, and the turns of its
proof contexts. -/
structure Offers where
  ready : List Look
  cand : List Look
  proofs : List Look
  turns : List (Pick × Option (Nat × Nat))
deriving DecidableEq, Repr

/-- R202, R358: the threads that are ready at a decision, those of an incomplete cohort too (R204, R205). -/
def Offers.seen (o : Offers) : List Look := (o.ready.filter fun l => !l.t.yielded) ++ o.proofs
/-- R190, R191: the turns of the proof contexts of a channel that may issue. -/
def Dev.proofTurns (d : Dev) (die core : Nat) (ctxs : List Nat) : Dev × List (Pick × Option (Nat × Nat)) :=
  ctxs.foldl (fun acc c =>
    let (d, t) := acc.1.turn die core c
    let d := d.keepTurn die c t
    match t with
    | .pick p a => (d, acc.2 ++ [(p, some (c, a + 8))])
    | .hold _ _ _ | .none => (d, acc.2)) (d, [])
/-- R205, R207, R191: what one decision chooses: an aged ordinary thread comes first. Where the channel serves proof workgroups and
others, which of them it serves is else open. A yield is over after a decision at which no other thread was ready.
DEDUCED (log 26). -/
def Dev.decideOn (d : Dev) (die channel : Nat) (ls : List Look) (o : Offers) : Dev :=
  let mine := (choose205 o.cand).toList.map fun p => (p, none)
  let options := if o.cand.any fun l => Nat.ble 64 l.t.age then mine else mine ++ o.turns
  let (v, d) := if options.length < 2 then (0#64, d) else d.draw
  match options[v.toNat % options.length]? with
  | none => if (candidates o.ready).isEmpty then d else d.age channel ls [] o.seen []
  | some (p, none) => (d.age channel ls o.cand o.seen p.looks).stream channel p
  | some (p, some (c, a)) =>
    ((d.age channel ls o.cand o.seen []).modCtx die c fun k => { k with rot := BitVec.ofNat 64 a, hold := none }).stream channel p
/-- R205: one decision of a channel. -/
def Dev.decision (d : Dev) (die core channel : Nat) : Dev :=
  let d := d.rotateCore die core
  let ls := d.looks die core channel
  let d := d.askFetch ls
  if 8 ≤ d.inFlight die core channel then d
  else
    let table := ((d.die die).core core).abt.map Prod.fst
    let ready := ls.filter fun l => !l.w.proof && table.contains l.t.resume && d.readyAlone l
    let cand := candidates (ready.filter fun l => !l.t.yielded)
    let proofs := ls.filter fun l => l.w.proof && d.readyAlone l
    let (d, turns) := d.proofTurns die core (if channel = 0 then d.proofCtxs ls else [])
    d.decideOn die channel ls { ready := ready, cand := cand, proofs := proofs, turns := turns }
/-- R205 SELECTOR_DECISION. A die whose cores have stopped, or whose JOIN is not yet acknowledged, streams nothing (R23, R32, R64). -/
def execSelectorDecision (die core channel : Nat) (s : State) : Out :=
  s.onDev fun d => if die < 4 ∧ core < 72 ∧ channel < 4 ∧ d.coresStopped die = false then d.decision die core channel else d

end Sys2Proof.Machine
end

