-- ==== Sys2Proof/Machine/Finish.lean ====
section
/-!
DEFINITION. The ends of things: tokens (R368, R131), workgroups (R228, R147), deadlines (R369), page-service requests (R149), budget
periods (R60, R61, R179), and uncorrectable errors (R250, R164).
-/

namespace Sys2Proof.Machine

/-! ## Scratchpads of ended workgroups (R228, R232) -/

/-- R232: whether a range of scratchpad that a command passed its checks with takes in bytes of a workgroup: of its own allocation, or,
past the end of a rank, of the next ranks of the cluster group. -/
def Dev.spansTo (d : Dev) (w : Wg) (uid off n : Nat) : Bool :=
  n != 0 && (match d.wg? uid with
    | some v => v.die == w.die && v.group == w.group && decide (v.rank + off / 2 ^ 22 ≤ w.rank ∧ w.rank ≤ v.rank + (off + n - 1) / 2 ^ 22)
    | none => false)
def Dev.sideTo (d : Dev) (w : Wg) (s : Side) (n : Nat) : Bool :=
  match s with
  | .scr u off => d.spansTo w u off n
  | .mem _ => false
def Dev.barTo (d : Dev) (w : Wg) (bar : Option (Nat × Nat)) : Bool := bar.any fun b => d.spansTo w b.1 b.2 16
/-- A segment of a scratchpad tensor's row lies in the allocation at a rank. -/
def rankIn (x : Desc) (addr n rank : Nat) : Bool :=
  x.space == 1 && n != 0 && decide (addr / 2 ^ 22 ≤ rank ∧ rank ≤ (addr + n - 1) / 2 ^ 22)
def TileOp.namesRank (o : TileOp) (rank : Nat) : Bool :=
  o.rows.any fun i => rankIn o.src (o.sa i) (o.src.segLen (o.ks i)) rank || rankIn o.dst (o.da i) (o.dst.segLen o.k) rank
/-- R232: whether a command may still reach the scratchpad of a workgroup; `mate` says that its issuer is of the same cluster group. A
matrix-engine command names members through descriptors. -/
def Dev.cmdNames (d : Dev) (x : Cmd) (w : Wg) (mate : Bool) : Bool :=
  match x.body with
  | .copy s t n b _ => d.sideTo w s n || d.sideTo w t n || d.barTo w b
  | .copyt src dst os od m n b _ =>
    (mate && TileOp.namesRank { src := src, dst := dst, os := os, od := od, m := m, n := n, bar := b } w.rank) || d.barTo w b
  | .gather _ _ iu io du dof size left =>
    let k := left.foldl (fun k e => max k (e.i + 1)) 0
    d.spansTo w iu io (4 * k) || d.spansTo w du dof (size * k)
  | .hget u off _ => d.spansTo w u off 64
  | .spread left => left.any fun e => e.uid == w.uid
  | .mtx _ => mate
  | .prefetch _ | .pagein _ _ | .atomg _ _ _ | .casg _ _ _ _ | .arm _ _ | .xcvt _ _ _ | .onceclr _ | .remote | .finished => false
def Dev.named (d : Dev) (w : Wg) : Bool :=
  d.cmds.any fun x => x.uid != w.uid && d.cmdNames x w ((d.wg? x.uid).any fun v => v.die == w.die && v.group == w.group)
/-- Ended workgroups whose scratchpad no command reaches any more go. -/
def Dev.sweepEnded (d : Dev) : Dev := { d with wgs := d.wgs.filter fun w => !w.ended || d.named w }

/-! ## Tokens (R368) -/

/-- R396, R86: a line cleared, with its written and closed bits. -/
def Dev.clearLine (d : Dev) (pa : Nat) : Dev :=
  { d.store pa 64 0 with written := d.written.filter (fun w => w / 16 != lineOf pa), closed := d.closed.filter fun l => l != lineOf pa }
/-- An access at the home slice that writes: once the lines are clean; until then it invalidates. -/
def Dev.whenClean (d : Dev) (pa n : Nat) (f : Dev → Dev) : Dev := if d.clean pa n then f d else d.flush pa n
/-- R131: an HGET whose words have been copied to scratchpad; a reply that arrives while the workgroup is saved stays in the landing line
until it is restored, and the token with it. DEDUCED (log 36). -/
def Dev.landHget (d : Dev) (x : Cmd) (left : List (Nat × List Byte)) : Dev :=
  match d.wg? x.uid with
  | some w => if w.isResident && left.isEmpty then d.complete x else d
  | none => d.complete x
/-- R390: an earlier arm of the same thread on the same arrival word, which is applied first. -/
def Dev.armBefore (d : Dev) (x : Cmd) (pa : Nat) : Bool :=
  d.cmds.any fun y => decide (y.id < x.id) && y.uid == x.uid && y.tid == x.tid && (match y.body with
    | .arm q _ => q == pa
    | _ => false)
/-- R164, R250: a command that meets a frame retired since its issue is turned away there: it has no effect, and the value it gives is open.
DESIGN CHOICE (log 84). -/
def Dev.turnedAway (d : Dev) (x : Cmd) : Dev :=
  let (v, d) := d.draw
  d.complete { x with result := v }
/-- R368: what a command still has to do at its home slice, and its completion. DESIGN CHOICE (log 84). -/
def Dev.finishCmd (d : Dev) (x : Cmd) (pick : Nat) : Dev :=
  match x.body with
  | .atomg op pa y =>
    let run := fun (d : Dev) => let (d, m) := d.atomAt op pa y; d.complete { x with result := BitVec.ofNat 64 m }
    if d.isRetired pa then d.turnedAway x else if op = .ld then run d else d.whenClean pa (atomBytes op) run
  | .casg wide pa old new =>
    if d.isRetired pa then d.turnedAway x else d.whenClean pa (if wide then 8 else 4) fun d =>
      let (d, m) := d.casAt wide pa old new
      d.complete { x with result := BitVec.ofNat 64 m }
  | .arm pa target =>
    if d.armBefore x pa then d
    else if d.isRetired pa then d.complete x
    else d.whenClean (pa + 4) 4 fun d => (d.store (pa + 4) 4 target.toNat).complete x
  | .xcvt pa f64 i =>
    if d.isRetired pa then d.turnedAway x
    else d.complete { x with result := BitVec.ofNat 64 (xcvtCode (d.rd pa 64) (if f64 then .fp64 else .fp32) i) }
  | .onceclr left =>
    (match choose left pick with
    | none => d.complete x
    | some (pa, rest) =>
      if d.isRetired pa then d.putCmd { x with body := .onceclr rest }
      else d.whenClean pa 64 fun d => (d.clearLine pa).putCmd { x with body := .onceclr rest })
  | .hget _ _ (some left) => d.landHget x left
  | .copy _ _ _ _ [] | .copyt _ _ _ _ _ _ _ [] | .gather _ _ _ _ _ _ _ [] | .prefetch [] | .finished => d.complete x
  | .copy _ _ _ _ (_ :: _) | .copyt _ _ _ _ _ _ _ (_ :: _) | .gather _ _ _ _ _ _ _ (_ :: _) | .prefetch (_ :: _)
  | .pagein _ _ | .remote | .hget _ _ none | .mtx _ | .spread _ => d
/-- R427: an entry of the error queue of a command's context is on its way to memory: the token of a remote operation comes after it. -/
def Dev.errqFirst (d : Dev) (x : Cmd) : Bool := x.cls == .rmt && d.errqWaiting x.die x.ctx != 0
/-- R368 TOKEN_COMPLETION. A token for a saved workgroup waits until its line may be written (R137, R184). -/
def execTokenCompletion (cmd pick : Nat) (s : State) : Out :=
  s.onDev fun d =>
    match d.cmd? cmd with
    | some x =>
      if d.tripped x.die || d.errqFirst x then d
      else if (d.tokenPas x).all fun pa => d.clean pa 4 then (d.finishCmd x pick).sweepEnded
      else (d.tokenPas x).foldl (fun d pa => d.flush pa 4) d
    | none => d

/-! ## The end of a workgroup (R228) -/

/-- R228: the last thread has exited, and the commands it waits for have completed. -/
def Dev.over (d : Dev) (w : Wg) : Bool :=
  w.live && w.kind != .walker && w.threads.all (fun t => t.pos == .exited) && !d.busy w.uid
/-- R147, R171: a workgroup of a grid ends; after the last one the arrival is sent, and the entry is freed once it has been. -/
def Dev.gridEnd (d : Dev) (die id : Nat) : Dev :=
  match (d.die die).launches.find? fun l => l.id == id with
  | none => d
  | some l =>
    let d := d.modDie die fun x => x.modLaunch id fun l => { l with ended := l.ended + 1 }
    if l.ended + 1 < l.total then d
    else if l.doneVa = 0 then d.modDie die fun x => x.launched (.launch id)
    else d.sendRarrive die l.ctx l.donePa l.doneVa (.launch id)
/-- R228: its resources go; its scratchpad stays while a command of another member names it. -/
def Dev.dropWg (d : Dev) (w : Wg) : Dev :=
  let d := d.modDie w.die fun x => { x with orders := x.orders.filter fun o => o.uid != w.uid }
  let d := if d.named w then
      d.modWg w.uid fun w => { w with ended := true, extent := none, threads := [], tiles := [], gens := [] }
    else { d with wgs := d.wgs.filter fun p => p.uid != w.uid }
  { d.sweepEnded with passDue := insertNat w.die d.passDue }
def Dev.endWg (d : Dev) (w : Wg) : Dev :=
  (match w.kind with
  | .task h => d.taskEnd w h
  | .launch id => d.gridEnd w.die id
  | .supervisor | .walker => d).dropWg w
/-- R228 WORKGROUP_END, while the cores run (R23). -/
def execWorkgroupEnd (uid : Nat) (s : State) : Out :=
  s.onDev fun d =>
    match d.wg? uid with
    | some w => if d.over w && !d.coresStopped w.die then d.endWg w else d
    | none => d

/-! ## Deadlines and periods -/

/-- R369: the deadline of a thread's wait has passed. -/
def Thread.late (t : Thread) (clock : Nat) : Bool :=
  match t.susp with
  | some { since := s, limit := some n, .. } => t.pos == .waiting && decide (s + n ≤ clock)
  | _ => false
/-- R369 DEADLINE_EXPIRY. DESIGN CHOICE (log 55). -/
def execDeadlineExpiry (uid tid : Nat) (s : State) : Out :=
  s.onDev fun d =>
    match d.wg? uid with
    | some w =>
      d.modThread uid tid fun t => if w.live && t.late (d.clock w.die w.core) then { t with expired := true } else t
    | none => d

/-- R149, R167: a page-service request answered: every PAGEIN joined to it completes. -/
def Dev.pageAnswer (d : Dev) (r : PageReq) (resident : Bool) : Dev :=
  let d := { d with pageReqs := d.pageReqs.filter fun q => q.id != r.id }
  r.cmds.foldl (fun d id => d.settle id (if resident then 1#64 else 2#64)) d
/-- R149 PAGE_SERVICE_TIMEOUT: 100 ms without an answer. -/
def execPageServiceTimeout (request : Nat) (s : State) : Out :=
  s.onDev fun d =>
    match d.pageReqs.find? fun r => r.id == request with
    | some r => if rawOfUs 100000 ≤ d.raw - r.since then d.pageAnswer r false else d
    | none => d

/-- R60, R61, R179: a new period: what was spent in excess is deducted from it. -/
def Ctx.newPeriod (k : Ctx) : Ctx :=
  { k with fabLeft := (256 * k.fab : Nat) + min 0 k.fabLeft, updLeft := (k.upd : Nat) + min 0 k.updLeft,
           dramLeft := (k.dram : Nat) + min 0 k.dramLeft }
/-- R60 BUDGET_PERIOD: the die's period of 8 µs ends and the next begins there; waiting messages go on. -/
def execBudgetPeriod (die : Nat) (s : State) : Out :=
  s.onDev fun d =>
    if d.raw - (d.die die).periodAt < rawOfUs 8 then d
    else (d.modDie die fun x => { x with periodAt := x.periodAt + rawOfUs 8, ctxs := x.ctxs.map Ctx.newPeriod }).pump die

/-! ## Uncorrectable errors (R250, R164) -/

/-- R164: a frame retired at its home; the 257th retirement resets the die. -/
def Dev.retire (d : Dev) (pa : Nat) : Dev :=
  if isCompanion pa || !d.isHere (homeOf pa) then d
  else
    let n := homeOf pa % 4
    let frames := (d.die n).retired
    if frames.contains (pa / 4096) then d
    else if 256 ≤ frames.length then { d with resets := d.resets ++ [(n, 2)] }
    else d.modDie n fun x => { x with retired := insertNat (pa / 4096) x.retired }
/-- R62, R250: the record, with the physical address. -/
def Dev.ueRecord (d : Dev) (ctx die pa : Nat) : Dev := d.record 0x02 ctx die (BitVec.ofNat 64 pa) 0 0
/-- R431: the context of an uncorrectable error is aborted; the record's code and thread are open. -/
def Dev.ueAbort (d : Dev) (die ctx : Nat) : Dev :=
  let (v, d) := d.draw
  d.abort die ctx (v.toNat % 256) (v.extractLsb' 32 32)
/-- R161: the pieces of a copy in a granule of its source, all of which are to move again, as zeros. -/
def regranule (va : Dword) (dst : Side) (n : Nat) (page : Nat) (left : List (Nat × Nat)) : List (Nat × Nat) :=
  let here := fun (e : Nat × Nat) => pageOf (va + BitVec.ofNat 64 e.1) == page
  left.filter (fun e => !here e) ++ (pieces va.toNat (dst.cut (.mem va)) n).filter here
/-- R161: the same for the parts of the rows of a tensor copy. -/
def TileOp.regranule (o : TileOp) (page : Nat) (left : List (Nat × Nat × Nat)) : List (Nat × Nat × Nat) :=
  let n := fun (i : Nat) => o.src.segLen (o.ks i)
  let lo := fun (i : Nat) => max (o.sa i) (4096 * page) - o.sa i
  let cut := fun (e : Nat × Nat × Nat) =>
    let a := lo e.1
    let b := a + overlap (o.sa e.1) (n e.1) (4096 * page) 4096
    ([(e.1, e.2.1, min (e.2.1 + e.2.2) a - e.2.1), (e.1, max e.2.1 b, e.2.1 + e.2.2 - max e.2.1 b)]).filter fun f => f.2.2 != 0
  left.flatMap cut ++
    o.rows.flatMap fun i => rowParts o.src o.dst o.os o.od i (lo i) (overlap (o.sa i) (n i) (4096 * page) 4096)
/-- R161, R250: main memory that the copy engine reads at an address of a command met an error: the physical address, and the command with
the granule failed. -/
def Dev.ueGranule (d : Dev) (x : Cmd) (va : Dword) : Option (Nat × Cmd) :=
  match (d.spotVa x false va).1 with
  | .pa pa => if isCompanion pa then none else some (pa, x.failGranule false (pageOf va) rRetired)
  | .scr _ | .bad | .walk _ => none
/-- R250: the address in main memory that the next piece of a command reads, and the device with the piece failed (R161, R162). -/
def Dev.ueRead (d : Dev) (x : Cmd) (pick : Nat) : Option (Nat × Dev) :=
  let failed := fun (e : Nat × Cmd) => (e.1, d.putCmd e.2)
  match x.body with
  | .copy (.mem va) dst n bar left =>
    (choose left pick).bind fun e =>
      let at_ := va + BitVec.ofNat 64 e.1.1
      (d.ueGranule x at_).map fun q =>
        failed (q.1, { q.2 with body := .copy (.mem va) dst n bar (regranule va dst n (pageOf at_) left) })
  | .copyt src dst os od m n bar left =>
    if src.space = 1 then none
    else (choose left pick).bind fun e =>
      let o : TileOp := { src := src, dst := dst, os := os, od := od, m := m, n := n, bar := bar }
      (choose (pagesOf (o.sa e.1.1) (src.segLen (o.ks e.1.1))) (pick / left.length)).bind fun p =>
        (d.ueGranule x (BitVec.ofNat 64 (max (o.sa e.1.1) (p.1 * 4096)))).map fun q =>
          failed (q.1, { q.2 with body := .copyt src dst os od m n bar (o.regranule p.1 left) })
  | .gather false base iu io du dof size left =>
    let o : ElemOp :=
      { scatter := false, base := base, list := { uid := iu, off := io }, data := { uid := du, off := dof }, size := size }
    (choose left pick).bind fun e =>
      let (idx, d) := d.elemIndex x o e.1
      match d.xlate x.die x.ctx (.copy x.core) (accCopy false) x.walkFail (o.va idx + BitVec.ofNat 64 e.1.lo) with
      | .hit pa => if isCompanion pa then none else some (pa, d.loseElem x o e.1 e.2)
      | .miss | .fail _ => none
  | .prefetch left =>
    (choose left pick).bind fun e =>
      (d.ueGranule x (BitVec.ofNat 64 (e.1.1 * 4096))).map fun q => (q.1, d.putCmd { x with body := .prefetch e.2 })
  | .copy (.scr _ _) _ _ _ _ | .gather true _ _ _ _ _ _ _ | .pagein _ _ | .atomg _ _ _ | .casg _ _ _ _ | .arm _ _
  | .xcvt _ _ _ | .onceclr _ | .remote | .hget _ _ _ | .mtx _ | .spread _ | .finished => none
/-- R386, R387: the address that an L2 atomic reaches. -/
def Cmd.atomPa (x : Cmd) : Option Nat :=
  match x.body with
  | .atomg _ pa _ | .casg _ pa _ _ => some pa
  | _ => none
/-- The address at the home that an update or a read request reaches: its target, or the source of a part; for an update, part 1 is its
arrival word. -/
def homePa (ws : List Dword) (part : Nat) : Option Nat :=
  if msgKind ws = 0x01 then (if 64 * part < msgAt ws 24 0 13 then some (msgAt ws 32 0 52 + 64 * part) else none)
  else if msgClass ws = 2 ∧ msgKind ws ≠ 0x47 then
    (if part = 0 then some (updPa ws) else updArr ws)
  else none
/-- R62: the issuing context of a message: that of its tag; a management message (R41) has none. -/
def msgOwner (ws : List Dword) : Nat := if msgClass ws = 3 then 0xFF else tagCtx (dwordAt ws 2)
/-- Message `idx` of those that stand at a die: for it, to be routed, or waiting for a link. -/
def Die.standing (x : Die) (idx : Nat) : Option (Msg × Die) :=
  let n := x.inbox.length
  let k := x.transit.length
  if idx < n then x.inbox[idx]?.map fun m => (m, { x with inbox := x.inbox.eraseIdx idx })
  else if idx < n + k then x.transit[idx - n]?.map fun m => (m, { x with transit := x.transit.eraseIdx (idx - n) })
  else
    let rec go : Nat → List Link → Option (Msg × List Link)
      | _, [] => none
      | i, l :: ls =>
        match l.queue[i]? with
        | some m => some (m, { l with queue := l.queue.eraseIdx i } :: ls)
        | none => (go (i - l.queue.length) ls).map fun e => (e.1, l :: e.2)
    (go (idx - n - k) x.links).map fun e => (e.1, { x with links := e.2 })
/-- R250 for main memory, and R62 for a message in the buffers of a die, which goes no further. What reads a frame after its error finds it
retired (R164). -/
def Dev.ueAt (d : Dev) (die : Nat) (site : UeSite) : Dev :=
  match site with
  | .copyGranule cmd pick =>
    (match d.cmd? cmd with
    | none => d
    | some x =>
      match d.ueRead x pick with
      | some (pa, e) => if x.die = die then (e.ueRecord x.ctx die pa).retire pa else d
      | none => d)
  | .atomic cmd =>
    (match d.cmd? cmd with
    | none => d
    | some x =>
      match x.atomPa with
      | some pa => if x.die = die then (((d.ueRecord x.ctx die pa).retire pa).ueAbort die x.ctx).sweepEnded else d
      | none => d)
  | .home idx part =>
    (match (d.die die).inbox[idx]? with
    | none => d
    | some m =>
      match homePa m.ws part with
      | some pa => (d.ueRecord (tagCtx (dwordAt m.ws 2)) die pa).retire pa
      | none => d)
  | .walk k level =>
    (match (d.die die).walks[k]? with
    | none => d
    | some v =>
      match (d.ctx? die v.ctx).bind fun c => d.entryAt die (v.page * 4096) c.root 5 level with
      | none => d
      | some pa => if isCompanion pa then d else ((d.ueRecord v.ctx die pa).retire pa).endWalk die v (.error rWalkFail))
  | .core uid =>
    (match d.wg? uid with
    | some w =>
      if w.die = die ∧ w.isResident ∧ w.kind ≠ .walker then (((d.ueRecord w.ctx die 0).ueAbort die w.ctx).sweepEnded) else d
    | none => d)
  | .dram ctx pa =>
    if isCompanion pa || homeOf pa != d.dieId die || !(ctx == 0xFF || (d.ctx? die ctx).isSome) then d
    else (d.ueRecord ctx die pa).retire pa
  | .buffer idx =>
    (match (d.die die).standing idx with
    | some (m, x) => (d.setDie die x).ueRecord (msgOwner m.ws) die 0
    | none => d)
  | .ptld => d
/-- R62, R148: the context for which a walker thread reads a table: that of the walk it holds. -/
def Dev.walkCtx (d : Dev) (c : Cur) : Nat := (((d.die c.w.die).held? c.w.uid c.tid).map Walk.ctx).getD 0xFF
/-- R421: the current thread, one of the walker's, reads an entry by ptld from main memory, and the entry met an error: the record, the
frame, and TRANSLATION with reason WALKFAIL. -/
def State.ueEntry (die : Nat) (s : State) : Out :=
  match s.dev.cur.bind fun c => (match c.instr with
    | .ptld _ a => some (c, a)
    | _ => none) with
  | none => .next s
  | some (c, a) =>
    let pa := (c.t.pair a).toNat
    if c.w.kind = .walker ∧ c.w.die = die ∧ c.t.able (groupIdx a 2) ∧ isMult pa 8 ∧ homeOf pa = s.dev.dieId die ∧ pa < 2 ^ 51 ∧
        !s.dev.isRetired pa then
      State.act 1 (fun _ _ => .fault (.at 0x0F rWalkFail (c.t.pair a)))
        { s with dev := (s.dev.ueRecord (s.dev.walkCtx c) die pa).retire pa }
    else .next s
/-- R250, R62, R421 UNCORRECTABLE_ERROR. -/
def execUncorrectableError (die : Nat) (site : UeSite) (s : State) : Out :=
  if site = .ptld then s.ueEntry die else s.onDev fun d => if die < 4 then d.ueAt die site else d

end Sys2Proof.Machine
end

