-- ==== Sys2Proof/Machine/Sensors.lean ====
section
/-!
DEFINITION. Temperature and droop sensors (R21 to R23), the rate of a cluster's clock (R24) and the package power limit (R20).
Temperatures are in the units of THERMSTAT.TEMP (R22): 0.25 °C, offset by 40 °C.
-/

namespace Sys2Proof.Machine

/-- R22: TEMP of a temperature in °C. -/
def tempOf (celsius : Nat) : Nat := (celsius + 40) * 4

/-! ## The rate of a clock (R24) -/

/-- R24: the lowest rate that a mechanism calls for: one edge in this many. -/
def wantedRate (stage : Nat) (c : Cluster) : Nat :=
  if 2 ≤ stage then 4 else if stage = 1 ∨ c.throttle = true ∨ c.droopUntil.isSome = true then 2 else 1
/-- R24: the count of raw edges restarts at every change of rate. -/
def Cluster.rerate (stage : Nat) (c : Cluster) : Cluster :=
  if wantedRate stage c = c.rate then c else { c with rate := wantedRate stage c, phase := 0 }
def Die.rerate (stage : Nat) (x : Die) : Die := { x with clusters := x.clusters.map (Cluster.rerate stage) }
def Dev.rerate (stage : Nat) (d : Dev) : Dev :=
  { d with d0 := d.d0.rerate stage, d1 := d.d1.rerate stage, d2 := d.d2.rerate stage, d3 := d.d3.rerate stage }

/-! ## The sample period (R23) -/

/-- R31, R15: die 0 leaves reset when its ROM has started the firmware, the others that the package has when theirs has been started; a die
whose next incarnation waits for a drain has not left its reset (R32, R66). -/
def State.outOfReset (s : State) (die : Nat) : Bool :=
  s.dev.present.contains die && !s.mgmt.pendingResets.contains die && (if die = 0 then decide (3 ≤ s.mgmt.bootStep) else decide (4 ≤ s.mgmt.bootStep))
/-- R23: the placement rows, the first that matches. -/
def Core.placementRow (c : Core) (sample : Nat) : Core :=
  if tempOf 95 ≤ sample ∨ c.alarmed = true then { c with hot := true, hold := 0 }
  else if c.hot = true ∧ sample ≤ tempOf 88 then
    (if 100 ≤ c.hold + 1 then { c with hot := false, hold := 0 } else { c with hold := c.hold + 1 })
  else if c.hot = true then { c with hold := 0 }
  else c
/-- A core after a sample that does not trip. -/
def Core.sampled (c : Core) (sample : Nat) : Core := { c.placementRow sample with temp := sample, alarmed := false }
/-- R23: the throttle rows of a cluster, from the samples of its cores. -/
def Cluster.throttleRow (c : Cluster) (raw : Nat) (samples : List Nat) : Cluster :=
  if samples.any fun n => decide (tempOf 100 ≤ n) then
    (if c.throttle then c else { c with throttle := true, throttleSince := raw, switched := false })
  else if samples.all fun n => decide (n ≤ tempOf 97) then { c with throttle := false, switched := false }
  else c
/-- The sample of a core: of a list that is too short, its last sample stands. DEDUCED (log 42). -/
def sampleOf (temps : List Nat) (x : Die) (core : Nat) : Nat := (temps[core]?).getD (x.core core).temp % 1024
/-- A die after the samples of a period that do not trip; the next period begins where this one ends, however late it is evaluated. -/
def Die.sampled (stage raw : Nat) (temps : List Nat) (x : Die) : Die :=
  { x with
    sampleAt := x.sampleAt + rawOfUs 10
    cores := x.cores.zipIdx.map fun e => e.1.sampled (sampleOf temps x e.2)
    clusters := x.clusters.zipIdx.map fun e =>
      (e.1.throttleRow raw ((List.range 8).map fun i => sampleOf temps x (8 * e.2 + i))).rerate stage }
/-- R23: the cores of a die stop at once; the management controller resets it. -/
def Dev.trip (d : Dev) (die : Nat) (temps : List Nat) : Dev :=
  let gone := (d.wgs.filter fun w => w.die == die).map Wg.uid
  let d := d.modDie die fun x =>
    { x with sampleAt := x.sampleAt + rawOfUs 10, joining := true, cores := x.cores.zipIdx.map fun e => { e.1 with temp := sampleOf temps x e.2 } }
  { d with flight := d.flight.filter (fun b => !gone.contains b.uid), resets := d.resets ++ [(die, 1)] }
/-- R173: a change of HOT, and the end of a throttle (R187), make a placement pass due. -/
def Die.placementSame (a b : Die) : Bool :=
  a.cores.map Core.hot == b.cores.map Core.hot && a.clusters.map Cluster.throttle == b.clusters.map Cluster.throttle
/-- R23, R33 THERMAL_SAMPLE_PERIOD. A thermal trip drives ALERT_N low; the spec does not say when it is released, and the model keeps it low
until a bring-up step completes or the package restarts. DESIGN CHOICE (log 61). -/
def execThermalSamplePeriod (die : Nat) (temps : List Nat) (s : State) : Out :=
  let x := s.dev.die die
  if 4 ≤ die ∨ s.outOfReset die = false ∨ s.dev.raw - x.sampleAt < rawOfUs 10 then .next s
  else if (List.range 72).any fun i => decide (tempOf 110 ≤ sampleOf temps x i) then
    .next { s with dev := s.dev.trip die temps, mgmt := { s.mgmt with alert := true } }
  else
    let y := x.sampled s.mgmt.stage s.dev.raw temps
    let d := s.dev.setDie die y
    .next { s with dev := if x.placementSame y then d else { d with passDue := insertNat die d.passDue } }

/-! ## Droop alarms (R21) -/

/-- R21 to R23: a sag at a core: its cluster's response, and the core's ALARM, DROOPCNT and HOT. DEDUCED (log 42). -/
def execDroopAlarm (die core : Nat) (s : State) : Out :=
  if 4 ≤ die ∨ 72 ≤ core then .next s
  else
    let d := s.dev.modDie die fun x =>
      (x.modCore core fun c =>
        { c with alarm := true, droopCnt := satInc8 c.droopCnt 1, hot := true, hold := 0, alarmed := true }).modCluster (core / 8)
        fun c => ({ c with droopUntil := some (s.dev.raw + rawOfUs 2) }).rerate s.mgmt.stage
    .next { s with dev := if ((s.dev.die die).core core).hot then d else { d with passDue := insertNat die d.passDue } }
/-- R21: 2 µs without another alarm. -/
def execDroopResponseEnd (die cluster : Nat) (s : State) : Out :=
  s.onDev fun d => d.modDie die fun x => x.modCluster cluster fun c =>
    match c.droopUntil with
    | some t => if t ≤ d.raw then ({ c with droopUntil := none }).rerate s.mgmt.stage else c
    | none => c
/-- R22: a one in ALARM clears ALARM and DROOPCNT; the other fields ignore writes. -/
def Core.thermstatWrite (c : Core) (value : Word) : Core :=
  if value.getLsbD 30 then { c with alarm := false, droopCnt := 0 } else c
def execThermstatWrite (die core : Nat) (value : Word) (s : State) : Out :=
  s.onDev fun d => d.modDie die fun x => x.modCore core fun c => c.thermstatWrite value
/-- R22: THERMSTAT. -/
def Die.thermstat (x : Die) (core : Nat) : Word :=
  let c := x.core core
  BitVec.ofNat 32 ((if c.hot then 2 ^ 31 else 0) + (if c.alarm then 2 ^ 30 else 0) +
    (if (x.cluster (core / 8)).throttle then 2 ^ 29 else 0) + 65536 * (c.droopCnt % 256) + c.temp % 1024)

/-! ## The power limit (R20, R24) -/

/-- A stage of the power limit entered: every cluster's rate follows. -/
def State.enterStage (s : State) (stage average : Nat) : State :=
  { s with
    mgmt := { s.mgmt with stage := stage, average := average,
                          stageSince := if stage = s.mgmt.stage then s.mgmt.stageSince else s.dev.raw }
    dev := s.dev.rerate stage }
/-- R20, R24: the stage after an average (in milliwatts) is compared with the limit (in watts). -/
def stageAfter (stage limit average : Nat) : Nat :=
  if stage = 0 then (if limit * 1000 < average then 1 else 0)
  else if average * 100 < limit * 1000 * 95 then 0
  else if stage = 2 ∧ average < limit * 1000 then 1
  else stage
/-- R20: the average package power over the last 1 ms, which no instruction determines, against the limit.
DESIGN CHOICE (log 43). -/
def execPowerLimitEval (s : State) : Out :=
  let (v, d) := s.dev.draw
  let average := v.toNat % 2 ^ 32
  .next (State.enterStage { s with dev := d } (stageAfter s.mgmt.stage s.mgmt.limit average) average)
/-- R24: still over the limit after 1 ms in the first stage. -/
def execPowerLimitSecondStage (s : State) : Out :=
  let m := s.mgmt
  if m.stage = 1 ∧ m.limit * 1000 < m.average ∧ rawOfUs 1000 ≤ s.dev.raw - m.stageSince then .next (s.enterStage 2 m.average)
  else .next s

end Sys2Proof.Machine
end

