-- ==== Sys2Proof/Machine/Routing.lean ====
section
/-!
DEFINITION. The Talbo fabric between the ends of its links: ports and directions (R35, R36), the route of a message (R37 to R39), and
what a receiving die does with one (R39, R41, R45).
-/

namespace Sys2Proof.Machine

/-! ## The torus (R34 to R36) -/

/-- The size of an axis; 0 until SETTORUS. -/
def axisSize (torus : Nat × Nat × Nat) (axis : Nat) : Nat :=
  match axis with
  | 0 => torus.1
  | 1 => torus.2.1
  | _ => torus.2.2
/-- A coordinate of a die identifier (R14, R34). -/
def coordOf (id axis : Nat) : Nat :=
  match axis with
  | 0 => bits id 10 4
  | 1 => bits id 6 4
  | _ => bits id 2 4
/-- R35: the direction of a port, in the order X+, X−, Y+, Y−, Z+, Z−, and its axis. -/
def dirOf (port : Nat) : Nat := port / 2
def dirAxis (dir : Nat) : Nat := dir / 2
/-- R36: whether the hop in a direction from a coordinate crosses the wrap link of a ring of n. -/
def crossesWrap (n dir coord : Nat) : Bool := if dir % 2 = 0 then coord + 1 == n else coord == 0
/-- R59: die-to-die link 12 + i of a die leads to die (die + 1 + i) mod 4. -/
def linkTo (die other : Nat) : Nat := 12 + (other + 7 - die) % 4
def linkPeer (die unit : Nat) : Nat := (die + 1 + (unit - 12)) % 4
/-- The unit of the other end of a die-to-die link. -/
def linkBack (die unit : Nat) : Nat := linkTo (linkPeer die unit) die

/-- R37: the directions a message may take first and the ones that are left when none of their ports is usable. -/
structure Ways where
  first : List Nat
  fallback : List Nat
deriving DecidableEq, Repr

/-- R37, R39: dimension order; in a ring of two both directions lead to the neighbour. -/
def waysOn (n axis c t : Nat) : Option Ways :=
  let k := (t + n - c % max n 1) % max n 1
  if k = 0 then none
  else if n = 2 then some { first := [2 * axis, 2 * axis + 1], fallback := [] }
  else if k ≤ n - k then some { first := [2 * axis], fallback := [2 * axis + 1] }
  else some { first := [2 * axis + 1], fallback := [2 * axis] }
def Dev.ways (d : Dev) (dst : Nat) : Option Ways :=
  [0, 1, 2].findSome? fun a => waysOn (axisSize d.torus a) a (coordOf (d.dieId 0) a) (coordOf dst a)

/-! ## The choice of a port (R38) -/

/-- R48: free credits of a virtual channel of a link. -/
def Link.credits (l : Link) (v : Nat) : Nat := 32 - (natAt l.sent v + 256 - natAt l.peerFreed v % 256) % 256
/-- R42: the virtual channel of a class and dateline bit. -/
def vcOf (cls : Nat) (dl : Bool) : Nat := 2 * cls + if dl then 1 else 0
/-- A port of the package, by die and port number. -/
abbrev PortId := Nat × Nat
/-- The usable ports of some directions, of the named dies. -/
def Dev.usable (d : Dev) (dies dirs : List Nat) : List PortId :=
  dies.flatMap fun k => ((List.range 12).filter fun p => dirs.contains (dirOf p) && ((d.die k).link p).up).map fun p => (k, p)
/-- R38: the ports with the most free credits on a virtual channel; ties go round-robin from the pointer on. -/
def Dev.bestPort (d : Dev) (ports : List PortId) (vc : PortId → Nat) (robin : Nat) : Option PortId :=
  let free := fun (p : PortId) => ((d.die p.1).link p.2).credits (vc p)
  let top := (ports.map free).foldl max 0
  let tied := ports.filter fun p => free p == top
  match tied.find? fun p => decide (robin ≤ 12 * p.1 + p.2) with
  | some p => some p
  | none => tied.head?

/-- Where a message goes next. -/
inductive Hop where
  | here
  /-- Over a unit of this die, with a dateline bit, and the round-robin pointer after the choice. -/
  | out (unit : Nat) (dl : Bool) (robin : Nat)
  | unroute
deriving DecidableEq, Repr

/-- R42: the dateline bit with which a message crosses a port: set on the wrap link, kept within an axis, clear at the start of an
axis. DEDUCED (log 46). -/
def Dev.dlOver (d : Dev) (port : Nat) (kept : Bool) : Bool :=
  let a := dirAxis (dirOf port)
  kept || crossesWrap (axisSize d.torus a) (dirOf port) (coordOf (d.dieId 0) a)
/-- R42: the dateline bit that a message brings to its next hop in an axis; it keeps it where its link goes down before it has left. -/
def keptDl (m : Msg) (axis : Nat) : Bool :=
  match m.unit with
  | none => false
  | some u => m.dl && (decide (12 ≤ u) || dirAxis (dirOf u) == axis)
/-- R38: a message that came over a die-to-die link takes a port of its own die while one is usable. DEDUCED (log 46). -/
def Dev.portsFor (d : Dev) (die : Nat) (m : Msg) (dirs : List Nat) : List PortId :=
  let own := d.usable [die] dirs
  match m.unit with
  | some u => if 12 ≤ u ∧ own ≠ [] then own else d.usable [0, 1, 2, 3] dirs
  | none => d.usable [0, 1, 2, 3] dirs
/-- R37 to R39. -/
def Dev.hop (d : Dev) (die : Nat) (m : Msg) : Hop :=
  let dst := msgDst m.ws
  if dst = d.dieId die then .here
  else if d.isHere dst then
    if !d.present.contains (dst % 4) then .unroute
    else .out (linkTo die (dst % 4)) (match m.unit with
      | none => false
      | some _ => m.dl) (d.die die).robin
  else
    match d.ways dst with
    | none => .unroute
    | some w =>
      let ports := match d.portsFor die m w.first with
        | [] => d.portsFor die m w.fallback
        | ps => ps
      let axis := match w.first with
        | a :: _ => dirAxis a
        | [] => 0
      let kept := keptDl m axis
      match d.bestPort ports (fun p => vcOf (msgClass m.ws) (d.dlOver p.2 kept)) (d.die die).robin with
      | none => .unroute
      | some (k, p) =>
        if k = die then .out p (d.dlOver p kept) (12 * k + p + 1)
        else .out (linkTo die k) kept (12 * k + p + 1)

/-! ## MESSAGE_ROUTE -/

/-- R39: the words of a message after this die has been counted; a message that has visited 64 dies is no longer sent on. -/
def withHop (ws : List Dword) : List Dword := ws.set 0 (dwordAt ws 0 + 0x0100_0000_0000_0000#64)
def Die.unrouted (x : Die) : Die := x.count fun c => { c with unroute := satInc c.unroute }
/-- R41, R43: kinds that a management controller consumes and that carry nothing for the dies of a package. -/
def mgmtOnly (kind : Nat) : Bool := decide (0x63 ≤ kind ∧ kind ≤ 0x66)
/-- R139: the management request that a message brings. -/
def requestOf (ws : List Dword) : MgmtReq :=
  { src := msgSrc ws, reqid := dwordAt ws 2, op := msgAt ws 24 0 16, params := ws.drop 4 }
/-- R43, R63, R139: a message at the management controller: a request waits for its turn there; the controller of a die other than die 0
does nothing, and of the others it wants none. DEDUCED (log 49).
Slots that a request is too short to hold (R432) read as zero; one too short for REQID and OP can not be answered and is dropped.
DESIGN CHOICE (log 80). -/
def State.atController (s : State) (die : Nat) (m : Msg) : State :=
  match s.dev.screen die m with
  | some g => { s with dev := s.dev.modDie die fun x => x.count g }
  | none =>
    if die = 0 ∧ msgKind m.ws = 0x64 ∧ 4 ≤ m.ws.length then
      { s with mgmt := { s.mgmt with requests := s.mgmt.requests ++ [requestOf m.ws] } }
    else s
/-- A message at its die, or on its way over a link of the die. -/
def State.routed (s : State) (die : Nat) (m : Msg) : State :=
  let d := s.dev
  match d.hop die m with
  | .here =>
    if mgmtOnly (msgKind m.ws) then s.atController die m
    else { s with dev := d.modDie die fun x => { x with inbox := x.inbox ++ [m] } }
  | .out u dl robin =>
    { s with dev := d.modDie die fun x =>
        ({ x with robin := robin }).modLink u fun l => { l with queue := l.queue ++ [{ m with out := dl, held := false }] } }
  | .unroute => { s with dev := d.modDie die Die.unrouted }
/-- R77: a message that a die has held for more than 1 ms goes no further. -/
def Dev.discardHeld (d : Dev) (die : Nat) : Dev := d.modDie die fun x => x.count fun c => { c with remheld := satInc c.remheld }
/-- R38, R39 MESSAGE_ROUTE: HOPS rises once at every die that receives the message. -/
def execMessageRoute (die idx : Nat) (s : State) : Out :=
  match (s.dev.die die).transit[idx]? with
  | none => .next s
  | some m =>
    let t := { s with dev := s.dev.modDie die fun x => { x with transit := x.transit.eraseIdx idx } }
    .next (if s.dev.heldLong m then { t with dev := t.dev.discardHeld die }
      else if !m.held then t.routed die m
      else if 64 ≤ msgHops m.ws then { t with dev := t.dev.modDie die Die.unrouted }
      else t.routed die { m with ws := withHop m.ws })

end Sys2Proof.Machine
end

