-- ==== Sys2Proof/Machine/Links.lean ====
section
/-!
DEFINITION. The links (R44 to R59): flits, credits, encryption, key switching, and links that train and go down. Units 0 to 11 are the
Talbo ports of a die, units 12 to 14 its die-to-die links.
-/

namespace Sys2Proof.Machine

/-! ## Flits (R46, R47) -/

def flitField (f : Flit) (lo n : Nat) : Nat := bits f.hdr.toNat lo n
def flitType (f : Flit) : Nat := flitField f 60 4
/-- R46: the header of a flit. -/
def flitHdr (ty slot cls dl len ctrlo : Nat) : Dword :=
  BitVec.ofNat 64 (ty * 2 ^ 60 + slot * 2 ^ 59 + cls * 2 ^ 57 + dl * 2 ^ 56 + len * 2 ^ 48 + ctrlo % 2 ^ 32)
def isTalbo (unit : Nat) : Bool := decide (unit < 12)
/-- R47: eight counts as one 64-bit word. -/
def packCounts (l : List Nat) : Dword := BitVec.ofNat 64 (leValue ((List.range 8).map fun v => BitVec.ofNat 8 (natAt l v)))
def unpackCounts (w : Dword) : List Nat := (List.range 8).map fun v => bits w.toNat (8 * v) 8
/-- R48: FREED of an end: the flits accepted or lost, less those with a message still in their buffer. DEDUCED (log 28). -/
def Die.heldFlits (x : Die) (unit v : Nat) : Nat :=
  (((x.inbox ++ x.transit).filter fun m => m.held && m.unit == some unit && vcOf (msgClass m.ws) m.dl == v).map Msg.flit).eraseDups.length
def Die.freed (x : Die) (unit : Nat) : List Nat :=
  (List.range 8).map fun v => (natAt (x.link unit).acc v + 256 - x.heldFlits unit v % 256) % 256
/-- R47: RXSLOT. -/
def Link.rxLive (l : Link) : Nat :=
  (if ((l.rx[0]?).bind id).isSome then 1 else 0) + (if ((l.rx[1]?).bind id).isSome then 2 else 0)
def Link.txLive (l : Link) : Nat :=
  (if ((l.tx[0]?).bind id).isSome then 1 else 0) + (if ((l.tx[1]?).bind id).isSome then 2 else 0)
def slotNo (b : Bool) : Nat := if b then 1 else 0
def Link.txKey (l : Link) (slot : Nat) : Option Key := (l.tx[slot]?).bind id
/-- R55: flits protected by the transmit key in use. -/
def Link.used (l : Link) : Nat := natAt l.uses (slotNo l.txSlot)
def Link.rxKey (l : Link) (slot : Nat) : Option Key := (l.rx[slot]?).bind id
/-- R51: salt, then the counter, most significant byte first. -/
def ivOf (k : Key) (n : Nat) : List Byte := k.salt.take 4 ++ (leBytes n 8).reverse
/-- The plaintext of a flit: the words from offset 24 on padded with zeros (R47). -/
def Die.plaintext (x : Die) (unit : Nat) (sent : List Nat) (body : List Dword) : List Dword :=
  [packCounts sent, packCounts (x.freed unit), BitVec.ofNat 64 (x.link unit).rxLive] ++
    (List.range 26).map fun i => dwordAt body i

/-- R46, R51, R57: one flit sent over a unit: its type, class, dateline bit and bytes, the words from offset 24 on, and the notes of its
messages. DEDUCED (log 48). -/
def Die.sendFlit (x : Die) (unit ty cls dl : Nat) (sent : List Nat) (body : List Dword) (len : Nat) (notes : List Note) : Die :=
  let l := x.link unit
  let pt := x.plaintext unit sent body
  if isTalbo unit then
    match l.txKey (slotNo l.txSlot) with
    | none => x
    | some k =>
      let hdr := flitHdr ty (slotNo l.txSlot) cls dl len l.txCtr
      let (ct, tag) := gcmSeal k.key (ivOf k l.txCtr) (leBytes hdr.toNat 8) (bytesOf pt)
      let f : Flit := { crcOk := true, hdr := hdr, body := dwordsOf ct, tag := BitVec.ofNat 128 (leValue tag), notes := notes }
      x.modLink unit fun l =>
        { l with sent := sent, txCtr := l.txCtr + 1, uses := updAt l.uses (slotNo l.txSlot) (· + 1), sinceRetire := l.sinceRetire.map (· + 1), wire := [f] }
  else
    x.modLink unit fun l =>
      { l with sent := sent, wire := l.wire ++ [{ crcOk := true, hdr := flitHdr ty 0 cls dl len 0, body := pt, tag := 0, notes := notes }] }

/-! ## FLIT_TRANSMISSION (R44) -/

/-- The virtual channels in the order of grants: management, response, update, request. DEDUCED (log 47). -/
def grantOrder : List Nat := [7, 6, 3, 2, 5, 4, 1, 0]
def Msg.vc (m : Msg) : Nat := vcOf (msgClass m.ws) m.out
/-- R48: virtual channels with a message ready and a credit. -/
def Link.ready (l : Link) : List Nat := grantOrder.filter fun v => l.queue.any (fun m => m.vc == v) && decide (0 < l.credits v)
/-- R44: the virtual channel that is granted. Of those that have waited 16 flit times the one that has waited longest goes, and of equals the
first in the order of grants. DESIGN CHOICE (log 74). -/
def Link.grant (l : Link) : Option Nat :=
  let late := l.ready.filter fun v => decide (16 ≤ natAt l.waited v)
  let most := (late.map (natAt l.waited)).foldl max 0
  match late.find? fun v => natAt l.waited v == most with
  | some v => some v
  | none => l.ready.head?
/-- R46: messages of one virtual channel packed into a flit, in the order of the queue, as many as fit in `room` words; the others stay.
DESIGN CHOICE (log 73). -/
def packMsgs (v room : Nat) : List Msg → List Msg × List Msg
  | [] => ([], [])
  | m :: ms =>
    if m.vc = v ∧ m.ws.length ≤ room then
      let r := packMsgs v (room - m.ws.length) ms
      (m :: r.1, r.2)
    else
      -- a message that does not fit keeps its place, and no later one of its channel overtakes it
      let r := packMsgs v (if m.vc = v then 0 else room) ms
      (r.1, m :: r.2)
/-- R44: the waits after a grant. -/
def Link.waits (l : Link) (granted : Option Nat) : List Nat :=
  (List.range 8).map fun v => if l.ready.contains v && granted != some v then natAt l.waited v + 1 else 0
/-- R54: the retire flit. -/
def Die.sendRetire (x : Die) (unit : Nat) : Die :=
  let l := x.link unit
  (x.sendFlit unit 3 0 0 l.sent [BitVec.ofNat 64 (1 - slotNo l.txSlot)] 0 []).modLink unit fun l =>
    { l with dueRetire := false, sinceRetire := some 0, waited := l.waits none }
/-- R44, R47: a data flit, or an idle flit. The 16 flit times of R44 are one unbroken wait: a channel that has no message ready, or no
credit, at a flit begins anew. DESIGN CHOICE (log 88). -/
def Die.sendNext (x : Die) (unit : Nat) : Die :=
  let l := x.link unit
  match l.grant with
  | none => (x.modLink unit fun l => { l with waited := l.waits none }).sendFlit unit 1 0 0 l.sent [] 0 []
  | some v =>
    let (go, stay) := packMsgs v 26 l.queue
    let body := go.flatMap Msg.ws
    let x := x.modLink unit fun l => { l with queue := stay, waited := l.waits (some v) }
    x.sendFlit unit 0 (v / 2) (v % 2) (updAt l.sent v fun n => (n + 1) % 256) body (8 * body.length) (go.map Msg.note)

/-! ## Key switches (R53) -/

/-- R54: the slot that the sender has left is not yet retired: its retire flit is due or unanswered. -/
def Link.retiring (l : Link) : Bool := l.dueRetire || l.sinceRetire.isSome
/-- R53: the sender may switch: its other slot is loaded and the peer's matching receive slot is live; while that slot is being retired it is
no new one (R54). DEDUCED (log 48). -/
def Link.maySwitch (l : Link) : Bool :=
  l.up && (l.txKey (1 - slotNo l.txSlot)).isSome && l.peerRx.getLsbD (1 - slotNo l.txSlot) && decide (l.used < 2 ^ 32) && !l.retiring
/-- R53: the key check value. -/
def keyCheck (k : Key) : Dword := BitVec.ofNat 64 (leValue ((aes256 k.key (List.replicate 16 0#8)).take 8))
/-- R53: the registration flit under the old slot; then the new slot, whose retire flit is due. -/
def Die.switchKey (x : Die) (unit : Nat) : Die :=
  let l := x.link unit
  if !isTalbo unit || !l.maySwitch then x
  else
    let new := 1 - slotNo l.txSlot
    match l.txKey new with
    | none => x
    | some k =>
      (x.sendFlit unit 2 0 0 l.sent [BitVec.ofNat 64 new, keyCheck k] 0 []).modLink unit fun l =>
        { l with txSlot := !l.txSlot, expiring := false, dueRetire := true, sinceRetire := none, waited := l.waits none }
/-- R77: messages that have waited too long for a link go no further. -/
def Dev.dropLate (d : Dev) (die unit : Nat) : Dev :=
  let late := ((d.die die).link unit).queue.filter d.heldLong
  late.foldl (fun d _ => d.discardHeld die) (d.modDie die fun x =>
    x.modLink unit fun l => { l with queue := l.queue.filter fun m => !d.heldLong m })
/-- R44, R55: a port grants one flit; near the limit of its key the sender switches at this flit if it may; at 2³² flits under one key it
has stopped. -/
def execFlitTransmission (die unit : Nat) (s : State) : Out :=
  s.onDev fun d => (d.dropLate die unit).modDie die fun x =>
    let l := x.link unit
    if !l.up || (isTalbo unit && (decide (2 ^ 32 ≤ l.used) || (l.txKey (slotNo l.txSlot)).isNone)) then x
    else if isTalbo unit && decide (2 ^ 32 - 2 ^ 20 ≤ l.used) && l.maySwitch then x.switchKey unit
    else if l.dueRetire then x.sendRetire unit
    else x.sendNext unit

/-! ## Links that come up and go down (R51, R52, R55, R56) -/

/-- A link without its state: it is down, and its error counters stay. -/
def Link.cleared (l : Link) : Link :=
  { Link.reset with crcFail := l.crcFail, authFail := l.authFail, malformed := l.malformed, lostFlits := l.lostFlits }
/-- R52, R42: a link of a die down; the messages that waited for it are routed anew, with the dateline bits that they brought.
DEDUCED (log 47). -/
def Die.linkDown (x : Die) (unit : Nat) : Die :=
  ({ x with transit := x.transit ++ (x.link unit).queue }).modLink unit Link.cleared
/-- R51: a link up, with its invocation counter at zero. Of two transmit slots that are loaded it uses slot 0. DESIGN CHOICE (log 69). -/
def Die.linkUp (x : Die) (unit : Nat) : Die :=
  x.modLink unit fun l => { l.cleared with up := true, tx := l.tx, rx := l.rx, txSlot := (l.txKey 0).isNone, queue := l.queue }
/-- R34: the package may train its Talbo links. -/
def Dev.torusOk (d : Dev) : Bool := decide (1 ≤ d.torus.1 ∧ 1 ≤ d.torus.2.1 ∧ 1 ≤ d.torus.2.2) && d.inTorus (d.dieId 0)
/-- R34, R36, R52: a Talbo port may come up: its axis has more than one package and fresh keys are loaded in both directions. -/
def Dev.mayTrain (d : Dev) (m : Mgmt) (die unit : Nat) : Bool :=
  let l := (d.die die).link unit
  d.present.contains die && decide (7 ≤ m.bootStep) && d.torusOk && decide (1 < axisSize d.torus (dirAxis (dirOf unit))) && !l.up && l.txLive != 0 && l.rxLive != 0
/-- R31 step 7: no Talbo port that has another package to reach is still down. A package outside its torus trains none (R34).
DEDUCED (log 49). -/
def Dev.talboReady (d : Dev) : Bool :=
  !d.torusOk || d.present.all fun die => (List.range 12).all fun unit =>
    decide (axisSize d.torus (dirAxis (dirOf unit)) ≤ 1) || ((d.die die).link unit).up
/-- Both ends of a die-to-die link down and up again, where the package has both dies (R15). -/
def Dev.retrain (d : Dev) (die unit : Nat) : Dev :=
  let one := fun (d : Dev) (n u : Nat) => d.modDie n fun x => (x.linkDown u).linkUp u
  if d.present.contains die && d.present.contains (linkPeer die unit) then
    one (one d die unit) (linkPeer die unit) (linkBack die unit)
  else d
/-- R51 LINK_TRAINED. At a Talbo port that is up it says that the other end has ended the link and trains anew: this end goes down too, and
its slots wait for fresh keys (R52). DEDUCED (log 48). -/
def execLinkTrained (die unit : Nat) (s : State) : Out :=
  let l := (s.dev.die die).link unit
  if isTalbo unit then
    if l.up then .next { s with dev := s.dev.modDie die fun x => x.linkDown unit }
    else if s.dev.mayTrain s.mgmt die unit then .next { s with dev := s.dev.modDie die fun x => x.linkUp unit } else .next s
  else if unit < 15 ∧ die < 4 ∧ 4 ≤ s.mgmt.bootStep ∧ l.up = false then .next { s with dev := s.dev.retrain die unit }
  else .next s

/-! ## Keys (R53 to R56) -/

/-- R53 KEY_SWITCH. -/
def execKeySwitch (die unit : Nat) (s : State) : Out := s.onDev fun d => d.modDie die fun x => x.switchKey unit
/-- R54 RETIRE_RESEND. -/
def execRetireResend (die unit : Nat) (s : State) : Out :=
  s.onDev fun d => d.modDie die fun x => x.modLink unit fun l =>
    match l.sinceRetire with
    | some n => if l.up && decide (1024 ≤ n) && l.peerRx.getLsbD (1 - slotNo l.txSlot) then { l with dueRetire := true } else l
    | none => l
/-- R148: a record about a port. -/
def Dev.portRecord (d : Dev) (cause die unit detail1 : Nat) : Dev :=
  d.record cause 0xFF die 0 (BitVec.ofNat 64 unit) (BitVec.ofNat 64 detail1)
/-- R55 KEY_EXPIRING. -/
def execKeyExpiring (die unit : Nat) (s : State) : Out :=
  s.onDev fun d =>
    let l := (d.die die).link unit
    if isTalbo unit && l.up && decide (2 ^ 32 - 2 ^ 20 ≤ l.used) && !l.maySwitch && !l.expiring then
      (d.modDie die fun x => x.modLink unit fun l => { l with expiring := true }).portRecord 0x06 die unit 0
    else d
/-- R55 KEY_EXHAUSTED. -/
def execKeyExhausted (die unit : Nat) (s : State) : Out :=
  s.onDev fun d =>
    let l := (d.die die).link unit
    if isTalbo unit && l.up && decide (2 ^ 32 ≤ l.used) then
      (d.modDie die fun x => x.linkDown unit).portRecord 0x05 die unit 0
    else d
/-- R56 AUTH_FAILURE_LIMIT. -/
def execAuthFailureLimit (die unit : Nat) (s : State) : Out :=
  s.onDev fun d =>
    let l := (d.die die).link unit
    if isTalbo unit && l.up && decide (64 < l.authTimes.length) then
      (d.modDie die fun x => x.linkDown unit).portRecord 0x05 die unit 1
    else d

/-! ## Receiving (R48 to R50) -/

/-- R51: the counter that CTRLO stands for: the value in C + 1 − 2³¹ to C + 2³¹ with those low bits; none when it is negative.
DEDUCED (log 48). -/
def counterOf (last : Option Nat) (ctrlo : Nat) : Option Nat :=
  let c : Int := match last with
    | some n => n
    | none => -1
  let lo : Int := c + 1 - 2 ^ 31
  let n : Int := lo + ((ctrlo : Int) - lo) % 2 ^ 32
  if c < n then some n.toNat else none
/-- What the checks of R50 make of a flit: its plaintext and counter, or a counter of LINKERR. -/
inductive Verdict where
  | ok (pt : List Dword) (n : Option Nat)
  | crc
  | malformed
  | auth
deriving DecidableEq, Repr
/-- R50, R57: the checks in order. -/
def Link.check (l : Link) (unit : Nat) (f : Flit) : Verdict :=
  if !f.crcOk then .crc
  else if 4 ≤ flitType f ∨ flitField f 32 16 ≠ 0 then .malformed
  else if !isTalbo unit then .ok f.body none
  else
    match l.rxKey (flitField f 59 1) with
    | none => .malformed
    | some k =>
      match counterOf l.rxCtr (flitField f 0 32) with
      | none => .auth
      | some n =>
        match gcmOpen k.key (ivOf k n) (leBytes f.hdr.toNat 8) (bytesOf f.body) (leBytes f.tag.toNat 16) with
        | none => .auth
        | some bs => .ok (dwordsOf bs) (some n)
/-- R53: a registration flit whose value does not match the receive slot it names. DEDUCED (log 48). -/
def Link.badRegistration (l : Link) (f : Flit) (pt : List Dword) : Bool :=
  flitType f == 2 && (match l.rxKey (bits (dwordAt pt 3).toNat 0 8) with
    | some k => keyCheck k != dwordAt pt 4
    | none => true)
/-- R54: RXSLOT of an accepted flit shows that the slot which is being retired is cleared: the sender frees it. -/
def Link.frees (l : Link) (pt : List Dword) : Bool :=
  l.sinceRetire.isSome && !(dwordAt pt 2).getLsbD (1 - slotNo l.txSlot)
/-- R48, R49, R54: what every accepted flit tells: lost flits, the peer's FREED and RXSLOT, and the slot that it has retired. -/
def Link.accept (l : Link) (f : Flit) (pt : List Dword) (n : Option Nat) : Link :=
  let acc := if flitType f = 0 then updAt l.acc (flitField f 56 3) fun a => (a + 1) % 256 else l.acc
  let sent := unpackCounts (dwordAt pt 0)
  let lost := (List.range 8).foldl (fun k v => k + (natAt sent v + 256 - natAt acc v) % 256) 0
  let freed := l.frees pt
  let l := { l with rxCtr := n, acc := sent, peerFreed := unpackCounts (dwordAt pt 1), peerRx := (dwordAt pt 2).extractLsb' 0 2,
                    lostFlits := satInc8 l.lostFlits lost }
  let l := if freed then { l with tx := l.tx.set (1 - slotNo l.txSlot) none, sinceRetire := none, dueRetire := false } else l
  if flitType f = 3 then { l with rx := l.rx.set (bits (dwordAt pt 3).toNat 0 8) none } else l
/-- R45, R46: the messages packed in a data flit; words that are no message stop the unpacking and count once.
DEDUCED (log 54). -/
def unpackMsgs : Nat → List Dword → List (Option (List Dword))
  | 0, _ => []
  | _, [] => []
  | n + 1, w :: ws =>
    let len := bits w.toNat 40 5
    if len < 2 ∨ (w :: ws).length < len then [none]
    else some ((w :: ws).take len) :: unpackMsgs n ((w :: ws).drop len)
/-- R41, R45: a message of an accepted flit enters its buffer, or is dropped as malformed. -/
def Dev.receiveMsg (d : Dev) (die unit flit : Nat) (dl : Bool) (m : Option (List Dword)) (note : Note) : Dev :=
  match m with
  | some ws =>
    if msgOk ws then
      d.modDie die fun x =>
        { x with transit := x.transit ++
            [{ ws := ws, unit := some unit, flit := flit, since := d.raw, dl := dl, out := false, held := true, note := note }] }
    else d.modDie die fun x => x.malformed (some unit)
  | none => d.modDie die fun x => x.malformed (some unit)
/-- R56: authentication failures of the last 1 ms. -/
def Link.authFailed (l : Link) (raw : Nat) : Link :=
  { l with authFail := satInc8 l.authFail 1, authTimes := (l.authTimes.filter fun t => decide (raw - t ≤ rawOfUs 1000)) ++ [raw] }
/-- R50: one flit at a receiver. The words of a data flit are LEN ÷ 8, rounded down and at most the 26 of the payload: R46 gives LEN its limits and
R50 no check of them. DESIGN CHOICE (log 68). -/
def Dev.takeFlit (d : Dev) (die unit : Nat) (f : Flit) : Dev :=
  let l := (d.die die).link unit
  match l.check unit f with
  | .crc => d.modDie die fun x => x.modLink unit fun l => { l with crcFail := satInc8 l.crcFail 1 }
  | .malformed => d.modDie die fun x => x.malformed (some unit)
  | .auth => d.modDie die fun x => x.modLink unit fun l => l.authFailed d.raw
  | .ok pt n =>
    if isTalbo unit && l.badRegistration f pt then
      let d := d.modDie die fun x => x.malformed (some unit)
      { d with keyReports := d.keyReports ++ [(die, unit)] }
    else
      let freed := if l.frees pt then [(die, unit, 1 - slotNo l.txSlot)] else []
      let d := d.modDie die fun x => x.modLink unit fun l => l.accept f pt n
      let d := { d with slotReports := d.slotReports ++ freed }
      if flitType f = 0 then
        let ms := unpackMsgs 13 ((pt.drop 3).take (flitField f 48 8 / 8))
        let d := ms.zipIdx.foldl
          (fun d e => d.receiveMsg die unit d.nextSeq (flitField f 56 1 == 1) e.1 ((f.notes[e.2]?).getD plainNote)) d
        { d with nextSeq := d.nextSeq + 1 }
      else d
/-- The flit that arrives over a unit: over a Talbo port the one that the outside gives; over a die-to-die link the oldest on the
wire, or what a fault made of it. DESIGN CHOICE (log 4). -/
def Dev.arriving (d : Dev) (die unit : Nat) (flit : Option Flit) : Option (Flit × Dev) :=
  if isTalbo unit then flit.map fun f => (f, d)
  else
    match ((d.die (linkPeer die unit)).link (linkBack die unit)).wire with
    | [] => none
    | f :: rest =>
      some (flit.getD f, d.modDie (linkPeer die unit) fun x => x.modLink (linkBack die unit) fun l => { l with wire := rest })
/-- A flit whose TYPE is one of `tys`. -/
def Dev.flitOf (d : Dev) (die unit : Nat) (tys : Nat → Bool) (flit : Option Flit) : Dev :=
  if 4 ≤ die ∨ 15 ≤ unit ∨ ((d.die die).link unit).up = false then d
  else
    match d.arriving die unit flit with
    | some (f, e) => if tys (flitType f) then e.takeFlit die unit f else d
    | none => d
def execDataFlit (die unit : Nat) (flit : Option Flit) (s : State) : Out := s.onDev fun d => d.flitOf die unit (· == 0) flit
/-- An idle flit; a flit of a reserved TYPE comes with it, and is dropped (R50). -/
def execIdleFlit (die unit : Nat) (flit : Option Flit) (s : State) : Out :=
  s.onDev fun d => d.flitOf die unit (fun t => t == 1 || decide (4 ≤ t)) flit
def execRegistrationFlit (die unit : Nat) (flit : Option Flit) (s : State) : Out := s.onDev fun d => d.flitOf die unit (· == 2) flit
def execRetireFlit (die unit : Nat) (flit : Option Flit) (s : State) : Out := s.onDev fun d => d.flitOf die unit (· == 3) flit

/-! ## Registers (R58, R59) -/

/-- R58: LINKSTAT. -/
def Link.linkstat (l : Link) : Word :=
  BitVec.ofNat 32 ((if l.up then 2 ^ 31 else 0) + slotNo l.txSlot * 2 ^ 30 + l.rxLive * 2 ^ 28 + l.txLive * 2 ^ 26 +
    (if l.expiring then 2 ^ 25 else 0) + bits l.used 16 16)
/-- R59: LINKERR. -/
def Link.linkerr (l : Link) : Word :=
  BitVec.ofNat 32 (l.crcFail % 256 * 2 ^ 24 + l.authFail % 256 * 2 ^ 16 + l.malformed % 256 * 2 ^ 8 + l.lostFlits % 256)
/-- R59: a write; AUTHFAIL of a die-to-die link stays zero. DEDUCED (log 47). -/
def Link.setLinkerr (l : Link) (unit : Nat) (v : Word) : Link :=
  { l with crcFail := bits v.toNat 24 8, authFail := if isTalbo unit then bits v.toNat 16 8 else 0, malformed := bits v.toNat 8 8, lostFlits := bits v.toNat 0 8 }

end Sys2Proof.Machine
end

