-- ==== Sys2Proof/Machine/Companion.lean ====
section
/-!
DEFINITION. The companion's side (R135 to R138, R148): its reads and writes of memory, the Penwyn Link ports, and the event ring.
Companion memory is main memory from 2⁵¹ up (R135); what the companion writes to its own memory comes through `companionWrite` too.
-/

namespace Sys2Proof.Machine

/-! ## Reads and writes (R137) -/

def Dev.portUp (d : Dev) (port : Bool) : Bool := if port then d.pwnB else d.pwnA
/-- An access that the companion may make: a range of a die that the package has, below its reserved region, which only firmware
reaches (R155), or of its own memory. -/
def Dev.companionMay (d : Dev) (pa n : Nat) : Bool :=
  if isCompanion pa then decide (pa + n ≤ 2 ^ 52)
  else d.isHere (homeOf pa) && d.present.contains (homeOf pa % 4) && decide (pa % 2 ^ 37 + n ≤ 0x1F_0000_0000)
/-- R137, R138 COMPANION_WRITE: a plain write, which waits as any write for the invalidation of a copy, and then for the earlier ones of its
port; written and closed bits are neither changed nor examined. -/
def execCompanionWrite (port : Bool) (pa : Nat) (data : List Byte) (s : State) : Out :=
  s.onDev fun d => if d.portUp port && d.companionMay pa data.length then d.post (.port port) pa data else d
/-- R137: the sharer bit of a port. -/
def sharerBit (port : Bool) : BitVec 2 := if port then 2#2 else 1#2
/-- R137 COMPANION_READ: the line's sharer bit of the port; a line that is being invalidated, or for which a write waits, is not read
meanwhile. -/
def execCompanionRead (port : Bool) (pa : Nat) (s : State) : Out :=
  s.onDev fun d =>
    if d.portUp port && d.companionMay pa 1 && !isCompanion pa && !d.invalidating.contains (lineOf pa) &&
        !d.posted.any (fun p => p.hits (lineOf pa)) then
      { d with sharers := putKey (lineOf pa) (getKey 0#2 d.sharers (lineOf pa) ||| sharerBit port) d.sharers }
    else d
/-- R137 INVALIDATION_ACKNOWLEDGEMENT: the oldest invalidation is acknowledged; the writes that wait for the line are performed. -/
def execInvalidationAcknowledgement (s : State) : Out :=
  s.onDev fun d => { d with invalidating := d.invalidating.drop 1 }.unpost d.posted []
/-- R139, R41: a message of the companion arrives over a Penwyn Link that is up: a malformed one is counted, one for the management
controller of die 0 goes there, and the model knows none for anyone else. DEDUCED (log 49). -/
def State.fromCompanion (s : State) (ws : List Dword) : State :=
  if !(s.dev.pwnA || s.dev.pwnB) then s
  else if !msgOk ws then { s with dev := s.dev.modDie 0 fun x => x.count fun c => { c with msgmalf := satInc c.msgmalf } }
  else if msgDst ws ≠ s.dev.dieId 0 then s
  else s.atController 0
    { ws := ws, unit := none, flit := 0, since := s.dev.raw, dl := false, out := false, held := false, note := plainNote }
/-- R135 PENWYN_PORT_DOWN: PWN A (false) or PWN B (true). -/
def execPenwynPortDown (port : Bool) (s : State) : Out :=
  s.onDev fun d => if port then { d with pwnB := false } else { d with pwnA := false }

/-! ## The event ring (R148) -/

/-- R148: the 64 bytes of an entry. -/
def EvRec.bytes (e : EvRec) (lost : Bool) : List Byte :=
  [BitVec.ofNat 8 e.type, BitVec.ofNat 8 e.cause, BitVec.ofNat 8 e.ctx, if lost then 1#8 else 0#8] ++ leBytes (e.die % 2 ^ 14) 2 ++
    [0#8, 0#8] ++ leBytes e.time 8 ++ leBytes e.va.toNat 8 ++ leBytes e.detail0.toNat 8 ++ leBytes e.detail1.toNat 8 ++
    List.replicate 24 0#8
/-- R148: the producer index less the consumer index is the entry count. -/
def Ring.full (r : Ring) : Bool := decide ((r.prod + 2 ^ 64 - r.cons % 2 ^ 64) % 2 ^ 64 = r.size)
/-- The ring when an entry can be written into it now: while both Penwyn ports are down entries are held as while it is full.
DESIGN CHOICE (log 79). -/
def State.openRing (s : State) : Option Ring :=
  match s.mgmt.ring with
  | some r => if r.full || !(s.dev.pwnA || s.dev.pwnB) then none else some r
  | none => none
/-- R148: an entry written; then the producer index. -/
def State.writeEntry (s : State) (r : Ring) (e : EvRec) : State :=
  let prod := (r.prod + 1) % 2 ^ 64
  { s with
    dev := (s.dev.wrBytes (2 ^ 51 + r.base + 4096 + r.prod % max r.size 1 * 64) (e.bytes s.mgmt.lost)).wr (2 ^ 51 + r.base) 8 prod
    mgmt := { s.mgmt with ring := some { r with prod := prod }, lost := false } }
/-- Entries held are written, in the order in which they were raised, while the ring has room. -/
def State.flushHeld (s : State) : Nat → State
  | 0 => s
  | n + 1 =>
    match s.mgmt.held, s.openRing with
    | e :: es, some r => (State.writeEntry { s with mgmt := { s.mgmt with held := es } } r e).flushHeld n
    | _, _ => s
/-- R148: an entry written into the ring, held, or dropped. -/
def State.raiseEntry (s : State) (e : EvRec) : State :=
  match s.mgmt.held, s.openRing with
  | [], some r => s.writeEntry r e
  | _, _ =>
    if s.mgmt.held.length < 256 then { s with mgmt := { s.mgmt with held := s.mgmt.held ++ [e] } }
    else { s with mgmt := { s.mgmt with lost := true } }
/-- R148 ERROR_RECORD_MESSAGE: the oldest record or request of the dies. -/
def execErrorRecordMessage (s : State) : Out :=
  match s.dev.records with
  | [] => .next s
  | e :: es => .next (State.raiseEntry { s with dev := { s.dev with records := es } } e)
/-- R148 EVENT_RING_CONSUMER_INDEX: the companion has moved the index word at offset 8 of the ring. -/
def execEventRingConsumerIndex (s : State) : Out :=
  match s.mgmt.ring with
  | none => .next s
  | some r =>
    .next (State.flushHeld { s with mgmt := { s.mgmt with ring := some { r with cons := s.dev.rd (2 ^ 51 + r.base + 8) 8 } } } 256)

end Sys2Proof.Machine
end

