-- ==== Sys2Proof/Machine/Joining.lean ====
section
/-!
DEFINITION. Joining after a reset (R64, R65, R79 to R81) and the installation-wide drain (R66).
-/

namespace Sys2Proof.Machine

/-! ## JOIN (R64) -/

/-- A JOIN: the die is its SRC and the new incarnation its SINC; it goes to the management controller of a package, on the die
numbered 0. DEDUCED (log 44). -/
def Dev.sendJoin (d : Dev) (j : JoinOut) : Dev :=
  d.emit 0 (mkMsg 0x60 (4 * j.peer) (d.dieId j.die) (BitVec.ofNat 4 j.inc) [])
/-- The package identifiers of the installation (R34, R64), its own included, wherever that lies. -/
def Dev.packages (d : Dev) : List Nat :=
  let (sx, sy, sz) := d.torus
  let all := (List.range sx).flatMap fun x => (List.range sy).flatMap fun y => (List.range sz).map fun z => 256 * x + 16 * y + z
  if all.contains d.pkg.toNat then all else d.pkg.toNat :: all
/-- R64, R81: the JOINs of a die sent, and its quarantine of 64 ms begun. -/
def State.joinDie (s : State) (die : Nat) : State :=
  let js : List JoinOut := s.dev.packages.map fun p =>
    { die := die, inc := (s.dev.die die).inc.toNat, peer := p, sentAt := s.dev.raw, resends := 0 }
  let d := s.dev.modDie die fun x => { x with joining := true, quarantine := some (s.dev.raw + rawOfUs 64000) }
  { s with dev := js.foldl Dev.sendJoin d, mgmt := { s.mgmt with joins := (s.mgmt.joins.filter fun j => j.die != die) ++ js } }
/-- R64: a management controller records the incarnation in every die of its package, and acknowledges. -/
def Dev.takeJoin (d : Dev) (m : Msg) : Dev :=
  let d := [0, 1, 2, 3].foldl (fun d n => d.recordInc n (msgSrc m.ws) (msgSinc m.ws)) d
  d.emit 0 (mkMsg 0x61 (msgSrc m.ws) (d.dieId 0) d.d0.inc [])
/-- R64 JOIN: at the management controller of the package. -/
def execJoin (die idx : Nat) (s : State) : Out :=
  s.onDev fun d => d.onMsg die idx 0x60 (fun _ => true) fun d m => if die = 0 then d.takeJoin m else d
/-- R64: a die none of whose JOINs is outstanding runs context work, unless a reset of it is due. -/
def State.joinsDone (s : State) (die : Nat) : State :=
  if (s.mgmt.joins.any fun j => j.die == die) || (s.dev.resets.any fun e => e.1 == die) || s.mgmt.pendingResets.contains die then s
  else
    let d := s.dev.modDie die fun x => { x with joining := false }
    { s with dev := { d with passDue := insertNat die d.passDue } }
/-- R64: a JOIN that needs no answer any more. -/
def State.dropJoin (s : State) (die peer : Nat) : State :=
  State.joinsDone { s with mgmt := { s.mgmt with joins := s.mgmt.joins.filter fun j => !(j.die == die && j.peer == peer) } } die
/-- R64 JOIN_ACKNOWLEDGEMENT: at the die whose JOIN it answers. -/
def execJoinAcknowledgement (die idx : Nat) (s : State) : Out :=
  match s.dev.pick die idx 0x61 with
  | none => .next s
  | some m =>
    let t := { s with dev := s.dev.onMsg die idx 0x61 (fun _ => true) fun d _ => d }
    .next (if (s.dev.screen die m).isNone then t.dropJoin die (msgSrc m.ws / 4) else t)
/-- R64 JOIN_RESEND: every 1 ms, at most 8 times; then the controller gives up on the peer. -/
def execJoinResend (die peer : Nat) (s : State) : Out :=
  match s.mgmt.joins.find? fun j => j.die == die && j.peer == peer with
  | none => .next s
  | some j =>
    if s.dev.raw - j.sentAt < rawOfUs 1000 then .next s
    else if 8 ≤ j.resends then
      .next (State.dropJoin { s with dev := s.dev.record 0x07 0xFF die 0 (BitVec.ofNat 64 (4 * peer)) 0 } die peer)
    else
      let again := fun (k : JoinOut) => if k = j then { k with sentAt := k.sentAt + rawOfUs 1000, resends := k.resends + 1 } else k
      .next { s with dev := s.dev.sendJoin j, mgmt := { s.mgmt with joins := s.mgmt.joins.map again } }
/-- R81 JOIN_QUARANTINE_END, on a die whose 64 ms are over: the requests and updates for it that arrived in them and have not been read are
discarded with them. -/
def Die.quarantineEnd (id raw : Nat) (x : Die) : Die :=
  if x.quarantine.any fun t => decide (t ≤ raw) then
    let gone := fun (m : Msg) => x.quarantined m && msgDst m.ws == id
    let n := ((x.inbox ++ x.transit).filter gone).length
    { x with quarantine := none, inbox := x.inbox.filter (fun m => !gone m), transit := x.transit.filter fun m => !gone m }.count fun c =>
      { c with remstale := (List.range n).foldl (fun v _ => satInc v) c.remstale }
  else x
def execJoinQuarantineEnd (s : State) : Out :=
  s.onDev fun d => [0, 1, 2, 3].foldl (fun d n => d.modDie n (Die.quarantineEnd (d.dieId n) d.raw)) d

/-! ## The drain (R66) -/

/-- R66, R63: the DRAINs that have arrived at a die: after one that passes the checks the die admits no request or update any more. -/
def Dev.takeDrains (d : Dev) (die : Nat) : Dev :=
  let (mine, others) := (d.die die).inbox.partition fun m => msgKind m.ws == 0x62
  mine.foldl (fun d m => d.modDie die fun x =>
    match d.screen die m with
    | some g => x.count g
    | none => { x with draining := true }) (d.modDie die fun x => { x with inbox := others })
/-- R66: the management controller sends DRAIN to its dies. -/
def Dev.sendDrains (d : Dev) : Dev := d.present.foldl (fun d n => d.emit 0 (mkMsg 0x62 (d.dieId n) (d.dieId 0) d.d0.inc [])) d
/-- R66 DRAIN_MESSAGE: the DRAINs that have arrived act; where none has, the management controller sends them. DEDUCED (log 45). -/
def execDrainMessage (s : State) : Out :=
  let d := s.dev
  if [0, 1, 2, 3].any fun n => (d.die n).inbox.any fun m => msgKind m.ws == 0x62 then
    .next { s with dev := [0, 1, 2, 3].foldl Dev.takeDrains d }
  else .next { s with dev := d.sendDrains, mgmt := { s.mgmt with drain := true } }
/-- R66: every die of the package is drained, or has been reset and not come back (R32), and the package holds no unacknowledged message.
DEDUCED (log 45). -/
def State.quiet (s : State) : Bool :=
  s.mgmt.joins.isEmpty && s.dev.present.all fun n =>
    s.mgmt.pendingResets.contains n || ((s.dev.die n).draining && (s.dev.die n).outs.all fun o => !o.sent)
/-- R66 DRAIN_REPORT: the report is a message to the companion. -/
def execDrainReport (s : State) : Out :=
  let me := s.dev.pkg.toNat
  if s.mgmt.drain && s.quiet && !s.mgmt.reports.contains me then
    .next { s with mgmt := { s.mgmt with
      reports := s.mgmt.reports ++ [me]
      outbox := s.mgmt.outbox ++ [sealMsg (mkMsg 0x63 (s.dev.dieId 0) (s.dev.dieId 0) s.dev.d0.inc [])] } }
  else .next s
/-- R26: the incarnation of a die incremented: first in the boot flash record. -/
def State.increment (s : State) (die : Nat) : State :=
  let n := (natAt s.mgmt.incs die + 1) % 16
  { s with mgmt := { s.mgmt with incs := s.mgmt.incs.set die n, flashIncs := s.mgmt.flashIncs.set die n,
                                 drainCount := updAt s.mgmt.drainCount die (· + 1) }
           dev := s.dev.modDie die fun x => { x with inc := BitVec.ofNat 4 n } }
/-- R66: the companion asked for a drain, since the count of a die would reach 16. -/
def State.askDrain (s : State) (die : Nat) : State :=
  { s with dev := s.dev.record 0x0A 0xFF die 0 (BitVec.ofNat 64 (s.dev.dieId die)) 0 }
/-- R66, R31 step 5: an increment of the bring-up, which waits for a drain where it would make the count 16. -/
def State.bootIncrement (s : State) (die : Nat) : State :=
  if 15 ≤ natAt s.mgmt.drainCount die then
    State.askDrain { s with mgmt := { s.mgmt with pendingIncs := s.mgmt.pendingIncs ++ [die] } } die
  else s.increment die
/-- Both ends of every die-to-die link of a die up with nothing in flight (R31 step 3, R32 step 5). -/
def Dev.retrainAll (d : Dev) (die : Nat) : Dev := [12, 13, 14].foldl (fun d u => d.retrain die u) d
/-- Dies leave reset: their periods begin (R21, R60), and CYCLE counts from there (R418). -/
def Dev.startPeriods (d : Dev) (dies : List Nat) : Dev :=
  dies.foldl (fun d n => d.modDie n fun x =>
    { x with periodAt := d.raw, sampleAt := d.raw, clusters := x.clusters.map fun c => { c with delivered := 0 } }) d
/-- R32 steps 4 and 5: a die that has been reset takes its next incarnation, retrains its links and joins. -/
def State.rejoin (s : State) (die : Nat) : State :=
  let s := s.increment die
  State.joinDie { s with dev := (s.dev.retrainAll die).startPeriods [die] } die
/-- R66: the drain has ended: the counts are zero, messages leave again, and the increments that waited take effect, with what follows
them. DEDUCED (log 45). -/
def State.drainEnd (s : State) : State :=
  let open_ := fun (x : Die) => { x with draining := false }
  let d := s.dev
  let d := { d with d0 := open_ d.d0, d1 := open_ d.d1, d2 := open_ d.d2, d3 := open_ d.d3 }
  let t : State :=
    { s with dev := [0, 1, 2, 3].foldl Dev.pump d,
             mgmt := { s.mgmt with drain := false, reports := [], drainCount := [0, 0, 0, 0], pendingResets := [], pendingIncs := [] } }
  s.mgmt.pendingResets.foldl State.rejoin (s.mgmt.pendingIncs.foldl State.increment t)

end Sys2Proof.Machine
end

