-- ==== Sys2Proof/Machine/Signing.lean ====
section
/-!
DEFINITION. SHA-512 and Ed25519 (R27 to R30, R140). The spec names them and does not define them: the digest is that of FIPS 180-4, the
signature that of RFC 8032. PRESUMED (log 11).
-/

namespace Sys2Proof.Machine

/-! ## SHA-512 -/

/-- A 64-bit word rotated right. -/
def shaRotate (x n : Nat) : Nat := x / 2 ^ n ||| x * 2 ^ (64 - n) % 2 ^ 64
def shaSum0 (x : Nat) : Nat := shaRotate x 28 ^^^ shaRotate x 34 ^^^ shaRotate x 39
def shaSum1 (x : Nat) : Nat := shaRotate x 14 ^^^ shaRotate x 18 ^^^ shaRotate x 41
def shaSigma0 (x : Nat) : Nat := shaRotate x 1 ^^^ shaRotate x 8 ^^^ x / 2 ^ 7
def shaSigma1 (x : Nat) : Nat := shaRotate x 19 ^^^ shaRotate x 61 ^^^ x / 2 ^ 6
def shaChoose (e f g : Nat) : Nat := (e &&& f) ^^^ ((2 ^ 64 - 1 - e) &&& g)
def shaMajority (a b c : Nat) : Nat := (a &&& b) ^^^ (a &&& c) ^^^ (b &&& c)
/-- The 80 round constants. -/
def shaConstants : List Nat :=
  [0x428A2F98D728AE22, 0x7137449123EF65CD, 0xB5C0FBCFEC4D3B2F, 0xE9B5DBA58189DBBC, 0x3956C25BF348B538,
   0x59F111F1B605D019, 0x923F82A4AF194F9B, 0xAB1C5ED5DA6D8118, 0xD807AA98A3030242, 0x12835B0145706FBE,
   0x243185BE4EE4B28C, 0x550C7DC3D5FFB4E2, 0x72BE5D74F27B896F, 0x80DEB1FE3B1696B1, 0x9BDC06A725C71235,
   0xC19BF174CF692694, 0xE49B69C19EF14AD2, 0xEFBE4786384F25E3, 0x0FC19DC68B8CD5B5, 0x240CA1CC77AC9C65] ++
  [0x2DE92C6F592B0275, 0x4A7484AA6EA6E483, 0x5CB0A9DCBD41FBD4, 0x76F988DA831153B5, 0x983E5152EE66DFAB,
   0xA831C66D2DB43210, 0xB00327C898FB213F, 0xBF597FC7BEEF0EE4, 0xC6E00BF33DA88FC2, 0xD5A79147930AA725,
   0x06CA6351E003826F, 0x142929670A0E6E70, 0x27B70A8546D22FFC, 0x2E1B21385C26C926, 0x4D2C6DFC5AC42AED,
   0x53380D139D95B3DF, 0x650A73548BAF63DE, 0x766A0ABB3C77B2A8, 0x81C2C92E47EDAEE6, 0x92722C851482353B] ++
  [0xA2BFE8A14CF10364, 0xA81A664BBC423001, 0xC24B8B70D0F89791, 0xC76C51A30654BE30, 0xD192E819D6EF5218,
   0xD69906245565A910, 0xF40E35855771202A, 0x106AA07032BBD1B8, 0x19A4C116B8D2D0C8, 0x1E376C085141AB53,
   0x2748774CDF8EEB99, 0x34B0BCB5E19B48A8, 0x391C0CB3C5C95A63, 0x4ED8AA4AE3418ACB, 0x5B9CCA4F7763E373,
   0x682E6FF3D6B2B8A3, 0x748F82EE5DEFB2FC, 0x78A5636F43172F60, 0x84C87814A1F0AB72, 0x8CC702081A6439EC] ++
  [0x90BEFFFA23631E28, 0xA4506CEBDE82BDE9, 0xBEF9A3F7B2C67915, 0xC67178F2E372532B, 0xCA273ECEEA26619C,
   0xD186B8C721C0C207, 0xEADA7DD6CDE0EB1E, 0xF57D4F7FEE6ED178, 0x06F067AA72176FBA, 0x0A637DC5A2C898A6,
   0x113F9804BEF90DAE, 0x1B710B35131C471B, 0x28DB77F523047D84, 0x32CAAB7B40C72493, 0x3C9EBE0A15C9BEBC,
   0x431D67C49C100D4C, 0x4CC5D4BECB3E42B6, 0x597F299CFC657E2A, 0x5FCB6FAB3AD6FAEC, 0x6C44198C4A475817]
/-- The first hash value. -/
def shaInitial : List Nat :=
  [0x6A09E667F3BCC908, 0xBB67AE8584CAA73B, 0x3C6EF372FE94F82B, 0xA54FF53A5F1D36F1, 0x510E527FADE682D1,
   0x9B05688C2B3E6C1F, 0x1F83D9ABFB41BD6B, 0x5BE0CD19137E2179]
def wordOf (l : List Nat) (i : Nat) : Nat := (l[i]?).getD 0
/-- One round with its constant and word. -/
def shaRound (h : List Nat) (k w : Nat) : List Nat :=
  let e := wordOf h 4
  let a := wordOf h 0
  let t1 := wordOf h 7 + shaSum1 e + shaChoose e (wordOf h 5) (wordOf h 6) + k + w
  let t2 := shaSum0 a + shaMajority a (wordOf h 1) (wordOf h 2)
  [(t1 + t2) % 2 ^ 64, a, wordOf h 1, wordOf h 2, (wordOf h 3 + t1) % 2 ^ 64, e, wordOf h 5, wordOf h 6]
/-- The next word of the schedule, of the sixteen before it. -/
def shaNextWord (ws : List Nat) : Nat :=
  (shaSigma1 (wordOf ws 14) + wordOf ws 9 + shaSigma0 (wordOf ws 1) + wordOf ws 0) % 2 ^ 64
/-- The rounds of a block, from the sixteen words that are next. -/
def shaRounds : List Nat → List Nat → List Nat → List Nat
  | [], _, h => h
  | k :: ks, ws, h => shaRounds ks (ws.drop 1 ++ [shaNextWord ws]) (shaRound h k (wordOf ws 0))
/-- A number of `n` bytes, the first the most significant. -/
def bigEndian (bs : List Byte) : Nat := leValue bs.reverse
/-- The words of a block of 128 bytes. -/
def shaWords (bs : List Byte) : List Nat := (List.range 16).map fun i => bigEndian ((bs.drop (8 * i)).take 8)
/-- A hash value after a block. -/
def shaBlock (h : List Nat) (bs : List Byte) : List Nat :=
  List.zipWith (fun x y => (x + y) % 2 ^ 64) h (shaRounds shaConstants (shaWords bs) h)
/-- A message followed by a one bit, zeros, and its length in bits as 16 bytes. -/
def shaPadded (m : List Byte) : List Byte :=
  m ++ 0x80#8 :: List.replicate ((239 - m.length % 128) % 128) 0#8 ++ (leBytes (8 * m.length) 16).reverse
/-- `n` blocks of a padded message. -/
def shaBlocks : Nat → List Nat → List Byte → List Nat
  | 0, h, _ => h
  | n + 1, h, bs => shaBlocks n (shaBlock h (bs.take 128)) (bs.drop 128)
def sha512 (m : List Byte) : List Byte :=
  let bs := shaPadded m
  (shaBlocks (bs.length / 128) shaInitial bs).flatMap fun w => (leBytes w 8).reverse

/-! ## The curve of Ed25519 -/

/-- The field's prime, and the order of the base point. -/
def edPrime : Nat := 2 ^ 255 - 19
def edOrder : Nat := 2 ^ 252 + 27742317777372353535851937790883648493
/-- A power modulo the prime; `n` bounds the bits of the exponent. -/
def edPow : Nat → Nat → Nat → Nat
  | 0, _, _ => 1
  | n + 1, b, e => (if e % 2 = 1 then b else 1) * edPow n (b * b % edPrime) (e / 2) % edPrime
def edInverse (a : Nat) : Nat := edPow 255 a (edPrime - 2)
def edSub (a b : Nat) : Nat := (a + edPrime - b) % edPrime
/-- The curve's constant, -121665/121666. -/
def edD : Nat := edSub 0 (121665 * edInverse 121666 % edPrime)
/-- A point: X, Y, Z and T with x = X/Z, y = Y/Z and xy = T/Z. -/
structure EdPoint where
  x : Nat
  y : Nat
  z : Nat
  t : Nat
deriving DecidableEq, Repr
def EdPoint.zero : EdPoint := { x := 0, y := 1, z := 1, t := 0 }
def EdPoint.add (p q : EdPoint) : EdPoint :=
  let a := edSub p.y p.x * edSub q.y q.x % edPrime
  let b := (p.y + p.x) * (q.y + q.x) % edPrime
  let c := 2 * p.t * q.t * edD % edPrime
  let d := 2 * p.z * q.z % edPrime
  let e := edSub b a
  let f := edSub d c
  let g := (d + c) % edPrime
  let h := (b + a) % edPrime
  { x := e * f % edPrime, y := g * h % edPrime, z := f * g % edPrime, t := e * h % edPrime }
/-- A multiple; `n` bounds the bits of the factor. -/
def EdPoint.timesN : Nat → EdPoint → Nat → EdPoint
  | 0, _, _ => .zero
  | n + 1, p, k => let q := EdPoint.timesN n (p.add p) (k / 2); if k % 2 = 1 then q.add p else q
def EdPoint.times (p : EdPoint) (k : Nat) : EdPoint := p.timesN 256 k
def EdPoint.same (p q : EdPoint) : Bool :=
  p.x * q.z % edPrime == q.x * p.z % edPrime && p.y * q.z % edPrime == q.y * p.z % edPrime
/-- The 32 bytes of a point: y, with the lowest bit of x on top. -/
def EdPoint.encode (p : EdPoint) : List Byte :=
  let i := edInverse p.z
  leBytes (p.y * i % edPrime + p.x * i % edPrime % 2 * 2 ^ 255) 32
/-- A square root of u/v, if there is one. -/
def edRoot (u v : Nat) : Option Nat :=
  let v3 := v * v % edPrime * v % edPrime
  let v7 := v3 * v3 % edPrime * v % edPrime
  let x := u * v3 % edPrime * edPow 255 (u * v7 % edPrime) ((edPrime - 5) / 8) % edPrime
  let w := v * x % edPrime * x % edPrime
  if w = u then some x
  else if w = edSub 0 u then some (x * edPow 255 2 ((edPrime - 1) / 4) % edPrime)
  else none
/-- The point with a y and the lowest bit of its x. -/
def edPointOf (y sign : Nat) : Option EdPoint :=
  if edPrime ≤ y then none
  else
    let y2 := y * y % edPrime
    match edRoot (edSub y2 1) ((edD * y2 + 1) % edPrime) with
    | none => none
    | some x =>
      if x = 0 ∧ sign = 1 then none
      else
        let x := if x % 2 = sign then x else edPrime - x
        some { x := x, y := y, z := 1, t := x * y % edPrime }
def edDecode (bs : List Byte) : Option EdPoint :=
  let n := leValue bs
  if bs.length = 32 then edPointOf (n % 2 ^ 255) (n / 2 ^ 255) else none
/-- The base point: y = 4/5, x even. -/
def edBase : EdPoint := (edPointOf (4 * edInverse 5 % edPrime) 0).getD .zero

/-! ## Ed25519 -/

/-- The scalar of a 32-byte private key. -/
def edScalar (seed : List Byte) : Nat := 2 ^ 254 + leValue ((sha512 seed).take 32) % 2 ^ 254 / 8 * 8
/-- The public key of a private key. -/
def ed25519Public (seed : List Byte) : List Byte := (edBase.times (edScalar seed)).encode
/-- The factor that binds a signature to its key and message. -/
def edChallenge (r a m : List Byte) : Nat := leValue (sha512 (r ++ a ++ m)) % edOrder
/-- The 64-byte signature of a message. -/
def ed25519Sign (seed m : List Byte) : List Byte :=
  let r := leValue (sha512 ((sha512 seed).drop 32 ++ m)) % edOrder
  let rp := (edBase.times r).encode
  rp ++ leBytes ((r + edChallenge rp (ed25519Public seed) m * edScalar seed) % edOrder) 32
/-- Whether a signature verifies. -/
def ed25519Verify (key m sig : List Byte) : Bool :=
  let s := leValue (sig.drop 32)
  match edDecode key, edDecode (sig.take 32) with
  | some a, some r =>
    sig.length == 64 && decide (s < edOrder) &&
      ((edBase.times s).times 8).same ((r.add (a.times (edChallenge (sig.take 32) key m))).times 8)
  | _, _ => false

end Sys2Proof.Machine
end

