-- ==== Sys2Proof/Machine/Boot.lean ====
section
/-!
DEFINITION. Cold reset, the steps of the bring-up (R31) with the check of the boot image (R27, R29), and the reset of a die (R32).
-/

namespace Sys2Proof.Machine

/-! ## The boot image (R27, R29) -/

/-- R27: the bytes that are digested and signed: header and body. The spec gives the security version 32 bits; the model gives each other
field of the header 4 bytes too. DESIGN CHOICE (log 56). -/
def imageBytes (i : FlashImage) : List Byte :=
  leBytes 0x5A424F54 4 ++ leBytes i.headerVersion.toNat 4 ++ leBytes i.svn.toNat 4 ++ leBytes i.keySlot 4 ++ leBytes i.body.length 4 ++ i.body
/-- R27: the first check that an image fails, in the order in which R27 lists them, and numbered from 1 (1 no image or no magic, 2 key digest,
3 revocation fuse, 4 signature, 5 security version); none when the ROM accepts it. The spec gives neither an order nor numbers.
DESIGN CHOICE (log 56). -/
def imageFault (minSvn : Nat) (i : Option FlashImage) : Option Nat :=
  match i with
  | none => some 1
  | some i =>
    if !i.magicOk || decide (4 ≤ i.keySlot) then some 1
    else if sha512 i.publicKey ≠ Config.fusedKeyDigest i.keySlot then some 2
    else if Config.revoked i.keySlot then some 3
    else if !ed25519Verify i.publicKey (sha512 (imageBytes i)) i.signature then some 4
    else if i.svn.toNat < minSvn then some 5
    else none
/-- R27, R28: the fused minimum: what the part left the factory with, or what COMMITSVN has raised it to.
DESIGN CHOICE (log 56). -/
def Mgmt.minimum (m : Mgmt) : Nat := max Config.fusedMinimum m.minSvn
/-- R27: slot A, then slot B. -/
def Mgmt.chosen (m : Mgmt) : Option (Bool × FlashImage) :=
  match Config.flash false, Config.flash true with
  | some a, b =>
    if imageFault m.minimum (some a) = none then some (false, a)
    else b.bind fun b => if imageFault m.minimum (some b) = none then some (true, b) else none
  | none, some b => if imageFault m.minimum (some b) = none then some (true, b) else none
  | none, none => none
/-- R27: what is reported over I3C for the two slots: 16 and the check's number for slot A, 32 and it for slot B. The spec gives the report
no form. DESIGN CHOICE (log 56). -/
def Mgmt.slotFaults (m : Mgmt) : List Nat :=
  [false, true].filterMap fun b => (imageFault m.minimum (Config.flash b)).map fun k => (if b then 32 else 16) + k

/-! ## Dies that leave reset -/

/-- R165: the walker routine of a die: 64 threads in slot 62 of core 0, 1,024 LVS registers and 64 KiB of scratchpad, in no context
(number 64 names none). -/
def Wg.walker (die raw : Nat) (entry : Dword) : Wg :=
  { Wg.fresh die 64 .walker { threads := 64, regs := 16, stackc := 0, spill := 0, scratch := 65536, acc := 0 } entry 0 0 62 raw 0 [] with
    extent := none }
/-- R31 step 4, R32 step 3: the firmware loaded on a die, and its walker routine waiting at its start. -/
def Dev.loadWalker (d : Dev) (die : Nat) (body : List Byte) : Dev :=
  let d := d.loadFirmware die body
  let w : Wg := { Wg.walker die d.raw (d.walkerEntry die) with uid := d.nextUid, group := d.nextUid }
  ({ d with wgs := d.wgs ++ [w], nextUid := d.nextUid + 1 }).occupyAll w
/-- Whether a physical address lies on a die. -/
def onDie (id pa : Nat) : Bool := !isCompanion pa && homeOf pa == id
/-- R31 step 4, R32 step 3, R83: the device memory of a die is zero, the reserved region included; written bits, closed bits and
sharer fields are clear. -/
def Dev.zeroDie (d : Dev) (die : Nat) : Dev :=
  let id := d.dieId die
  { d with
    mem := d.mem.filter fun e => !onDie id e.1
    written := d.written.filter fun w => !onDie id (4 * w)
    closed := d.closed.filter fun l => !onDie id (64 * l)
    sharers := d.sharers.filter fun e => !onDie id (64 * e.1)
    invalidating := d.invalidating.filter fun l => !onDie id (64 * l)
    posted := d.posted.filter fun p => !onDie id p.pa }
/-! ## COLD_RESET (R31) and the reset of the package from step 2 (R32) -/

/-- What a reset leaves of a die: the recorded incarnations of its peers (R65) and its retired frames, which only a cold
reset clears (R164). DEDUCED (log 44). -/
def Die.kept (x : Die) : Die := { Die.reset with peerInc := x.peerInc, retired := x.retired }
/-- What a reset of the package leaves of the device: companion memory, the records on their way, and the model's counters. -/
def Dev.packageReset (d : Dev) (raw : Nat) (torus : Nat × Nat × Nat) (pkg : BitVec 12) : Dev :=
  { Dev.reset with raw := raw, tick := d.tick, free := d.free, pkg := pkg, torus := torus, present := d.present,
                   mem := d.mem.filter fun e => isCompanion e.1, records := d.records, nextUid := d.nextUid,
                   nextCmd := d.nextCmd, nextSeq := d.nextSeq }
/-- The controller at a step of the bring-up with nothing running: fuses, incarnations, what it has sent and the pins stay.
DEDUCED (log 50). -/
def Mgmt.restart (m : Mgmt) (step : Nat) : Mgmt :=
  { Mgmt.reset with bootStep := step, minSvn := m.minSvn, incs := m.incs, flashIncs := m.flashIncs, drainCount := m.drainCount,
                    responses := m.responses, outbox := m.outbox, pinGA := m.pinGA }
/-- R31: whether the hardware's part of the bring-up step that begins succeeds, which no instruction determines. DESIGN CHOICE (log 70). -/
def State.beginStep (s : State) : State :=
  let (v, d) := s.dev.draw
  { s with dev := d, mgmt := { s.mgmt with stepOk := v.getLsbD 0 } }
/-- R31 step 1, R14, R26: GA[11:0] is latched, every die is held in reset; incarnations come back from the boot flash record. Without a
die 0 no die leaves reset and ALERT_N is low (R15). -/
def execColdReset (s : State) : Out :=
  let m := s.mgmt.restart 1
  .next (State.beginStep
    { s with mgmt := { m with incs := m.flashIncs, alert := !s.dev.present.contains 0 },
             dev := { s.dev.packageReset 0 (0, 0, 0) s.mgmt.pinGA with records := [] } })
/-- R32: a reset of die 0 resets the package from step 2 of R31. -/
def State.resetPackage (s : State) : State :=
  let d := s.dev
  State.beginStep
    { s with mgmt := { s.mgmt.restart 2 with held := s.mgmt.held, lost := s.mgmt.lost },
             dev := { d.packageReset d.raw (0, 0, 0) d.pkg with d0 := d.d0.kept, d1 := d.d1.kept, d2 := d.d2.kept, d3 := d.d3.kept } }

/-! ## BOOT_STEP_COMPLETE (R31) -/

/-- R31: a failure leaves the package at its step, with ALERT_N low and a report over I3C. -/
def State.bootFail (s : State) (more : List Nat) : State :=
  { s with mgmt := { s.mgmt with alert := true, report := s.mgmt.report ++ s.mgmt.bootStep :: more } }
def State.bootNext (s : State) : State :=
  State.beginStep { s with mgmt := { s.mgmt with bootStep := s.mgmt.bootStep + 1, alert := false } }
/-- R31 step 2: the ROM runs an image; the attestation key is derived and the secret blocked (R29); die 0 has left reset. The digest of the
running image (R30) is the one that its signature covers, of header and body without the signature. DESIGN CHOICE (log 56). -/
def State.bootImage (s : State) : State :=
  match s.mgmt.chosen with
  | none => s.bootFail s.mgmt.slotFaults
  | some (b, i) =>
    State.bootNext { s with dev := s.dev.startPeriods [0], mgmt := { s.mgmt with
      running := some { slotB := b, svn := i.svn.toNat, keySlot := i.keySlot, digest := sha512 (imageBytes i) }
      secretBlocked := true } }
/-- R31 step 4. -/
def Dev.bootMemory (d : Dev) (body : List Byte) : Dev := d.present.foldl (fun d n => (d.zeroDie n).loadWalker n body) d
/-- R34: a package outside its torus is reported. -/
def Dev.torusRecord (d : Dev) : Dev :=
  if d.inTorus (d.dieId 0) then d else d.record 0x09 0xFF 0 0 (BitVec.ofNat 64 d.pkg.toNat) 0
/-- R31 step 7: JOIN is emitted for each die once the Talbo links have trained; a coordinate out of range is reported (R34). -/
def State.bootJoin (s : State) : State := s.dev.present.foldl State.joinDie { s with dev := s.dev.torusRecord }
/-- R34: the axis sizes have been set. -/
def Dev.torusSet (d : Dev) : Bool := decide (1 ≤ d.torus.1 ∧ 1 ≤ d.torus.2.1 ∧ 1 ≤ d.torus.2.2)
/-- R31 step 7: the axis sizes are set, the Talbo links are up with the keys that the companion has loaded, and no incarnation waits for
a drain (R66). DEDUCED (log 49). -/
def State.mayJoin (s : State) : Bool := s.dev.torusSet && s.dev.talboReady && s.mgmt.pendingIncs.isEmpty
/-- R31: the step under way completes, or fails. Without a die 0 no die leaves reset (R15). DEDUCED (log 49). -/
def State.bootStepDone (s : State) : State :=
  if !s.dev.present.contains 0 then { s with mgmt := { s.mgmt with alert := true } }
  else if !s.mgmt.stepOk then s.bootFail []
  else
    match s.mgmt.bootStep with
    | 1 => s.bootNext
    | 2 => s.bootImage
    | 3 => State.bootNext { s with dev := (s.dev.present.foldl Dev.retrainAll s.dev).startPeriods (s.dev.present.filter (· != 0)) }
    | 4 => State.bootNext { s with dev := s.dev.bootMemory s.mgmt.firmware }
    | 5 => (s.dev.present.foldl State.bootIncrement s).bootNext
    | 6 => State.bootNext { s with dev := { s.dev with pwnA := true, pwnB := s.dev.present.contains 2 } }
    | 7 => if s.mayJoin then s.bootJoin.bootNext else s
    | _ => s
/-- R31 BOOT_STEP_COMPLETE. -/
def execBootStepComplete (s : State) : Out := .next s.bootStepDone

/-! ## DIE_RESET (R32) -/

/-- R32 step 2: contexts with work on a die. -/
def Dev.ctxsAtWork (d : Dev) (die : Nat) : List Nat :=
  let x := d.die die
  (List.range 64).filter fun c =>
    (d.wgs.any fun w => w.die == die && w.ctx == c) || (x.launches.any fun l => l.ctx == c) ||
      (x.hrt.any fun e => e.2.used && e.2.ctx == c) || (x.hosts.any fun h => bits h.h.toNat 20 6 == c) ||
      x.outs.any fun o => o.ctx == c
/-- R32 step 2: the records. -/
def Dev.resetRecords (d : Dev) (die cause : Nat) : Dev :=
  (0xFF :: d.ctxsAtWork die).foldl (fun d c => d.record 0x03 c die 0 (BitVec.ofNat 64 cause) 0) d
/-- R32 step 1: what stood on the die goes. -/
def Dev.dropDie (d : Dev) (die : Nat) : Dev :=
  let uids := (d.wgs.filter fun w => w.die == die).map Wg.uid
  { d with
    wgs := d.wgs.filter fun w => w.die != die
    flight := d.flight.filter fun b => !uids.contains b.uid
    cmds := d.cmds.filter fun c => c.die != die
    pageReqs := d.pageReqs.filter fun r => r.die != die
    live := d.live.map fun e => (e.1, e.2.1.filter (fun n => n != die), e.2.2)
    passDue := d.passDue.filter fun n => n != die }
/-- R32 steps 1 and 3: the die stopped, with nothing on it and its links down; its firmware is loaded again. -/
def Dev.renewDie (d : Dev) (stage die : Nat) (body : List Byte) : Dev :=
  let x := d.die die
  let d := ((d.dropDie die).zeroDie die).setDie die (({ x.kept with joining := true, inc := x.inc }).rerate stage)
  let d := [12, 13, 14].foldl (fun d u => d.modDie (linkPeer die u) fun y => y.linkDown (linkBack die u)) d
  d.loadWalker die body
/-- R32: the reset of one die; of die 0, of the whole package. An increment that would make the count of the die 16 waits for a drain
(R66), and its links and JOIN wait for the increment. -/
def State.resetDie (s : State) (die cause : Nat) : State :=
  let s := { s with dev := s.dev.resetRecords die cause }
  if die = 0 then s.resetPackage
  else
    let s := { s with dev := s.dev.renewDie s.mgmt.stage die s.mgmt.firmware }
    if 15 ≤ natAt s.mgmt.drainCount die then
      State.askDrain { s with mgmt := { s.mgmt with pendingResets := s.mgmt.pendingResets ++ [die] } } die
    else s.rejoin die
/-- R32 DIE_RESET: one that is due, or (cause 2) one that an uncorrectable internal error causes. DEDUCED (log 50). -/
def execDieReset (die cause : Nat) (s : State) : Out :=
  if 4 ≤ die ∨ 3 ≤ cause ∨ s.outOfReset die = false ∨ (s.dev.resets.contains (die, cause) = false ∧ cause ≠ 2) then .next s
  else .next (State.resetDie { s with dev := { s.dev with resets := s.dev.resets.filter fun e => e.1 != die } } die cause)

end Sys2Proof.Machine
end

