-- ==== Sys2Proof/Machine/Cohort.lean ====
section
/-!
DEFINITION. Cohort instructions (R360 to R364): they act for all participants of the bundle at once.
-/

namespace Sys2Proof.Machine

/-- The threads of the front bundle at the instruction, by index. -/
def Cur.members (c : Cur) : List (Nat × Thread) :=
  c.b.tids.filterMap fun i =>
    match c.w.threads[i]? with
    | some t => if t.off = c.t.off then some (i, t) else none
    | none => none

/-- A register written where its index is below ALLOC (R210, R201). -/
def Thread.set (t : Thread) (i : Nat) (v : Word) : Thread :=
  match t.put i v with
  | .ok t => t
  | .error _ => t
/-- A register read where its index is below ALLOC. -/
def Thread.val (t : Thread) (i : Nat) : Word :=
  match t.get i with
  | .ok v => v
  | .error _ => 0#32

/-- R360: the step of a cohort instruction that names the registers `idx`. A thread for which one of them is at or beyond
ALLOC faults and is no participant; `f` gives a participant's new state from all participants' states before. R195, R208:
outside a whole cohort's bundle it is COHORT_MISUSE. -/
def State.cohort (idx : List Nat) (f : List (Nat × Thread) → Nat → Thread → Thread) (s : State) : Out :=
  match s.dev.cur with
  | none => .fault .noThread
  | some c =>
    if !(c.b.cohort && hdrCohort c.hdr0) then
      .next { s with dev := s.dev.takeFault c c.t c.t.off (.here 0x11 0) c.addr }
    else
      let able := fun (m : Nat × Thread) => idx.all fun i => decide (i < m.2.alloc)
      let parts := c.members.filter able
      let d := parts.foldl (fun (d : Dev) m => d.modThread c.w.uid m.1 fun _ => (f parts m.1 m.2).advance 1) s.dev
      let fault := fun (d : Dev) (m : Nat × Thread) =>
        if (d.wg? c.w.uid).isSome then
          d.takeFault { c with tid := m.1, t := m.2 } m.2 m.2.off regRange c.addr
        else d
      .next { s with dev := (c.members.filter fun m => !able m).foldl fault d }

/-- The state of participant `q`. -/
def partner (parts : List (Nat × Thread)) (q : Nat) : Option Thread := (parts.find? fun m => m.1 == q).map (·.2)
/-- R360: 64 × the cohort number. -/
def baseOf (i : Nat) : Nat := i / 64 * 64

/-- R361: the partner of thread `i` for a value k below 64. -/
def peekAt (mode : PeekMode) (i k : Nat) : Option Nat :=
  let base := baseOf i
  match mode with
  | .at => some (base + k)
  | .back => if i < base + k then none else some (i - k)
  | .fwd => if base + 63 < i + k then none else some (i + k)
  | .flip => some (base + ((i - base) ^^^ k))
/-- R361. -/
def execPeek (d a b : Reg) (immediate : Bool) (mode : PeekMode) (s : State) : Out :=
  s.cohort ([d.toNat, a.toNat] ++ (if immediate then [] else [b.toNat])) fun parts i t =>
    let t' := t.note ([a.toNat] ++ (if immediate then [] else [b.toNat]))
    let k := if immediate then b.toNat else (t.val b.toNat).toNat
    if 64 ≤ k then t'
    else
      match (peekAt mode i k).bind (partner parts) with
      | some q => t'.set d.toNat (q.val a.toNat)
      | none => t'

/-- R362: the condition of a participant. -/
def condOf (neg : Bool) (p : PredReg) (t : Thread) : Bool := t.pred p != neg
def execPollAll (d : PredReg) (neg : Bool) (p : PredReg) (s : State) : Out :=
  s.cohort [] fun parts _ t => t.setPred d (parts.all fun m => condOf neg p m.2)
def execPollSome (d : PredReg) (neg : Bool) (p : PredReg) (s : State) : Out :=
  s.cohort [] fun parts _ t => t.setPred d (parts.any fun m => condOf neg p m.2)
def execPollSame (d : PredReg) (neg : Bool) (p : PredReg) (s : State) : Out :=
  s.cohort [] fun parts _ t =>
    t.setPred d (parts.all (fun m => condOf neg p m.2) || parts.all fun m => !condOf neg p m.2)
/-- Bit i is thread base + i. -/
def maskOf (neg : Bool) (p : PredReg) (parts : List (Nat × Thread)) : Nat :=
  (parts.map fun m => if condOf neg p m.2 then 2 ^ (m.1 % 64) else 0).foldl (· + ·) 0
def execPmask (d : Reg) (neg : Bool) (p : PredReg) (s : State) : Out :=
  s.cohort [d.toNat, d.toNat + 1] fun parts _ t =>
    (t.set d.toNat (BitVec.ofNat 32 (maskOf neg p parts))).set (d.toNat + 1)
      (BitVec.ofNat 32 (maskOf neg p parts / 2 ^ 32))

/-! R363, R364. -/

def minSW (x y : Word) : Word := if x.toInt ≤ y.toInt then x else y
def maxSW (x y : Word) : Word := if x.toInt ≤ y.toInt then y else x
def minUW (x y : Word) : Word := if x.toNat ≤ y.toNat then x else y
def maxUW (x y : Word) : Word := if x.toNat ≤ y.toNat then y else x

/-- R364: the sum of FP32 values, rounded once. -/
def faddAll (xs : List Word) : Word × BitVec 7 :=
  let vs := xs.map fun x => valueOf .fp32 x.toNat
  let up := vs.any fun v => v == .inf false
  let down := vs.any fun v => v == .inf true
  let r :=
    if vs.any XVal.isNan then roundTo .fp32 .rne false .nan
    else if up && down then ((roundTo .fp32 .rne false .nan).1, fNV)
    else if up || down then roundTo .fp32 .rne false (.inf down)
    else
      let sum := vs.foldl (fun (acc : Int) v => match v with
        | .fin s n _ => acc + signed s n
        | .nan | .inf _ => acc) 0
      let neg := if sum = 0 then !xs.isEmpty && vs.all XVal.sign else decide (sum < 0)
      roundTo .fp32 .rne false (.fin neg sum.natAbs (2 ^ 149))
  (BitVec.ofNat 32 r.1, r.2)

/-- R363: the combination of values in ascending thread index; the identity for none. -/
def combineAll (op : Xop) (xs : List Word) : Word × BitVec 7 :=
  match op with
  | .add => (xs.foldl (· + ·) 0#32, 0#7)
  | .min => (xs.foldl minSW 0x7FFF_FFFF#32, 0#7)
  | .max => (xs.foldl maxSW 0x8000_0000#32, 0#7)
  | .minu => (xs.foldl minUW 0xFFFF_FFFF#32, 0#7)
  | .maxu => (xs.foldl maxUW 0#32, 0#7)
  | .and => (xs.foldl (· &&& ·) 0xFFFF_FFFF#32, 0#7)
  | .or => (xs.foldl (· ||| ·) 0#32, 0#7)
  | .xor => (xs.foldl (· ^^^ ·) 0#32, 0#7)
  | .fadd => faddAll xs

/-- The values of ga over the participants that satisfy a condition on their index. -/
def valuesOf (parts : List (Nat × Thread)) (a : Reg) (keep : Nat → Bool) : List Word :=
  (parts.filter fun m => keep m.1).map fun m => m.2.val a.toNat
/-- The thread with a result and its flags (R364: in its own STATUS). -/
def withResult (d a : Reg) (r : Word × BitVec 7) (t : Thread) : Thread := ((t.note [a.toNat]).raise r.2).set d.toNat r.1
def execFold (d a : Reg) (op : Xop) (s : State) : Out :=
  s.cohort [d.toNat, a.toNat] fun parts _ t => withResult d a (combineAll op (valuesOf parts a fun _ => true)) t
/-- PREFIX: over the threads up to its own, or below its own with EXCL. -/
def execPrefixOp (d a : Reg) (excl : Bool) (op : Xop) (s : State) : Out :=
  s.cohort [d.toNat, a.toNat] fun parts i t =>
    withResult d a (combineAll op (valuesOf parts a fun u => decide (u < i) || (!excl && u == i))) t

end Sys2Proof.Machine
end

