-- ==== Sys2Proof/Machine/Requests.lean ====
section
/-!
DEFINITION. Management requests (R139, R432): how the controller takes and answers one, the registers, keys, power, attestation,
page service, event ring, drain, security version, die reset and torus requests.
-/

namespace Sys2Proof.Machine

/-! ## Taking and answering a request (R139) -/

/-- R139: a STATUS other than OK and BADPARAM. -/
inductive Refused where
  | badop | busy | noctx | exists_
deriving DecidableEq, Repr
def Refused.code (r : Refused) : Nat :=
  match r with
  | .badop => 1
  | .busy => 3
  | .noctx => 4
  | .exists_ => 5

/-- The request at the head leaves the queue, and what it has read with it. -/
def State.take (s : State) : State := { s with mgmt := { s.mgmt with requests := s.mgmt.requests.drop 1, creating := none } }
/-- R139: the message of a response. -/
def Dev.respondMsg (d : Dev) (q : MgmtReq) (status offset : Nat) (results : List Byte) : List Dword :=
  sealMsg (mkMsg 0x65 q.src (d.dieId 0) d.d0.inc ([q.reqid, BitVec.ofNat 64 (status + 2 ^ 8 * offset)] ++ dwordsOf results))
/-- R139: one response, and its message to the companion. -/
def State.respond (s : State) (q : MgmtReq) (status offset : Nat) (results : List Byte) : State :=
  { s with mgmt := { s.mgmt with
      responses := s.mgmt.responses ++ [{ reqid := q.reqid, status := status, offset := offset, results := results }]
      outbox := s.mgmt.outbox ++ [s.dev.respondMsg q status offset results] } }
def State.ok (s : State) (q : MgmtReq) (results : List Byte) : State := s.take.respond q 0 0 results
def State.bad (s : State) (q : MgmtReq) (offset : Nat) : State := s.take.respond q 2 offset []
def State.refuse (s : State) (q : MgmtReq) (r : Refused) : State := s.take.respond q r.code 0 []
/-- R432: the slot at a parameter offset. -/
def MgmtReq.slot (q : MgmtReq) (p : Nat) : Nat := (dwordAt q.params (p / 8)).toNat
/-- A parameter (R432): how many bits its field has, and which values of it are valid. -/
structure Param where
  bits : Nat
  valid : Nat → Bool
/-- A field of `n` bits every value of which is valid. -/
def Param.any (n : Nat) : Param := { bits := n, valid := fun _ => true }
/-- R139, R432: the first invalid field: one whose slot holds more than it, or whose value is not valid; the slots stand in order from
offset 0. -/
def paramFault (q : MgmtReq) : Nat → List Param → Option Nat
  | _, [] => none
  | p, w :: ws => if 2 ^ w.bits ≤ q.slot p || !w.valid (q.slot p) then some p else paramFault q (p + 8) ws
/-- R139: whether a later request repeats the REQID of the one in progress; without the first that does. -/
def dropRepeat (id : Dword) : List MgmtReq → Option (MgmtReq × List MgmtReq)
  | [] => none
  | q :: qs => if q.reqid = id then some (q, qs) else (dropRepeat id qs).map fun r => (r.1, q :: r.2)
/-- R139: a request of an operation acted on. The controller is reached once the Penwyn Link has trained (R31 step 6); a repeat of its
REQID is answered first, an unknown OP is answered by whichever operation looks. DESIGN CHOICE (log 67). -/
def State.onRequest (op : Nat) (params : State → List Param) (f : State → MgmtReq → State) (s : State) : Out :=
  match s.mgmt.requests with
  | [] => .next s
  | q :: qs =>
    if s.mgmt.bootStep < 7 then .next s
    else
      match dropRepeat q.reqid qs with
      | some (r, rest) =>
        .next (State.respond { s with mgmt := { s.mgmt with requests := q :: rest } } r Refused.busy.code 0 [])
      | none =>
        if q.op = 0 ∨ 13 < q.op then .next (s.refuse q .badop)
        else if q.op ≠ op then .next s
        else
          match paramFault q 0 (params s) with
          | some p => .next (s.bad q p)
          | none => .next (f s q)

/-! ## Registers (R139, R22, R58, R59, R106) -/

/-- R106, R59: the counters of a die by register code. -/
def Counters.read (c : Counters) (code : Nat) : Nat :=
  match code with
  | 0x10 => c.remdup.toNat
  | 0x11 => c.rembenign.toNat
  | 0x12 => c.remconflict.toNat
  | 0x13 => c.conflictpa.toNat
  | 0x14 => c.remlate.toNat
  | 0x15 => c.remstale.toNat
  | 0x16 => c.remnowin.toNat
  | 0x17 => c.remheld.toNat
  | 0x18 => c.unroute.toNat
  | 0x19 => c.e2efail.toNat
  | _ => c.msgmalf.toNat
/-- R106: a write sets a counter; CONFLICTPA is read-only. -/
def Counters.write (c : Counters) (code : Nat) (v : Word) : Option Counters :=
  match code with
  | 0x10 => some { c with remdup := v }
  | 0x11 => some { c with rembenign := v }
  | 0x12 => some { c with remconflict := v }
  | 0x13 => none
  | 0x14 => some { c with remlate := v }
  | 0x15 => some { c with remstale := v }
  | 0x16 => some { c with remnowin := v }
  | 0x17 => some { c with remheld := v }
  | 0x18 => some { c with unroute := v }
  | 0x19 => some { c with e2efail := v }
  | _ => some { c with msgmalf := v }
/-- R139: what a register code and a unit name. -/
inductive RegName where
  | thermstat (core : Nat)
  | linkstat (port : Nat)
  | linkerr (unit : Nat)
  | counter (code : Nat)
deriving DecidableEq, Repr
/-- R139: units and register codes that there are. -/
def isUnit (unit : Nat) : Bool := decide (unit < 72) || unit == 0xFF
def isCode (code : Nat) : Bool := decide (1 ≤ code ∧ code ≤ 3 ∨ 0x10 ≤ code ∧ code ≤ 0x1A)
/-- The number of a die, which is valid where the package has the die: a request that names another is answered BADPARAM at that field.
DESIGN CHOICE (log 72). -/
def Param.die (s : State) : Param := { bits := 2, valid := fun n => s.dev.present.contains n }
def regParams (s : State) : List Param := [.die s, { bits := 8, valid := isUnit }, { bits := 8, valid := isCode }]
/-- R139: the register; or the offset of the unit when the code has no register there. -/
def regName (unit code : Nat) : Except Nat RegName :=
  if code = 1 then (if unit < 72 then .ok (.thermstat unit) else .error 8)
  else if code = 2 then (if unit < 12 then .ok (.linkstat unit) else .error 8)
  else if code = 3 then (if unit < 15 then .ok (.linkerr unit) else .error 8)
  else if 0x10 ≤ code ∧ code ≤ 0x1A then (if unit = 0xFF then .ok (.counter code) else .error 8)
  else .error 16
def Die.readReg (x : Die) (r : RegName) : Nat :=
  match r with
  | .thermstat c => (x.thermstat c).toNat
  | .linkstat p => (x.link p).linkstat.toNat
  | .linkerr u => (x.link u).linkerr.toNat
  | .counter c => x.counters.read c
/-- A write; none where the register is not writable. -/
def Die.writeReg (x : Die) (r : RegName) (v : Word) : Option Die :=
  match r with
  | .thermstat c => some (x.modCore c fun k => k.thermstatWrite v)
  | .linkstat _ => none
  | .linkerr u => some (x.modLink u fun l => l.setLinkerr u v)
  | .counter c => (x.counters.write c v).map fun k => { x with counters := k }
/-- R139 READREG. DEDUCED (log 49). -/
def execReadreg : State → Out :=
  State.onRequest 0x03 regParams fun s q =>
    match regName (q.slot 8) (q.slot 16) with
    | .ok r => s.ok q (leBytes ((s.dev.die (q.slot 0)).readReg r) 8)
    | .error p => s.bad q p
/-- R139 WRITEREG. -/
def execWritereg : State → Out :=
  State.onRequest 0x04 regParams fun s q =>
    match regName (q.slot 8) (q.slot 16) with
    | .error p => s.bad q p
    | .ok r =>
      match (s.dev.die (q.slot 0)).writeReg r (BitVec.ofNat 32 (q.slot 24)) with
      | some x => State.ok { s with dev := s.dev.setDie (q.slot 0) x } q []
      | none => s.bad q 16

/-! ## Keys, power, page service, event ring, drain -/

/-- R52, R55: a slot loaded: it is live, and no flit has gone under the key of a transmit slot. DEDUCED (log 49). -/
def Link.load (l : Link) (receive : Bool) (slot : Nat) (k : Key) : Link :=
  if receive then { l with rx := l.rx.set slot (some k) }
  else { l with tx := l.tx.set slot (some k), uses := l.uses.set slot 0, expiring := l.expiring && slot != slotNo l.txSlot }
/-- R52 LOADKEY: 32 bytes of key, then 4 bytes of salt. -/
def execLoadkey : State → Out :=
  State.onRequest 0x05 (fun s => [.die s, { bits := 8, valid := fun p => decide (p < 12) }, .any 1, .any 1, .any 51]) fun s q =>
    let bs := s.dev.rdBytes (2 ^ 51 + q.slot 32) 36
    let k : Key := { key := bs.take 32, salt := bs.drop 32 }
    State.ok { s with dev := s.dev.modDie (q.slot 0) fun x => x.modLink (q.slot 8) fun l =>
                        l.load (q.slot 16 == 1) (q.slot 24) k } q []
/-- R20 SETPOWER. -/
def execSetpower : State → Out :=
  State.onRequest 0x06 (fun _ => [{ bits := 12, valid := fun n => decide (1500 ≤ n ∧ n ≤ 2700) }]) fun s q =>
    State.ok { s with mgmt := { s.mgmt with limit := q.slot 0 } } q []
/-- R149 PAGEDONE. The request waits at the head for the companion's writes that came before it, so that a walk after it finds them (R158).
DEDUCED (log 52). -/
def execPagedone : State → Out :=
  State.onRequest 0x08 (fun s => [{ bits := 32, valid := fun n => s.dev.pageReqs.any fun r => r.id == n }, .any 1]) fun s q =>
    match s.dev.pageReqs.find? fun r => r.id == q.slot 0 with
    | some r => if s.dev.portsIdle then State.ok { s with dev := s.dev.pageAnswer r (q.slot 8 == 0) } q [] else s
    | none => s.bad q 0
/-- R148: an entry count of the ring. -/
def ringCount (n : Nat) : Bool := [256, 512, 1024, 2048, 4096, 8192, 16384, 32768, 65536].contains n
/-- R148 SETEVENT: both indices are zero before the answer; then what was held is written. -/
def execSetevent : State → Out :=
  State.onRequest 0x09 (fun _ => [{ bits := 51, valid := fun a => isMult a 4096 }, { bits := 17, valid := ringCount }]) fun s q =>
    let r : Ring := { base := q.slot 0, size := q.slot 8, prod := 0, cons := 0 }
    let s := State.ok { s with dev := (s.dev.wr (2 ^ 51 + r.base) 8 0).wr (2 ^ 51 + r.base + 8) 8 0,
                               mgmt := { s.mgmt with ring := some r } } q []
    s.flushHeld 256
/-- R66 DRAINEND. -/
def execDrainend : State → Out := State.onRequest 0x0A (fun _ => []) fun s q => s.drainEnd.ok q []

/-! ## Attestation, security version, resets, torus -/

/-- R29: the private keys of the device identity and of the attestation key of a security version. -/
def identityKey : List Byte := Config.identitySeed Config.fusedSecret
def attestationKey (svn : Nat) : List Byte := Config.attestationSeed Config.fusedSecret svn
/-- R29: the attestation key certificate. -/
def certificate (svn : Nat) : List Byte :=
  let body := leBytes 0x5A414B43 4 ++ leBytes svn 4 ++ leBytes Config.serial.toNat 8 ++ ed25519Public (attestationKey svn) ++
    List.replicate 16 0#8
  body ++ ed25519Sign identityKey body
/-- R30: the attestation report. -/
def report (g : Running) (nonce : List Byte) (ctx : Option (Nat × List Byte)) : List Byte :=
  let body := leBytes 0x5A415450 4 ++ leBytes 1 2 ++
    leBytes ((if ctx.isSome then 1 else 0) + if Config.debugBlown then 2 else 0) 2 ++ leBytes Config.serial.toNat 8 ++ leBytes g.svn 4 ++
    leBytes g.keySlot 1 ++ List.replicate 3 0#8 ++ fitBytes nonce 32 ++ fitBytes g.digest 64 ++
    fitBytes ((ctx.map Prod.snd).getD []) 64 ++ leBytes ((ctx.map Prod.fst).getD 0xFF) 1 ++ List.replicate 7 0#8
  body ++ ed25519Sign (attestationKey g.svn) body
/-- R30 ATTEST: report and certificate as one string in three responses (R432). -/
def execAttest : State → Out :=
  State.onRequest 0x07 (fun _ => [.any 64, .any 64, .any 64, .any 64, .any 8]) fun s q =>
    let nonce := bytesOf ((List.range 4).map fun i => dwordAt q.params i)
    let ctx := (s.dev.live.find? fun e => e.1 == q.slot 32).map fun e => (e.1, e.2.2)
    let g := s.mgmt.running.getD { slotB := false, svn := 0, keySlot := 0, digest := [] }
    let all := report g nonce ctx ++ certificate g.svn
    ((s.ok q (all.take 176)).respond q 0 0 ((all.drop 176).take 176)).respond q 0 0 (all.drop 352)
/-- R28 COMMITSVN. -/
def execCommitsvn : State → Out :=
  State.onRequest 0x0B (fun _ => [.any 32]) fun s q =>
    if (s.mgmt.running.map Running.svn) = some (q.slot 0) then
      State.ok { s with mgmt := { s.mgmt with minSvn := max s.mgmt.minSvn (q.slot 0) } } q []
    else s.bad q 0
/-- R139 RESETDIE: the reset is due; for die 0 no response is sent. -/
def execResetdie : State → Out :=
  State.onRequest 0x0C (fun s => [.die s]) fun s q =>
    let t := { s with dev := { s.dev with resets := s.dev.resets ++ [(q.slot 0, 0)] } }
    if q.slot 0 = 0 then t.take else t.ok q []
/-- R34: every Talbo link of the package is down. -/
def Dev.talboDown (d : Dev) : Bool := [0, 1, 2, 3].all fun n => (List.range 12).all fun p => !((d.die n).link p).up
/-- R34, R139 SETTORUS. After step 7, which reports by itself, a coordinate out of range is reported here. DEDUCED (log 49). -/
def execSettorus : State → Out :=
  let size : Param := { bits := 5, valid := fun n => decide (1 ≤ n ∧ n ≤ 16) }
  State.onRequest 0x0D (fun _ => [size, size, size]) fun s q =>
    if s.dev.talboDown then
      let d := { s.dev with torus := (q.slot 0, q.slot 8, q.slot 16) }
      State.ok { s with dev := if s.mgmt.bootStep < 8 then d else d.torusRecord } q []
    else s.refuse q .busy

end Sys2Proof.Machine
end

