-- ==== Sys2Proof/Machine/Create.lean ====
section
/-!
DEFINITION. Contexts created and destroyed by the companion (R140 to R143).
-/

namespace Sys2Proof.Machine

/-! ## The creation block (R140) -/

/-- A creation block: its 256 bytes. -/
abbrev Block := List Byte
/-- The field of `n` bytes at an offset. -/
def blockAt (b : Block) (off n : Nat) : Nat := leValue ((b.drop off).take n)
/-- R135: where a field's companion physical address lies: bits [50:0] hold it (DEDUCED: the limits of R140 name no other bit).
DEDUCED (log 29). -/
def blockPa (b : Block) (off : Nat) : Nat := 2 ^ 51 + blockAt b off 8 % 2 ^ 51
/-- R140: the dies named. -/
def blockDies (b : Block) : List Nat := (List.range 4).filter fun d => bits (blockAt b 1 1) d 1 == 1
/-- R140: a page or line of a field of die `n`: mapped for a write by a leaf that R154 allows, and homed on the die. -/
def Dev.blockPage (d : Dev) (n root : Nat) (va : Dword) : Option Nat :=
  if !canonicalVa va then none
  else
    match d.walk n root va with
    | .error _ => none
    | .ok (level, leaf) =>
      match d.leafCheck n (accLocal true) level leaf va with
      | .ok pa => some pa
      | .error _ => none
def Dev.blockMapped (d : Dev) (b : Block) (n : Nat) (vas : List Nat) : Bool :=
  vas.all fun va => (d.blockPage n (blockAt b 8 8) (BitVec.ofNat 64 va)).isSome
/-- R140: the error queue's pages. -/
def errqPages (va : Nat) : List Nat := (List.range 8).map fun i => va + 4096 * i
/-- R140, R151: ROOT. -/
def Dev.rootOk (d : Dev) (b : Block) : Bool :=
  let root := blockAt b 8 8
  isMult root 4096 && decide (root < 2 ^ 52) &&
    (isCompanion root || (match blockDies b with
      | [n] => homeOf root == d.dieId n
      | _ => false))
/-- R140: the fields in order of their offsets, each with whether it keeps its limits. The limits of SUPCORE are
stated for the dies of DIES; the entries of ERRQVA and SPILLVA for another die describe nothing and are not checked either.
DESIGN CHOICE (log 81). -/
def Dev.blockChecks (d : Dev) (b : Block) : List (Nat × Bool) :=
  let f := blockAt b
  let dies := blockDies b
  let perDie := fun (base size : Nat) (ok : Nat → Nat → Bool) => (List.range 4).map fun n => (base + size * n, ok n (f (base + size * n) size))
  [(1, decide (1 ≤ f 1 1 ∧ f 1 1 < 16) && dies.all d.present.contains), (2, decide (f 2 1 ≤ 1) && (f 2 1 == 0 || dies.length == 1)), (3, f 3 1 == 0),
   (4, decide (f 4 4 ≤ 10000)), (8, d.rootOk b), (16, isMult (f 16 8) 64), (24, isMult (f 24 8) 32), (32, decide (f 32 2 ≤ 4096)), (34, f 34 6 == 0), (40, isMult (f 40 8) 8),
   (56, decide (f 56 4 < 2 ^ 24)), (60, decide (f 60 4 < 2 ^ 20)), (64, decide (f 64 4 < 2 ^ 24)), (68, f 68 4 == 0)] ++
  perDie 72 8 (fun n va => !dies.contains n || (isMult va 4096 && d.blockMapped b n (errqPages va))) ++
  perDie 104 1 (fun n core => !dies.contains n || decide (core ≤ 71)) ++
  [(108, f 108 4 == 0), (112, isMult (f 112 8) 8), (120, decide (1 ≤ f 120 1 ∧ f 120 1 ≤ 64)),
   (121, isMult (f 121 1) 8 && decide (f 121 1 ≤ 192)), (122, decide (1 ≤ f 122 2 ∧ f 122 2 ≤ 1024)), (124, isMult (f 124 4) 64),
   (128, isMult (f 128 4) 256 && decide (256 ≤ f 128 4 ∧ f 128 4 ≤ 2 ^ 20)), (132, f 132 4 == 0)] ++
  perDie 136 8 (fun n va => !dies.contains n || (isMult va 4096 && d.blockMapped b n [va])) ++
  perDie 168 8 (fun n va => va == 0 || (dies.contains n && isMult va 64 && d.blockMapped b n [va])) ++
  [(200, f 200 56 == 0)]
/-- R140: the first field that fails. -/
def Dev.blockFault (d : Dev) (b : Block) : Option Nat := ((d.blockChecks b).find? fun e => !e.2).map Prod.fst

/-! ## Creation on a die (R141) -/

/-- R141 steps 1 and 2: the context as creation loads it. -/
def Dev.newCtx (d : Dev) (b : Block) (n : Nat) : Ctx :=
  let f := blockAt b
  { ctx := f 0 1, root := f 8 8, seed := BitVec.ofNat 64 (f 48 8), retrans := f 4 4, trap := BitVec.ofNat 64 (f 40 8), fab := f 56 4,
    upd := f 60 4, dram := f 64 4, fabLeft := (256 * f 56 4 : Nat), updLeft := (f 60 4 : Nat), dramLeft := (f 64 4 : Nat),
    tdt := if f 16 8 = 0 then [] else sliceRange d.mem (blockPa b 16) 16384, invt := d.rdBytes (blockPa b 24) (32 * f 32 2),
    invcnt := f 32 2, errqVa := BitVec.ofNat 64 (f (72 + 8 * n) 8), ovf := false, count := 0, head := 0,
    spillVa := BitVec.ofNat 64 (f (136 + 8 * n) 8), proof := f 2 1 == 1, supCore := f (104 + n) 1, rot := 0,
    hold := none, passed := false, ending := none }
/-- A range of main memory zeroed. -/
def Dev.wipe (d : Dev) (pa n : Nat) : Dev := { d with mem := clearRange d.mem pa n }.watch pa n
/-- Where the pages of the error queue of a die lie. -/
def Dev.errqPas (d : Dev) (b : Block) (n : Nat) : List Nat :=
  (errqPages (blockAt b (72 + 8 * n) 8)).filterMap fun va => d.blockPage n (blockAt b 8 8) (BitVec.ofNat 64 va)
/-- R141 step 3: the error queue zeroed. -/
def Dev.zeroErrq (d : Dev) (b : Block) (n : Nat) : Dev := (d.errqPas b n).foldl (fun d pa => d.wipe pa 4096) d
/-- R137: the lines of the error queues of a creation that may not be written yet. -/
def Dev.errqDirty (d : Dev) (b : Block) : List Nat :=
  ((blockDies b).flatMap fun n => (d.errqPas b n).flatMap fun pa => linesOf pa 4096).filter fun l => !d.cleanLine l
/-- R140: the sizes of the supervisor. -/
def supSizes (b : Block) : Sizes :=
  { threads := blockAt b 122 2, regs := blockAt b 120 1, stackc := blockAt b 121 1, spill := blockAt b 124 4, scratch := blockAt b 128 4,
    acc := 0 }
/-- R141 on one die; the offset of the field for which it fails: SUPSPILL when no extent holds the supervisor, else SUPCORE.
DEDUCED (log 49). -/
def Dev.createOn (d : Dev) (b : Block) (n : Nat) : Except Nat Dev :=
  let k := d.newCtx b n
  let d := (d.modDie n fun x => { x with ctxs := x.ctxs ++ [k] }).zeroErrq b n
  match d.placeSupervisor n k.ctx (supSizes b) (BitVec.ofNat 64 (blockAt b 112 8)) (BitVec.ofNat 64 (blockAt b (168 + 8 * n) 8)) with
  | some d => .ok d
  | none => .error (if 2 ^ 20 < (supSizes b).units then 124 else 104 + n)
def Dev.createAll (d : Dev) (b : Block) : List Nat → Except Nat Dev
  | [] => .ok d
  | n :: ns =>
    match d.createOn b n with
    | .ok d => d.createAll b ns
    | .error p => .error p
/-- R141: a creation from its block, which has passed its checks. Where the companion shares a line of an error queue, its copy is
invalidated first, and the request stays at the head with its block until the writes of step 3 can complete (R137). DEDUCED (log 52). -/
def State.createFrom (s : State) (q : MgmtReq) (b : Block) : State :=
  if s.dev.errqDirty b ≠ [] then
    { s with dev := (s.dev.errqDirty b).foldl Dev.invalidate s.dev, mgmt := { s.mgmt with creating := some b } }
  else
    match s.dev.createAll b (blockDies b) with
    | .error p => s.bad q p
    | .ok d => State.ok { s with dev := { d with live := d.live ++ [(blockAt b 0 1, blockDies b, sha512 b)] } } q []
/-- R140: the checks of a creation block, CTX first, and the creation. -/
def State.checkedCreate (s : State) (q : MgmtReq) (b : Block) : State :=
  if 63 < blockAt b 0 1 then s.bad q 0
  else if s.dev.live.any fun e => e.1 == blockAt b 0 1 then s.refuse q .exists_
  else
    match s.dev.blockFault b with
    | some p => s.bad q p
    | none => s.createFrom q b
/-- R139 CREATE. The block is read once (R140). -/
def execCreate : State → Out :=
  State.onRequest 0x01 (fun _ => [.any 51]) fun s q =>
    if s.mgmt.bootStep < 8 then s.refuse q .busy
    else
      match s.mgmt.creating with
      | some b => s.createFrom q b
      | none => s.checkedCreate q (s.dev.rdBytes (2 ^ 51 + q.slot 0) 256)
/-- R142 steps 3 to 5: once no message of the context is outstanding, its state is dropped and DESTROY is answered; until then the
request stays at the head. DEDUCED (log 49). -/
def State.endDestroy (s : State) (q : MgmtReq) : State :=
  if s.dev.ctxIdle (q.slot 0) then State.ok { s with dev := s.dev.clearCtx (q.slot 0) } q [] else s
/-- R142 DESTROY: steps 1 and 2 when it is taken up, then steps 3 to 5. A context that is being aborted (R431) ends as it does, and
DESTROY of it answers NOCTX then. DEDUCED (log 49). -/
def execDestroy : State → Out :=
  State.onRequest 0x02 (fun _ => [.any 6]) fun s q =>
    let c := q.slot 0
    if !s.dev.live.any fun e => e.1 == c then s.refuse q .noctx
    else
      match s.dev.endingOf c with
      | none => State.endDestroy { s with dev := s.dev.stopCtx c .destroyed } q
      | some .destroyed => s.endDestroy q
      | some .aborted => s

end Sys2Proof.Machine
end

