-- ==== Sys2Proof/Machine/Transc.lean ====
section
/-!
DEFINITION. The transcendental functions (R341), each as the exact function value rounded once: the value is formed in fixed
point with 700 bits after the point, an inexact one carries half a unit more, and the one rounding is Round's.
-/

namespace Sys2Proof

open Sys2Proof.Machine

/-- Bits after the point. -/
def fxBits : Nat := 700
/-- UNVERIFIED (log 51). -/
def fxOne : Nat := 2 ^ fxBits

/-- The sum of y^(2i+1) ÷ (2i+1) over `n` terms, in fixed point: `p` is y^(2i+1), `q` is y², `k` is 2i+1. -/
def atanhFrom (p q k : Nat) : Nat → Nat
  | 0 => 0
  | n + 1 => p / k + atanhFrom (p * q / fxOne) q (k + 2) n
/-- artanh of a fixed-point number of at most one third: 240 terms leave less than one unit. -/
def fxAtanh (y : Nat) : Nat := atanhFrom y (y * y / fxOne) 1 240
/-- The natural logarithm of 2. -/
def fxLn2 : Nat := 2 * fxAtanh (fxOne / 3)
/-- The sum of x^i ÷ i! from term `p` = x^i ÷ i! on. -/
def expFrom (p x i : Nat) : Nat → Nat
  | 0 => 0
  | n + 1 => p + expFrom (p * x / fxOne / (i + 1)) x (i + 1) n
/-- 2^f for a fixed-point f from 0 up to 1: 160 terms of the exponential series of f · ln 2. -/
def fxExp2 (f : Nat) : Nat := expFrom fxOne (f * fxLn2 / fxOne) 0 160
/-- An inexact fixed-point value: half a unit above its floor. -/
def fxVal (neg : Bool) (q : Nat) : XVal := .fin neg (2 * q + 1) (2 * fxOne)

/-- A number scaled by a power of two. -/
def scaled (n d : Nat) (e : Int) : XVal :=
  if 0 ≤ e then .fin false (n * 2 ^ e.toNat) d else .fin false n (d * 2 ^ (-e).toNat)

/-- 2^v for a finite v; beyond ±400 any value of the same side rounds alike. -/
def exp2Val (s : Bool) (n d : Nat) : XVal :=
  if 400 * d ≤ n then .fin false (if s then 1 else 2 ^ 400) (if s then 2 ^ 400 else 1)
  else
    let v := signed s n
    let e := v / (d : Int)
    let r := (v % (d : Int)).toNat
    if r = 0 then scaled 1 1 e else scaled (2 * fxExp2 (r * fxOne / d) + 1) (2 * fxOne) e

/-- log₂ of num ÷ den above 0: the exponent, and the logarithm of the significand from 1 up to 2. -/
def log2Val (n d : Nat) : XVal :=
  let e := floorLog2 n d
  let num := if 0 ≤ e then n else n * 2 ^ (-e).toNat
  let den := if 0 ≤ e then d * 2 ^ e.toNat else d
  if num = den then .fin (decide (e < 0)) e.natAbs 1
  else
    let f := 2 * fxAtanh ((num - den) * fxOne / (num + den)) * fxOne / fxLn2
    let v := e * (2 * fxOne : Nat) + (2 * f + 1 : Nat)
    .fin (decide (v < 0)) v.natAbs (2 * fxOne)

/-- tanh of a finite v other than zero: (1 − y) ÷ (1 + y) with y = e^(−2|v|). -/
def tanhVal (s : Bool) (n d : Nat) : XVal :=
  if 200 * d ≤ n then .fin s (2 ^ 200 - 1) (2 ^ 200)
  else
    let t := 2 * n * fxOne * fxOne / (d * fxLn2)
    let y := fxOne * fxOne / fxExp2 (t % fxOne) / 2 ^ (t / fxOne)
    fxVal s ((fxOne - y) * fxOne / (fxOne + y))

/-- R341 frcp. -/
def rcpCode (x : Nat) : Nat × BitVec 7 :=
  let r := XVal.quot (.fin false 1 1) (valueOf .fp32 x)
  finishFp .fp32 .rne r.1 r.2
/-- R341 frsq. -/
def rsqCode (x : Nat) : Nat × BitVec 7 :=
  match valueOf .fp32 x with
  | .nan => finishFp .fp32 .rne .nan 0#7
  | .inf s => finishFp .fp32 .rne (if s then .nan else .fin false 0 1) (if s then fNV else 0#7)
  | .fin s n d =>
    if n = 0 then finishFp .fp32 .rne (.inf s) fDZ
    else if s then finishFp .fp32 .rne .nan fNV
    else finishFp .fp32 .rne (sqrtVal d n) 0#7
/-- R341 fexp2. -/
def exp2Code (x : Nat) : Nat × BitVec 7 :=
  match valueOf .fp32 x with
  | .nan => finishFp .fp32 .rne .nan 0#7
  | .inf s => finishFp .fp32 .rne (if s then .fin false 0 1 else .inf false) 0#7
  | .fin s n d => finishFp .fp32 .rne (exp2Val s n d) 0#7
/-- R341 flog2. -/
def log2Code (x : Nat) : Nat × BitVec 7 :=
  match valueOf .fp32 x with
  | .nan => finishFp .fp32 .rne .nan 0#7
  | .inf s => finishFp .fp32 .rne (if s then .nan else .inf false) (if s then fNV else 0#7)
  | .fin s n d =>
    if n = 0 then finishFp .fp32 .rne (.inf true) fDZ
    else if s then finishFp .fp32 .rne .nan fNV
    else finishFp .fp32 .rne (log2Val n d) 0#7
/-- R341 ftanh. -/
def tanhCode (x : Nat) : Nat × BitVec 7 :=
  match valueOf .fp32 x with
  | .nan => finishFp .fp32 .rne .nan 0#7
  | .inf s => finishFp .fp32 .rne (.fin s 1 1) 0#7
  | .fin s n d => if n = 0 then (x, 0#7) else finishFp .fp32 .rne (tanhVal s n d) 0#7

end Sys2Proof
end

