-- ==== Sys2Proof/Machine/Fp.lean ====
section
/-!
DEFINITION. FP32 arithmetic (R339, R340), the transcendental functions (R341) and packed BF16 and FP16 (R342).
-/

namespace Sys2Proof.Machine

/-- A code and its flags as a register value. -/
def word32 (r : Nat × BitVec 7) : Word × BitVec 7 := (BitVec.ofNat 32 r.1, r.2)

def execFadd (d a b : Reg) (rm : Rm) (s : State) : Out :=
  s.pure 1 (opFRR d a b fun x y => word32 (fpAdd .fp32 rm x.toNat y.toNat))
def execFsub (d a b : Reg) (rm : Rm) (s : State) : Out :=
  s.pure 1 (opFRR d a b fun x y => word32 (fpSub .fp32 rm x.toNat y.toNat))
def execFmul (d a b : Reg) (rm : Rm) (s : State) : Out :=
  s.pure 1 (opFRR d a b fun x y => word32 (fpMul .fp32 rm x.toNat y.toNat))
def execFdiv (d a b : Reg) (rm : Rm) (s : State) : Out :=
  s.pure 1 (opFRR d a b fun x y => word32 (fpDiv .fp32 rm x.toNat y.toNat))
def execFmin (d a b : Reg) (s : State) : Out :=
  s.pure 1 (opFRR d a b fun x y => word32 (fpPick .fp32 false x.toNat y.toNat))
def execFmax (d a b : Reg) (s : State) : Out :=
  s.pure 1 (opFRR d a b fun x y => word32 (fpPick .fp32 true x.toNat y.toNat))
def execFabs (d a : Reg) (s : State) : Out := s.pure 1 (opFR d a fun x => word32 (fpAbs .fp32 x.toNat))
def execFneg (d a : Reg) (s : State) : Out := s.pure 1 (opFR d a fun x => word32 (fpNeg .fp32 x.toNat))
def execFsqrt (d a : Reg) (rm : Rm) (s : State) : Out := s.pure 1 (opFR d a fun x => word32 (fpSqrt .fp32 rm x.toNat))
def execFfma (d a b : Reg) (rm : Rm) (s : State) : Out :=
  s.pure 1 (opFRRd d a b fun x y z => word32 (fpFma .fp32 rm false false x.toNat y.toNat z.toNat))
def execFfms (d a b : Reg) (rm : Rm) (s : State) : Out :=
  s.pure 1 (opFRRd d a b fun x y z => word32 (fpFma .fp32 rm false true x.toNat y.toNat z.toNat))
def execFfnma (d a b : Reg) (rm : Rm) (s : State) : Out :=
  s.pure 1 (opFRRd d a b fun x y z => word32 (fpFma .fp32 rm true false x.toNat y.toNat z.toNat))

/-! R341. -/

def execFrcp (d a : Reg) (s : State) : Out := s.pure 1 (opFR d a fun x => word32 (rcpCode x.toNat))
def execFrsq (d a : Reg) (s : State) : Out := s.pure 1 (opFR d a fun x => word32 (rsqCode x.toNat))
def execFexp2 (d a : Reg) (s : State) : Out := s.pure 1 (opFR d a fun x => word32 (exp2Code x.toNat))
def execFlog2 (d a : Reg) (s : State) : Out := s.pure 1 (opFR d a fun x => word32 (log2Code x.toNat))
def execFtanh (d a : Reg) (s : State) : Out := s.pure 1 (opFR d a fun x => word32 (tanhCode x.toNat))

/-! R342. -/

/-- The two lanes of a register, lane 0 lowest, each computed on its own. -/
def lanes2 (f : Nat → Nat → Nat × BitVec 7) (x y : Word) : Word × BitVec 7 :=
  let lo := f (x.toNat % 65536) (y.toNat % 65536)
  let hi := f (x.toNat / 65536) (y.toNat / 65536)
  (BitVec.ofNat 16 hi.1 ++ BitVec.ofNat 16 lo.1, lo.2 ||| hi.2)
def lanes3 (f : Nat → Nat → Nat → Nat × BitVec 7) (x y z : Word) : Word × BitVec 7 :=
  let lo := f (x.toNat % 65536) (y.toNat % 65536) (z.toNat % 65536)
  let hi := f (x.toNat / 65536) (y.toNat / 65536) (z.toNat / 65536)
  (BitVec.ofNat 16 hi.1 ++ BitVec.ofNat 16 lo.1, lo.2 ||| hi.2)

def execBadd (d a b : Reg) (rm : Rm) (s : State) : Out := s.pure 1 (opFRR d a b (lanes2 (fpAdd .bf16 rm)))
def execBsub (d a b : Reg) (rm : Rm) (s : State) : Out := s.pure 1 (opFRR d a b (lanes2 (fpSub .bf16 rm)))
def execBmul (d a b : Reg) (rm : Rm) (s : State) : Out := s.pure 1 (opFRR d a b (lanes2 (fpMul .bf16 rm)))
def execBfma (d a b : Reg) (rm : Rm) (s : State) : Out := s.pure 1 (opFRRd d a b (lanes3 (fpFma .bf16 rm false false)))
def execBmin (d a b : Reg) (s : State) : Out := s.pure 1 (opFRR d a b (lanes2 (fpPick .bf16 false)))
def execBmax (d a b : Reg) (s : State) : Out := s.pure 1 (opFRR d a b (lanes2 (fpPick .bf16 true)))
def execHadd (d a b : Reg) (rm : Rm) (s : State) : Out := s.pure 1 (opFRR d a b (lanes2 (fpAdd .fp16 rm)))
def execHsub (d a b : Reg) (rm : Rm) (s : State) : Out := s.pure 1 (opFRR d a b (lanes2 (fpSub .fp16 rm)))
def execHmul (d a b : Reg) (rm : Rm) (s : State) : Out := s.pure 1 (opFRR d a b (lanes2 (fpMul .fp16 rm)))
def execHfma (d a b : Reg) (rm : Rm) (s : State) : Out := s.pure 1 (opFRRd d a b (lanes3 (fpFma .fp16 rm false false)))
def execHmin (d a b : Reg) (s : State) : Out := s.pure 1 (opFRR d a b (lanes2 (fpPick .fp16 false)))
def execHmax (d a b : Reg) (s : State) : Out := s.pure 1 (opFRR d a b (lanes2 (fpPick .fp16 true)))

end Sys2Proof.Machine
end

