-- ==== Sys2Proof/Machine/IntArith.lean ====
section
/-!
DEFINITION. Integer arithmetic, logic, shifts, bit fields, pairs, moves and immediate forms (R332 to R338).
-/

namespace Sys2Proof.Machine

/-- R332 ADD. -/
def execAdd (d a b : Reg) (s : State) : Out := s.pure 1 (opRRR d a b fun x y => x + y)
/-- R332 SUB. -/
def execSub (d a b : Reg) (s : State) : Out := s.pure 1 (opRRR d a b fun x y => x - y)
/-- R332 MUL. -/
def execMul (d a b : Reg) (s : State) : Out := s.pure 1 (opRRR d a b fun x y => x * y)
/-- R332 MULHI: bits [63:32] of the signed product. -/
def execMulhi (d a b : Reg) (s : State) : Out :=
  s.pure 1 (opRRR d a b fun x y => (x.signExtend 64 * y.signExtend 64).extractLsb' 32 32)
/-- R332 MULHIU: bits [63:32] of the unsigned product. -/
def execMulhiu (d a b : Reg) (s : State) : Out :=
  s.pure 1 (opRRR d a b fun x y => (x.setWidth 64 * y.setWidth 64).extractLsb' 32 32)
/-- R332 div: 0xFFFF_FFFF for a zero divisor, otherwise the quotient toward zero, wrapped. -/
def divS (x y : Word) : Word := if y = 0#32 then 0xFFFF_FFFF#32 else BitVec.ofInt 32 (x.toInt.tdiv y.toInt)
/-- R332 rem: x for a zero divisor, otherwise the remainder with the sign of the dividend. -/
def remS (x y : Word) : Word := if y = 0#32 then x else BitVec.ofInt 32 (x.toInt - y.toInt * x.toInt.tdiv y.toInt)
/-- R332 DIV. -/
def execDiv (d a b : Reg) (s : State) : Out := s.pure 1 (opRRR d a b divS)
/-- R332 DIVU. -/
def execDivu (d a b : Reg) (s : State) : Out :=
  s.pure 1 (opRRR d a b fun x y => if y = 0#32 then 0xFFFF_FFFF#32 else BitVec.ofNat 32 (x.toNat / y.toNat))
/-- R332 REM. -/
def execRem (d a b : Reg) (s : State) : Out := s.pure 1 (opRRR d a b remS)
/-- R332 REMU. -/
def execRemu (d a b : Reg) (s : State) : Out :=
  s.pure 1 (opRRR d a b fun x y => if y = 0#32 then x else BitVec.ofNat 32 (x.toNat % y.toNat))

def minS (x y : Word) : Word := if x.toInt ≤ y.toInt then x else y
def maxS (x y : Word) : Word := if x.toInt ≤ y.toInt then y else x
def minU (x y : Word) : Word := if x.toNat ≤ y.toNat then x else y
def maxU (x y : Word) : Word := if x.toNat ≤ y.toNat then y else x
/-- R332 MIN. -/
def execMin (d a b : Reg) (s : State) : Out := s.pure 1 (opRRR d a b minS)
/-- R332 MAX. -/
def execMax (d a b : Reg) (s : State) : Out := s.pure 1 (opRRR d a b maxS)
/-- R332 MINU. -/
def execMinu (d a b : Reg) (s : State) : Out := s.pure 1 (opRRR d a b minU)
/-- R332 MAXU. -/
def execMaxu (d a b : Reg) (s : State) : Out := s.pure 1 (opRRR d a b maxU)
/-- R332 ABS. -/
def execAbs (d a : Reg) (s : State) : Out := s.pure 1 (opRR d a fun x => BitVec.ofNat 32 x.toInt.natAbs)
/-- R332 NEG. -/
def execNeg (d a : Reg) (s : State) : Out := s.pure 1 (opRR d a fun x => -x)
/-- R333 MAD. -/
def execMad (d a b : Reg) (s : State) : Out := s.pure 1 (opRRRd d a b fun x y z => x * y + z)

/-! R334. -/

def execAnd (d a b : Reg) (s : State) : Out := s.pure 1 (opRRR d a b fun x y => x &&& y)
def execOr (d a b : Reg) (s : State) : Out := s.pure 1 (opRRR d a b fun x y => x ||| y)
def execXor (d a b : Reg) (s : State) : Out := s.pure 1 (opRRR d a b fun x y => x ^^^ y)
def execAndn (d a b : Reg) (s : State) : Out := s.pure 1 (opRRR d a b fun x y => x &&& (y ^^^ 0xFFFF_FFFF#32))
def execNot (d a : Reg) (s : State) : Out := s.pure 1 (opRR d a fun x => x ^^^ 0xFFFF_FFFF#32)
/-- R334 shl: 0 for a count of 32 or more. -/
def shl32 (x y : Word) : Word := if 32 ≤ y.toNat then 0#32 else x <<< y.toNat
/-- R334 shr: 0 for a count of 32 or more. -/
def shr32 (x y : Word) : Word := if 32 ≤ y.toNat then 0#32 else x >>> y.toNat
/-- R334 sar: the count limited to 31. -/
def sar32 (x y : Word) : Word := x.sshiftRight (min y.toNat 31)
/-- R334 rotl. -/
def rotl32 (x : Word) (k : Nat) : Word := x.rotateLeft (k % 32)
def execShl (d a b : Reg) (s : State) : Out := s.pure 1 (opRRR d a b shl32)
def execShr (d a b : Reg) (s : State) : Out := s.pure 1 (opRRR d a b shr32)
def execSar (d a b : Reg) (s : State) : Out := s.pure 1 (opRRR d a b sar32)
def execRotl (d a b : Reg) (s : State) : Out := s.pure 1 (opRRR d a b fun x y => rotl32 x y.toNat)
/-- R334 rotr: rotl by (32 − y mod 32) mod 32. -/
def execRotr (d a b : Reg) (s : State) : Out :=
  s.pure 1 (opRRR d a b fun x y => rotl32 x ((32 - y.toNat % 32) % 32))
/-- R334 clz: leading zero bits, 32 for zero. -/
def clz32 (x : Word) : Word := if x = 0#32 then 32#32 else BitVec.ofNat 32 (31 - x.toNat.log2)
/-- R334 popc. -/
def popc32 (x : Word) : Word := BitVec.ofNat 32 ((List.range 32).filter x.getLsbD).length
/-- R334 brev: bit i of the result is bit 31 − i. -/
def brev32 (x : Word) : Word := x.reverse
def execClz (d a : Reg) (s : State) : Out := s.pure 1 (opRR d a clz32)
def execPopc (d a : Reg) (s : State) : Out := s.pure 1 (opRR d a popc32)
def execBrev (d a : Reg) (s : State) : Out := s.pure 1 (opRR d a brev32)

/-! R335. -/

/-- The low `n` bits set. -/
def lowMask (n : Nat) : Word := BitVec.ofNat 32 (2 ^ n - 1)
/-- x[POS + LEN − 1 : POS]. -/
def fieldOf (x : Word) (pos len : Nat) : Word := (x >>> pos) &&& lowMask len
def execBfe (d a : Reg) (pos : BitVec 6) (lenm1 : BitVec 5) (s : State) : Out :=
  s.pure 1 (opRR d a fun x => fieldOf x pos.toNat (lenm1.toNat + 1))
/-- The field sign-extended to 32 bits. -/
def signedField (x : Word) (pos len : Nat) : Word := (fieldOf x pos len <<< (32 - len)).sshiftRight (32 - len)
def execBfeS (d a : Reg) (pos : BitVec 6) (lenm1 : BitVec 5) (s : State) : Out :=
  s.pure 1 (opRR d a fun x => signedField x pos.toNat (lenm1.toNat + 1))
/-- Bits [POS + LEN − 1 : POS] of z become the low bits of x. -/
def insertField (x z : Word) (pos len : Nat) : Word :=
  (z &&& ~~~(lowMask len <<< pos)) ||| ((x &&& lowMask len) <<< pos)
def execBfi (d a : Reg) (pos : BitVec 6) (lenm1 : BitVec 5) (s : State) : Out :=
  s.pure 1 (opRRd d a fun x z => insertField x z pos.toNat (lenm1.toNat + 1))

/-! R336. -/

def execDadd (d a b : Reg) (s : State) : Out := s.pure 1 (opDDD d a b fun x y => x + y)
def execDsub (d a b : Reg) (s : State) : Out := s.pure 1 (opDDD d a b fun x y => x - y)
def execDmul (d a b : Reg) (s : State) : Out := s.pure 1 (opDDD d a b fun x y => x * y)
def execDshl (d a b : Reg) (s : State) : Out :=
  s.pure 1 (opDDR d a b fun x y => if 64 ≤ y.toNat then 0#64 else x <<< y.toNat)
def execDshr (d a b : Reg) (s : State) : Out :=
  s.pure 1 (opDDR d a b fun x y => if 64 ≤ y.toNat then 0#64 else x >>> y.toNat)
def execDsar (d a b : Reg) (s : State) : Out := s.pure 1 (opDDR d a b fun x y => x.sshiftRight (min y.toNat 63))
def execMulw (d a b : Reg) (s : State) : Out := s.pure 1 (opDRR d a b fun x y => x.signExtend 64 * y.signExtend 64)
def execMulwu (d a b : Reg) (s : State) : Out := s.pure 1 (opDRR d a b fun x y => x.setWidth 64 * y.setWidth 64)
def dminS (x y : Dword) : Dword := if x.toInt ≤ y.toInt then x else y
def dmaxS (x y : Dword) : Dword := if x.toInt ≤ y.toInt then y else x
def dminU (x y : Dword) : Dword := if x.toNat ≤ y.toNat then x else y
def dmaxU (x y : Dword) : Dword := if x.toNat ≤ y.toNat then y else x
def execDmin (d a b : Reg) (s : State) : Out := s.pure 1 (opDDD d a b dminS)
def execDmax (d a b : Reg) (s : State) : Out := s.pure 1 (opDDD d a b dmaxS)
def execDminu (d a b : Reg) (s : State) : Out := s.pure 1 (opDDD d a b dminU)
def execDmaxu (d a b : Reg) (s : State) : Out := s.pure 1 (opDDD d a b dmaxU)

/-! R337. -/

def execMov (d a : Reg) (s : State) : Out := s.pure 1 (opRR d a fun x => x)
/-- G(d) = G(x). -/
def opMovx (d a : Reg) (t : Thread) : Except Trap Thread :=
  match t.get a.toNat with
  | .error e => .error e
  | .ok x =>
    match t.get x.toNat with
    | .ok v => (t.note [a.toNat, x.toNat]).put d.toNat v
    | .error e => .error e
def execMovx (d a : Reg) (s : State) : Out := s.pure 1 (opMovx d a)
/-- G(z) = x: z is the value of gd. A register with a pending token keeps its value (R201); one in the
slack sets SLACK all the same (R210). -/
def opMovxw (d a : Reg) (t : Thread) : Except Trap Thread :=
  match t.get a.toNat, t.get d.toNat with
  | .ok x, .ok z =>
    if t.pend.contains z.toNat then .ok (t.note [a.toNat, d.toNat, z.toNat]) else (t.note [a.toNat, d.toNat]).put z.toNat x
  | .error e, _ => .error e
  | .ok _, .error e => .error e
def execMovxw (d a : Reg) (s : State) : Out := s.pure 1 (opMovxw d a)
def execDmov (d a : Reg) (s : State) : Out := s.pure 1 (opDD d a fun x => x)

/-! R338. -/

def execAddi (d a : Reg) (imm : BitVec 14) (hi : Option (BitVec 18)) (s : State) : Out :=
  s.pure (sizeOf hi) (opRR d a fun x => x + immOf imm hi)
def execAndi (d a : Reg) (imm : BitVec 14) (hi : Option (BitVec 18)) (s : State) : Out :=
  s.pure (sizeOf hi) (opRR d a fun x => x &&& immOf imm hi)
def execOri (d a : Reg) (imm : BitVec 14) (hi : Option (BitVec 18)) (s : State) : Out :=
  s.pure (sizeOf hi) (opRR d a fun x => x ||| immOf imm hi)
def execXori (d a : Reg) (imm : BitVec 14) (hi : Option (BitVec 18)) (s : State) : Out :=
  s.pure (sizeOf hi) (opRR d a fun x => x ^^^ immOf imm hi)
/-- R312: a shift with an IMM hint takes two words. -/
def hintedSize (hinted : Bool) : Nat := if hinted then 2 else 1
def execShli (d a : Reg) (n : BitVec 5) (hinted : Bool) (s : State) : Out :=
  s.pure (hintedSize hinted) (opRR d a fun x => x <<< n.toNat)
def execShri (d a : Reg) (n : BitVec 5) (hinted : Bool) (s : State) : Out :=
  s.pure (hintedSize hinted) (opRR d a fun x => x >>> n.toNat)
def execSari (d a : Reg) (n : BitVec 5) (hinted : Bool) (s : State) : Out :=
  s.pure (hintedSize hinted) (opRR d a fun x => x.sshiftRight n.toNat)
def execMovi (d : Reg) (imm : BitVec 14) (hi : Option (BitVec 18)) (s : State) : Out :=
  s.pure (sizeOf hi) (opRI d (immOf imm hi))
def execMuli (d a : Reg) (imm : BitVec 14) (hi : Option (BitVec 18)) (s : State) : Out :=
  s.pure (sizeOf hi) (opRR d a fun x => x * immOf imm hi)

end Sys2Proof.Machine
end

