-- ==== Sys2Proof/Machine/Predicates.lean ====
section
/-!
DEFINITION. Compares, predicates and select (R349 to R351).
-/

namespace Sys2Proof.Machine

/-- R349: a comparison of two integers. -/
def cmpInt (c : Cmp) (u w : Int) : Bool :=
  match c with
  | .eq => u == w
  | .ne => u != w
  | .lt => decide (u < w)
  | .le => decide (u ≤ w)
  | .gt => decide (w < u)
  | .ge => decide (w ≤ u)
/-- R349: a comparison of two FP32 values; with a NaN only NE holds. -/
def cmpFp (c : Cmp) (u w : XVal) : Bool :=
  if u.isNan || w.isNan then c == .ne
  else
    match c with
    | .eq => u.eqv w
    | .ne => !u.eqv w
    | .lt => u.lt w
    | .le => !w.lt u
    | .gt => w.lt u
    | .ge => !u.lt w
def cmpRes (c : Cmp) (ty : CmpTy) (x y : Word) : Bool :=
  match ty with
  | .signed => cmpInt c x.toInt y.toInt
  | .unsigned => cmpInt c x.toNat y.toNat
  | .fp32 => cmpFp c (valueOf .fp32 x.toNat) (valueOf .fp32 y.toNat)
/-- R349: COMB. -/
def combine (k : Comb) (old res : Bool) : Bool :=
  match k with
  | .set => res
  | .and => old && res
  | .or => old || res
  | .xor => old != res

/-- R349. -/
def opCmpp (pd pc : PredReg) (a b : Reg) (cmp : Cmp) (ty : CmpTy) (comb : Comb) (t : Thread) : Except Trap Thread :=
  match t.get a.toNat, t.get b.toNat with
  | .ok x, .ok y =>
    let t' := t.note [a.toNat, b.toNat]
    .ok (if t.pred pc then t'.setPred pd (combine comb (t.pred pd) (cmpRes cmp ty x y)) else t')
  | .error e, _ => .error e
  | .ok _, .error e => .error e
def execCmpp (pd pc : PredReg) (a b : Reg) (cmp : Cmp) (ty : CmpTy) (comb : Comb) (s : State) : Out :=
  s.pure 1 (opCmpp pd pc a b cmp ty comb)

/-! R350. -/

def execPand (d a b : PredReg) (s : State) : Out := s.pure 1 fun t => .ok (t.setPred d (t.pred a && t.pred b))
def execPor (d a b : PredReg) (s : State) : Out := s.pure 1 fun t => .ok (t.setPred d (t.pred a || t.pred b))
def execPxor (d a b : PredReg) (s : State) : Out := s.pure 1 fun t => .ok (t.setPred d (t.pred a != t.pred b))
def execPnot (d a : PredReg) (s : State) : Out := s.pure 1 fun t => .ok (t.setPred d (!t.pred a))
/-- [6:0] p0 to p6, [7] 1. -/
def execPrd (d : Reg) (s : State) : Out := s.pure 1 fun t => t.put d.toNat (0x80#32 ||| t.preds.setWidth 32)
def opPwr (a : Reg) (t : Thread) : Except Trap Thread :=
  match t.get a.toNat with
  | .ok x => .ok { t.note [a.toNat] with preds := x.extractLsb' 0 7 }
  | .error e => .error e
def execPwr (a : Reg) (s : State) : Out := s.pure 1 (opPwr a)

/-! R351. -/

def execSel (d a b : Reg) (neg : Bool) (p : PredReg) (s : State) : Out :=
  s.pure 1 fun t => opRRR d a b (fun x y => if t.pred p != neg then x else y) t
def execDsel (d a b : Reg) (neg : Bool) (p : PredReg) (s : State) : Out :=
  s.pure 1 fun t => opDDD d a b (fun x y => if t.pred p != neg then x else y) t

end Sys2Proof.Machine
end

