-- ==== Sys2Proof/Machine/Dispatch.lean ====
section
/-!
DEFINITION. The dispatch of an instruction or event to its meaning: one arm per row of the opcode table.
-/

namespace Sys2Proof.Machine

def exec (i : Instr) (s : State) : Host.Outcome State Fault Refusal :=
  match i with
  | .dieReset die cause => Sys2Proof.Machine.execDieReset die cause s
  | .thermalSamplePeriod die temps => Sys2Proof.Machine.execThermalSamplePeriod die temps s
  | .droopAlarm die core => Sys2Proof.Machine.execDroopAlarm die core s
  | .droopResponseEnd die cluster => Sys2Proof.Machine.execDroopResponseEnd die cluster s
  | .thermstatWrite die core value => Sys2Proof.Machine.execThermstatWrite die core value s
  | .companionWrite port pa data => Sys2Proof.Machine.execCompanionWrite port pa data s
  | .companionRead port pa => Sys2Proof.Machine.execCompanionRead port pa s
  | .messageRoute die idx => Sys2Proof.Machine.execMessageRoute die idx s
  | .dataFlit die unit flit => Sys2Proof.Machine.execDataFlit die unit flit s
  | .idleFlit die unit flit => Sys2Proof.Machine.execIdleFlit die unit flit s
  | .registrationFlit die unit flit => Sys2Proof.Machine.execRegistrationFlit die unit flit s
  | .retireFlit die unit flit => Sys2Proof.Machine.execRetireFlit die unit flit s
  | .keySwitch die unit => Sys2Proof.Machine.execKeySwitch die unit s
  | .retireResend die unit => Sys2Proof.Machine.execRetireResend die unit s
  | .keyExpiring die unit => Sys2Proof.Machine.execKeyExpiring die unit s
  | .keyExhausted die unit => Sys2Proof.Machine.execKeyExhausted die unit s
  | .authFailureLimit die unit => Sys2Proof.Machine.execAuthFailureLimit die unit s
  | .linkTrained die unit => Sys2Proof.Machine.execLinkTrained die unit s
  | .budgetPeriod die => Sys2Proof.Machine.execBudgetPeriod die s
  | .join die idx => Sys2Proof.Machine.execJoin die idx s
  | .joinAcknowledgement die idx => Sys2Proof.Machine.execJoinAcknowledgement die idx s
  | .joinResend die peer => Sys2Proof.Machine.execJoinResend die peer s
  | .raddUpdate die idx => Sys2Proof.Machine.execRaddUpdate die idx s
  | .rminUpdate die idx => Sys2Proof.Machine.execRminUpdate die idx s
  | .rmaxUpdate die idx => Sys2Proof.Machine.execRmaxUpdate die idx s
  | .rorUpdate die idx => Sys2Proof.Machine.execRorUpdate die idx s
  | .rwonceUpdate die idx => Sys2Proof.Machine.execRwonceUpdate die idx s
  | .rarriveUpdate die idx => Sys2Proof.Machine.execRarriveUpdate die idx s
  | .rcloseUpdate die idx => Sys2Proof.Machine.execRcloseUpdate die idx s
  | .rreadRequest die idx => Sys2Proof.Machine.execRreadRequest die idx s
  | .readReply die idx => Sys2Proof.Machine.execReadReply die idx s
  | .acknowledgement die idx => Sys2Proof.Machine.execAcknowledgement die idx s
  | .retransmissionTimer die ctx seq => Sys2Proof.Machine.execRetransmissionTimer die ctx seq s
  | .heldMessageTimeout die idx => Sys2Proof.Machine.execHeldMessageTimeout die idx s
  | .windowExpiry die src ctx => Sys2Proof.Machine.execWindowExpiry die src ctx s
  | .invokeMessage die idx => Sys2Proof.Machine.execInvokeMessage die idx s
  | .invokehMessage die idx => Sys2Proof.Machine.execInvokehMessage die idx s
  | .hgetRequest die idx => Sys2Proof.Machine.execHgetRequest die idx s
  | .hfreeMessage die idx => Sys2Proof.Machine.execHfreeMessage die idx s
  | .recordMove die idx => Sys2Proof.Machine.execRecordMove die idx s
  | .resultReply die idx => Sys2Proof.Machine.execResultReply die idx s
  | .locationUpdate die idx => Sys2Proof.Machine.execLocationUpdate die idx s
  | .workgroupEnd uid => Sys2Proof.Machine.execWorkgroupEnd uid s
  | .pageServiceTimeout request => Sys2Proof.Machine.execPageServiceTimeout request s
  | .walkinfoRead uid tid => Sys2Proof.Machine.execWalkinfoRead uid tid s
  | .walkerRestart die => Sys2Proof.Machine.execWalkerRestart die s
  | .uncorrectableError die site => Sys2Proof.Machine.execUncorrectableError die site s
  | .placementPass die => Sys2Proof.Machine.execPlacementPass die s
  | .candidateAging die cand => Sys2Proof.Machine.execCandidateAging die cand s
  | .workgroupSave uid => Sys2Proof.Machine.execWorkgroupSave uid s
  | .wholeContextSwitch die cluster => Sys2Proof.Machine.execWholeContextSwitch die cluster s
  | .eviction die core => Sys2Proof.Machine.execEviction die core s
  | .selectorDecision die core channel => Sys2Proof.Machine.execSelectorDecision die core channel s
  | .tokenCompletion cmd pick => Sys2Proof.Machine.execTokenCompletion cmd pick s
  | .deadlineExpiry uid tid => Sys2Proof.Machine.execDeadlineExpiry uid tid s
  | .copyGranule cmd pick => Sys2Proof.Machine.execCopyGranule cmd pick s
  | .mtxAccept die core => Sys2Proof.Machine.execMtxAccept die core s
  | .statusWrite uid tid value => Sys2Proof.Machine.execStatusWrite uid tid value s
  | .errqWrite die ctx value => Sys2Proof.Machine.execErrqWrite die ctx value s
  | .add d a b => Sys2Proof.Machine.execAdd d a b s
  | .sub d a b => Sys2Proof.Machine.execSub d a b s
  | .mul d a b => Sys2Proof.Machine.execMul d a b s
  | .mulhi d a b => Sys2Proof.Machine.execMulhi d a b s
  | .mulhiu d a b => Sys2Proof.Machine.execMulhiu d a b s
  | .div d a b => Sys2Proof.Machine.execDiv d a b s
  | .divu d a b => Sys2Proof.Machine.execDivu d a b s
  | .rem d a b => Sys2Proof.Machine.execRem d a b s
  | .remu d a b => Sys2Proof.Machine.execRemu d a b s
  | .min d a b => Sys2Proof.Machine.execMin d a b s
  | .max d a b => Sys2Proof.Machine.execMax d a b s
  | .minu d a b => Sys2Proof.Machine.execMinu d a b s
  | .maxu d a b => Sys2Proof.Machine.execMaxu d a b s
  | .abs d a => Sys2Proof.Machine.execAbs d a s
  | .neg d a => Sys2Proof.Machine.execNeg d a s
  | .and_ d a b => Sys2Proof.Machine.execAnd d a b s
  | .or_ d a b => Sys2Proof.Machine.execOr d a b s
  | .xor d a b => Sys2Proof.Machine.execXor d a b s
  | .andn d a b => Sys2Proof.Machine.execAndn d a b s
  | .not_ d a => Sys2Proof.Machine.execNot d a s
  | .shl d a b => Sys2Proof.Machine.execShl d a b s
  | .shr d a b => Sys2Proof.Machine.execShr d a b s
  | .sar d a b => Sys2Proof.Machine.execSar d a b s
  | .rotl d a b => Sys2Proof.Machine.execRotl d a b s
  | .rotr d a b => Sys2Proof.Machine.execRotr d a b s
  | .clz d a => Sys2Proof.Machine.execClz d a s
  | .popc d a => Sys2Proof.Machine.execPopc d a s
  | .brev d a => Sys2Proof.Machine.execBrev d a s
  | .mad d a b => Sys2Proof.Machine.execMad d a b s
  | .bfe d a pos lenm1 => Sys2Proof.Machine.execBfe d a pos lenm1 s
  | .bfeS d a pos lenm1 => Sys2Proof.Machine.execBfeS d a pos lenm1 s
  | .bfi d a pos lenm1 => Sys2Proof.Machine.execBfi d a pos lenm1 s
  | .dadd d a b => Sys2Proof.Machine.execDadd d a b s
  | .dsub d a b => Sys2Proof.Machine.execDsub d a b s
  | .dmul d a b => Sys2Proof.Machine.execDmul d a b s
  | .dshl d a b => Sys2Proof.Machine.execDshl d a b s
  | .dshr d a b => Sys2Proof.Machine.execDshr d a b s
  | .dsar d a b => Sys2Proof.Machine.execDsar d a b s
  | .mulw d a b => Sys2Proof.Machine.execMulw d a b s
  | .mulwu d a b => Sys2Proof.Machine.execMulwu d a b s
  | .dmin d a b => Sys2Proof.Machine.execDmin d a b s
  | .dmax d a b => Sys2Proof.Machine.execDmax d a b s
  | .dminu d a b => Sys2Proof.Machine.execDminu d a b s
  | .dmaxu d a b => Sys2Proof.Machine.execDmaxu d a b s
  | .mov d a => Sys2Proof.Machine.execMov d a s
  | .movx d a => Sys2Proof.Machine.execMovx d a s
  | .movxw d a => Sys2Proof.Machine.execMovxw d a s
  | .dmov d a => Sys2Proof.Machine.execDmov d a s
  | .addi d a imm hi => Sys2Proof.Machine.execAddi d a imm hi s
  | .andi d a imm hi => Sys2Proof.Machine.execAndi d a imm hi s
  | .ori d a imm hi => Sys2Proof.Machine.execOri d a imm hi s
  | .xori d a imm hi => Sys2Proof.Machine.execXori d a imm hi s
  | .shli d a n hinted => Sys2Proof.Machine.execShli d a n hinted s
  | .shri d a n hinted => Sys2Proof.Machine.execShri d a n hinted s
  | .sari d a n hinted => Sys2Proof.Machine.execSari d a n hinted s
  | .movi d imm hi => Sys2Proof.Machine.execMovi d imm hi s
  | .muli d a imm hi => Sys2Proof.Machine.execMuli d a imm hi s
  | .fadd d a b rm => Sys2Proof.Machine.execFadd d a b rm s
  | .fsub d a b rm => Sys2Proof.Machine.execFsub d a b rm s
  | .fmul d a b rm => Sys2Proof.Machine.execFmul d a b rm s
  | .fdiv d a b rm => Sys2Proof.Machine.execFdiv d a b rm s
  | .fmin d a b => Sys2Proof.Machine.execFmin d a b s
  | .fmax d a b => Sys2Proof.Machine.execFmax d a b s
  | .fabs d a => Sys2Proof.Machine.execFabs d a s
  | .fneg d a => Sys2Proof.Machine.execFneg d a s
  | .fsqrt d a rm => Sys2Proof.Machine.execFsqrt d a rm s
  | .ffma d a b rm => Sys2Proof.Machine.execFfma d a b rm s
  | .ffms d a b rm => Sys2Proof.Machine.execFfms d a b rm s
  | .ffnma d a b rm => Sys2Proof.Machine.execFfnma d a b rm s
  | .frcp d a => Sys2Proof.Machine.execFrcp d a s
  | .frsq d a => Sys2Proof.Machine.execFrsq d a s
  | .fexp2 d a => Sys2Proof.Machine.execFexp2 d a s
  | .flog2 d a => Sys2Proof.Machine.execFlog2 d a s
  | .ftanh d a => Sys2Proof.Machine.execFtanh d a s
  | .badd d a b rm => Sys2Proof.Machine.execBadd d a b rm s
  | .bsub d a b rm => Sys2Proof.Machine.execBsub d a b rm s
  | .bmul d a b rm => Sys2Proof.Machine.execBmul d a b rm s
  | .bfma d a b rm => Sys2Proof.Machine.execBfma d a b rm s
  | .bmin d a b => Sys2Proof.Machine.execBmin d a b s
  | .bmax d a b => Sys2Proof.Machine.execBmax d a b s
  | .hadd d a b rm => Sys2Proof.Machine.execHadd d a b rm s
  | .hsub d a b rm => Sys2Proof.Machine.execHsub d a b rm s
  | .hmul d a b rm => Sys2Proof.Machine.execHmul d a b rm s
  | .hfma d a b rm => Sys2Proof.Machine.execHfma d a b rm s
  | .hmin d a b => Sys2Proof.Machine.execHmin d a b s
  | .hmax d a b => Sys2Proof.Machine.execHmax d a b s
  | .f2i d a rm => Sys2Proof.Machine.execF2i d a rm s
  | .f2u d a rm => Sys2Proof.Machine.execF2u d a rm s
  | .i2f d a rm => Sys2Proof.Machine.execI2f d a rm s
  | .u2f d a rm => Sys2Proof.Machine.execU2f d a rm s
  | .frint d a rm => Sys2Proof.Machine.execFrint d a rm s
  | .f2bf d a rm => Sys2Proof.Machine.execF2bf d a rm s
  | .f2h d a rm => Sys2Proof.Machine.execF2h d a rm s
  | .bf2f d a => Sys2Proof.Machine.execBf2f d a s
  | .h2f d a => Sys2Proof.Machine.execH2f d a s
  | .cvtn d a b fmt rm sat stream => Sys2Proof.Machine.execCvtn d a b fmt rm sat stream s
  | .cvtnp d a b fmt rm sat stream => Sys2Proof.Machine.execCvtnp d a b fmt rm sat stream s
  | .deq d a b fmt scale => Sys2Proof.Machine.execDeq d a b fmt scale s
  | .cmpp pd pc a b cmp ty comb => Sys2Proof.Machine.execCmpp pd pc a b cmp ty comb s
  | .pand d a b => Sys2Proof.Machine.execPand d a b s
  | .por d a b => Sys2Proof.Machine.execPor d a b s
  | .pxor d a b => Sys2Proof.Machine.execPxor d a b s
  | .pnot d a => Sys2Proof.Machine.execPnot d a s
  | .prd d => Sys2Proof.Machine.execPrd d s
  | .pwr a => Sys2Proof.Machine.execPwr a s
  | .sel d a b neg p => Sys2Proof.Machine.execSel d a b neg p s
  | .dsel d a b neg p => Sys2Proof.Machine.execDsel d a b neg p s
  | .peek d a b immediate mode => Sys2Proof.Machine.execPeek d a b immediate mode s
  | .pollAll d neg p => Sys2Proof.Machine.execPollAll d neg p s
  | .pollSome d neg p => Sys2Proof.Machine.execPollSome d neg p s
  | .pollSame d neg p => Sys2Proof.Machine.execPollSame d neg p s
  | .pmask d neg p => Sys2Proof.Machine.execPmask d neg p s
  | .fold d a op => Sys2Proof.Machine.execFold d a op s
  | .prefixOp d a excl op => Sys2Proof.Machine.execPrefixOp d a excl op s
  | .ld d a off size ord hint => Sys2Proof.Machine.execLd d a off size ord hint s
  | .st d a off size ord hint => Sys2Proof.Machine.execSt d a off size ord hint s
  | .atom d a b op ord scope => Sys2Proof.Machine.execAtom d a b op ord scope s
  | .cas d a b ord scope => Sys2Proof.Machine.execCas d a b ord scope s
  | .dcas d a b ord scope => Sys2Proof.Machine.execDcas d a b ord scope s
  | .barinit a b => Sys2Proof.Machine.execBarinit a b s
  | .bararr a b => Sys2Proof.Machine.execBararr a b s
  | .barwait pd d a b => Sys2Proof.Machine.execBarwait pd d a b s
  | .bartest pd d a => Sys2Proof.Machine.execBartest pd d a s
  | .ldk d a off size => Sys2Proof.Machine.execLdk d a off size s
  | .stk d a off size => Sys2Proof.Machine.execStk d a off size s
  | .copy d a b tk dir bar arr => Sys2Proof.Machine.execCopy d a b tk dir bar arr s
  | .copyt d a b tk shape bar hint => Sys2Proof.Machine.execCopyt d a b tk shape bar hint s
  | .gather d a b esz => Sys2Proof.Machine.execGather d a b esz s
  | .scatter d a b esz => Sys2Proof.Machine.execScatter d a b esz s
  | .prefetch a b => Sys2Proof.Machine.execPrefetch a b s
  | .pagein d a b => Sys2Proof.Machine.execPagein d a b s
  | .atomg d a b op ord scope => Sys2Proof.Machine.execAtomg d a b op ord scope s
  | .casg d a b ord scope => Sys2Proof.Machine.execCasg d a b ord scope s
  | .dcasg d a b ord scope => Sys2Proof.Machine.execDcasg d a b ord scope s
  | .fence before after scope => Sys2Proof.Machine.execFence before after scope s
  | .radd d a b tk ty hint => Sys2Proof.Machine.execRadd d a b tk ty hint s
  | .rmin d a b tk ty hint => Sys2Proof.Machine.execRmin d a b tk ty hint s
  | .rmax d a b tk ty hint => Sys2Proof.Machine.execRmax d a b tk ty hint s
  | .ror d a b tk hint => Sys2Proof.Machine.execRor d a b tk hint s
  | .rwonce d a b tk hint => Sys2Proof.Machine.execRwonce d a b tk hint s
  | .rarrive d a b tk hint => Sys2Proof.Machine.execRarrive d a b tk hint s
  | .rclose d a tk hint => Sys2Proof.Machine.execRclose d a tk hint s
  | .rread d a tk => Sys2Proof.Machine.execRread d a tk s
  | .onceclr d a b tk => Sys2Proof.Machine.execOnceclr d a b tk s
  | .xcvt d a f64 idx => Sys2Proof.Machine.execXcvt d a f64 idx s
  | .arm a b => Sys2Proof.Machine.execArm a b s
  | .waitcnt a b => Sys2Proof.Machine.execWaitcnt a b s
  | .waitline pd d a b => Sys2Proof.Machine.execWaitline pd d a b s
  | .invokeDie d a b hint => Sys2Proof.Machine.execInvokeDie d a b hint s
  | .invokeAddr d a b hint => Sys2Proof.Machine.execInvokeAddr d a b hint s
  | .invokeh d a b hint => Sys2Proof.Machine.execInvokeh d a b hint s
  | .reth a => Sys2Proof.Machine.execReth a s
  | .hget d a b => Sys2Proof.Machine.execHget d a b s
  | .hstat pd d a => Sys2Proof.Machine.execHstat pd d a s
  | .hfree a => Sys2Proof.Machine.execHfree a s
  | .tdset a b => Sys2Proof.Machine.execTdset a b s
  | .tdget a b => Sys2Proof.Machine.execTdget a b s
  | .txp d a tk shape => Sys2Proof.Machine.execTxp d a tk shape s
  | .mma d a tk shape sparse hint => Sys2Proof.Machine.execMma d a tk shape sparse hint s
  | .mmaz d a tk shape sparse hint => Sys2Proof.Machine.execMmaz d a tk shape sparse hint s
  | .drain d a tk rm sat stream => Sys2Proof.Machine.execDrain d a tk rm sat stream s
  | .tquant d a tk rm sat stream => Sys2Proof.Machine.execTquant d a tk rm sat stream s
  | .patld d b tk c => Sys2Proof.Machine.execPatld d b tk c s
  | .patgen d a b tk t c => Sys2Proof.Machine.execPatgen d a b tk t c s
  | .patx d a b tk t c => Sys2Proof.Machine.execPatx d a b tk t c s
  | .patpart d a b tk t c => Sys2Proof.Machine.execPatpart d a b tk t c s
  | .patptr d a b tk t el c => Sys2Proof.Machine.execPatptr d a b tk t el c s
  | .patsave d a tk c => Sys2Proof.Machine.execPatsave d a tk c s
  | .patrest d a tk c => Sys2Proof.Machine.execPatrest d a tk c s
  | .launch d a b => Sys2Proof.Machine.execLaunch d a b s
  | .grow n => Sys2Proof.Machine.execGrow n s
  | .shrink n => Sys2Proof.Machine.execShrink n s
  | .trap imm => Sys2Proof.Machine.execTrap imm s
  | .srd d reg => Sys2Proof.Machine.execSrd d reg s
  | .swr d reg => Sys2Proof.Machine.execSwr d reg s
  | .tlbinv a b => Sys2Proof.Machine.execTlbinv a b s
  | .tlbw a b => Sys2Proof.Machine.execTlbw a b s
  | .ptld d a => Sys2Proof.Machine.execPtld d a s
  | .bra off => Sys2Proof.Machine.execBra off s
  | .brcTrue p off => Sys2Proof.Machine.execBrcTrue p off s
  | .brcFalse p off => Sys2Proof.Machine.execBrcFalse p off s
  | .call n off => Sys2Proof.Machine.execCall n off s
  | .brx a => Sys2Proof.Machine.execBrx a s
  | .callx a n => Sys2Proof.Machine.execCallx a n s
  | .flitTransmission die unit => Sys2Proof.Machine.execFlitTransmission die unit s
  | .penwynPortDown port => Sys2Proof.Machine.execPenwynPortDown port s
  | .coldReset => Sys2Proof.Machine.execColdReset s
  | .bootStepComplete => Sys2Proof.Machine.execBootStepComplete s
  | .powerLimitEval => Sys2Proof.Machine.execPowerLimitEval s
  | .powerLimitSecondStage => Sys2Proof.Machine.execPowerLimitSecondStage s
  | .create => Sys2Proof.Machine.execCreate s
  | .destroy => Sys2Proof.Machine.execDestroy s
  | .readreg => Sys2Proof.Machine.execReadreg s
  | .writereg => Sys2Proof.Machine.execWritereg s
  | .loadkey => Sys2Proof.Machine.execLoadkey s
  | .setpower => Sys2Proof.Machine.execSetpower s
  | .attest => Sys2Proof.Machine.execAttest s
  | .pagedone => Sys2Proof.Machine.execPagedone s
  | .setevent => Sys2Proof.Machine.execSetevent s
  | .drainend => Sys2Proof.Machine.execDrainend s
  | .commitsvn => Sys2Proof.Machine.execCommitsvn s
  | .resetdie => Sys2Proof.Machine.execResetdie s
  | .settorus => Sys2Proof.Machine.execSettorus s
  | .errorRecordMessage => Sys2Proof.Machine.execErrorRecordMessage s
  | .joinQuarantineEnd => Sys2Proof.Machine.execJoinQuarantineEnd s
  | .drainMessage => Sys2Proof.Machine.execDrainMessage s
  | .drainReport => Sys2Proof.Machine.execDrainReport s
  | .halt => Sys2Proof.Machine.execHalt s
  | .ret => Sys2Proof.Machine.execRet s
  | .nxt => Sys2Proof.Machine.execNxt s
  | .exit => Sys2Proof.Machine.execExit s
  | .eret => Sys2Proof.Machine.execEret s
  | .yield => Sys2Proof.Machine.execYield s
  | .invalidationAcknowledgement => Sys2Proof.Machine.execInvalidationAcknowledgement s
  | .eventRingConsumerIndex => Sys2Proof.Machine.execEventRingConsumerIndex s
  | .illegalInstr => Sys2Proof.Machine.execIllegalInstr s

end Sys2Proof.Machine
end

