-- ==== Sys2Proof/Machine/Firmware.lean ====
section
/-!
DEFINITION. Zarmor's supervisor firmware (R145, R430), where it runs as a supervisor: a request of the mailbox line served in one
operation.
-/

namespace Sys2Proof.Machine

/-- R430: LSTATUS of a fault. -/
def faultStatus (x : Trap) : Nat := 2 ^ 31 + x.cause.toNat
/-- R415, R430: the dependence words of a record: their addresses, nothing for NOTLOCAL, or a fault. -/
def Dev.fwDeps (d : Dev) (w : Wg) (r : Nat) : List Nat → List (Nat × Nat) → Except Trap (Option (List (Nat × Nat)))
  | [], ps => .ok (some ps)
  | i :: is, ps =>
    let va : Dword := BitVec.ofNat 64 (recField r (48 + 16 * i) 8)
    match d.xlateNow w.die w.ctx (accLocal false) va with
    | .ok pa => d.fwDeps w r is (ps ++ [(pa, recField r (56 + 16 * i) 4)])
    | .error e => if e = rNotLocal then .ok none else .error (.at 0x0F e va)
/-- R147, R430: LAUNCH of a record by the firmware, with LSTATUS; nothing while the die's launch entries are full. -/
def Dev.fwLaunch (d : Dev) (w : Wg) (r : Nat) : Option (Dev × Nat) :=
  match launchBad r with
  | some off => some (d, 1 + 256 * off)
  | none =>
    if launchNoFit ((d.ctx? w.die w.ctx).getD (Ctx.fresh 0 0)) r then some (d, 2)
    else
      match d.fwDeps w r (List.range (recField r 39 1)) [] with
      | .error x => some (d, faultStatus x)
      | .ok none => some (d, 3)
      | .ok (some ps) =>
        let va : Dword := BitVec.ofNat 64 (recField r 112 8)
        match (if va = 0 then .ok 0 else d.xlateNow w.die w.ctx (accRemote true) va : Except Nat Nat) with
        | .error e => some (d, faultStatus (.at 0x0F e va))
        | .ok pa => if 256 ≤ (d.die w.die).launches.length then none else some (d.enter w r ps pa, 0)
/-- R381, R161: where a copy that reads from `a` on, in the page of `a`, finds its bytes; or why it does not, 0 for companion memory
that no port reaches (R135). -/
def Dev.fwPiece (d : Dev) (w : Wg) (a : Nat) : Except Nat Nat :=
  (d.xlateNow w.die w.ctx (accCopy false) (BitVec.ofNat 64 a)).bind fun pa => if d.cutOff pa then .error 0 else .ok pa
/-- R381: the granules of the record at RECVA, which may meet a page's end: virtual address and length. -/
def recPieces (va : Nat) : List (Nat × Nat) :=
  let n := min 128 (4096 - va % 4096)
  if n = 128 then [(va, 128)] else [(va, n), (va + n, 128 - n)]
/-- R430: the copy of the record: its bytes and the device with the bytes charged (R179); or LSTATUS: the reason is NOTRESIDENT when
NRCOUNT is not zero. DEDUCED (log 10). -/
def Dev.fwRecord (d : Dev) (w : Wg) (va : Dword) : Dev × Except Nat Nat :=
  if va.toNat % 4 ≠ 0 then (d, .error (faultStatus (.at 0x05 0 va)))
  else if !canonicalRange va 128 then (d, .error (faultStatus (.at 0x0F rNoncanon va)))
  else
    let found := (recPieces va.toNat).map fun e => (d.fwPiece w e.1, e.2)
    let bad := found.filterMap fun e => match e.1 with
      | .ok _ => none
      | .error reason => some reason
    let got := found.filterMap fun e => match e.1 with
      | .ok pa => some (pa, e.2)
      | .error _ => none
    (got.foldl (fun d e => d.dramUse w.die w.ctx e.1 e.2) d,
      if bad.isEmpty then .ok (leValue (d.rdPieces got))
      else .error (2 ^ 31 + 0x0F + if bad.contains rNotResident then 256 * rNotResident else 0))
/-- R430: a request answered: the device after LAUNCH, and LSTATUS. -/
def Dev.fwRequest (d : Dev) (w : Wg) (va : Dword) : Option (Dev × Nat) :=
  match d.fwRecord w va with
  | (d, .ok r) => d.fwLaunch w r
  | (d, .error status) => some (d, status)
/-- R145: the mailbox line at a physical address: with SEQ other than ACK, one LSTATUS is written and then ACK = SEQ. Both wait for the
companion's copy of the line (R137), the copy of the record for the context's DRAM budget (R179). -/
def Dev.serveMailbox (d : Dev) (w : Wg) (pa : Nat) : Dev :=
  if d.rd pa 8 = d.rd (pa + 16) 8 ∨ d.dramOpen w.die w.ctx = false then d
  else if !d.clean pa 64 then d.flush pa 64
  else
    match d.fwRequest w (BitVec.ofNat 64 (d.rd (pa + 8) 8)) with
    | none => d
    | some (e, status) => (e.storeBytes (pa + 24) (leBytes status 4)).storeBytes (pa + 16) (leBytes (d.rd pa 8) 8)
/-- R143: the threads of the firmware execute EXIT. -/
def Dev.fwExit (d : Dev) (w : Wg) : Dev := d.modWg w.uid fun w => { w with threads := w.threads.map fun t => { t with pos := .exited } }
/-- R145, R430: the firmware of a supervisor none of whose threads has executed an instruction acts. DEDUCED (log 10). -/
def Dev.firmware (d : Dev) (uid : Nat) : Dev :=
  match d.wg? uid with
  | none => d
  | some w =>
    if w.kind ≠ .supervisor ∨ !w.isResident ∨ w.stopping ∨ (d.die w.die).joining ∨
        (w.threads.any fun t => t.pos != .waiting || t.retired != 0 || t.off != 0 || t.susp.isSome) then d
    else
      let mbox : Dword := BitVec.ofNat 64 (readLE w.mem 0 8)
      if mbox = 0 then d.fwExit w
      else
        match d.xlateNow w.die w.ctx (accLocal false) mbox, d.xlateNow w.die w.ctx (accCopy true) mbox with
        | .ok pa, .ok _ => d.serveMailbox w pa
        | .error e, _ | .ok _, .error e => (d.record 0x0B w.ctx w.die mbox (BitVec.ofNat 64 e) (BitVec.ofNat 64 w.die)).fwExit w

end Sys2Proof.Machine
end

