-- ==== Sys2Proof/Machine/Order.lean ====
section
/-!
DEFINITION. What happens next when the agenda leaves it open: the events that may be due, taken in turn, and the passing of time.
-/

namespace Sys2Proof.Machine

/-- R24: a cluster's clock after `k` raw edges: delivered are the edges whose number since the last change of rate is a
multiple of the rate. -/
def Cluster.pass (c : Cluster) (k : Nat) : Cluster :=
  { c with phase := c.phase + k, delivered := c.delivered + ((c.phase + k) / c.rate - c.phase / c.rate) }
def Die.pass (x : Die) (k : Nat) : Die := { x with clusters := x.clusters.map fun c => c.pass k }
/-- Time passes: at least one raw edge in a step, and an open number more; the walker routine of each die ends a walk.
DESIGN CHOICE (log 6). -/
def Dev.pass (d : Dev) : Dev :=
  let k := 1 + Config.extraEdges d.tick
  let d := { d with raw := d.raw + k, tick := d.tick + 1, d0 := d.d0.pass k, d1 := d.d1.pass k, d2 := d.d2.pass k,
                    d3 := d.d3.pass k }
  [0, 1, 2, 3].foldl Dev.serveWalk d

/-! ## Events that may be due -/

/-- The event that reads a message of a kind. -/
def msgEvent (die idx kind : Nat) : Option Instr :=
  match kind with
  | 0x01 => some (.rreadRequest die idx)
  | 0x02 => some (.invokeMessage die idx)
  | 0x03 => some (.invokehMessage die idx)
  | 0x04 => some (.hgetRequest die idx)
  | 0x05 => some (.hfreeMessage die idx)
  | 0x06 => some (.recordMove die idx)
  | 0x20 => some (.acknowledgement die idx)
  | 0x21 => some (.readReply die idx)
  | 0x22 => some (.resultReply die idx)
  | 0x40 => some (.raddUpdate die idx)
  | 0x41 => some (.rminUpdate die idx)
  | 0x42 => some (.rmaxUpdate die idx)
  | 0x43 => some (.rorUpdate die idx)
  | 0x44 => some (.rwonceUpdate die idx)
  | 0x45 => some (.rarriveUpdate die idx)
  | 0x46 => some (.rcloseUpdate die idx)
  | 0x47 => some (.locationUpdate die idx)
  | 0x60 => some (.join die idx)
  | 0x61 => some (.joinAcknowledgement die idx)
  | 0x62 => some .drainMessage
  | _ => none
/-- The event of a management request. -/
def requestEvent (op : Nat) : Instr :=
  match op with
  | 0x01 => .create
  | 0x02 => .destroy
  | 0x03 => .readreg
  | 0x04 => .writereg
  | 0x05 => .loadkey
  | 0x06 => .setpower
  | 0x07 => .attest
  | 0x08 => .pagedone
  | 0x09 => .setevent
  | 0x0A => .drainend
  | 0x0B => .commitsvn
  | 0x0C => .resetdie
  | _ => .settorus
/-- Events of the management controller. -/
def State.mgmtDue (s : State) : List Instr :=
  (if s.mgmt.bootStep < 8 then [.bootStepComplete] else []) ++
  (match s.mgmt.requests with
  | q :: _ => [requestEvent q.op]
  | [] => []) ++
  (if s.dev.records.isEmpty then [] else [.errorRecordMessage]) ++
  s.dev.resets.map (fun e => .dieReset e.1 e.2) ++
  (if s.mgmt.drain && s.quiet && !s.mgmt.reports.contains s.dev.pkg.toNat then [.drainReport] else []) ++
  (if s.mgmt.stage = 1 ∧ s.mgmt.limit * 1000 < s.mgmt.average ∧ rawOfUs 1000 ≤ s.dev.raw - s.mgmt.stageSince then
    [.powerLimitSecondStage] else []) ++
  (s.dev.pageReqs.filter fun q => decide (rawOfUs 100000 ≤ s.dev.raw - q.since)).map (fun q => .pageServiceTimeout q.id) ++
  (s.mgmt.joins.filter fun j => decide (rawOfUs 1000 ≤ s.dev.raw - j.sentAt)).map fun j => .joinResend j.die j.peer
/-- Events of a Talbo port's keys and failures (R53 to R56). -/
def portDue (die unit : Nat) (l : Link) : List Instr :=
  (if l.maySwitch then [.keySwitch die unit] else []) ++
  (if 2 ^ 32 - 2 ^ 20 ≤ l.used ∧ l.expiring = false then [.keyExpiring die unit] else []) ++
  (if 2 ^ 32 ≤ l.used then [.keyExhausted die unit] else []) ++
  (if 64 < l.authTimes.length then [.authFailureLimit die unit] else []) ++
  (if l.sinceRetire.any fun n => decide (1024 ≤ n) && l.peerRx.getLsbD (1 - slotNo l.txSlot) && !l.dueRetire then
    [.retireResend die unit] else [])
/-- Events of a die's messages and links. -/
def Dev.fabricDue (d : Dev) (die : Nat) : List Instr :=
  let x := d.die die
  x.inbox.zipIdx.filterMap (fun e => msgEvent die e.2 (msgKind e.1.ws)) ++
  (List.range x.transit.length).map (fun i => .messageRoute die i) ++
  ((List.range 15).filter fun u => (x.link u).up && (!(x.link u).queue.isEmpty ||
    (decide (12 ≤ u) && !((d.die (linkPeer die u)).link (linkBack die u)).queue.isEmpty))).map (fun u => .flitTransmission die u) ++
  ([12, 13, 14].filterMap fun u => (((d.die (linkPeer die u)).link (linkBack die u)).wire.head?).map fun f =>
    if flitType f = 0 then .dataFlit die u none else .idleFlit die u none) ++
  ((List.range 12).filter fun u => (x.link u).up).flatMap (fun u => portDue die u (x.link u))
/-- Timers of a die. -/
def Dev.timersDue (d : Dev) (die : Nat) : List Instr :=
  let x := d.die die
  (if rawOfUs 8 ≤ d.raw - x.periodAt then [.budgetPeriod die] else []) ++
  (if rawOfUs 10 ≤ d.raw - x.sampleAt then [.thermalSamplePeriod die []] else []) ++
  ((x.outs.filter fun o => o.sent && decide (rawOfUs o.retrans ≤ d.raw - o.sentAt)).map fun o =>
    .retransmissionTimer die o.ctx o.seq) ++
  (match x.quarantine with
  | some t => if t ≤ d.raw then [.joinQuarantineEnd] else []
  | none => []) ++
  ((List.range 9).flatMap fun k =>
    let c : Cluster := x.cluster k
    (if c.droopUntil.any fun t => decide (t ≤ d.raw) then [.droopResponseEnd die k] else []) ++
    (if c.throttle && !c.switched && decide (rawOfUs 10000 ≤ d.raw - c.throttleSince) then [.wholeContextSwitch die k] else [])) ++
  ((List.range (x.inbox.length + x.transit.length + 1)).filter fun i => (x.dropHeld d.heldLong i).isSome).map (fun i =>
    .heldMessageTimeout die i) ++
  (x.windows.filter fun w => decide (rawOfUs 192000 ≤ d.raw - w.lastAt)).map (fun w => .windowExpiry die w.src w.ctx) ++
  (x.launches.zipIdx.filter fun e => e.1.eligible.isSome && !e.1.aged && d.agesNow e.1.lastPlaced).map (fun e =>
    .candidateAging die e.2) ++
  (x.hosts.zipIdx.filter fun e => e.1.queued.isSome && !e.1.aged && d.agesNow e.1.lastPlaced).map (fun e =>
    .candidateAging die (x.launches.length + e.2))
/-- Events of a die's workgroups, commands and cores. -/
def Dev.workDue (d : Dev) (die : Nat) : List Instr :=
  let ws := d.wgs.filter fun w => w.die == die && w.kind != .walker
  (if d.passDue.contains die then [.placementPass die] else []) ++
  (if d.wgs.any fun w => w.die == die && w.kind == .walker && w.threads.all fun t => t.pos == .exited then [.walkerRestart die] else []) ++
  (((ws.filter fun w => w.threads.any fun t => t.parkOrder.isSome).map Wg.core).eraseDups.filter fun c =>
    d.allParked die c && !((d.on die c).any Wg.stopping)).map (fun c => .eviction die c) ++
  (ws.filter fun w => w.stopping).map (fun w => .workgroupSave w.uid) ++
  (ws.filter fun w => w.live && w.threads.all fun t => t.pos == .exited).map (fun w => .workgroupEnd w.uid) ++
  (ws.flatMap fun w => (w.threads.zipIdx.filter fun e => e.1.late (d.clock die w.core) && !e.1.expired).map fun e =>
    .deadlineExpiry w.uid e.2) ++
  ((d.cmds.filter fun c => c.die == die).flatMap fun c =>
    match c.cls with
    | .mtx => [(match c.body with
      | .spread _ => .copyGranule c.id 0
      | _ => .mtxAccept die c.core), .tokenCompletion c.id 0]
    | .cpy | .atm | .rmt => [.copyGranule c.id 0, .tokenCompletion c.id 0]) ++
  (((d.wgs.filter fun w => w.die == die && w.live && w.threads.any fun t => t.pos == .waiting).map fun w =>
    (w.core, w.channel)).eraseDups.map fun e =>
    .selectorDecision die e.1 e.2)
def State.due (s : State) : List Instr :=
  s.mgmtDue ++ [0, 1, 2, 3].flatMap fun n => s.dev.fabricDue n ++ s.dev.timersDue n ++ s.dev.workDue n
/-- The event that is due when nothing is chosen and no bundle is in flight: those that may be due have their turns.
DESIGN CHOICE (log 5). -/
def State.dueEvent (s : State) : Option Instr := s.due[s.dev.tick % max s.due.length 1]?

end Sys2Proof.Machine
end

