-- ==== Sys2Proof/Machine/Step.lean ====
section
/-!
DEFINITION. One step of the machine: the event or the bundle that the agenda names, or else the next instruction of the front
bundle, or else the event that is due; and the placing of an instruction word for the next step.
-/

namespace Sys2Proof.Machine

/-- A state with bundle `k` in front of the others. -/
def State.front (s : State) (k : Nat) : State :=
  match s.dev.flight[k]? with
  | some b => { s with dev := { s.dev with flight := b :: s.dev.flight.eraseIdx k } }
  | none => s

/-- The next instruction of the front bundle, or the event that is due, or nothing. -/
def State.default (s : State) : Option Instr :=
  match s.dev.cur with
  | some c => some c.instr
  | none => s.dueEvent

/-- What happens next, and the state in which it happens. DESIGN CHOICE (log 5). -/
def State.next (s : State) : Option Instr × State :=
  match s.agenda with
  | [] => (s.default, s)
  | .event i :: rest => (if i.isProgram then none else some i, { s with agenda := rest })
  | .companion ws :: rest => (none, { s with agenda := rest }.fromCompanion ws)
  | .firmware uid :: rest => (none, { s with agenda := rest, dev := s.dev.firmware uid })
  | .bundle k :: rest => (({ s with agenda := rest }.front k).default, { s with agenda := rest }.front k)

/-- The end of a step: time passes. -/
def finish : Out → Out
  | .next s => .next { s with dev := s.dev.pass }
  | .fault r => .fault r
  | .refused r => .refused r

/-- One step. -/
def step (s : State) : Host.Outcome State Fault Refusal :=
  match s.next with
  | (some i, s') => finish (exec i s')
  | (none, s') => finish (.next s')

/-- The state with an instruction word where the next step fetches: the program is loaded from outside the machine.
DESIGN CHOICE (log 3). -/
def State.withFetchWord (s : State) (nbits w : Nat) : State :=
  if nbits = 32 then
    { s with agenda := [], dev := s.dev.placeWord (BitVec.ofNat 32 w) }
  else s

end Sys2Proof.Machine
end

