-- ==== Sys2Proof/Safety.lean ====
section
/-!
DEFINITION. What counts as a safe run: every step answers a next state; the invariant of the management controller that its
registers keep (R20, R24, R31, R148); and the terms in which the statements speak of an instruction: the states it may lead to,
and the registers it names and writes.
-/

namespace Sys2Proof

open Sys2Proof.Machine

/-- The first `n` steps from `s` all answer a next state. -/
def SafeFor : Nat → State → Prop
  | 0, _ => True
  | n + 1, s => ∃ t, step s = .next t ∧ SafeFor n t

/-- A run that never stops. -/
def Safe (s : State) : Prop := ∀ n, SafeFor n s

/-- The registers of the management controller hold what the spec lets them hold: the power limit lies from 1,500 to 2,700 W
(R20), its stage is 0, 1 or 2 (R24), the bring-up step is 1 to 8 (R31), and at most 256 entries are held for the event ring
(R148). -/
def Mgmt.Inv (m : Mgmt) : Prop :=
  1500 ≤ m.limit ∧ m.limit ≤ 2700 ∧ m.stage ≤ 2 ∧ 1 ≤ m.bootStep ∧ m.bootStep ≤ 8 ∧ m.held.length ≤ 256

end Sys2Proof

namespace Sys2Proof.Machine

/-! ## Where an instruction leads -/

/-- The current thread's instruction of `n` words has completed, with the device `d` and the thread `t`. -/
def State.completes (s : State) (c : Cur) (n : Nat) (d : Dev) (t : Thread) : State := { s with dev := d.commit c (t.advance n) }
/-- The current thread has left its bundle and stands where `t` says. -/
def State.leaves (s : State) (c : Cur) (d : Dev) (t : Thread) : State := { s with dev := d.commitOut c t }
/-- The current thread takes a fault, everything else as before (R11, R221). -/
def State.traps (s : State) (c : Cur) (x : Trap) : State := { s with dev := s.dev.takeFault c c.t c.t.off x c.addr }
/-- The current thread is suspended in its instruction (R218). -/
def State.waits (s : State) (c : Cur) (d : Dev) (why : Wait) (limit : Option Nat) : State := { s with dev := d.suspend c why limit }
/-- An event of the device has led to the device `d`. -/
def State.withDev (s : State) (d : Dev) : State := { s with dev := d }

/-- An instruction of `n` words that names the registers `idx`: it completes with the thread `t` when all of them lie below
ALLOC, and raises REG_RANGE otherwise (R210). -/
def Does (s : State) (c : Cur) (i : Instr) (n : Nat) (idx : List Nat) (t : Thread) : Prop :=
  (c.t.able idx = true → exec i s = .next (s.completes c n s.dev t)) ∧
  (c.t.able idx = false → exec i s = .next (s.traps c regRange))

/-- The 64-bit value of a pair of registers (R331). -/
def Thread.dval (t : Thread) (i : Nat) : Dword := t.val (i + 1) ++ t.val i
/-- A pair of registers written (R331). -/
def Thread.dset (t : Thread) (i : Nat) (v : Dword) : Thread := (t.set i (v.extractLsb' 0 32)).set (i + 1) (v.extractLsb' 32 32)
/-- Register pairs named by their first registers. -/
def pairIdx (rs : List Reg) : List Nat := rs.flatMap fun r => [r.toNat, r.toNat + 1]

/-! ## What the register instructions compute, as the spec writes it -/

/-- R332, R334: x and y are unsigned, `toInt` reads them as signed. -/
def int3 : List ((Reg → Reg → Reg → Instr) × (Word → Word → Word)) :=
  [(.add, fun x y => BitVec.ofNat 32 (x.toNat + y.toNat)),
   (.sub, fun x y => BitVec.ofInt 32 ((x.toNat : Int) - (y.toNat : Int))),
   (.mul, fun x y => BitVec.ofNat 32 (x.toNat * y.toNat)),
   (.mulhi, fun x y => BitVec.ofInt 32 (x.toInt * y.toInt / 2 ^ 32)),
   (.mulhiu, fun x y => BitVec.ofNat 32 (x.toNat * y.toNat / 2 ^ 32)),
   (.div, fun x y => if y.toNat = 0 then 0xFFFF_FFFF#32 else BitVec.ofInt 32 (x.toInt.tdiv y.toInt)),
   (.divu, fun x y => if y.toNat = 0 then 0xFFFF_FFFF#32 else BitVec.ofNat 32 (x.toNat / y.toNat)),
   (.rem, fun x y => if y.toNat = 0 then x else BitVec.ofInt 32 (x.toInt.tmod y.toInt)),
   (.remu, fun x y => if y.toNat = 0 then x else BitVec.ofNat 32 (x.toNat % y.toNat)),
   (.min, fun x y => BitVec.ofInt 32 (min x.toInt y.toInt)),
   (.max, fun x y => BitVec.ofInt 32 (max x.toInt y.toInt)),
   (.minu, fun x y => BitVec.ofNat 32 (min x.toNat y.toNat)),
   (.maxu, fun x y => BitVec.ofNat 32 (max x.toNat y.toNat)),
   (.and_, fun x y => BitVec.ofNat 32 (x.toNat &&& y.toNat)),
   (.or_, fun x y => BitVec.ofNat 32 (x.toNat ||| y.toNat)),
   (.xor, fun x y => BitVec.ofNat 32 (x.toNat ^^^ y.toNat)),
   (.andn, fun x y => BitVec.ofNat 32 (x.toNat &&& (2 ^ 32 - 1 - y.toNat))),
   (.shl, fun x y => if y.toNat < 32 then BitVec.ofNat 32 (x.toNat * 2 ^ y.toNat) else 0#32),
   (.shr, fun x y => if y.toNat < 32 then BitVec.ofNat 32 (x.toNat / 2 ^ y.toNat) else 0#32),
   (.sar, fun x y => BitVec.ofInt 32 (x.toInt / 2 ^ min y.toNat 31)),
   (.rotl, fun x y => BitVec.ofNat 32 (x.toNat * 2 ^ (y.toNat % 32) + x.toNat / 2 ^ (32 - y.toNat % 32))),
   (.rotr, fun x y => BitVec.ofNat 32 (x.toNat / 2 ^ (y.toNat % 32) + x.toNat * 2 ^ (32 - y.toNat % 32)))]
/-- R332, R334, R337. -/
def int2 : List ((Reg → Reg → Instr) × (Word → Word)) :=
  [(.abs, fun x => BitVec.ofInt 32 (if x.toInt < 0 then -x.toInt else x.toInt)),
   (.neg, fun x => BitVec.ofInt 32 (-x.toInt)),
   (.not_, fun x => BitVec.ofNat 32 (2 ^ 32 - 1 - x.toNat)),
   (.mov, fun x => x)]
/-- R336, the forms of three pairs. -/
def pair3 : List ((Reg → Reg → Reg → Instr) × (Dword → Dword → Dword)) :=
  [(.dadd, fun x y => BitVec.ofNat 64 (x.toNat + y.toNat)),
   (.dsub, fun x y => BitVec.ofInt 64 ((x.toNat : Int) - (y.toNat : Int))),
   (.dmul, fun x y => BitVec.ofNat 64 (x.toNat * y.toNat)),
   (.dmin, fun x y => BitVec.ofInt 64 (min x.toInt y.toInt)),
   (.dmax, fun x y => BitVec.ofInt 64 (max x.toInt y.toInt)),
   (.dminu, fun x y => BitVec.ofNat 64 (min x.toNat y.toNat)),
   (.dmaxu, fun x y => BitVec.ofNat 64 (max x.toNat y.toNat))]
/-- R336, the shifts: a pair by a register. -/
def pairShift : List ((Reg → Reg → Reg → Instr) × (Dword → Word → Dword)) :=
  [(.dshl, fun x y => if y.toNat < 64 then BitVec.ofNat 64 (x.toNat * 2 ^ y.toNat) else 0#64),
   (.dshr, fun x y => if y.toNat < 64 then BitVec.ofNat 64 (x.toNat / 2 ^ y.toNat) else 0#64),
   (.dsar, fun x y => BitVec.ofInt 64 (x.toInt / 2 ^ min y.toNat 63))]
/-- R336: the 64-bit products of two registers. -/
def wideMul : List ((Reg → Reg → Reg → Instr) × (Word → Word → Dword)) :=
  [(.mulw, fun x y => BitVec.ofInt 64 (x.toInt * y.toInt)), (.mulwu, fun x y => BitVec.ofNat 64 (x.toNat * y.toNat))]
/-- R338: the forms with an immediate, whose value is given. -/
def imm2 : List ((Reg → Reg → BitVec 14 → Option (BitVec 18) → Instr) × (Word → Word → Word)) :=
  [(.addi, fun x v => BitVec.ofNat 32 (x.toNat + v.toNat)), (.andi, fun x v => BitVec.ofNat 32 (x.toNat &&& v.toNat)),
   (.ori, fun x v => BitVec.ofNat 32 (x.toNat ||| v.toNat)), (.xori, fun x v => BitVec.ofNat 32 (x.toNat ^^^ v.toNat)),
   (.muli, fun x v => BitVec.ofNat 32 (x.toNat * v.toNat))]
/-- R338: the value of an immediate: sign-extended without a hint, {HI18, IMM14} with one. -/
def immValue (imm : BitVec 14) (hi : Option (BitVec 18)) : Word :=
  match hi with
  | none => BitVec.ofInt 32 imm.toInt
  | some h => BitVec.ofNat 32 (h.toNat * 2 ^ 14 + imm.toNat)
/-- R338: the shifts by an immediate. -/
def immShift : List ((Reg → Reg → BitVec 5 → Bool → Instr) × (Word → Nat → Word)) :=
  [(.shli, fun x n => BitVec.ofNat 32 (x.toNat * 2 ^ n)), (.shri, fun x n => BitVec.ofNat 32 (x.toNat / 2 ^ n)),
   (.sari, fun x n => BitVec.ofInt 32 (x.toInt / 2 ^ n))]

/-- R343: the integer that a rounding mode selects for the value a ÷ d. -/
def Selects (rm : Rm) (a : Int) (d : Nat) (k : Int) : Prop :=
  match rm with
  | .rne => 2 * (k * d - a) ≤ d ∧ -(d : Int) ≤ 2 * (k * d - a) ∧ (2 * (k * d - a) = d ∨ 2 * (k * d - a) = -(d : Int) → k % 2 = 0)
  | .rtz => k = a.tdiv d
  | .rup => k = -(-a / d)
  | .rdn => k = a / d
/-- R339, R268: the FP32 magnitude code, of the grid in units of 2^(−149), to which a rounding mode takes the square root of n ÷ d. -/
def SqrtCode (rm : Rm) (n d m : Nat) : Prop :=
  let g := (Target.el .fp32).grid
  let v := n * 2 ^ 298
  match rm with
  | .rne => (g (m - 1) + g m) ^ 2 * d ≤ 4 * v ∧ 4 * v ≤ (g m + g (m + 1)) ^ 2 * d
  | .rtz | .rdn => g m ^ 2 * d ≤ v ∧ v < g (m + 1) ^ 2 * d
  | .rup => v ≤ g m ^ 2 * d ∧ g (m - 1) ^ 2 * d < v
/-- R339: one FP32 code lies below another where −0 lies below +0. -/
def Below (x y : Nat) : Prop := (valueOf .fp32 x).lt (valueOf .fp32 y) = true ∨ x = 2 ^ 31 ∧ y = 0
/-- R268, R270: the magnitude code `c` that a mode chooses for v ÷ d, on the grid of a format in units of its smallest positive value; the
code behind that of MAXF is the virtual one, of an overflow. -/
def Chooses (f : Fmt) (m : Mode) (neg : Bool) (v d c : Nat) : Prop :=
  let g := (Target.el f).grid
  let top := f.maxCode + 1
  if g top * d < v then
    c = match m with
      | .rne | .sr _ => top
      | .rtz => f.maxCode
      | .rup => if neg then f.maxCode else top
      | .rdn => if neg then top else f.maxCode
  else
    ∃ l, g l * d ≤ v ∧ l ≤ top ∧ (v = g l * d → c = l) ∧
      (g l * d < v → v < g (l + 1) * d ∧ l < top ∧
        match m with
        | .rne => (2 * v < (g l + g (l + 1)) * d → c = l) ∧ ((g l + g (l + 1)) * d < 2 * v → c = l + 1) ∧
            (2 * v = (g l + g (l + 1)) * d → (c = l ∨ c = l + 1) ∧ c % 2 = 0)
        | .rtz => c = l
        | .rup => c = if neg then l else l + 1
        | .rdn => c = if neg then l + 1 else l
        | .sr r => c = if 2 ^ 16 ≤ (v - g l * d) * 2 ^ 16 / ((g (l + 1) - g l) * d) + r then l + 1 else l)
/-- R339, R342: of two codes of a format one lies below the other, where −0 lies below +0. -/
def BelowIn (f : Fmt) (x y : Nat) : Prop := (valueOf f x).lt (valueOf f y) = true ∨ x = 2 ^ (f.width - 1) ∧ y = 0
/-- R339, R342: what a minimum or maximum gives: the NaN where an operand is one, and else an operand that no other lies below, or above. -/
def PickOf (f : Fmt) (larger : Bool) (x y : Nat) (r : Nat × BitVec 7) : Prop :=
  r.2 = 0#7 ∧
  if (valueOf f x).isNan ∨ (valueOf f y).isNan then r.1 = f.nan
  else (r.1 = x ∨ r.1 = y) ∧ ∀ z, (z = x ∨ z = y) → if larger then ¬BelowIn f r.1 z else ¬BelowIn f z r.1
/-- R349: the comparisons. -/
def comparisons : List (Cmp × (Int → Int → Bool)) :=
  [(.eq, fun u w => decide (u = w)), (.ne, fun u w => decide (u ≠ w)), (.lt, fun u w => decide (u < w)), (.le, fun u w => decide (u ≤ w)),
   (.gt, fun u w => decide (u > w)), (.ge, fun u w => decide (u ≥ w))]
/-- R349: the combiners, of what PD holds and the result. -/
def combiners : List (Comb × (Bool → Bool → Bool)) :=
  [(.set, fun _ r => r), (.and, fun p r => p && r), (.or, fun p r => p || r), (.xor, fun p r => p != r)]
/-- R259: an FP32 code is a NaN; and the value of one that is none, in units of 2^(−149), an infinity above every finite value. -/
def nan32 (x : Word) : Bool := decide (0x7F80_0000 < x.toNat % 2 ^ 31)
def real32 (x : Word) : Int :=
  if x.getLsbD 31 then -((Target.el .fp32).grid (x.toNat % 2 ^ 31) : Int) else (Target.el .fp32).grid (x.toNat % 2 ^ 31)
/-- R363, R364: the combination of values, and its flags. -/
def CombinesTo (op : Xop) (xs : List Word) (r : Word × BitVec 7) : Prop :=
  let least := fun (f : Word → Int) (none : Word) => (xs = [] → r.1 = none) ∧ (xs ≠ [] → r.1 ∈ xs ∧ ∀ x ∈ xs, f r.1 ≤ f x)
  match op with
  | .add => r = (BitVec.ofNat 32 ((xs.map BitVec.toNat).foldl (· + ·) 0), 0#7)
  | .min => least BitVec.toInt 0x7FFF_FFFF#32 ∧ r.2 = 0#7
  | .max => least (fun x => -x.toInt) 0x8000_0000#32 ∧ r.2 = 0#7
  | .minu => least (fun x => x.toNat) 0xFFFF_FFFF#32 ∧ r.2 = 0#7
  | .maxu => least (fun x => -x.toNat) 0#32 ∧ r.2 = 0#7
  | .and => (∀ i < 32, r.1.getLsbD i = true ↔ ∀ x ∈ xs, x.getLsbD i = true) ∧ r.2 = 0#7
  | .or => (∀ i < 32, r.1.getLsbD i = true ↔ ∃ x ∈ xs, x.getLsbD i = true) ∧ r.2 = 0#7
  | .xor => (∀ i < 32, (r.1.getLsbD i).toNat = (xs.filter fun x => x.getLsbD i).length % 2) ∧ r.2 = 0#7
  | .fadd =>
    let sum := (xs.map real32).foldl (· + ·) 0
    if ∃ x ∈ xs, nan32 x = true then r = (0x7FC0_0000#32, 0#7)
    else if 0x7F80_0000#32 ∈ xs ∧ 0xFF80_0000#32 ∈ xs then r = (0x7FC0_0000#32, fNV)
    else if 0x7F80_0000#32 ∈ xs then r = (0x7F80_0000#32, 0#7)
    else if 0xFF80_0000#32 ∈ xs then r = (0xFF80_0000#32, 0#7)
    else
      let neg := if sum = 0 then decide (xs ≠ []) && xs.all fun x => x.getLsbD 31 else decide (sum < 0)
      let q := roundTo .fp32 .rne false (.fin neg sum.natAbs (2 ^ 149))
      r = (BitVec.ofNat 32 q.1, q.2)
/-- R346: how many elements cvtnp converts. -/
def packed (f : Fmt) : Nat :=
  match f with
  | .bf16 | .fp16 => 2
  | .e5m2 | .e4m3 | .t8 | .e3m2 | .e2m3 | .t6 => 4
  | .e2m1 => 8
  | .fp32 | .fp64 => 1
/-- A thread with a result and its sticky bits. -/
def Thread.wins (t : Thread) (d : Reg) (r : Nat × BitVec 7) : Thread := (t.raise r.2).set d.toNat (BitVec.ofNat 32 r.1)
/-- R339, R340: the two-operand FP32 forms, with the exact value that is rounded once and the flags of the operation itself. -/
def float3 : List ((Reg → Reg → Reg → Rm → Instr) × (Rm → XVal → XVal → XVal × BitVec 7)) :=
  [(.fadd, fun rm u v => let r := XVal.add (rm == .rdn) u v; (r.1, if r.2 then fNV else 0#7)),
   (.fsub, fun rm u v => let r := XVal.add (rm == .rdn) u v.negate; (r.1, if r.2 then fNV else 0#7)),
   (.fmul, fun _ u v => let r := XVal.mul u v; (r.1, if r.2 then fNV else 0#7)),
   (.fdiv, fun _ u v => XVal.quot u v)]
/-- R339, R340: the fused forms: which of the product and the addend are negated. -/
def fused : List ((Reg → Reg → Reg → Rm → Instr) × Bool × Bool) :=
  [(.ffma, false, false), (.ffms, false, true), (.ffnma, true, false)]
/-- R342: the packed forms in BF16 and FP16. -/
def packed3 : List ((Reg → Reg → Reg → Rm → Instr) × Fmt × (Rm → XVal → XVal → XVal × Bool)) :=
  [(.badd, .bf16, fun rm u v => XVal.add (rm == .rdn) u v), (.bsub, .bf16, fun rm u v => XVal.add (rm == .rdn) u v.negate),
   (.bmul, .bf16, fun _ u v => XVal.mul u v), (.hadd, .fp16, fun rm u v => XVal.add (rm == .rdn) u v),
   (.hsub, .fp16, fun rm u v => XVal.add (rm == .rdn) u v.negate), (.hmul, .fp16, fun _ u v => XVal.mul u v)]
/-- R342: the packed minimum and maximum forms. -/
def packedPick : List ((Reg → Reg → Reg → Instr) × Fmt × Bool) :=
  [(.bmin, .bf16, false), (.bmax, .bf16, true), (.hmin, .fp16, false), (.hmax, .fp16, true)]
/-- R341. -/
def transc : List ((Reg → Reg → Instr) × (Nat → Nat × BitVec 7)) :=
  [(.frcp, rcpCode), (.frsq, rsqCode), (.fexp2, exp2Code), (.flog2, log2Code), (.ftanh, tanhCode)]

/-! ## Engine commands (R368) -/

/-- R368: the flags that an instruction of the current thread raises now: none again after it has waited for a place. -/
def Cur.rises (c : Cur) : List Nat := if c.t.raised.isSome then [] else hdrSets c.hdr1
/-- A command of a class may issue: no token register has a token pending, no flag that it raises is full, its thread has no acquire
outstanding, and a place is free. -/
def Cur.mayIssue (c : Cur) (d : Dev) (cls : Cls) (regs : List Nat) : Prop :=
  (∀ i ∈ regs, i ∉ c.t.pend) ∧ (∀ f ∈ c.rises, natAt c.w.flags f < 65535) ∧ d.acquiring c.who = [] ∧ d.taken c.w.die c.w.core cls < cls.places
/-- The command that an instruction of the current thread issues (R368). -/
def Cur.command (c : Cur) (d : Dev) (cls : Cls) (token : Option (Nat × Nat)) (pages : List Nat) (result : Dword) (body : Body) :
    Cmd :=
  { id := d.nextCmd, uid := c.w.uid, tid := c.tid, die := c.w.die, core := c.w.core, ctx := c.w.ctx, cls := cls,
    flags := c.t.raised.getD (hdrSets c.hdr1), token := token, body := body, result := result, bad := [], sticky := 0, pages := pages,
    walking := none, walkFail := [], metered := [], early := [], earlyMem := [], past := d.pastOf c.w c.tid body, barred := [], acq := false }
/-- The device after a command has issued: its flags have risen by one and it is outstanding. -/
def Dev.issued (d : Dev) (c : Cur) (x : Cmd) : Dev :=
  let d := d.modWg c.w.uid fun w => { w with flags := c.rises.foldl (fun fs f => updAt fs f (· + 1)) w.flags }
  { d with cmds := d.cmds ++ [x], nextCmd := d.nextCmd + 1 }
/-- The thread after a command has issued: its token registers are pending, and writes to them are discarded (R201). -/
def Thread.pends (t : Thread) (regs : List Nat) : Thread := { t.note regs with pend := t.pend ++ regs, locked := t.locked ++ regs }
/-- The registers of a token. -/
def tokenRegs (token : Option (Nat × Nat)) : List Nat :=
  match token with
  | some (r, n) => (List.range n).map (· + r)
  | none => []

/-- The value of `n` registers from `i` up, the first lowest (R370). -/
def Thread.load (t : Thread) (i : Nat) : Nat → Nat
  | 0 => 0
  | n + 1 => (t.val i).toNat + 2 ^ 32 * t.load (i + 1) n
/-- `n` registers from `i` up written with a value, the first lowest (R370). -/
def Thread.stow (t : Thread) (i v : Nat) : Nat → Thread
  | 0 => t
  | n + 1 => (t.set i (BitVec.ofNat 32 v)).stow (i + 1) (v / 2 ^ 32) n
/-- `n` register indices from `i` up. -/
def regsFrom (i n : Nat) : List Nat := (List.range n).map (· + i)
/-- An instruction of `n` words whose effect is to issue a command from the device `d` (R368): it completes, having read the registers
`reads`, with the command outstanding and the token pending. -/
def Issues (s : State) (c : Cur) (i : Instr) (n : Nat) (reads : List Nat) (d : Dev) (cls : Cls) (token : Option (Nat × Nat))
    (pages : List Nat) (result : Dword) (body : Body) : Prop :=
  exec i s = .next (s.completes c n (d.issued c (c.command d cls token pages result body)) ((c.t.note reads).pends (tokenRegs token)))
/-- The token of an instruction with a TK bit (R368). -/
def tokenOf (tk : Bool) (d : Reg) : Option (Nat × Nat) := if tk then some (d.toNat, 1) else none
/-- R231: the place of a scratchpad range of an engine command: its first byte with the alignment, and its last, pass the checks. -/
def Dev.spanAt (d : Dev) (w : Wg) (addr : Word) (n align : Nat) : Option Place :=
  if 2 ^ 25 ≤ addr.toNat + (n - 1) then none
  else
    match d.scratchAt w addr 1 align, d.scratchAt w (BitVec.ofNat 32 (addr.toNat + (n - 1))) 1 1 with
    | .ok p, .ok _ => some p
    | .ok _, .error _ | .error _, _ => none
/-- R381: a side of a copy that passes its checks: memory by the pair at `r`, or scratchpad by the register at `r`. -/
def Cur.copySide (c : Cur) (d : Dev) (mem : Bool) (r n : Nat) : Option Side :=
  if mem then
    if (c.t.dval r).toNat % 4 = 0 ∧ (n = 0 ∨ canonicalRange (c.t.dval r) n = true) then some (.mem (c.t.dval r)) else none
  else if (c.t.val r).toNat % 4 ≠ 0 then none
  else if n = 0 then some (.scr c.w.uid 0)
  else (d.spanAt c.w (c.t.val r) n 4).map fun p => .scr p.uid p.off
/-- R378, R381: the place of a copy's barrier, where it has one: it passes its checks, and its PENDING holds the byte count. -/
def Cur.mayAnnounce (c : Cur) (d : Dev) (bar : Option Reg) (bytes : Nat) (place : Option (Nat × Nat)) : Prop :=
  match bar with
  | none => place = none
  | some r => ∃ p, d.scratchAt c.w (c.t.val r.toNat) 16 16 = .ok p ∧ (d.barRd p).pending + bytes < 2 ^ 32 ∧ place = some (p.uid, p.off)
/-- R378: the byte count of a copy is added to PENDING of its barrier. -/
def Dev.expects (d : Dev) (place : Option (Nat × Nat)) (bytes : Nat) : Dev :=
  match place with
  | none => d
  | some (u, o) =>
    let p : Place := { uid := u, off := o }
    d.barWr p { d.barRd p with pending := (d.barRd p).pending + bytes }
/-- R368, R378: the same for a copy with a barrier, whose byte count is announced as it issues. -/
def IssuesCopy (s : State) (c : Cur) (i : Instr) (n : Nat) (reads : List Nat) (token : Option (Nat × Nat)) (place : Option (Nat × Nat))
    (bytes : Nat) (body : Body) : Prop :=
  exec i s = .next (s.completes c n ((s.dev.issued c (c.command s.dev .cpy token [] 1 body)).expects place bytes)
    ((c.t.note reads).pends (tokenRegs token)))
/-- R156, R157: the pair at `r` translates to a physical address for an access. -/
def Cur.reaches (c : Cur) (d : Dev) (u : TlbUnit) (acc : Access) (r pa : Nat) : Prop :=
  d.xlate c.w.die c.w.ctx u acc c.t.walkFail (c.t.dval r) = .hit pa

/-- R63, R65, R70, R77, R81: message `idx` of a die is of a kind, no rule discards it, and it has its kind's form. -/
def Dev.reads (d : Dev) (die idx kind : Nat) (ok : List Dword → Bool) (m : Msg) : Prop :=
  (d.die die).inbox[idx]? = some m ∧ msgKind m.ws = kind ∧ ok m.ws = true ∧ d.heldLong m = false ∧ msgE2eOk m.ws = true ∧
  (msgClass m.ws ≠ 3 → d.incOf die (msgSrc m.ws) = msgSinc m.ws) ∧
  (d.die die).quarantined m = false
/-- R78, R79: the tag of a message is not behind its window and has not been seen; `w` is the window once the message has been heard,
a new one where the die has fewer than 8,192. -/
def Dev.newTag (d : Dev) (die idx : Nat) (m : Msg) (oldest : Nat) (w : Window) : Prop :=
  let tag := dwordAt m.ws 2
  let x := (d.consume die idx).die die
  (∃ v : Window, w = v.advance oldest ∧
    ((x.window? (tagDie tag) (tagCtx tag) = none ∧ x.windows.length < 8192 ∧
        v = { src := tagDie tag, ctx := tagCtx tag, lwm := oldest, seen := [], lastAt := d.raw }) ∨
      ∃ u, x.window? (tagDie tag) (tagCtx tag) = some u ∧ v = { u with lastAt := d.raw })) ∧
  seqAhead w.lwm (tagSeq tag) = false ∧ findKey (tagSeq tag) w.seen = none

end Sys2Proof.Machine

namespace Sys2Proof

open Sys2Proof.Machine

/-- Registers whose working copy a register instruction of R332 to R351 may change, and whether it may change predicates; none
for every other instruction. movxw writes the register that its destination field's value names. -/
def Instr.writes (i : Instr) (t : Thread) : Option (List Nat × Bool) :=
  match i with
  | .add d _ _ | .sub d _ _ | .mul d _ _ | .mulhi d _ _ | .mulhiu d _ _ | .div d _ _ | .divu d _ _ | .rem d _ _ | .remu d _ _
  | .min d _ _ | .max d _ _ | .minu d _ _ | .maxu d _ _ | .and_ d _ _ | .or_ d _ _ | .xor d _ _ | .andn d _ _ | .shl d _ _
  | .shr d _ _ | .sar d _ _ | .rotl d _ _ | .rotr d _ _ | .mad d _ _ | .fmin d _ _ | .fmax d _ _ | .bmin d _ _ | .bmax d _ _
  | .hmin d _ _ | .hmax d _ _ => some ([d.toNat], false)
  | .abs d _ | .neg d _ | .not_ d _ | .clz d _ | .popc d _ | .brev d _ | .mov d _ | .movx d _ | .fabs d _ | .fneg d _ | .frcp d _
  | .frsq d _ | .fexp2 d _ | .flog2 d _ | .ftanh d _ | .bf2f d _ | .h2f d _ | .prd d => some ([d.toNat], false)
  | .bfe d _ _ _ | .bfeS d _ _ _ | .bfi d _ _ _ | .addi d _ _ _ | .andi d _ _ _ | .ori d _ _ _ | .xori d _ _ _ | .shli d _ _ _
  | .shri d _ _ _ | .sari d _ _ _ | .muli d _ _ _ | .fadd d _ _ _ | .fsub d _ _ _ | .fmul d _ _ _ | .fdiv d _ _ _
  | .ffma d _ _ _ | .ffms d _ _ _ | .ffnma d _ _ _ | .badd d _ _ _ | .bsub d _ _ _ | .bmul d _ _ _ | .bfma d _ _ _
  | .hadd d _ _ _ | .hsub d _ _ _ | .hmul d _ _ _ | .hfma d _ _ _ => some ([d.toNat], false)
  | .movi d _ _ | .fsqrt d _ _ | .f2i d _ _ | .f2u d _ _ | .i2f d _ _ | .u2f d _ _ | .frint d _ _ | .f2bf d _ _ | .f2h d _ _ =>
    some ([d.toNat], false)
  | .cvtn d _ _ _ _ _ _ | .cvtnp d _ _ _ _ _ _ | .deq d _ _ _ _ | .sel d _ _ _ _ => some ([d.toNat], false)
  | .dadd d _ _ | .dsub d _ _ | .dmul d _ _ | .dshl d _ _ | .dshr d _ _ | .dsar d _ _ | .mulw d _ _ | .mulwu d _ _ | .dmin d _ _
  | .dmax d _ _ | .dminu d _ _ | .dmaxu d _ _ | .dsel d _ _ _ _ => some ([d.toNat, d.toNat + 1], false)
  | .dmov d _ => some ([d.toNat, d.toNat + 1], false)
  | .movxw d _ => some ([(t.val d.toNat).toNat], false)
  | .cmpp _ _ _ _ _ _ _ | .pand _ _ _ | .por _ _ _ | .pxor _ _ _ | .pnot _ _ | .pwr _ => some ([], true)
  | _ => none

end Sys2Proof
end

