-- ==== Sys2Proof/Certificates/Slice0/Obligations.lean ====
section
/-!
DEFINITION. The statements for the provers: what the numbered rules of the spec say that the instructions and events of the machine
do. Each docstring names the rules.
-/

open Sys2Proof Sys2Proof.Machine

/-! ## The machine as a whole -/

/-- R20: the default power limit is 2.7 kW. R22: THERMSTAT is zero at reset. R58, R59: a link is down, with no key live and no error
counted. R31: the bring-up starts at step 1, with nothing running. Where the spec leaves a point open or to inference, the model's
choice stands (log 1). -/
def Obligations.ResetLeaves : Prop :=
  State.reset.mgmt.limit = 2700 ∧ State.reset.mgmt.bootStep = 1 ∧ State.reset.mgmt.alert = false ∧
  State.reset.dev.wgs = [] ∧ State.reset.dev.mem = [] ∧
  (∀ n core, (State.reset.dev.die n).thermstat core = 0#32) ∧
  (∀ n unit, ((State.reset.dev.die n).link unit).linkstat = 0#32 ∧ ((State.reset.dev.die n).link unit).linkerr = 0#32) ∧
  ∀ n, (State.reset.dev.die n).counters = Counters.reset

/-- R20, R24, R31, R148: the registers of the management controller satisfy their invariant at reset. -/
def Obligations.ResetMgmtInv : Prop := Mgmt.Inv State.reset.mgmt

/-- R20, R24, R31, R148: whatever happens, the registers of the management controller hold what the spec lets them hold. -/
def Obligations.StepKeepsMgmtInv : Prop :=
  ∀ s t : State, Mgmt.Inv s.mgmt → step s = .next t → Mgmt.Inv t.mgmt

/-- R308 to R319: the words of a well-formed instruction decode to it, at any place in a stream of bytes. -/
def Obligations.DecodeEncode : Prop :=
  ∀ (i : Instr) (rest : List Byte), i.isProgram = true → i.wellFormed = true →
    decodeBytes ((encode i).flatMap bytesOfWord ++ rest) = .ok (i, rest)

/-- R308 to R319: every word that is accepted is the one encoding of the well-formed instruction it stands for: no bit is ignored. -/
def Obligations.EncodeDecode : Prop :=
  ∀ (w next : Word) (i : Instr) (n : Nat), decodeUnit w (some next) = .ok (i, n) →
    i.isProgram = true ∧ i.wellFormed = true ∧ n = i.size ∧ encode i = (if n = 2 then [w, next] else [w])

/-- R307, R310, R317: words written out from the encoding tables decode to the instructions they stand for. -/
def Obligations.SpecWordsDecode : Prop :=
  decodeWord .none 0xE8A0_0A04#32 = .ok (.srd 10 .cycle) ∧
  decodeWord .none 0x9C40_8605#32 = .ok (.cas 4 2 6 .acq .cl) ∧
  decodeWord .none 0xBD00_80F2#32 = .ok (.fence 0x10 0x02 .die) ∧
  decodeWord .none 0xE800_2A03#32 = .ok (.trap 0x2A) ∧
  decodeWord .none 0xF380_0004#32 = .ok .exit ∧
  decodeWord .none 0x1C41_3FFF#32 = .ok (.addi 4 4 0x3FFF none) ∧
  decodeWord .none 0x1030_4487#32 = .ok (.bfeS 3 1 4 7) ∧
  decodeUnit 0xF900_9800#32 (some 0xD142_0500#32) = .ok (.invokeDie 20 8 5 (some { av := true, arr := 12, nw := 0 }), 2) ∧
  decodeUnit 0xFA03_0400#32 (some 0xDD42_00D8#32) =
    .ok (.mma 20 8 true { k := .k256, n128 := true, m128 := true } false (some { da := 3, db := 4, ta := false, tb := false }), 2)

/-- R209, R314, R315, R316, R319: with nothing else chosen, a step executes the instruction that the words of the block encode at the
current thread's offset, and time passes after it; where they encode none, or one that may not stand there, it executes the
ILLEGAL_INSTR of R319. Where the spec leaves a point open or to inference, the model's choice stands (log 5, 6, 53). -/
def Obligations.StepRunsDecoded : Prop :=
  ∀ (s : State) (c : Cur), s.agenda = [] → s.dev.cur = some c → 1 ≤ c.t.off → c.t.off ≤ hdrLen c.hdr0 →
    let unit := decodeUnit (c.word c.t.off) (if c.t.off < hdrLen c.hdr0 then some (c.word (c.t.off + 1)) else none)
    (∀ i n, unit = .ok (i, n) → i.isTerminator = decide (c.t.off + n - 1 = hdrLen c.hdr0) →
      ∀ t, exec i s = .next t → step s = .next { t with dev := t.dev.pass }) ∧
    ((∀ i n, unit = .ok (i, n) → i.isTerminator ≠ decide (c.t.off + n - 1 = hdrLen c.hdr0)) →
      ∀ t, exec .illegalInstr s = .next t → step s = .next { t with dev := t.dev.pass })

/-! ## Registers, arithmetic and predicates -/

/-- R210: below REGS a register holds what was written; from REGS to ALLOC it reads zero and ignores writes, which set SLACK; from ALLOC
up it faults. R201: a write to a register whose token was issued in the block is discarded. Where the spec leaves a point open or to
inference, the model's choice stands (log 13). -/
def Obligations.RegisterFile : Prop :=
  ∀ (t : Thread) (i j : Nat) (v : Word), t.work.length = 64 → t.regs ≤ 64 →
    (i < t.regs → i ∉ t.locked → (t.set i v).val j = (if j = i then v else t.val j) ∧ (t.set i v).sticky = t.sticky) ∧
    (i < t.regs → i ∈ t.locked → t.set i v = t) ∧
    (t.regs ≤ i → i < t.alloc → t.val i = 0#32 ∧ (t.set i v).work = t.work ∧ (t.set i v).sticky = t.sticky ||| 0x40#7) ∧
    (t.alloc ≤ i → t.get i = .error regRange ∧ t.put i v = .error regRange)

/-- R332, R334, R337, R210: the integer and logic instructions of two and three registers write what the spec's formulas give. -/
def Obligations.IntegerResults : Prop :=
  ∀ (s : State) (c : Cur) (d a b : Reg), s.dev.cur = some c →
    (∀ e ∈ int3, Does s c (e.1 d a b) 1 [a.toNat, b.toNat, d.toNat]
      ((c.t.note [a.toNat, b.toNat]).set d.toNat (e.2 (c.t.val a.toNat) (c.t.val b.toNat)))) ∧
    (∀ e ∈ int2, Does s c (e.1 d a) 1 [a.toNat, d.toNat] ((c.t.note [a.toNat]).set d.toNat (e.2 (c.t.val a.toNat))))

/-- R333 in full: the word of mad, what it writes, and what gd reads when nothing has supplied it. -/
def Obligations.MadResult : Prop :=
  (∀ d a b : Reg, decodeWord .none (pl 3#6 26 ||| pl d 20 ||| pl a 14 ||| pl b 8) = .ok (.mad d a b)) ∧
  (∀ (s : State) (c : Cur) (d a b : Reg), s.dev.cur = some c →
    Does s c (.mad d a b) 1 [a.toNat, b.toNat, d.toNat]
      ((c.t.note [a.toNat, b.toNat, d.toNat]).set d.toNat
        (BitVec.ofNat 32 ((c.t.val a.toNat).toNat * (c.t.val b.toNat).toNat + (c.t.val d.toNat).toNat)))) ∧
  (∀ (t : Thread) (liveIn : BitVec 8) (d : Reg), liveIn.getLsbD (d.toNat / 8) = false →
    { t with work := t.gatherIn liveIn }.val d.toNat = 0#32)

/-- R334: clz counts the zero bits above the highest one, popc the ones, and brev exchanges bit i with bit 31 − i. R335: bit i of an
extracted field is bit POS + i of the source; bfe.s repeats the field's top bit; bfi replaces the field and keeps every other bit of
gd. A field that passes bit 31 is no instruction. -/
def Obligations.BitFields : Prop :=
  (∀ (s : State) (c : Cur) (d a : Reg), s.dev.cur = some c →
     let x := c.t.val a.toNat
     let writes := fun (v : Word) => (c.t.note [a.toNat]).set d.toNat v
     (∃ v : Word, Does s c (.clz d a) 1 [a.toNat, d.toNat] (writes v) ∧ v.toNat ≤ 32 ∧
       (∀ i < v.toNat, x.getLsbD (31 - i) = false) ∧ (v.toNat < 32 → x.getLsbD (31 - v.toNat) = true)) ∧
     (∃ v : Word, Does s c (.popc d a) 1 [a.toNat, d.toNat] (writes v) ∧
       v.toNat = (((List.range 32).map fun i => (x.getLsbD i).toNat).foldl (· + ·) 0)) ∧
     (∃ v : Word, Does s c (.brev d a) 1 [a.toNat, d.toNat] (writes v) ∧ ∀ i < 32, v.getLsbD i = x.getLsbD (31 - i))) ∧
  (∀ (s : State) (c : Cur) (d a : Reg) (pos : BitVec 6) (lenm1 : BitVec 5), s.dev.cur = some c →
     let x := c.t.val a.toNat
     let z := c.t.val d.toNat
     let p := pos.toNat
     let len := lenm1.toNat + 1
     (p + len ≤ 32 →
       (∃ v : Word, Does s c (.bfe d a pos lenm1) 1 [a.toNat, d.toNat] ((c.t.note [a.toNat]).set d.toNat v) ∧
         ∀ i < 32, v.getLsbD i = (decide (i < len) && x.getLsbD (p + i))) ∧
       (∃ v : Word, Does s c (.bfeS d a pos lenm1) 1 [a.toNat, d.toNat] ((c.t.note [a.toNat]).set d.toNat v) ∧
         ∀ i < 32, v.getLsbD i = x.getLsbD (p + min i (len - 1))) ∧
       (∃ v : Word, Does s c (.bfi d a pos lenm1) 1 [a.toNat, d.toNat] ((c.t.note [a.toNat, d.toNat]).set d.toNat v) ∧
         ∀ i < 32, v.getLsbD i = if p ≤ i ∧ i < p + len then x.getLsbD (i - p) else z.getLsbD i)) ∧
     (32 < p + len → (Instr.bfe d a pos lenm1).wellFormed = false ∧ (Instr.bfeS d a pos lenm1).wellFormed = false ∧
       (Instr.bfi d a pos lenm1).wellFormed = false))

/-- R336, R337: the forms that write a pair of registers. R337, R201: movx reads and movxw writes the register that a register's value
names; a value at or beyond ALLOC faults, and a write to a register with a pending token is discarded, but for SLACK where the
register lies in the slack. -/
def Obligations.PairsAndMoves : Prop :=
  (∀ (s : State) (c : Cur) (d a b : Reg), s.dev.cur = some c →
     (∀ e ∈ pair3, Does s c (e.1 d a b) 1 (pairIdx [a, b, d])
       ((c.t.note (pairIdx [a, b])).dset d.toNat (e.2 (c.t.dval a.toNat) (c.t.dval b.toNat)))) ∧
     (∀ e ∈ pairShift, Does s c (e.1 d a b) 1 (pairIdx [a, d] ++ [b.toNat])
       ((c.t.note (pairIdx [a] ++ [b.toNat])).dset d.toNat (e.2 (c.t.dval a.toNat) (c.t.val b.toNat)))) ∧
     (∀ e ∈ wideMul, Does s c (e.1 d a b) 1 (pairIdx [d] ++ [a.toNat, b.toNat])
       ((c.t.note [a.toNat, b.toNat]).dset d.toNat (e.2 (c.t.val a.toNat) (c.t.val b.toNat)))) ∧
     Does s c (.dmov d a) 1 (pairIdx [a, d]) ((c.t.note (pairIdx [a])).dset d.toNat (c.t.dval a.toNat))) ∧
  (∀ (s : State) (c : Cur) (d a : Reg), s.dev.cur = some c → c.t.able [a.toNat, d.toNat] = true →
     let x := (c.t.val a.toNat).toNat
     let z := (c.t.val d.toNat).toNat
     (x < c.t.alloc → exec (.movx d a) s =
       .next (s.completes c 1 s.dev ((c.t.note [a.toNat, x]).set d.toNat (c.t.val x)))) ∧
     (c.t.alloc ≤ x → exec (.movx d a) s = .next (s.traps c regRange)) ∧
     (z < c.t.alloc → z ∉ c.t.pend → exec (.movxw d a) s =
       .next (s.completes c 1 s.dev ((c.t.note [a.toNat, d.toNat]).set z (c.t.val a.toNat)))) ∧
     (z ∈ c.t.pend → exec (.movxw d a) s = .next (s.completes c 1 s.dev (c.t.note [a.toNat, d.toNat, z]))) ∧
     (c.t.alloc ≤ z → z ∉ c.t.pend → exec (.movxw d a) s = .next (s.traps c regRange)))

/-- R338, R312: the forms with an immediate, of one word without a hint and of two with one. -/
def Obligations.ImmediateResults : Prop :=
  ∀ (s : State) (c : Cur) (d a : Reg) (imm : BitVec 14) (hi : Option (BitVec 18)) (n : BitVec 5) (hinted : Bool),
    s.dev.cur = some c →
    (∀ e ∈ imm2, Does s c (e.1 d a imm hi) (if hi = none then 1 else 2) [a.toNat, d.toNat]
      ((c.t.note [a.toNat]).set d.toNat (e.2 (c.t.val a.toNat) (immValue imm hi)))) ∧
    (∀ e ∈ immShift, Does s c (e.1 d a n hinted) (if hinted then 2 else 1) [a.toNat, d.toNat]
      ((c.t.note [a.toNat]).set d.toNat (e.2 (c.t.val a.toNat) n.toNat))) ∧
    Does s c (.movi d imm hi) (if hi = none then 1 else 2) [d.toNat] (c.t.set d.toNat (immValue imm hi))

/-- R339, R340: an FP32 result is the exact result of the values of the codes, rounded once, with the flags of the operation and of the
rounding; minimum and maximum choose one of the two codes, neither of which lies below, or above, it; a square root is the grid's
code for the root; fabs and fneg change the sign bit alone. A product 0 × ∞ is a NaN whatever is added. R341: each transcendental
instruction completes with its function's code, and the special cases are those of the table: a zero divisor gives an infinity with
DZ, an invalid argument the NaN with NV. -/
def Obligations.FloatResults : Prop :=
  (∀ (s : State) (c : Cur) (d a b : Reg) (rm : Rm), s.dev.cur = some c →
     let val := fun (r : Reg) => valueOf .fp32 (c.t.val r.toNat).toNat
     let x := (c.t.val a.toNat).toNat
     let y := (c.t.val b.toNat).toNat
     let fin := fun (v : XVal) (fl : BitVec 7) =>
       ((roundTo .fp32 rm.mode false v).1, (roundTo .fp32 rm.mode false v).2 ||| fl)
     let t2 := c.t.note [a.toNat, b.toNat]
     let t1 := c.t.note [a.toNat]
     (∀ e ∈ float3, Does s c (e.1 d a b rm) 1 [a.toNat, b.toNat, d.toNat]
       (t2.wins d (fin (e.2 rm (val a) (val b)).1 (e.2 rm (val a) (val b)).2))) ∧
     (∀ e ∈ fused, Does s c (e.1 d a b rm) 1 [a.toNat, b.toNat, d.toNat]
       ((c.t.note [a.toNat, b.toNat, d.toNat]).wins d
         (if (XVal.mul (val a) (val b)).2 then (0x7FC0_0000, fNV)
          else
           let p := (XVal.mul (val a) (val b)).1
           let r := XVal.add (rm == .rdn) (if e.2.1 then p.negate else p) (if e.2.2 then (val d).negate else val d)
           fin r.1 (if r.2 then fNV else 0#7)))) ∧
     (let root := fun (r : Nat × BitVec 7) => Does s c (.fsqrt d a rm) 1 [a.toNat, d.toNat] (t1.wins d r)
      (val a = .nan → root (0x7FC0_0000, 0#7)) ∧
      (∀ neg, val a = .inf neg → root (if neg then (0x7FC0_0000, fNV) else (x, 0#7))) ∧
      ∀ neg n e, val a = .fin neg n e → (n = 0 → root (x, 0#7)) ∧ (n ≠ 0 → neg = true → root (0x7FC0_0000, fNV)) ∧
        (n ≠ 0 → neg = false → ∃ m, SqrtCode rm n e m ∧
          root (m, if (Target.el .fp32).grid m ^ 2 * e = n * 2 ^ 298 then 0#7 else fNX))) ∧
     (((val a).isNan = true ∨ (val b).isNan = true → ∀ i ∈ [Instr.fmin d a b, .fmax d a b],
        Does s c i 1 [a.toNat, b.toNat, d.toNat] (t2.wins d (0x7FC0_0000, 0#7))) ∧
      ((val a).isNan = false → (val b).isNan = false →
        (∃ r, (r = x ∨ r = y) ∧ ¬Below x r ∧ ¬Below y r ∧ Does s c (.fmin d a b) 1 [a.toNat, b.toNat, d.toNat] (t2.wins d (r, 0#7))) ∧
        ∃ r, (r = x ∨ r = y) ∧ ¬Below r x ∧ ¬Below r y ∧ Does s c (.fmax d a b) 1 [a.toNat, b.toNat, d.toNat] (t2.wins d (r, 0#7)))) ∧
     Does s c (.fabs d a) 1 [a.toNat, d.toNat]
       (t1.wins d (if (val a).isNan then 0x7FC0_0000 else x % 2 ^ 31, 0#7)) ∧
     Does s c (.fneg d a) 1 [a.toNat, d.toNat]
       (t1.wins d (if (val a).isNan then 0x7FC0_0000 else (x + 2 ^ 31) % 2 ^ 32, 0#7))) ∧
  ((∀ (s : State) (c : Cur) (d a : Reg), s.dev.cur = some c → ∀ e ∈ transc,
     Does s c (e.1 d a) 1 [a.toNat, d.toNat] ((c.t.note [a.toNat]).wins d (e.2 (c.t.val a.toNat).toNat))) ∧
   rcpCode 0 = (0x7F80_0000, fDZ) ∧ rcpCode 0x8000_0000 = (0xFF80_0000, fDZ) ∧ rcpCode 0xFF80_0000 = (0x8000_0000, 0#7) ∧
   rsqCode 0 = (0x7F80_0000, fDZ) ∧ rsqCode 0xBF80_0000 = (0x7FC0_0000, fNV) ∧ rsqCode 0x7F80_0000 = (0, 0#7) ∧
   exp2Code 0xFF80_0000 = (0, 0#7) ∧ exp2Code 0x7F80_0000 = (0x7F80_0000, 0#7) ∧
   log2Code 0 = (0xFF80_0000, fDZ) ∧ log2Code 0xFF80_0000 = (0x7FC0_0000, fNV) ∧ log2Code 0x7F80_0000 = (0x7F80_0000, 0#7) ∧
   tanhCode 0x7F80_0000 = (0x3F80_0000, 0#7) ∧ tanhCode 0xFF80_0000 = (0xBF80_0000, 0#7) ∧ tanhCode 0x8000_0000 = (0x8000_0000, 0#7))

/-- R342: the packed forms work on two 16-bit lanes, lane 0 lowest, each on its own: the exact result rounded once; the lane that the
other does not lie below, or above; a fused product and addend, with the NaN and NV for a product 0 × ∞ whatever the addend. -/
def Obligations.PackedResults : Prop :=
  ∀ (s : State) (c : Cur) (d a b : Reg) (rm : Rm), s.dev.cur = some c →
    let lane := fun (r : Reg) (k : Nat) => (c.t.val r.toNat).toNat / 2 ^ (16 * k) % 2 ^ 16
    let both := fun (f : Nat → Nat × BitVec 7) => ((f 0).1 + 2 ^ 16 * (f 1).1, (f 0).2 ||| (f 1).2)
    let t2 := c.t.note [a.toNat, b.toNat]
    (∀ e ∈ packed3, Does s c (e.1 d a b rm) 1 [a.toNat, b.toNat, d.toNat]
      (t2.wins d (both fun k =>
        let r := e.2.2 rm (valueOf e.2.1 (lane a k)) (valueOf e.2.1 (lane b k))
        ((roundTo e.2.1 rm.mode false r.1).1, (roundTo e.2.1 rm.mode false r.1).2 ||| if r.2 then fNV else 0#7)))) ∧
    (∀ e ∈ packedPick, ∃ r : Nat → Nat × BitVec 7,
      Does s c (e.1 d a b) 1 [a.toNat, b.toNat, d.toNat] (t2.wins d (both r)) ∧
      ∀ k < 2, PickOf e.2.1 e.2.2 (lane a k) (lane b k) (r k)) ∧
    ∀ e ∈ [(Instr.bfma d a b rm, Fmt.bf16, 0x7FC0), (.hfma d a b rm, .fp16, 0x7E00)],
      Does s c e.1 1 [a.toNat, b.toNat, d.toNat]
        ((c.t.note [a.toNat, b.toNat, d.toNat]).wins d (both fun k =>
          let p := XVal.mul (valueOf e.2.1 (lane a k)) (valueOf e.2.1 (lane b k))
          if p.2 then (e.2.2, fNV)
          else
            let r := XVal.add (rm == .rdn) p.1 (valueOf e.2.1 (lane d k))
            ((roundTo e.2.1 rm.mode false r.1).1, (roundTo e.2.1 rm.mode false r.1).2 ||| if r.2 then fNV else 0#7)))

/-- R262 in full. -/
def Obligations.E8m0Value : Prop :=
  (∀ c : Byte, c.toNat ≤ 254 → ∃ n d, scaleValue .e8m0 c = .fin false n d ∧ 0 < n ∧ n * 2 ^ 127 = d * 2 ^ c.toNat) ∧
  scaleValue .e8m0 0xFF#8 = .nan

/-- R268 to R270, R273, R258, R277: for every format and mode, a finite value takes the code on the grid that the mode chooses, with its
sign (zero is code 0 in T8 and T6); the code's value is that of the grid. It sets NX where they differ, and UF where it then lies
below the smallest normal value. The virtual code is an overflow: it and an infinity give the codes of the table, with their flags.
R268, R270: toward zero, the code of a magnitude that lies within FP32's range is the last one on the grid that does not exceed it.
R343, R344: an integer of at most 24 bits converts to FP32 and back unchanged, without a flag, in every mode. -/
def Obligations.Rounding : Prop :=
  (∀ (f : Fmt) (m : Mode) (sat neg : Bool),
     let mag := fun (c : Nat) => (if neg then 2 ^ (f.width - 1) else 0) + c
     let past := if f ∈ [Fmt.fp32, .bf16, .fp16, .fp64, .e5m2] then (if sat then mag f.maxCode else mag (f.maxCode + 1))
       else if f ∈ [Fmt.e3m2, .e2m3, .e2m1] ∨ sat = true then mag f.maxCode else f.nan
     (∀ num den, 0 < den → ∃ c, Chooses f m neg (num * 2 ^ f.unit) den c ∧ c ≤ f.maxCode + 1 ∧
       let r := roundTo f m sat (.fin neg num den)
       (c = f.maxCode + 1 → r = (past, fOF ||| fNX)) ∧
       (c ≤ f.maxCode →
         let same := (Target.el f).grid c * den = num * 2 ^ f.unit
         let small := num * 2 ^ f.unit < (if f ∈ [Fmt.t8, .t6] then 1 else 2 ^ f.frac) * den
         r = (if c = 0 ∧ f ∈ [Fmt.t8, .t6] then 0 else mag c,
              (if same then 0#7 else fNX) ||| if ¬same ∧ small then fUF else 0#7) ∧
         (valueOf f r.1).eqv (.fin neg ((Target.el f).grid c) (2 ^ f.unit)) = true)) ∧
     roundTo f m sat (.inf neg) =
       (past, if f ∈ [Fmt.fp32, .bf16, .fp16, .fp64, .e5m2] ∧ sat = false then 0#7
              else if f ∈ [Fmt.e4m3, .t8, .t6] ∧ sat = false then fNV else fOF ||| fNX) ∧
     roundTo f m sat .nan = (f.nan, if f ∈ [Fmt.e3m2, .e2m3, .e2m1] then fNV else 0#7) ∧
     [Fmt.fp32, .bf16, .fp16, .e5m2, .e4m3, .e3m2, .e2m3, .e2m1, .t8, .t6, .fp64].map (fun f => (f.width, f.maxCode, f.nan, f.unit)) =
       [(32, 0x7F7F_FFFF, 0x7FC0_0000, 149), (16, 0x7F7F, 0x7FC0, 133), (16, 0x7BFF, 0x7E00, 24), (8, 0x7B, 0x7E, 16), (8, 0x7E, 0x7F, 9),
        (6, 0x1F, 0, 4), (6, 0x1F, 0, 3), (4, 0x7, 0, 1), (8, 0x7F, 0x80, 12), (6, 0x1F, 0x20, 8),
        (64, 0x7FEF_FFFF_FFFF_FFFF, 0x7FF8_0000_0000_0000, 1074)]) ∧
  (∀ (neg : Bool) (num den : Nat), 0 < den → num * 2 ^ 149 < (Target.el .fp32).grid 0x7F80_0000 * den →
     ∃ m, (roundTo .fp32 .rtz false (.fin neg num den)).1 = (if neg then 2 ^ 31 else 0) + m ∧ m ≤ 0x7F7F_FFFF ∧
       (Target.el .fp32).grid m * den ≤ num * 2 ^ 149 ∧ num * 2 ^ 149 < (Target.el .fp32).grid (m + 1) * den) ∧
  (∀ (rm rm' : Rm) (v : Int), -(2 ^ 24) ≤ v → v ≤ 2 ^ 24 →
     (fromInt rm v).2 = 0#7 ∧ f2iCode rm' (fromInt rm v).1 = (BitVec.ofInt 32 v, 0#7))

/-- R343, R344: f2i and f2u give the integer that the mode selects, with NX where it is not the value; a NaN gives 0 and what lies
beyond the target range its end, with NV. frint gives the FP32 code of the integer with the sign of its input and sets no flag. R343
to R348: the conversions between formats: integers and FP32 codes rounded once; BF16 and FP16 codes widened exactly; a narrow code
in the low bits of its register, and the codes of cvtnp side by side, each converted at its own index; an element times its scale.
SR takes the random value of R271 for each element. -/
def Obligations.ConvertResults : Prop :=
  (∀ (s : State) (c : Cur) (d a : Reg) (rm : Rm), s.dev.cur = some c →
     let x := c.t.val a.toNat
     let v := valueOf .fp32 x.toNat
     let one := fun (i : Instr) (r : Word) (fl : BitVec 7) =>
       Does s c i 1 [a.toNat, d.toNat] ((c.t.note [a.toNat]).wins d (r.toNat, fl))
     (v = .nan → one (.f2i d a rm) 0 fNV ∧ one (.f2u d a rm) 0 fNV ∧ one (.frint d a rm) 0x7FC0_0000 0#7) ∧
     (∀ neg, v = .inf neg → one (.f2i d a rm) (if neg then 0x8000_0000 else 0x7FFF_FFFF) fNV ∧
       one (.f2u d a rm) (if neg then 0 else 0xFFFF_FFFF) fNV ∧ one (.frint d a rm) x 0#7) ∧
     ∀ neg n e, v = .fin neg n e →
       let exact : Int := if neg then -(n : Int) else n
       ∃ k, Selects rm exact e k ∧
         (let nx := if k * e = exact then 0#7 else fNX
          (2 ^ 31 - 1 < k → one (.f2i d a rm) 0x7FFF_FFFF fNV) ∧ (k < -(2 ^ 31) → one (.f2i d a rm) 0x8000_0000 fNV) ∧
          (-(2 ^ 31) ≤ k → k ≤ 2 ^ 31 - 1 → one (.f2i d a rm) (BitVec.ofInt 32 k) nx) ∧
          (2 ^ 32 - 1 < k → one (.f2u d a rm) 0xFFFF_FFFF fNV) ∧ (k < 0 → one (.f2u d a rm) 0 fNV) ∧
          (0 ≤ k → k ≤ 2 ^ 32 - 1 → one (.f2u d a rm) (BitVec.ofInt 32 k) nx)) ∧
         ∃ (r : Word) (m q : Nat), one (.frint d a rm) r 0#7 ∧ valueOf .fp32 r.toNat = .fin neg m q ∧ 0 < q ∧ m = k.natAbs * q) ∧
  ((∀ (s : State) (c : Cur) (d a b : Reg) (rm : Rm), s.dev.cur = some c →
     let x := c.t.val a.toNat
     let y := c.t.val b.toNat
     let one := fun (i : Instr) (r : Nat × BitVec 7) => Does s c i 1 [a.toNat, d.toNat] ((c.t.note [a.toNat]).wins d r)
     let round := fun (f : Fmt) (v : XVal) => roundTo f rm.mode false v
     one (.i2f d a rm) (round .fp32 (.fin (decide (x.toInt < 0)) x.toInt.natAbs 1)) ∧ one (.u2f d a rm) (round .fp32 (.fin false x.toNat 1)) ∧
     one (.f2bf d a rm) (round .bf16 (valueOf .fp32 x.toNat)) ∧ one (.f2h d a rm) (round .fp16 (valueOf .fp32 x.toNat)) ∧
     (∀ e ∈ [(Instr.bf2f d a, Fmt.bf16), (.h2f d a, .fp16)],
       let v := valueOf e.2 (x.toNat % 2 ^ 16)
       (v.isNan = true → one e.1 (0x7FC0_0000, 0#7)) ∧
       (v.isNan = false → ∃ r : Word, one e.1 (r.toNat, 0#7) ∧ (valueOf .fp32 r.toNat).eqv v = true ∧ (valueOf .fp32 r.toNat).sign = v.sign)) ∧
     (∀ fmt (sc : Scale),
       let byte := y.extractLsb' 0 8
       let m := XVal.mul (valueOf fmt x.toNat) (scaleValue sc byte)
       let r := roundTo .fp32 .rne false m.1
       let out := (r.1, r.2 ||| (if m.2 then fNV else 0#7) ||| if sc = .ue4m3 ∧ byte.getLsbD 7 = true then fBADSCALE else 0#7)
       (sc = .none → one (.deq d a b fmt sc) out) ∧
       (sc ≠ .none → Does s c (.deq d a b fmt sc) 1 [a.toNat, b.toNat, d.toNat] ((c.t.note [a.toNat, b.toNat]).wins d out))) ∧
     ∀ fmt ∈ [Fmt.bf16, .fp16, .e5m2, .e4m3, .e3m2, .e2m3, .e2m1, .t8, .t6], ∀ (rm : Rm3) sat stream,
       let more := if rm = Rm3.sr then [b.toNat, b.toNat + 1] else []
       let words := if stream = none then 1 else 2
       let code := fun (j : Nat) => roundTo fmt
         (rm.mode (srValue (s.dev.seed c) (stream.getD 0#8) (c.t.dval b.toNat + BitVec.ofNat 64 j))) sat
         (valueOf .fp32 (c.t.val (a.toNat + j)).toNat)
       Does s c (.cvtn d a b fmt rm sat stream) words (a.toNat :: more ++ [d.toNat]) ((c.t.note (a.toNat :: more)).wins d (code 0)) ∧
       ∃ (v : Nat) (fl : BitVec 7), Does s c (.cvtnp d a b fmt rm sat stream) words (regsFrom a.toNat (packed fmt) ++ more ++ [d.toNat])
           ((c.t.note (regsFrom a.toNat (packed fmt) ++ more)).wins d (v, fl)) ∧
         v < 2 ^ (fmt.width * packed fmt) ∧ (∀ j < packed fmt, v / 2 ^ (fmt.width * j) % 2 ^ fmt.width = (code j).1) ∧
         ∀ k, fl.getLsbD k = true ↔ ∃ j < packed fmt, (code j).2.getLsbD k = true) ∧
   ∀ (fmt : Fmt) (m : Mode) (sat : Bool) (v : XVal), (roundTo fmt m sat v).1 < 2 ^ fmt.width)

/-- R349 to R351: compares of signed, unsigned and FP32 values under a guard and with a combiner, where with a NaN only NE holds and −0
equals +0; predicates, and select. A write to p7 is ignored. -/
def Obligations.PredicateResults : Prop :=
  ∀ (s : State) (c : Cur) (d a b : Reg) (pd pa pb : PredReg), s.dev.cur = some c →
    let x := c.t.val a.toNat
    let y := c.t.val b.toNat
    let done := fun (i : Instr) (t : Thread) => exec i s = .next (s.completes c 1 s.dev t)
    done (.pand pd pa pb) (c.t.setPred pd (c.t.pred pa && c.t.pred pb)) ∧
    done (.por pd pa pb) (c.t.setPred pd (c.t.pred pa || c.t.pred pb)) ∧
    done (.pxor pd pa pb) (c.t.setPred pd (c.t.pred pa != c.t.pred pb)) ∧
    done (.pnot pd pa) (c.t.setPred pd (!c.t.pred pa)) ∧
    Does s c (.prd d) 1 [d.toNat] (c.t.set d.toNat (BitVec.ofNat 32 (c.t.preds.toNat + 128))) ∧
    Does s c (.pwr a) 1 [a.toNat] { c.t.note [a.toNat] with preds := BitVec.ofNat 7 x.toNat } ∧
    (∀ neg, Does s c (.sel d a b neg pa) 1 [a.toNat, b.toNat, d.toNat]
      ((c.t.note [a.toNat, b.toNat]).set d.toNat (if c.t.pred pa ≠ neg then x else y))) ∧
    (∀ neg, Does s c (.dsel d a b neg pa) 1 (pairIdx [a, b, d])
      ((c.t.note (pairIdx [a, b])).dset d.toNat (if c.t.pred pa ≠ neg then c.t.dval a.toNat else c.t.dval b.toNat))) ∧
    (∀ e ∈ comparisons, ∀ k ∈ combiners, ∀ ty,
      let res := match ty with
        | CmpTy.signed => e.2 x.toInt y.toInt
        | .unsigned => e.2 x.toNat y.toNat
        | .fp32 => if nan32 x || nan32 y then decide (e.1 = .ne) else e.2 (real32 x) (real32 y)
      Does s c (.cmpp pd pa a b e.1 ty k.1) 1 [a.toNat, b.toNat]
        (if c.t.pred pa then (c.t.note [a.toNat, b.toNat]).setPred pd (k.2 (c.t.pred pd) res) else c.t.note [a.toNat, b.toNat])) ∧
    (∀ v, c.t.setPred 7 v = c.t ∧ c.t.pred 7 = true)

/-- R331, R210, R11: a register instruction that runs in a next state changes no memory, nothing outside its thread and, in its thread,
nothing but the working copy of the registers it writes, the predicates where it writes predicates, and sticky bits it sets; or it
has raised REG_RANGE. Its place, its row, its window, its tokens, its causes and its age stay. Where the spec leaves a point open or
to inference, the model's choice stands (log 17). -/
def Obligations.RegisterFrame : Prop :=
  ∀ (s u : State) (c : Cur) (i : Instr) (ws : List Nat) (preds : Bool), s.dev.cur = some c → i.writes c.t = some (ws, preds) →
    exec i s = .next u →
    u = s.traps c regRange ∨
    ∃ t : Thread, u = s.completes c i.size s.dev t ∧ u.mgmt = s.mgmt ∧ u.agenda = s.agenda ∧ u.dev.mem = s.dev.mem ∧
      u.dev.cmds = s.dev.cmds ∧ (∀ n, u.dev.die n = s.dev.die n) ∧
      t = { c.t with work := t.work, preds := t.preds, sticky := t.sticky } ∧
      (∀ j, j ∉ ws → wordAt t.work j = wordAt c.t.work j) ∧ (preds = false → t.preds = c.t.preds) ∧
      (∀ k, c.t.sticky.getLsbD k = true → t.sticky.getLsbD k = true)

/-- R360 to R364: in a whole cohort's bundle, every participant completes with what the form gives from all participants' states before
it, in one operation: the combination of R363 and R364 over the values in ascending order, and the value of the partner of R361,
within the cohort and among the participants, where there is one. R195, R208, R360: outside a whole cohort's bundle a cohort
instruction raises COHORT_MISUSE, whatever its operands. -/
def Obligations.Cohorts : Prop :=
  (∀ (s : State) (c : Cur) (d a b : Reg) (pd p : PredReg) (neg : Bool), s.dev.cur = some c → c.b.cohort = true →
     hdrCohort c.hdr0 = true →
     let does := fun (i : Instr) (idx : List Nat) (f : List (Nat × Thread) → Nat → Thread → Thread) =>
       (∀ m ∈ c.members, m.2.able idx = true) →
         exec i s = .next (s.withDev (c.members.foldl (fun (e : Dev) m =>
           e.modThread c.w.uid m.1 fun _ => (f c.members m.1 m.2).advance 1) s.dev))
     let cond := fun (m : Nat × Thread) => m.2.pred p != neg
     does (.pollAll pd neg p) [] (fun ms _ t => t.setPred pd (ms.all cond)) ∧
     does (.pollSome pd neg p) [] (fun ms _ t => t.setPred pd (ms.any cond)) ∧
     does (.pollSame pd neg p) [] (fun ms _ t => t.setPred pd (ms.all cond || ms.all fun m => !cond m)) ∧
     does (.pmask d neg p) (pairIdx [d]) (fun ms _ t =>
       t.dset d.toNat (BitVec.ofNat 64 ((ms.map fun m => if cond m then 2 ^ (m.1 % 64) else 0).foldl (· + ·) 0))) ∧
     (∀ op, does (.fold d a op) [d.toNat, a.toNat] fun ms _ t =>
       withResult d a (combineAll op (ms.map fun m => m.2.val a.toNat)) t) ∧
     (∀ excl op, does (.prefixOp d a excl op) [d.toNat, a.toNat] fun ms i t =>
       withResult d a (combineAll op ((ms.filter fun m => decide (m.1 < i ∨ (excl = false ∧ m.1 = i))).map fun m => m.2.val a.toNat)) t) ∧
     (∀ mode, does (.peek d a b true mode) [d.toNat, a.toNat] fun ms i t =>
       match (peekAt mode i b.toNat).bind (partner ms) with
       | some q => (t.note [a.toNat]).set d.toNat (q.val a.toNat)
       | none => t.note [a.toNat]) ∧
     (∀ mode, does (.peek d a b false mode) [d.toNat, a.toNat, b.toNat] fun ms i t =>
       match (if (t.val b.toNat).toNat < 64 then peekAt mode i (t.val b.toNat).toNat else none).bind (partner ms) with
       | some q => (t.note [a.toNat, b.toNat]).set d.toNat (q.val a.toNat)
       | none => t.note [a.toNat, b.toNat]) ∧
     (∀ op xs, CombinesTo op xs (combineAll op xs)) ∧
     (∀ (mode : PeekMode) (i k q : Nat), k < 64 →
       let base := 64 * (i / 64)
       (peekAt mode i k = some q ↔ base ≤ q ∧ q ≤ base + 63 ∧ match mode with
         | .at => q = base + k
         | .back => q + k = i
         | .fwd => q = i + k
         | .flip => q = base + ((i - base) ^^^ k))) ∧
     ∀ (ms : List (Nat × Thread)) (q : Nat),
       (∀ t, partner ms q = some t → (q, t) ∈ ms) ∧ (partner ms q = none ↔ ∀ m ∈ ms, m.1 ≠ q)) ∧
  (∀ (s : State) (c : Cur) (d a b : Reg) (pd p : PredReg) (neg : Bool), s.dev.cur = some c →
     (c.b.cohort && hdrCohort c.hdr0) = false →
     ∀ i, (i = .pollAll pd neg p ∨ i = .pollSome pd neg p ∨ i = .pollSame pd neg p ∨ i = .pmask d neg p ∨ (∃ op, i = .fold d a op) ∨
         (∃ e op, i = .prefixOp d a e op) ∨ ∃ im mode, i = .peek d a b im mode) →
       exec i s = .next (s.traps c (.here 0x11 0)))

/-! ## Control and faults -/

/-- R352, R353, R358, R211, R201: where each branch goes, and the row that the block leaves: a register of a LIVEOUT group below REGS
takes the working copy, except one with a token pending or issued in the block; every other keeps its value. -/
def Obligations.Branches : Prop :=
  ∀ (s : State) (c : Cur) (p : PredReg) (off : BitVec 20) (a : Reg), s.dev.cur = some c →
    let target : Dword := BitVec.ofInt 64 ((c.t.blk.toNat : Int) + 8 * off.toInt)
    let after : Dword := BitVec.ofNat 64 (c.t.blk.toNat + roundUp (8 + 4 * hdrLen c.hdr0) 8)
    let goes := fun (i : Instr) (t : Thread) (x : Dword) => exec i s = .next (s.leaves c s.dev
      { t with pos := .waiting, blk := x, off := 0, row := c.rowOut, retired := t.retired + 1, locked := [], susp := none,
               suspended := false, expired := false, walkFail := [], raised := none })
    goes (.bra off) c.t target ∧
    goes (.brcTrue p off) c.t (if c.t.pred p then target else after) ∧
    goes (.brcFalse p off) c.t (if c.t.pred p then after else target) ∧
    goes .nxt c.t after ∧
    goes .yield { c.t with yielded := !c.w.proof } after ∧
    (c.t.able (pairIdx [a]) = true →
      ((c.t.dval a.toNat).toNat % 8 = 0 → goes (.brx a) (c.t.note (pairIdx [a])) (c.t.dval a.toNat)) ∧
      ((c.t.dval a.toNat).toNat % 8 ≠ 0 → exec (.brx a) s = .next (s.traps c (.at 0x05 0 (c.t.dval a.toNat))))) ∧
    (c.t.able (pairIdx [a]) = false → exec (.brx a) s = .next (s.traps c regRange)) ∧
    ∀ i < 64, wordAt c.rowOut i =
      if (hdrLiveOut c.hdr1).getLsbD (i / 8) ∧ i < c.t.regs ∧ i ∉ c.t.locked ∧ i ∉ c.t.pend then wordAt c.t.work i
      else wordAt c.t.row i

/-- R354, R355, R213 to R215, R240: a call whose frame fits the stack cache; one that moves the oldest frames, as few as it takes, to
the spill stack first; and one whose frame no cache holds, which is written there itself. A move that fails faults with nothing
moved. A return from the frame on top, and what a return raises that finds no frame, or one that is no call frame. A misaligned
computed target faults. The thread observes the commands whose tokens it has waited for. R213, R214, R179: sliding back with the
registers that were pushed gives the registers before the slide; and a call frame read back from its bytes is the frame, whose bytes
are charged. -/
def Obligations.Calls : Prop :=
  (∀ (s : State) (c : Cur) (sl : BitVec 2) (off : BitVec 20) (a : Reg), s.dev.cur = some c → c.t.pend = [] →
     let n := 8 * (sl.toNat + 1)
     let after : Dword := BitVec.ofNat 64 (c.t.blk.toNat + roundUp (8 + 4 * hdrLen c.hdr0) 8)
     let f : CallFrame := { ret := after, slide := n,
                            regs := (List.range n).map fun i => if i < c.t.alloc then wordAt c.rowOut i else 0#32 }
     let forms : List (Instr × Thread × Dword) := (.call sl off, c.t, BitVec.ofInt 64 ((c.t.blk.toNat : Int) + 8 * off.toInt)) ::
       if c.t.able (pairIdx [a]) = true ∧ (c.t.dval a.toNat).toNat % 8 = 0 then [(.callx a sl, c.t.note (pairIdx [a]), c.t.dval a.toNat)] else []
     let moves := fun (fs : List CallFrame) => s.dev.spillFrames false c.w c.tid c.t.walkFail c.t.sp fs.reverse
     let goes := fun (e : Instr × Thread × Dword) (d : Dev) (cache : List CallFrame) (sp : Nat) =>
       exec e.1 s = .next (s.leaves c (d.drained c) ({ e.2.1 with cache := cache, sp := sp }.goTo (slideUp c.rowOut n c.t.alloc) e.2.2))
     let fits := fun (fs : List CallFrame) => 8 + n + cacheUse fs ≤ c.w.stackc
     (fits c.t.cache → ∀ e ∈ forms, goes e s.dev (f :: c.t.cache) c.t.sp) ∧
     (∀ (kept : List CallFrame) (g : CallFrame) (out : List CallFrame), c.t.cache = kept ++ g :: out → fits kept → ¬fits (kept ++ [g]) →
       ∀ e ∈ forms, (∀ d sp, moves (g :: out) = .ok d sp → goes e d (f :: kept) sp) ∧
         ∀ x, moves (g :: out) = .fail x → exec e.1 s = .next (s.traps c x)) ∧
     (¬fits [] → ∀ e ∈ forms, ∀ d sp, moves c.t.cache = .ok d sp →
       (∀ d' sp', d.pushBytes false c.w c.tid c.t.walkFail sp f.bytes = .ok d' sp' → goes e d' [] sp') ∧
       (sp < f.size → exec e.1 s = .next (s.traps c (.here 0x10 0)))) ∧
     (∀ (d : Dev) (sp : Nat) (bs : List Byte) (ps : List (Nat × Nat)),
       (sp < bs.length → d.pushBytes false c.w c.tid c.t.walkFail sp bs = .fail (.here 0x10 0)) ∧
       (bs.length ≤ sp →
         d.reach false c.w (accStack true) c.t.walkFail (d.stackVa c.w c.tid (sp - bs.length)) 4096 bs.length = .ok ps →
         d.dirtyLines ps = [] →
         d.pushBytes false c.w c.tid c.t.walkFail sp bs =
           .ok ((d.wrPieces bs ps).dramCharge c.w.die c.w.ctx bs.length) (sp - bs.length))) ∧
     (c.t.cache = [] → c.w.spill < c.t.sp + 32 → exec .ret s = .next (s.traps c (.here 0x10 0))) ∧
     (∀ (d : Dev) (h : List Byte), c.t.cache = [] → c.t.sp + 32 ≤ c.w.spill →
       s.dev.topBytes c.w c.tid c.t.walkFail c.t.sp 32 = .ok d h →
       let ty := leValue ((h.drop 8).take 1)
       let sd := leValue ((h.drop 9).take 1)
       let ret : Dword := BitVec.ofNat 64 (leValue (h.take 8))
       (ty ≠ 1 ∨ sd ∉ [8, 16, 24, 32] ∨ ret.toNat % 8 ≠ 0 → exec .ret s = .next (s.traps c (.here 0x13 0))) ∧
       (ty = 1 → sd ∈ [8, 16, 24, 32] → ret.toNat % 8 = 0 → c.w.spill < c.t.sp + 32 + 4 * sd →
         exec .ret s = .next (s.traps c (.here 0x10 0)))) ∧
     (c.t.able (pairIdx [a]) = true → (c.t.dval a.toNat).toNat % 8 ≠ 0 →
       exec (.callx a sl) s = .next (s.traps c (.at 0x05 0 (c.t.dval a.toNat)))) ∧
     ∀ (g : CallFrame) (rest : List CallFrame), c.t.cache = g :: rest →
       exec .ret s = .next (s.leaves c (s.dev.drained c) ({ c.t with cache := rest }.goTo (slideDown c.rowOut g.regs g.slide c.t.alloc) g.ret))) ∧
  ((∀ (row : List Word) (n alloc i : Nat), i < alloc → i < 64 →
     wordAt (slideDown (slideUp row n alloc) ((List.range n).map fun j => if j < alloc then wordAt row j else 0#32) n alloc) i =
       wordAt row i) ∧
   (∀ (s : State) (c : Cur) (f : CallFrame) (d1 d2 : Dev), s.dev.cur = some c → c.t.pend = [] → c.t.cache = [] →
     f.slide ∈ [8, 16, 24, 32] → f.regs.length = f.slide → f.ret.toNat % 8 = 0 → c.t.sp + f.size ≤ c.w.spill →
     s.dev.topBytes c.w c.tid c.t.walkFail c.t.sp 32 = .ok d1 (f.bytes.take 32) →
     d1.topBytes c.w c.tid c.t.walkFail (c.t.sp + 32) (4 * f.slide) = .ok d2 (f.bytes.drop 32) →
     exec .ret s = .next (s.leaves c ((d2.dramCharge c.w.die c.w.ctx f.size).drained c)
       ({ c.t with sp := c.t.sp + f.size }.goTo (slideDown c.rowOut f.regs f.slide c.t.alloc) f.ret))))

/-- R216: the call and return instructions, GROW and SHRINK take no effect while a token is pending: the thread is suspended on the
instruction. For a GROW or SHRINK of 1 to 64; of another number it faults first, a reading of the model's (log 18, DEDUCED). Where
the spec leaves a point open or to inference, the model's choice stands (log 18). -/
def Obligations.PendingTokensHold : Prop :=
  ∀ (s : State) (c : Cur) (sl : BitVec 2) (off : BitVec 20) (a : Reg) (n : BitVec 12) (i : Instr), s.dev.cur = some c →
    c.t.pend ≠ [] → 1 ≤ n.toNat → n.toNat ≤ 64 →
    i ∈ [Instr.call sl off, .callx a sl, .ret, .eret, .grow n, .shrink n] → exec i s = .next (s.waits c s.dev .tokens none)

/-- R216 to R218, R188, R240: outside 1 to 64 a resize raises REG_RANGE. GROW to what is there already, and SHRINK to more, have no
effect; else REGS changes, and registers that come or go read zero. A GROW that the core's registers cannot meet parks. The thread
then has observed the commands whose tokens it waited for. Where the spec leaves a point open or to inference, the model's choice
stands (log 18). -/
def Obligations.GrowShrink : Prop :=
  ∀ (s : State) (c : Cur) (n : BitVec 12), s.dev.cur = some c →
    let resized : Thread := { c.t with
      regs := n.toNat
      row := (List.range c.t.row.length).map fun i => if i < min n.toNat c.t.regs then wordAt c.t.row i else 0#32
      work := (List.range c.t.work.length).map fun i => if i < min n.toNat c.t.regs then wordAt c.t.work i else 0#32 }
    let order := c.t.parkOrder.getD s.dev.nextSeq
    let need := allocOf n.toNat - c.t.alloc
    let met := need = 0 ∨ (need ≤ s.dev.lvsFree c.w.die c.w.core ∧
      ∀ k ∈ s.dev.parkedOn c.w.die c.w.core, ∃ o, c.t.parkOrder = some o ∧ o ≤ k)
    (n.toNat = 0 ∨ 64 < n.toNat → exec (.grow n) s = .next (s.traps c regRange) ∧ exec (.shrink n) s = .next (s.traps c regRange)) ∧
    (1 ≤ n.toNat → n.toNat ≤ 64 → c.t.pend = [] →
      (n.toNat ≤ c.t.regs → exec (.grow n) s = .next (s.completes c 1 (s.dev.drained c) c.t)) ∧
      (c.t.regs < n.toNat → c.t.expired = true → exec (.grow n) s = .next (s.traps c regRange)) ∧
      (c.t.regs < n.toNat → c.t.expired = false → met → exec (.grow n) s = .next (s.completes c 1 (s.dev.drained c) resized)) ∧
      (c.t.regs < n.toNat → c.t.expired = false → ¬met → exec (.grow n) s = .next (s.waits c
        { s.dev with nextSeq := if c.t.parkOrder = none then s.dev.nextSeq + 1 else s.dev.nextSeq } (.parked order need) none)) ∧
      (c.t.regs ≤ n.toNat → exec (.shrink n) s = .next (s.completes c 1 (s.dev.drained c) c.t)) ∧
      (n.toNat < c.t.regs → exec (.shrink n) s = .next (s.completes c 1 (s.dev.drained c) resized)))

/-- R357, R423: EXIT ends the thread of every state, and waits for no token: outside its trap handler nothing else changes, and inside
it the handle of its task breaks with the fault's code; HALT gives back the walk that the walker thread held. R319: a word that is
no instruction raises ILLEGAL_INSTR. R417, R220: TRAP completes and then faults, so its frame holds the following offset. R414,
R418, R420 to R423: outside the walker routine the privileged instructions and special registers raise PRIVILEGE, whatever their
operands. Where the spec leaves a point open or to inference, the model's choice stands (log 16, 17, 34). -/
def Obligations.ThreadEndsAndTraps : Prop :=
  (∀ (s : State) (c : Cur), s.dev.cur = some c →
     let ended : Thread := { c.t with pos := .exited, retired := c.t.retired + 1, susp := none }
     (c.t.trapDepth = 0 → exec .exit s = .next (s.leaves c s.dev ended)) ∧
     (0 < c.t.trapDepth → exec .exit s = .next (s.leaves c (s.dev.taskFault c.w (BitVec.ofNat 8 c.t.trapCause.toNat)) ended)) ∧
     (c.w.kind = .walker → exec .halt s = .next (s.leaves c (s.dev.modDie c.w.die fun x => { x with
         walks := (x.walks.filter fun v => v.holder == some (c.w.uid, c.tid)).map (fun v => { v with holder := none }) ++
           x.walks.filter fun v => v.holder != some (c.w.uid, c.tid) }) ended)) ∧
     (c.w.kind ≠ .walker → exec .halt s = .next (s.traps c (.here 0x06 0)))) ∧
  (∀ (s : State) (c : Cur) (imm : BitVec 8), s.dev.cur = some c →
     exec .illegalInstr s = .next (s.traps c (.here 0x01 0)) ∧
     exec (.trap imm) s = .next { s with dev := s.dev.takeFault c (c.t.advance 1) (c.t.off + 1) (.here 0x0E imm.toNat) c.addr }) ∧
  (∀ (s : State) (c : Cur) (d a b : Reg), s.dev.cur = some c → c.w.kind ≠ .walker →
     ∀ i ∈ [Instr.ptld d a, .tlbw a b, .halt, .srd d .walkinfo, .srd d .walkva, .srd d .walkroot, .swr d .walkinfo, .swr d .walkva,
         .swr d .walkroot], exec i s = .next (s.traps c (.here 0x06 0)))

/-- R221, R222, R226, R213 to R215, R11, R137, R431: a fault of a thread whose stack cache, and then its fault frame, can be moved to
the spill stack: then the thread waits at the trap entry with an empty cache and the window slid up by 32, one level deeper, with
the cause and the address. Predicates, sticky bits and REGS stay; flags that a command had raised before it faulted fall again; the
thread waits for its frame only where the companion holds a copy of its lines. Without a trap entry, at depth 255, or where a frame
cannot be written, the context is aborted: one CTX_ABORT record, its workgroups stop on every die, and no other's do; none of its
error-queue entries is written any more; with no message outstanding it is gone. R222: the fields of a fault frame. Where the spec
leaves a point open or to inference, the model's choice stands (log 27). -/
def Obligations.FaultEntry : Prop :=
  ((∀ (d : Dev) (c : Cur) (k : Ctx) (x : Trap), c.w.kind ≠ .walker → d.ctx? c.w.die c.w.ctx = some k →
     let e := match c.t.raised with
       | none => d
       | some fs => d.modWg c.w.uid fun w => { w with flags := fs.foldl (fun l f => updAt l f (· - 1)) w.flags }
     let moved := e.spillFrames true c.w c.tid [] c.t.sp c.t.cache.reverse
     let frame := faultFrame c c.t.off c.t
     let aborts := d.takeFault c c.t c.t.off x c.addr = e.abort c.w.die c.w.ctx x.code (c.w.threadField c.tid)
     (k.trap = 0 ∨ c.t.trapDepth = 255 → aborts) ∧
     (∀ y, moved = .fail y → aborts) ∧
     ∀ d1 sp1, moved = .ok d1 sp1 →
       (∀ y, d1.pushBytes true c.w c.tid [] sp1 frame = .fail y → aborts) ∧ (sp1 < frame.length → aborts) ∧
       ∀ d' sp, k.trap ≠ 0 → c.t.trapDepth < 255 → d1.pushBytes true c.w c.tid [] sp1 frame = .ok d' sp →
         ∃ t : Thread, (d'.posted = e.posted → t.susp = none) ∧ d.takeFault c c.t c.t.off x c.addr = d'.commitOut c t ∧
           t.pos = .waiting ∧ t.blk = k.trap ∧ t.off = 0 ∧ t.trapDepth = c.t.trapDepth + 1 ∧ t.cache = [] ∧ t.sp + frame.length = sp1 ∧
           t.trapCause = BitVec.ofNat 32 (x.code % 256 + 256 * (x.detail % 256)) ∧ t.trapAddr = x.addr.getD c.addr ∧
           (∀ i < 64, wordAt t.row i = if i + 32 < c.t.alloc then wordAt c.t.row (i + 32) else 0#32) ∧
           t.preds = c.t.preds ∧ t.sticky = c.t.sticky ∧ t.regs = c.t.regs ∧ t.retired = c.t.retired ∧ t.pend = c.t.pend) ∧
   ∀ (d : Dev) (die ctx code : Nat) (thread : Word), d.endingOf ctx = none →
     let e := d.abort die ctx code thread
     let r := d.record 0x01 ctx die 0 (BitVec.ofNat 64 code) (thread.setWidth 64)
     e.records = r.records ∧ e.mem = d.mem ∧ (∀ p, p ∈ e.posted ↔ p ∈ d.posted ∧ ∀ n < 4, p.order ≠ .errq n ctx) ∧ (∀ w ∈ d.wgs, w.ctx ≠ ctx → w ∈ e.wgs) ∧
     (∀ w ∈ e.wgs, w ∈ d.wgs ∧ (w.ctx = ctx → w.kind = .walker ∨ 4 ≤ w.die)) ∧
     (∀ n < 4, ∀ m, m ≠ ctx → e.ctx? n m = d.ctx? n m) ∧
     ((∃ n < 4, (d.ctx? n ctx).isSome = true) → d.ctxIdle ctx = true → ∀ n < 4, e.ctx? n ctx = none)) ∧
  (∀ (c : Cur) (off : Nat), off < 256 → c.t.regs ≤ 64 →
     let b := faultFrame c off c.t
     let field := fun (at_ n : Nat) => leValue ((b.drop at_).take n)
     b.length = roundUp (64 + 4 * c.t.alloc) 32 ∧ field 0 8 = c.t.blk.toNat ∧ field 8 1 = 2 ∧ field 9 1 = off ∧
     field 10 1 = c.t.preds.toNat ∧ field 11 1 = c.t.alloc ∧ field 12 1 = c.t.regs ∧ field 13 3 = 0 ∧
     field 16 4 = c.t.trapCause.toNat ∧ field 20 4 = 0 ∧ field 24 8 = c.t.trapAddr.toNat ∧
     field 32 1 = (if c.t.suspended then 1 else 0) ∧ field 33 31 = 0 ∧
     ∀ i < c.t.alloc, field (64 + 4 * i) 4 = (wordAt c.t.work i).toNat)

/-- R223, R356, R240: ERET from a fault frame on top of the spill stack resumes the thread where the frame says, with the registers and
predicates it saved in row and working copy, the cause (its reserved bits read zero, R7) and the address of before and one level
less, and the frame's bytes are charged (R179). At depth 0, with a call frame in the stack cache, with no frame, or with one on top
that is no fault frame, it raises ERET_STATE. Where the spec leaves a point open or to inference, the model's choice stands (log
19). -/
def Obligations.EretReturns : Prop :=
  ∀ (s : State) (c : Cur), s.dev.cur = some c → c.t.pend = [] →
    (c.t.trapDepth = 0 ∨ c.t.cache ≠ [] ∨ c.w.spill < c.t.sp + 32 → exec .eret s = .next (s.traps c (.here 0x13 0))) ∧
    (∀ d h, 0 < c.t.trapDepth → c.t.cache = [] → c.t.sp + 32 ≤ c.w.spill →
      s.dev.topBytes c.w c.tid c.t.walkFail c.t.sp 32 = .ok d h → leValue ((h.drop 8).take 1) ≠ 2 →
      exec .eret s = .next (s.traps c (.here 0x13 0))) ∧
    ∀ (c0 : Cur) (off pa : Nat) (d1 d2 : Dev), 0 < c.t.trapDepth → c.t.cache = [] → c0.t.alloc = c.t.alloc → c.t.regs ≤ 64 →
      off < 256 → c0.t.blk.toNat % 8 = 0 →
      let frame := faultFrame c0 off c0.t
      c.t.sp + frame.length ≤ c.w.spill →
      s.dev.topBytes c.w c.tid c.t.walkFail c.t.sp 32 = .ok d1 (frame.take 32) →
      d1.headerAt c c0.t.blk = .hit pa → off ≤ hdrLen (BitVec.ofNat 32 (d1.rd pa 4)) →
      d1.topBytes c.w c.tid c.t.walkFail (c.t.sp + 64) (4 * c.t.alloc) = .ok d2 ((frame.drop 64).take (4 * c.t.alloc)) →
      ∃ t : Thread, exec .eret s = .next (s.leaves c ((d2.dramCharge c.w.die c.w.ctx (64 + 4 * c.t.alloc)).drained c) t) ∧ t.pos = .waiting ∧ t.blk = c0.t.blk ∧ t.off = off ∧
        (∀ i < c.t.alloc, wordAt t.row i = wordAt c0.t.work i ∧ wordAt t.work i = wordAt c0.t.work i) ∧
        t.preds = c0.t.preds ∧ t.trapCause = BitVec.ofNat 32 (c0.t.trapCause.toNat % 2 ^ 16) ∧ t.trapAddr = c0.t.trapAddr ∧
        t.trapDepth + 1 = c.t.trapDepth ∧ t.sp = c.t.sp + frame.length ∧ t.regs = c.t.regs ∧ t.sticky = c.t.sticky ∧
        t.retired = c.t.retired + 1

/-! ## Special registers, translation, scratchpad and main memory -/

/-- R418, R103, R225, R226: what each special register that is not privileged reads as for a thread of a context, and what a write to
one does: STATUS loses the sticky bits written 1, SRSEED takes the value, ERRQ follows R103, and the others ignore it. R419: every
thread of a bundle reads from CYCLE the count at which its first thread read it. R225, R103, R6: STATUS_WRITE and ERRQ_WRITE. -/
def Obligations.SpecialRegisters : Prop :=
  (∀ (s : State) (c : Cur) (k : Ctx) (d : Reg), s.dev.cur = some c → c.w.kind ≠ .walker → s.dev.ctx? c.w.die c.w.ctx = some k →
     let reads := fun (r : SReg) (n v : Nat) =>
       (c.t.able (regsFrom d.toNat n) = true → exec (.srd d r) s = .next (s.completes c 1 s.dev (c.t.stow d.toNat v n))) ∧
       (c.t.able (regsFrom d.toNat n) = false → exec (.srd d r) s = .next (s.traps c regRange))
     let writes := fun (r : SReg) (n : Nat) (dev : Dev) (t : Thread) =>
       c.t.able (regsFrom d.toNat n) = true → exec (.swr d r) s = .next (s.completes c 1 dev t)
     let seen := c.t.note (regsFrom d.toNat 1)
     let pairSeen := c.t.note (regsFrom d.toNat 2)
     let x := (c.t.val d.toNat).toNat
     let now := s.dev.clock c.w.die c.w.core
     let count := match c.b.issued with
       | some (off, n) => if off = c.t.off then n else now
       | none => now
     reads .tid 1 c.tid ∧ reads .wgid 2 c.w.flat ∧
     reads .wgdim 2 (c.w.dims.1 % 2 ^ 16 + 2 ^ 16 * (c.w.dims.2.1 % 2 ^ 16) + 2 ^ 32 * (c.w.dims.2.2 % 2 ^ 16)) ∧
     reads .griddim 2 (c.w.grid.1 % 2 ^ 31 + 2 ^ 31 * (c.w.grid.2.1 % 2 ^ 16) + 2 ^ 47 * (c.w.grid.2.2 % 2 ^ 16)) ∧
     reads .core 1 c.w.core ∧ reads .cluster 1 (c.w.core / 8) ∧ reads .die 1 (4 * s.dev.pkg.toNat + c.w.die % 4) ∧
     reads .package 1 s.dev.pkg.toNat ∧ reads .ctx 1 c.w.ctx ∧
     (c.t.able (regsFrom d.toNat 2) = true → exec (.srd d .cycle) s = .next (s.completes c 1
       { s.dev with flight := { c.b with issued := some (c.t.off, count) } :: s.dev.flight.tail }
       (c.t.stow d.toNat (if c.w.proof then c.t.retired.toNat else count) 2))) ∧
     (c.t.able (regsFrom d.toNat 2) = false → exec (.srd d .cycle) s = .next (s.traps c regRange)) ∧ reads .retired 2 c.t.retired.toNat ∧
     reads .status 1
       (((if c.w.proof then 2 ^ 31 else 0) + 2 ^ 16 * (c.t.trapDepth % 2 ^ 8) + c.t.sticky.toNat)) ∧
     reads .srseed 2 k.seed.toNat ∧ reads .trapcause 1 c.t.trapCause.toNat ∧ reads .trapaddr 2 c.t.trapAddr.toNat ∧
     reads .errq 1 (k.head % 1024 + 2 ^ 16 * k.count + (if k.ovf then 2 ^ 31 else 0)) ∧
     writes .status 1 s.dev { seen with sticky := seen.sticky &&& ~~~(BitVec.ofNat 7 x) } ∧
     writes .srseed 2 (s.dev.modCtx c.w.die c.w.ctx fun k => { k with seed := c.t.dval d.toNat }) pairSeen ∧
     writes .errq 1 (s.dev.modCtx c.w.die c.w.ctx fun k =>
       let released := (x % 1024 + 1024 - k.head % 1024) % 1024
       let ovf := k.ovf && decide (x < 2 ^ 31)
       if k.count < released then { k with ovf := ovf }
       else { k with ovf := ovf, head := x % 1024, count := k.count - released }) seen ∧
     (∀ r ∈ [SReg.tid, .core, .cluster, .die, .package, .ctx, .trapcause], writes r 1 s.dev seen) ∧
     ∀ r ∈ [SReg.wgid, .wgdim, .griddim, .cycle, .retired, .trapaddr], writes r 2 s.dev pairSeen) ∧
  (∀ (s : State) (uid tid die ctx : Nat) (v : Word),
     exec (.statusWrite uid tid v) s = .next (s.withDev (s.dev.modThread uid tid fun t =>
       { t with sticky := t.sticky &&& ~~~(BitVec.ofNat 7 v.toNat) })) ∧
     exec (.errqWrite die ctx v) s = .next (s.withDev (s.dev.modCtx die ctx fun k =>
       let released := (v.toNat % 1024 + 1024 - k.head % 1024) % 1024
       let ovf := k.ovf && decide (v.toNat < 2 ^ 31)
       if k.count < released then { k with ovf := ovf }
       else { k with ovf := ovf, head := v.toNat % 1024, count := k.count - released })))

/-- R420 to R422, R166: what the walker routine's instructions do. PTLD reads a table entry of its die or of companion memory; TLBW ends
the walk that the thread holds, with the leaf, or with MALFORMED for a leaf that no walk may give, or with the reason given. R420,
R423: a walker thread that reads WALKINFO takes the oldest queued walk, and keeps the one it holds; when all threads of the routine
have ended, it is loaded again from the firmware image and starts again, its threads waiting in the tables of their cores (R203), at
the place that the model gives it (log 63). Where the spec leaves a point open or to inference, the model's choice stands (log 9,
22, 60, 63). -/
def Obligations.Walker : Prop :=
  (∀ (s : State) (c : Cur) (d a b : Reg), s.dev.cur = some c → c.w.kind = .walker →
     c.t.able (regsFrom a.toNat 2 ++ regsFrom d.toNat 2 ++ [b.toNat]) = true →
     let x := s.dev.die c.w.die
     let v := c.t.dval a.toNat
     let y := (c.t.val b.toNat).toNat
     let pa := v.toNat % 2 ^ 52
     let read := c.t.note (regsFrom a.toNat 2)
     let outcome : Except Nat (Nat × Dword) :=
       if y % 256 = 0 then
         if v.toNat % 4 = 3 ∧ v.getLsbD 63 = false ∧ v.toNat / 2 ^ 52 % 4 ≠ 3 ∧ y / 256 % 4 ≤ 2 ∧
             v.toNat / 2 ^ 12 % 2 ^ (9 * (y / 256 % 4)) = 0
         then .ok (y / 256 % 4, v) else .error 6
       else .error (if y % 256 ≤ 11 then y % 256 else 6)
     (v.toNat % 8 ≠ 0 → exec (.ptld d a) s = .next (s.traps c (.at 0x05 0 v))) ∧
     (v.toNat % 8 = 0 → pa < 2 ^ 51 → pa / 2 ^ 37 % 2 ^ 14 ≠ s.dev.dieId c.w.die →
       exec (.ptld d a) s = .next (s.traps c (.at 0x0F 8 v))) ∧
     (v.toNat % 8 = 0 → pa < 2 ^ 51 → pa / 2 ^ 37 % 2 ^ 14 = s.dev.dieId c.w.die → s.dev.isRetired pa = true →
       exec (.ptld d a) s = .next (s.traps c (.at 0x0F 10 v))) ∧
     (v.toNat % 8 = 0 → 2 ^ 51 ≤ pa ∨ pa / 2 ^ 37 % 2 ^ 14 = s.dev.dieId c.w.die ∧ s.dev.isRetired pa = false →
       exec (.ptld d a) s = .next (s.completes c 1 s.dev (read.stow d.toNat (s.dev.rd pa 8) 2))) ∧
     (x.held? c.w.uid c.tid = none → exec (.tlbw a b) s = .next (s.completes c 1 s.dev (c.t.note (regsFrom a.toNat 2 ++ [b.toNat])))) ∧
     (∀ w, x.held? c.w.uid c.tid = some w → exec (.tlbw a b) s =
       .next (s.completes c 1 (s.dev.endWalk c.w.die w outcome) (c.t.note (regsFrom a.toNat 2 ++ [b.toNat])))) ∧
     (∀ w, x.held? c.w.uid c.tid = some w →
       exec (.srd d .walkinfo) s = .next (s.completes c 1 (s.dev.setDie c.w.die x)
         (c.t.stow d.toNat (2 ^ 31 + w.ctx % 64 * 256) 1)) ∧
       exec (.srd d .walkva) s = .next (s.completes c 1 s.dev (c.t.stow d.toNat (w.page * 4096) 2)) ∧
       exec (.srd d .walkroot) s = .next (s.completes c 1 s.dev
         (c.t.stow d.toNat (((s.dev.ctx? c.w.die w.ctx).map Ctx.root).getD 0) 2))) ∧
     (∀ (before after : List Walk) (w : Walk), x.held? c.w.uid c.tid = none → x.walks = before ++ w :: after → w.holder = none →
       w ∉ before → w ∉ after → (∀ u ∈ before, u.holder ≠ none) → exec (.srd d .walkinfo) s = .next (s.completes c 1
         (s.dev.setDie c.w.die { x with walks := before ++ { w with holder := some (c.w.uid, c.tid) } :: after })
         (c.t.stow d.toNat (2 ^ 31 + w.ctx % 64 * 256) 1))) ∧
     (x.held? c.w.uid c.tid = none → x.walks.all (fun w => w.holder.isSome) = true →
       exec (.srd d .walkinfo) s = .next (s.completes c 1 (s.dev.setDie c.w.die x) (c.t.stow d.toNat 0 1)))) ∧
  (∀ (s : State) (uid tid die : Nat) (w : Wg) (v : Walk) (before after : List Walk), s.dev.wg? uid = some w → w.kind = .walker →
     tid < w.threads.length → w.die < 4 →
     (∀ u, (s.dev.die w.die).held? uid tid = some u → exec (.walkinfoRead uid tid) s = .next s) ∧
     ((s.dev.die w.die).walks = before ++ v :: after → v.holder = none → v ∉ before → v ∉ after →
       (∀ u ∈ before, u.holder ≠ none) → (s.dev.die w.die).held? uid tid = none →
       exec (.walkinfoRead uid tid) s = .next (s.withDev (s.dev.modDie w.die fun x =>
         { x with walks := before ++ { v with holder := some (uid, tid) } :: after }))) ∧
     let halted := fun (w : Wg) => w.die = die ∧ w.kind = .walker ∧ ∀ t ∈ w.threads, t.pos = .exited
     let base := (4 * s.dev.pkg.toNat + die % 4) * 2 ^ 37 + 0x1F_0000_0000
     let loaded := s.dev.storeBytes base (s.mgmt.firmware.take (2 ^ 32))
     let anew := fun (w : Wg) => { w with threads := w.threads.map fun _ => Thread.fresh w.regs0 w.spill (BitVec.ofNat 64 base) }
     let isHalted := fun (w : Wg) => decide (w.die = die) && decide (w.kind = .walker) && w.threads.all fun t => decide (t.pos = .exited)
     ((∀ w ∈ s.dev.wgs, ¬halted w) → exec (.walkerRestart die) s = .next (s.withDev s.dev)) ∧
     ((∃ w ∈ s.dev.wgs, halted w) → exec (.walkerRestart die) s = .next (s.withDev
       (((loaded.wgs.filter isHalted).map anew).foldl Dev.occupyAll
         { loaded with wgs := loaded.wgs.map fun w => if isHalted w = true then anew w else w }))))

/-- R231: the checks of a scratchpad access, in order, and the place of one that passes them. R370, R371: loads and stores of every size
at G(a) + offset × size, the registers of a value lowest first; smaller values are zero-extended, and a store writes the low bytes.
R239, R245: neither is read as it was before by an engine command of the thread that comes after it. R243, R244, R254: a store that
releases performs first, for its scope, what the commands observed by the thread wrote; and an access waits for the L2 atomics of
its thread that acquire. Where the spec leaves a point open or to inference, the model's choice stands (log 8, 17, 66). -/
def Obligations.LoadsStores : Prop :=
  (∀ (d : Dev) (w : Wg) (addr : Word) (size align : Nat),
     let a := addr.toNat
     let va : Dword := BitVec.ofNat 64 a
     (2 ^ 25 ≤ a → d.scratchAt w addr size align = .error (.at 0x03 0 va)) ∧
     (a < 2 ^ 25 → a % align ≠ 0 → d.scratchAt w addr size align = .error (.at 0x05 0 va)) ∧
     (a < 2 ^ 25 → a % align = 0 → d.peer w (a / 2 ^ 22) = none →
       d.scratchAt w addr size align = .error (.at 0x04 (a / 2 ^ 22) va)) ∧
     ∀ p, a < 2 ^ 25 → a % align = 0 → d.peer w (a / 2 ^ 22) = some p →
       (p.scratch < a % 2 ^ 22 + size → d.scratchAt w addr size align = .error (.at 0x03 0 va)) ∧
       (a % 2 ^ 22 + size ≤ p.scratch → d.scratchAt w addr size align = .ok { uid := p.uid, off := a % 2 ^ 22 })) ∧
  (∀ (s : State) (c : Cur) (d a : Reg) (off : BitVec 10) (size : Size) (u : Bool) (hint : Option LsHint), s.dev.cur = some c →
     let n := size.bytes
     let m := size.regs
     let words := if hint = none then 1 else 2
     let addr : Word := BitVec.ofInt 32 (((c.t.val a.toNat).toNat : Int) + n * off.toInt)
     let released := if u = true ∨ hint.any LsHint.ordered = true then
         s.dev.performed c.who 31#5 (decide (∀ h ∈ hint, h.scope ≠ .wg)) else s.dev
     let ids := s.dev.acquiring c.who
     (c.t.able (a.toNat :: regsFrom d.toNat m) = true → ids ≠ [] →
       exec (.ld d a off size u hint) s = .next (s.waits c s.dev (.commands ids []) none) ∧
       exec (.st d a off size u hint) s = .next (s.waits c s.dev (.commands ids []) none)) ∧
     (c.t.able (a.toNat :: regsFrom d.toNat m) = true → ids = [] →
       (∀ x, s.dev.scratchAt c.w addr n n = .error x →
         exec (.ld d a off size u hint) s = .next (s.traps c x) ∧ exec (.st d a off size u hint) s = .next (s.traps c x)) ∧
       ∀ p, s.dev.scratchAt c.w addr n n = .ok p →
         exec (.ld d a off size u hint) s =
           .next (s.completes c words (s.dev.thrSaw c.who p n) ((c.t.note [a.toNat]).stow d.toNat (s.dev.scratchRd p n) m)) ∧
         exec (.st d a off size u hint) s =
           .next (s.completes c words ((released.thrSaw c.who p n).thrWr p n (c.t.load d.toNat m)) (c.t.note (a.toNat :: regsFrom d.toNat m)))) ∧
     (c.t.able (a.toNat :: regsFrom d.toNat m) = false →
       exec (.ld d a off size u hint) s = .next (s.traps c regRange) ∧
       exec (.st d a off size u hint) s = .next (s.traps c regRange)))

/-- R4, R231: a scratchpad write of n bytes, in a scratchpad in the one form of its table: a byte of the place reads as the value's
byte, every other byte of every scratchpad reads as before, main memory stays, and the table keeps its form. R4, R137, R235: main
memory: what is written reads back byte by byte, every other byte reads as before, the memory keeps its one form, and a line with a
companion copy is invalidated. R237 to R245, R254: scratchpad holds what an engine command writes; until the write is performed for
a command on another path, that command may read the word as it was, unless the write comes before the command: its thread has
observed the write's completion, and has accessed bytes since that the command names; what the commands of a thread on a path see of
it they see from then on; an observed completion and a FENCE of the path, or a release, perform it for the workgroup, or for all;
and a thread's own store performs it for all. Where the spec leaves a point open or to inference, the model's choice stands (log 52,
65, 66). -/
def Obligations.MemoryLaws : Prop :=
  (∀ (d : Dev) (p q : Place) (n v : Nat) (w : Wg), d.wg? p.uid = some w → canonical 0#8 w.mem = true →
     let out := d.scratchWr p n v
     (∀ i < n, q = { uid := p.uid, off := p.off + i } → out.scratchRd q 1 = v / 256 ^ i % 256) ∧
     (q.uid ≠ p.uid ∨ q.off < p.off ∨ p.off + n ≤ q.off → out.scratchRd q 1 = d.scratchRd q 1) ∧
     out.mem = d.mem ∧ ∃ w', out.wg? p.uid = some w' ∧ canonical 0#8 w'.mem = true) ∧
  (∀ (d : Dev) (pa n v a : Nat), canonical 0#8 d.mem = true →
     (∀ i < n, a = pa + i → (d.wr pa n v).rd a 1 = v / 256 ^ i % 256) ∧
     (a < pa ∨ pa + n ≤ a → (d.wr pa n v).rd a 1 = d.rd a 1) ∧
     (v < 256 ^ n → (d.wr pa n v).rd pa n = v) ∧
     canonical 0#8 (d.wr pa n v).mem = true ∧
     (canonical 0#2 d.sharers = true → pa ≤ a → a < pa + n → getKey 0#2 d.sharers (a / 64) ≠ 0#2 →
       getKey 0#2 (d.wr pa n v).sharers (a / 64) = 0#2 ∧ a / 64 ∈ (d.wr pa n v).invalidating)) ∧
  (∀ (d : Dev),
     let sees := fun (x : Cmd) (path : Nat) (e : Stale) =>
       e.path = path ∨ e.cmd ∈ x.past ∨ (x.uid, x.tid, path) ∈ e.known ∨ x.uid ∈ e.wgs
     (∀ (x : Cmd) (path : Nat) (q : Wg) (p : Place) (bs : List Byte), d.wg? p.uid = some q → canonical 0#8 q.mem = true →
       p.off + bs.length ≤ q.scratch → q.scratch ≤ 2 ^ 22 → bs ≠ [] →
       let t := d.rangeWrBy x path p bs
       t.mem = d.mem ∧ t.cmds = d.cmds ∧ t.scratchRdBytes p bs.length = bs ∧
       (∀ a n, a + n ≤ p.off ∨ p.off + bs.length ≤ a → t.scratchRdBytes { p with off := a } n = d.scratchRdBytes { p with off := a } n) ∧
       (∀ u, u ≠ p.uid → t.wg? u = d.wg? u) ∧
       ∃ new, t.stale = d.stale ++ new ∧ ∀ e ∈ new, e.path = path ∧ e.cmd = x.id ∧ e.by_ = (x.uid, x.tid) ∧ e.uid = p.uid ∧ e.off % 4 = 0 ∧
         p.off < e.off + 4 ∧ e.off < p.off + bs.length ∧ e.old = BitVec.ofNat 32 (d.scratchRd { p with off := e.off } 4) ∧
         e.seen = [] ∧ e.known = [] ∧ e.wgs = []) ∧
     (∀ (x : Cmd) (path : Nat) (e : Stale) (q : Wg), d.stale = [e] → d.wg? e.uid = some q → canonical 0#8 q.mem = true →
       let at_ : Place := { uid := e.uid, off := e.off }
       let t := d.sight x path
       t.mem = d.mem ∧ (sees x path e → t = d) ∧ (¬sees x path e → t.scratchRd at_ 4 = e.old.toNat)) ∧
     (∀ (x : Cmd) (path : Nat), (∀ e ∈ d.stale, sees x path e) → d.sight x path = d) ∧
     (∀ (x : Cmd) (path : Nat), x.early = [] → d.engineView x path = d.sight x path) ∧
     (∀ (x : Cmd) (pa n : Nat), x.earlyMem = [] → d.engineMem x pa n = readBytes d.mem pa n) ∧
     (∀ (x : Cmd) (path : Nat) (near : Stale → Bool),
       let t := d.catchUp x path near
       { t with stale := d.stale, free := d.free } = d ∧ t.stale.length = d.stale.length ∧
       ∀ (i : Nat) (e f : Stale), d.stale[i]? = some e → t.stale[i]? = some f → f = e ∨ f = { e with known := (x.uid, x.tid, path) :: e.known }) ∧
     (∀ (who : Nat × Nat) (r : Side) (n : Nat), { d.touch who r n with touched := d.touched } = d ∧
       ∀ t, t ∈ (d.touch who r n).touched ↔
         t ∈ d.touched ∨ ∃ e ∈ d.stale, who ∈ e.seen ∧ t = { cmd := e.cmd, by_ := who, side := r, n := n }) ∧
     (∀ (w : Wg) (tid : Nat) (b : Body) (i : Nat), i ∈ d.pastOf w tid b ↔
       ∃ t ∈ d.touched, t.cmd = i ∧ t.by_ = (w.uid, tid) ∧ ∃ r ∈ d.bodyNames w b, d.meets r.1 r.2 t = true) ∧
     (∀ (who : Nat × Nat) (paths : BitVec 5),
       { d.performed who paths true with stale := d.stale } = d ∧
       (∀ e, e ∈ (d.performed who paths true).stale ↔ e ∈ d.stale ∧ ¬(who ∈ e.seen ∧ paths.getLsbD e.path = true)) ∧
       (d.performed who paths false).stale =
         d.stale.map (fun e => if who ∈ e.seen ∧ paths.getLsbD e.path = true then { e with wgs := who.1 :: e.wgs } else e)) ∧
     (∀ (who : Nat × Nat) (f : Stale → Bool), (d.observe who f).stale =
       d.stale.map (fun e => if f e = true ∧ who ∉ e.seen then { e with seen := who :: e.seen } else e)) ∧
     ∀ (p : Place) (n x : Nat) (q : Wg), d.wg? p.uid = some q → p.off + n ≤ q.scratch → q.scratch ≤ 2 ^ 22 → 0 < n →
       { d.thrWr p n x with stale := d.stale } = d.scratchWr p n x ∧
       ∀ e, e ∈ (d.thrWr p n x).stale ↔ e ∈ d.stale ∧ ¬(e.uid = p.uid ∧ e.off % 4 = 0 ∧ p.off < e.off + 4 ∧ e.off < p.off + n))

/-- R373, R374: scratchpad atomics answer the old value and write the new one, in one operation; ld writes nothing, and a compare that
fails writes nothing. R243, R244: one that releases performs first, for its scope, what the commands observed by the thread wrote,
and each waits for the L2 atomics of its thread that acquire. Where the spec leaves a point open or to inference, the model's choice
stands (log 8, 66). -/
def Obligations.ScratchAtomics : Prop :=
  ∀ (s : State) (c : Cur) (d a b : Reg) (op : AtomOp) (ord : Ord4) (scope : Scope), s.dev.cur = some c →
    let addr := c.t.val a.toNat
    let after := if ord ∈ [Ord4.rel, .acqrel] then s.dev.performed c.who 31#5 (decide (scope ≠ .wg)) else s.dev
    let ids := s.dev.acquiring c.who
    let wide := decide (op ∈ [AtomOp.dadd, .dmin, .dmax, .dor, .dxchg])
    let n := if wide then 8 else 4
    let idx := a.toNat :: (if op = .ld then [] else regsFrom b.toNat (n / 4))
    let y := c.t.load b.toNat (if op = .ld then 0 else n / 4)
    let sg := fun (x : Nat) => (BitVec.ofNat (8 * n) x).toInt
    let newOf := fun (m : Nat) => match op with
      | .add | .dadd => (m + y) % 2 ^ (8 * n)
      | .min | .dmin => if sg m ≤ sg y then m else y
      | .max | .dmax => if sg m ≤ sg y then y else m
      | .minu => min m y
      | .maxu => max m y
      | .and => m &&& y
      | .or | .dor => m ||| y
      | .xor => m ^^^ y
      | .xchg | .dxchg => y
      | .fadd => (roundTo .fp32 .rne false (XVal.add false (valueOf .fp32 m) (valueOf .fp32 y)).1).1
      | .ld => m
    (c.t.able (idx ++ regsFrom d.toNat (n / 4)) = true → ids ≠ [] →
      exec (.atom d a b op ord scope) s = .next (s.waits c s.dev (.commands ids []) none)) ∧
    (c.t.able (idx ++ regsFrom d.toNat (n / 4)) = true → ids = [] →
      (∀ x, s.dev.scratchAt c.w addr n n = .error x → exec (.atom d a b op ord scope) s = .next (s.traps c x)) ∧
      ∀ p, s.dev.scratchAt c.w addr n n = .ok p →
        let m := s.dev.scratchRd p n
        exec (.atom d a b op ord scope) s = .next (s.completes c 1
          (if op = .ld then after.thrSaw c.who p n else (after.thrSaw c.who p n).thrWr p n (newOf m)) ((c.t.note idx).stow d.toNat m (n / 4)))) ∧
    ∀ k ∈ [1, 2],
      let i := if k = 1 then Instr.cas d a b ord scope else .dcas d a b ord scope
      let old := c.t.load b.toNat k
      let new := c.t.load (b.toNat + k) k
      let idx := a.toNat :: regsFrom b.toNat (2 * k)
      c.t.able (idx ++ regsFrom d.toNat k) = true →
        (ids ≠ [] → exec i s = .next (s.waits c s.dev (.commands ids []) none)) ∧
        (∀ x, ids = [] → s.dev.scratchAt c.w addr (4 * k) (4 * k) = .error x → exec i s = .next (s.traps c x)) ∧
        ∀ p, ids = [] → s.dev.scratchAt c.w addr (4 * k) (4 * k) = .ok p →
          let m := s.dev.scratchRd p (4 * k)
          exec i s = .next (s.completes c 1 (if m = old then (after.thrSaw c.who p (4 * k)).thrWr p (4 * k) new else after.thrSaw c.who p (4 * k))
            ((c.t.note idx).stow d.toNat m k))

/-- R375 to R377, R379: barrier instructions. A rejected arrival sets OVERRUN, completes, and then faults. R244: an arrival performs
first, for every thread of its cluster, what the commands observed by the thread wrote. R240, R246: a thread that has seen a phase
advanced observes the copies that arrived on the barrier. R243: each waits for the L2 atomics of its thread that acquire. R375: a
barrier object is its 16 bytes: what is written reads back. Where the spec leaves a point open or to inference, the model's choice
stands (log 8, 66). -/
def Obligations.Barriers : Prop :=
  (∀ (s : State) (c : Cur) (pd : PredReg) (d a b : Reg) (p : Place), s.dev.cur = some c →
     c.t.able [a.toNat, b.toNat, d.toNat] = true →
     (s.dev.acquiring c.who ≠ [] → ∀ i ∈ [Instr.barinit a b, .bararr a b, .bartest pd d a, .barwait pd d a b],
       exec i s = .next (s.waits c s.dev (.commands (s.dev.acquiring c.who) []) none)) ∧
     (s.dev.acquiring c.who = [] → s.dev.scratchAt c.w (c.t.val a.toNat) 16 16 = .ok p →
     let o := s.dev.barRd p
     let after := (s.dev.performed c.who 31#5 true).thrSaw c.who p 16
     let saw := s.dev.thrSaw c.who p 16
     let arrived := fun (x : Dev) =>
       { x with stale := x.stale.map fun e => if e.bar = some (p.uid, p.off) then { e with phased := true } else e }
     let seen := saw.observe c.who fun e => e.phased && e.bar == some (p.uid, p.off)
     let n := (c.t.val b.toNat).toNat
     let t := c.t.note [a.toNat, b.toNat]
     let left : BarObj := { o with remaining := o.remaining - n }
     let wants := (c.t.val d.toNat).toNat % 16
     let answer := fun (t : Thread) (v : Bool) => (t.set d.toNat (BitVec.ofNat 32 o.phase)).setPred pd v
     let three := c.t.note [a.toNat, d.toNat, b.toNat]
     exec (.barinit a b) s = .next (s.completes c 1 (saw.barWr p { o with
       remaining := n % 2 ^ 16, expected := n % 2 ^ 16, phase := 0, overrun := false, pending := 0 }) t) ∧
     (n ≤ o.remaining → exec (.bararr a b) s = .next (s.completes c 1
       (if o.remaining = n ∧ o.pending = 0 then arrived (after.barWr p { left with remaining := o.expected, phase := (o.phase + 1) % 16 })
       else after.barWr p left) t)) ∧
     (o.remaining < n → exec (.bararr a b) s = .next (s.withDev ((after.barWr p { o with overrun := true }).takeFault c
       (t.advance 1) (c.t.off + 1) (.at 0x08 0 (BitVec.ofNat 64 (c.t.val a.toNat).toNat)) c.addr))) ∧
     exec (.bartest pd d a) s =
       .next (s.completes c 1 (if o.phase ≠ wants then seen else saw)
         (answer (c.t.note [a.toNat, d.toNat]) (decide (o.phase ≠ wants)))) ∧
     (o.phase ≠ wants → exec (.barwait pd d a b) s = .next (s.completes c 1 seen (answer three true))) ∧
     (o.phase = wants → c.t.expired = true ∨ n = 0 →
       exec (.barwait pd d a b) s = .next (s.completes c 1 saw (answer three false))) ∧
     (o.phase = wants → c.t.expired = false → n ≠ 0 → exec (.barwait pd d a b) s = .next (s.waits c s.dev
       (.barrier p.uid p.off o.phase) (if n = 2 ^ 32 - 1 then none else some (1024 * n)))))) ∧
  (∀ (d : Dev) (p : Place) (o : BarObj) (w : Wg), d.wg? p.uid = some w → canonical 0#8 w.mem = true →
     o.remaining < 2 ^ 16 → o.expected < 2 ^ 16 → o.phase < 16 →
     o.res0 < 2 ^ 27 → o.pending < 2 ^ 32 → o.res1 < 2 ^ 32 →
     (d.barWr p o).barRd p = o ∧ (d.barWr p o).scratchRd p 2 = o.remaining ∧
     (d.barWr p o).scratchRd { p with off := p.off + 2 } 2 = o.expected ∧
     (d.barWr p o).scratchRd { p with off := p.off + 4 } 1 = o.phase + (if o.overrun then 16 else 0) + 32 * (o.res0 % 8) ∧
     (d.barWr p o).scratchRd { p with off := p.off + 8 } 4 = o.pending)

/-- R372, R214: the spill stack as memory: the stack cache is moved out first, and where a frame cannot be moved the access faults, or
waits for the walk or for the companion's lines; then an offset from the lowest byte of the newest frame, checked for alignment and
for the stack's ends. R233: a load reads the thread's own spills, those too that wait at their home. R137: a store waits while the
companion holds a copy of its lines, which it invalidates: DEDUCED, the model's choice (log 52), as that the load reads the posted
spills. R243: each waits for the L2 atomics of its thread that acquire. Where the spec leaves a point open or to inference, the
model's choice stands (log 8, 52, 66). -/
def Obligations.SpillAccess : Prop :=
  ∀ (s : State) (c : Cur) (d a : Reg) (off : BitVec 10) (size : Size), s.dev.cur = some c →
    c.t.able (a.toNat :: regsFrom d.toNat size.regs) = true →
    let both := fun (out : Host.Outcome State Fault Refusal) => exec (.ldk d a off size) s = out ∧ exec (.stk d a off size) s = out
    let moved := s.dev.spillFrames false c.w c.tid c.t.walkFail c.t.sp c.t.cache.reverse
    (s.dev.acquiring c.who ≠ [] → both (.next (s.waits c s.dev (.commands (s.dev.acquiring c.who) []) none))) ∧
    (s.dev.acquiring c.who = [] → (c.t.cache = [] → moved = .ok s.dev c.t.sp) ∧
    (∀ x, moved = .fail x → both (.next (s.traps c x))) ∧
    (∀ page, moved = .miss page → (s.dev.die c.w.die).mayAsk c.w.ctx page = true → both (.next (s.waits c
      (s.dev.ask c.w.die c.w.ctx page (.thread c.w.uid c.tid) (.stack c.w.core) (accStack true)) (.walk page) none))) ∧
    (∀ ls, moved = .dirty ls → both (.next (s.waits c (ls.foldl Dev.invalidate s.dev) (.lines ls) none))) ∧
    ∀ e sp, moved = .ok e sp →
    let n := size.bytes
    let x : Word := BitVec.ofInt 32 (((c.t.val a.toNat).toNat : Int) + n * off.toInt)
    let o : Int := sp + x.toInt
    let va := s.dev.stackVa c.w c.tid 0 + BitVec.ofInt 64 o
    let t := { c.t with cache := [], sp := sp }
    let seen := e.touch c.who (.mem va) n
    (o % n ≠ 0 → both (.next (s.traps c (.at 0x05 0 va)))) ∧
    (o % n = 0 → o < 0 ∨ (c.w.spill : Int) < o + n → both (.next (s.traps c (.here 0x10 0)))) ∧
    ∀ pa, o % n = 0 → 0 ≤ o → o + n ≤ (c.w.spill : Int) →
      (e.reach false c.w (accStack false) c.t.walkFail va 4 n = .ok [(pa, n)] → exec (.ldk d a off size) s =
        .next (s.completes c 1 seen ((t.note [a.toNat]).stow d.toNat (e.asPosted.rd pa n) size.regs))) ∧
      (e.reach false c.w (accStack true) c.t.walkFail va 4 n = .ok [(pa, n)] →
        let dirty := s.dev.dirtyLines [(pa, n)]
        (dirty = [] → exec (.stk d a off size) s = .next (s.completes c 1 (seen.wrBytes pa (leBytes (c.t.load d.toNat size.regs) n))
          (t.note (a.toNat :: regsFrom d.toNat size.regs)))) ∧
        (dirty ≠ [] → exec (.stk d a off size) s =
          .next (s.waits c (dirty.foldl Dev.invalidate s.dev) (.lines dirty) none))))

/-! ## Engine commands -/

/-- R368, R381, R384, R385, R167: copies, prefetches and page-in requests that pass their checks issue their command, and complete; a
prefetch holds the pages of its range with the bytes of it in each, and a copy's pieces make up its range and none crosses a 4 KiB
granule. R312: a copy has a MOD hint exactly where BA = 1. R378: its bytes are added to PENDING of its barrier as it issues. Where
the spec leaves a point open or to inference, the model's choice stands (log 20). -/
def Obligations.CopyCommands : Prop :=
  (∀ (s : State) (c : Cur) (d a b : Reg) (tk : Bool) (dir : Dir) (bar : Bool) (arr : Option Reg), s.dev.cur = some c → c.t.regs ≤ 64 →
    let n := (c.t.val b.toNat).toNat
    let br := if bar = true then arr else none
    let group := match dir with
      | .ms => [a.toNat, a.toNat + 1, a.toNat + 2]
      | .sm => [a.toNat, a.toNat + 2, a.toNat + 3]
      | .mm => [a.toNat, a.toNat + 1, a.toNat + 2, a.toNat + 3]
      | .ss => [a.toNat, a.toNat + 2]
    let reads := group ++ [b.toNat] ++ (br.map BitVec.toNat).toList
    let token := tokenOf tk d
    let words := if arr = none then 1 else 2
    c.t.able (regsFrom a.toNat 4 ++ reads ++ tokenRegs token) = true →
    (bar ≠ arr.isSome → exec (.copy d a b tk dir bar arr) s = .next (s.traps c (.here 0x01 0))) ∧
    (bar = arr.isSome → n % 4 ≠ 0 → exec (.copy d a b tk dir bar arr) s = .next (s.traps c (.here 0x05 0))) ∧
    (bar = arr.isSome → n % 4 = 0 → c.mayIssue s.dev .cpy (tokenRegs token) → ∀ src dst place,
      c.copySide s.dev (dir = .ms ∨ dir = .mm) a.toNat n = some src →
      c.copySide s.dev (dir = .sm ∨ dir = .mm) (a.toNat + 2) n = some dst → c.mayAnnounce s.dev br n place →
      IssuesCopy s c (.copy d a b tk dir bar arr) words reads token place n
        (.copy src dst n place (pieces (src.cut dst) (dst.cut src) n)))) ∧
  (∀ a b n : Nat, a % 4 = 0 → b % 4 = 0 → n % 4 = 0 →
    (∀ i < n, ∃ e ∈ pieces a b n, e.1 ≤ i ∧ i < e.1 + e.2) ∧
    (∀ e ∈ pieces a b n, 0 < e.2 ∧ e.1 + e.2 ≤ n ∧ (a + e.1 + e.2 - 1) / 4096 = (a + e.1) / 4096 ∧
      (b + e.1 + e.2 - 1) / 4096 = (b + e.1) / 4096) ∧
    ((pieces a b n).map Prod.snd).sum = n) ∧
  ∀ (s : State) (c : Cur) (d a b : Reg), s.dev.cur = some c →
    let va := c.t.dval a.toNat
    let n := (c.t.val b.toNat).toNat
    let reads := regsFrom a.toNat 2 ++ [b.toNat]
    (c.t.able reads = true → n = 0 ∨ canonicalRange va n = true → c.mayIssue s.dev .cpy [] →
      Issues s c (.prefetch a b) 1 reads s.dev .cpy none [] 0 (.prefetch ((pagesOf va.toNat n).map fun p =>
        (p, min (va.toNat + n) (4096 * p + 4096) - max va.toNat (4096 * p))))) ∧
    (c.t.able (reads ++ [d.toNat]) = true → canonicalVa va = true → n = 0 → c.mayIssue s.dev .cpy [d.toNat] →
      Issues s c (.pagein d a b) 1 reads s.dev .cpy (some (d.toNat, 1)) [] 1 .finished) ∧
    (c.t.able (reads ++ [d.toNat]) = true → canonicalVa va = true → n ≠ 0 → c.mayIssue s.dev .cpy [d.toNat] →
      exec (.pagein d a b) s = .next (s.completes c 1
        ((s.dev.issued c (c.command s.dev .cpy (some (d.toNat, 1)) [] 0 (.pagein (va.toNat / 4096) (min n 65535)))).askPages c
          (va.toNat / 4096) (min n 65535) s.dev.nextCmd)
        ((c.t.note reads).pends [d.toNat]))) ∧
    (c.t.able (reads ++ [d.toNat]) = true → canonicalVa va = false →
      exec (.pagein d a b) s = .next (s.traps c (.at 0x0F 1 va)))

/-- R382, R383: tensor copies between descriptors of one element format, gathers and scatters; a descriptor that fails its conditions
raises TENSOR_DESC with its number. R161, R179: the parts of a row make it up, and none crosses a 4 KiB granule of memory. R312: a
tensor copy has its DESC hint; R156: a gather's base is canonical. Where the spec leaves a point open or to inference, the model's
choice stands (log 20). -/
def Obligations.TensorAndGatherCommands : Prop :=
  ∀ (s : State) (c : Cur) (d a b : Reg), s.dev.cur = some c → c.t.regs ≤ 64 →
    (∀ (tk : Bool) (shape : Shape) (bar : Bool) (h : TileHint),
      let token := tokenOf tk d
      let reads := [a.toNat, b.toNat] ++ (if bar then [h.arr.toNat] else [])
      let da := s.dev.desc c h.da.toNat
      let db := s.dev.desc c h.db.toNat
      let os := ((c.t.val a.toNat).toNat / 2 ^ 16, (c.t.val a.toNat).toNat % 2 ^ 16)
      let od := ((c.t.val b.toNat).toNat / 2 ^ 16, (c.t.val b.toNat).toNat % 2 ^ 16)
      let m := if shape.m128 then 128 else 64
      let n := if shape.n128 then 128 else 64
      let cols := min n (db.dim 0 - od.2)
      let rows := if cols = 0 then [] else List.range (min m (db.dim 1 - od.1))
      let bytes := rows.length * ((cols * db.fmt.width + 7) / 8)
      c.t.able (reads ++ tokenRegs token) = true →
      (copytDesc da db os.2 = false →
        exec (.copyt d a b tk shape bar (some h)) s = .next (s.traps c (.here 0x0B h.da.toNat))) ∧
      (copytDesc da db os.2 = true → copytDesc db da od.2 = false →
        exec (.copyt d a b tk shape bar (some h)) s = .next (s.traps c (.here 0x0B h.db.toNat))) ∧
      (copytDesc da db os.2 = true → copytDesc db da od.2 = true → s.dev.checkTensors c.w da db os od m n = .ok () →
        c.mayIssue s.dev .cpy (tokenRegs token) → ∀ place, c.mayAnnounce s.dev (if bar then some h.arr else none) bytes place →
          IssuesCopy s c (.copyt d a b tk shape bar (some h)) 2 reads token place bytes
            (.copyt da db os od m n place (rows.flatMap fun i => rowParts da db os od i 0 ((cols * db.fmt.width + 7) / 8))))) ∧
    (∀ (x y : Desc) (os od : Nat × Nat) (i n : Nat), 0 < n →
      let parts := rowParts x y os od i 0 n
      let inOne := fun (z : Desc) (o : Nat × Nat) (e : Nat × Nat × Nat) => z.space = 1 ∨
        (z.rowAt (o.1 + i) + z.segAt o.2 + e.2.1) / 4096 = (z.rowAt (o.1 + i) + z.segAt o.2 + e.2.1 + e.2.2 - 1) / 4096
      (∀ e ∈ parts, e.1 = i ∧ 0 < e.2.2 ∧ e.2.1 + e.2.2 ≤ n ∧ inOne x os e ∧ inOne y od e) ∧
      (∀ k < n, ∃ e ∈ parts, e.2.1 ≤ k ∧ k < e.2.1 + e.2.2) ∧ (parts.map fun e => e.2.2).sum = n) ∧
    (∀ (tk : Bool) (shape : Shape) (bar : Bool), exec (.copyt d a b tk shape bar none) s = .next (s.traps c (.here 0x01 0))) ∧
    ∀ (scatter : Bool) (esz : Esz),
      let size := match esz with
        | .e4 => 4
        | .e8 => 8
        | .e16 => 16
      let i := if scatter then Instr.scatter d a b esz else .gather d a b esz
      let base := c.t.dval a.toNat
      let list := c.t.val (a.toNat + 2)
      let data := c.t.val (a.toNat + 3)
      let n := min (c.t.val b.toNat).toNat 64
      let reads := regsFrom a.toNat 4 ++ [b.toNat]
      let runs := fun (l p : Nat × Nat) =>
        Issues s c i 1 reads s.dev .cpy (some (d.toNat, 2)) [] 0 
          (.gather scatter base l.1 l.2 p.1 p.2 size ((List.range n).map fun i => { i := i, idx := none, lo := 0, n := size }))
      c.t.able (reads ++ regsFrom d.toNat 2) = true → base.toNat % size = 0 → list.toNat % 4 = 0 → data.toNat % size = 0 →
      (n = 0 → c.mayIssue s.dev .cpy [d.toNat, d.toNat + 1] → runs (c.w.uid, 0) (c.w.uid, 0)) ∧
      ∀ l p, 0 < n → s.dev.spanAt c.w list (4 * n) 4 = some l → s.dev.spanAt c.w data (size * n) size = some p →
        (2 ^ 57 ≤ base.toNat → exec i s = .next (s.traps c (.at 0x0F 1 base))) ∧
        (base.toNat < 2 ^ 57 → c.mayIssue s.dev .cpy [d.toNat, d.toNat + 1] → runs (l.uid, l.off) (p.uid, p.off))

/-- R386 to R389, R396, R397, R242: commands on die-local memory: atomics, compare-and-swaps, arm, xcvt and onceclr. Each checks its
alignment, translates its operand at issue, and issues; where its class is full it raises its header's flags and waits for a place.
A fence completes. R242 to R244: a fence performs, for its scope, what the commands of its first paths wrote that the thread has
observed, and a release what those of every path wrote; a command that acquires is marked so, and what its thread issues waits until
it is performed. R98: XCVT gives the first row of its table that applies: canonical NaN, +0, an infinity, or the exact sum rounded
to nearest. Where the spec leaves a point open or to inference, the model's choice stands (log 8, 66). -/
def Obligations.AtomicCommands : Prop :=
  (∀ (s : State) (c : Cur) (d a b : Reg), s.dev.cur = some c →
     let va := c.t.dval a.toNat
     let pair := regsFrom a.toNat 2
     let held := fun (i : Instr) (dev : Dev) (cls : Cls) (token : Option (Nat × Nat)) =>
       (∀ j ∈ tokenRegs token, j ∉ c.t.pend) → (∀ f ∈ c.rises, natAt c.w.flags f < 65535) →
         (dev.acquiring c.who ≠ [] → exec i s = .next (s.waits c dev (.commands (dev.acquiring c.who) []) none)) ∧
         (dev.acquiring c.who = [] → cls.places ≤ dev.taken c.w.die c.w.core cls → exec i s = .next (s.waits c
           (dev.modWg c.w.uid fun w => { w with flags := c.rises.foldl (fun fs f => updAt fs f (· + 1)) w.flags })
           (.place cls.code) none))
     let issues := fun (i : Instr) (reads : List Nat) (dev : Dev) (cls : Cls) (token : Option (Nat × Nat)) (align : Nat) (u : TlbUnit)
         (writes acquires : Bool) (body : Nat → Body) =>
       c.t.able (reads ++ tokenRegs token) = true →
         (va.toNat % align ≠ 0 → exec i s = .next (s.traps c (.at 0x05 0 va))) ∧
         (va.toNat % align = 0 → ∀ pa,
           c.reaches s.dev u { writes := writes, fetch := false, deviceOnly := true, localOnly := true } a.toNat pa →
           let x := c.command dev cls token [va.toNat / 4096] 0 (body pa)
           (c.mayIssue dev cls (tokenRegs token) → exec i s = .next (s.completes c 1
             (if acquires then (dev.issued c x).modCmd x.id fun x => { x with acq := true } else dev.issued c x)
             ((c.t.note reads).pends (tokenRegs token)))) ∧
           held i dev cls token)
     let after := fun (ord : Ord4) (scope : Scope) =>
       if ord ∈ [Ord4.rel, .acqrel] then s.dev.performed c.who 31#5 (decide (scope ≠ .wg)) else s.dev
     let acquires := fun (ord : Ord4) => decide (ord ∈ [Ord4.acq, .acqrel])
     (∀ (op : AtomOp) (ord : Ord4) (scope : Scope),
       let n := if op ∈ [AtomOp.dadd, .dmin, .dmax, .dor, .dxchg] then 2 else 1
       let src := if op = .ld then [] else regsFrom b.toNat n
       issues (.atomg d a b op ord scope) (pair ++ src) (after ord scope) .atm (some (d.toNat, n)) (4 * n) .atm (decide (op ≠ .ld)) (acquires ord)
         fun pa => .atomg op pa (BitVec.ofNat 64 (c.t.load b.toNat src.length))) ∧
     (∀ (ord : Ord4) (scope : Scope),
       issues (.casg d a b ord scope) (pair ++ regsFrom b.toNat 2) (after ord scope) .atm (some (d.toNat, 1)) 4 .atm true (acquires ord)
         (fun pa => .casg false pa (BitVec.ofNat 64 (c.t.load b.toNat 1)) (BitVec.ofNat 64 (c.t.load (b.toNat + 1) 1))) ∧
       issues (.dcasg d a b ord scope) (pair ++ regsFrom b.toNat 4) (after ord scope) .atm (some (d.toNat, 2)) 8 .atm true (acquires ord)
         fun pa => .casg true pa (BitVec.ofNat 64 (c.t.load b.toNat 2)) (BitVec.ofNat 64 (c.t.load (b.toNat + 2) 2))) ∧
     issues (.arm a b) (pair ++ [b.toNat]) s.dev .rmt none 8 .rmt true false (fun pa => .arm pa (c.t.val b.toNat)) ∧
     (∀ (f64 : Bool) (idx : BitVec 3),
       issues (.xcvt d a f64 idx) pair s.dev .rmt (some (d.toNat, if f64 then 2 else 1)) 64 .rmt false false
         fun pa => .xcvt pa f64 idx.toNat) ∧
     (∀ (f g : BitVec 5) (scope : Scope), exec (.fence f g scope) s =
       .next (s.completes c 1 (if g = 0 then s.dev else s.dev.performed c.who f (decide (scope ≠ .wg))) c.t)) ∧
     ∀ (tk : Bool),
       let n := min (c.t.val b.toNat).toNat 1024
       let reads := pair ++ [b.toNat]
       c.t.able (reads ++ tokenRegs (tokenOf tk d)) = true →
         (va.toNat % 64 ≠ 0 → exec (.onceclr d a b tk) s = .next (s.traps c (.at 0x05 0 va))) ∧
         (∀ pas : List Nat,
           let pages := pagesOf va.toNat (64 * n)
           va.toNat % 64 = 0 → pas.length = pages.length →
           (∀ k < pas.length, s.dev.xlate c.w.die c.w.ctx .rmt (accLocal true) c.t.walkFail (BitVec.ofNat 64 (natAt pages k * 4096)) =
             .hit (natAt pas k)) →
           (c.mayIssue s.dev .rmt (tokenRegs (tokenOf tk d)) →
             Issues s c (.onceclr d a b tk) 1 reads s.dev .rmt (tokenOf tk d) pages 1
               (.onceclr ((List.range n).map fun i =>
                 natAt pas ((va.toNat + 64 * i) / 4096 - va.toNat / 4096) + (va.toNat + 64 * i) % 4096))) ∧
           held (.onceclr d a b tk) s.dev .rmt (tokenOf tk d))) ∧
  (∀ (l i : Nat) (f : Fmt), f = .fp32 ∨ f = .fp64 →
     let nan := if f = .fp32 then 0x7FC0_0000 else 0x7FF8_0000_0000_0000
     let inf := if f = .fp32 then 0x7F80_0000 else 0x7FF0_0000_0000_0000
     let sign := if f = .fp32 then 2 ^ 31 else 2 ^ 63
     let kind := bits l 509 3
     let table := fun (bad pinf ninf : Bool) (v : XVal) =>
       (bad = true ∨ pinf = true ∧ ninf = true → xcvtCode l f i = nan) ∧
       (bad = false → pinf = true → ninf = false → xcvtCode l f i = inf) ∧
       (bad = false → pinf = false → ninf = true → xcvtCode l f i = sign + inf) ∧
       (bad = false → pinf = false → ninf = false → xcvtCode l f i = (roundTo f .rne false v).1)
     let full := (BitVec.ofNat 320 l).toInt
     let win := (BitVec.ofNat 56 (bits l (56 * (i % 8)) 56)).toInt
     let e := (BitVec.ofNat 9 (bits l 464 9)).toInt
     (3 ≤ kind → xcvtCode l f i = nan) ∧ (kind = 0 → xcvtCode l f i = 0) ∧
     (kind = 1 → table (l.testBit 354) (l.testBit 352) (l.testBit 353) (.fin (decide (full < 0)) full.natAbs (2 ^ 149))) ∧
     (kind = 2 → table (l.testBit 504 || l.testBit 508) (l.testBit 502) (l.testBit 503)
       (if 0 ≤ e then .fin (decide (win < 0)) (win.natAbs * 2 ^ e.natAbs) 1 else .fin (decide (win < 0)) win.natAbs (2 ^ e.natAbs))))

/-- R369, R390, R391, R90: the waits on arrival words and lines: COUNT at least TARGET completes WAITCNT and a passed deadline makes it
fault. The word is read once the thread's earlier arms of it are applied, and a deadline of 0 ends the wait at that first reading;
WAITLINE answers the word it found. R243: both come after the L2 atomics of the thread that acquire. Where the spec leaves a point
open or to inference, the model's choice stands (log 55). -/
def Obligations.Waits : Prop :=
  ∀ (s : State) (c : Cur) (pd : PredReg) (d a b : Reg) (pa : Nat), s.dev.cur = some c →
    let va := c.t.dval a.toNat
    let limit := if (c.t.val b.toNat).toNat = 2 ^ 32 - 1 then none else some (1024 * (c.t.val b.toNat).toNat)
    let late := c.t.expired = true ∨ (c.t.val b.toNat).toNat = 0
    let reads := regsFrom a.toNat 2 ++ [b.toNat]
    let three := regsFrom a.toNat 2 ++ regsFrom d.toNat 2 ++ [b.toNat]
    let word : Dword := BitVec.ofNat 64 (s.dev.rd pa 8)
    let answer := fun (v : Bool) => ((c.t.note three).stow d.toNat (s.dev.rd pa 8) 2).setPred pd v
    c.t.able three = true →
    (s.dev.acquiring c.who ≠ [] → ∀ i ∈ [Instr.waitcnt a b, .waitline pd d a b],
      exec i s = .next (s.waits c s.dev (.commands (s.dev.acquiring c.who) []) none)) ∧
    (s.dev.acquiring c.who = [] → va.toNat % 8 = 0 → c.reaches s.dev .rmt (accLocal false) a.toNat pa →
    (s.dev.armsOn c pa = [] → s.dev.rd (pa + 4) 4 ≤ s.dev.rd pa 4 →
      exec (.waitcnt a b) s = .next (s.completes c 1 s.dev (c.t.note reads))) ∧
    (s.dev.armsOn c pa = [] → s.dev.rd pa 4 < s.dev.rd (pa + 4) 4 → late → exec (.waitcnt a b) s = .next (s.traps c (.here 0x07 0))) ∧
    (s.dev.armsOn c pa ≠ [] → c.t.expired = true → exec (.waitcnt a b) s = .next (s.traps c (.here 0x07 0))) ∧
    (s.dev.armsOn c pa ≠ [] → c.t.expired = false → exec (.waitcnt a b) s = .next (s.waits c s.dev (.commands (s.dev.armsOn c pa) [])
      (if (c.t.val b.toNat).toNat = 0 then none else limit))) ∧
    (s.dev.armsOn c pa = [] → s.dev.rd pa 4 < s.dev.rd (pa + 4) 4 → ¬late →
      exec (.waitcnt a b) s = .next (s.waits c s.dev (.arrival pa) limit)) ∧
    (word ≠ c.t.dval d.toNat → exec (.waitline pd d a b) s = .next (s.completes c 1 s.dev (answer true))) ∧
    (word = c.t.dval d.toNat →
      (late → exec (.waitline pd d a b) s = .next (s.completes c 1 s.dev (answer false))) ∧
      (¬late → exec (.waitline pd d a b) s = .next (s.waits c s.dev (.line pa (c.t.dval d.toNat)) limit))))

/-- R392, R393, R159, R68, R311: each remote update, with its TYPE, alignment and operand, checks its operands, translates its target
and the arrival word attached to it, issues a command, and sends its message; a target that is not resident is no fault. R159, R393,
R394, R102: the message of an operation whose target or source is not resident takes its sequence and ends at once: nothing is sent,
nothing stays outstanding, the command completes with STATUS 7 in its token's value, and the error queue receives HOME_TRANSLATION
with the issuing die as the peer. R395: a remote read translates its landing region and arrival word, opens a read record with the
lines where its parts land, and sends its request; one of no bytes completes without a message, its token saying status 1. Where the
spec leaves a point open or to inference, the model's choice stands (log 14, 20, 40, 90). -/
def Obligations.RemoteCommands : Prop :=
  (∀ (s : State) (c : Cur) (d a b : Reg) (tk : Bool) (hint : Option ArrHint), s.dev.cur = some c → c.t.regs ≤ 64 →
     let va := c.t.dval a.toNat
     let arr := hint.bind fun h => if h.av then some h.arr.toNat else none
     let more := (arr.map fun r => regsFrom r 2).getD []
     let token := tokenOf tk d
     let sends := fun (i : Instr) (named reads : List Nat) (u : Update) =>
       c.t.able (named ++ reads ++ more ++ tokenRegs token) = true →
         (va.toNat % u.align ≠ 0 ∨ u.ty = 8 ∧ 64 < va.toNat % 64 + 4 * (u.nw + 1) → exec i s = .next (s.traps c (.at 0x05 0 va))) ∧
         (va.toNat % u.align = 0 → (u.ty = 8 → va.toNat % 64 + 4 * (u.nw + 1) ≤ 64) →
           (∀ r, arr = some r → (c.t.dval r).toNat % 8 = 0) → c.mayIssue s.dev .rmt (tokenRegs token) →
           ∀ (pa : Option Nat) (word : Nat),
             (∀ p, pa = some p → c.reaches s.dev .rmt (accRemote true) a.toNat p) →
             (pa = none → s.dev.xlate c.w.die c.w.ctx .rmt (accRemote true) c.t.walkFail va = .fail 2) →
             (∀ r, arr = some r → c.reaches s.dev .rmt (accRemote true) r word ∧ ∀ p, pa = some p → homeOf word = homeOf p) →
             (arr = none → word = 0) →
             exec i s = .next (s.completes c (if hint = none then 1 else 2)
               ((s.dev.issued c (c.command s.dev .rmt token
                   (va.toNat / 4096 :: ((arr.map fun r => (c.t.dval r).toNat / 4096).toList)) 0 .remote)).enqueue
                 c.w.die c.w.ctx u.kind (pa.map homeOf) (updateBody u.ty arr.isSome u.e u.nw (pa.getD 0) word u.operand)
                 (c.w.threadField c.tid) va (.command s.dev.nextCmd))
               ((c.t.note (reads ++ more)).pends (tokenRegs token))))
     let pair := regsFrom a.toNat 2
     let word1 : List Dword := [BitVec.ofNat 64 (c.t.load b.toNat 1)]
     let word2 : List Dword := [BitVec.ofNat 64 (c.t.load b.toNat 2)]
     let words := fun (n : Nat) => (List.range ((n + 1) / 2)).map fun i =>
       (BitVec.ofNat 64 (c.t.load (b.toNat + 2 * i) (min 2 (n - 2 * i))) : Dword)
     let narrow := pair ++ [b.toNat]
     let wide := pair ++ regsFrom b.toNat 2
     let nw := (hint.map fun h => h.nw.toNat).getD 0
     sends (.radd d a b tk .i32 hint) [] narrow { kind := 0x40, ty := 0, align := 4, e := 0, nw := 0, operand := word1 } ∧
     sends (.radd d a b tk .i64 hint) [] wide { kind := 0x40, ty := 2, align := 8, e := 0, nw := 0, operand := word2 } ∧
     sends (.radd d a b tk .full hint) [] narrow { kind := 0x40, ty := 5, align := 64, e := 0, nw := 0, operand := word1 } ∧
     sends (.radd d a b tk .win hint) (regsFrom a.toNat 4) (regsFrom a.toNat 3 ++ regsFrom b.toNat 8)
       { kind := 0x40, ty := 6, align := 64, e := (c.t.val (a.toNat + 2)).toNat % 512, nw := 0, operand := words 8 } ∧
     (∀ ty : MinTy,
       let f : Nat × Bool := match ty with
         | .i32 => (0, false)
         | .n32 => (1, false)
         | .i64 => (2, true)
         | .n64 => (3, true)
         | .f32 => (4, false)
       let u := fun (kind : Nat) => ({ kind := kind, ty := f.1, align := if f.2 then 8 else 4, e := 0, nw := 0,
                                       operand := if f.2 then word2 else word1 } : Update)
       sends (.rmin d a b tk ty hint) [] (if f.2 then wide else narrow) (u 0x41) ∧
       sends (.rmax d a b tk ty hint) [] (if f.2 then wide else narrow) (u 0x42)) ∧
     sends (.ror d a b tk hint) [] wide { kind := 0x43, ty := 7, align := 8, e := 0, nw := 0, operand := word2 } ∧
     sends (.rwonce d a b tk hint) [] (pair ++ regsFrom b.toNat (nw + 1))
       { kind := 0x44, ty := 8, align := 4, e := 0, nw := nw, operand := words (nw + 1) } ∧
     sends (.rarrive d a b tk hint) [] narrow { kind := 0x45, ty := 9, align := 8, e := 0, nw := 0, operand := word1 } ∧
     sends (.rclose d a tk hint) [] pair { kind := 0x46, ty := 10, align := 8, e := 0, nw := 0, operand := [0] }) ∧
  (∀ (d : Dev) (die ctx kind cmd : Nat) (rest : List Dword) (thread : Word) (va : Dword) (note : Note) (read : Option ReadRec) (k : Ctx),
     die < 4 → ctx < 64 → (d.die die).seqs.length = 64 → d.ctx? die ctx = some k → k.ending = none →
     let x := d.die die
     let seq := natAt x.seqs ctx
     let tag : Dword := BitVec.ofNat 64 (d.dieId die * 2 ^ 50 + x.inc.toNat * 2 ^ 46 + ctx % 64 * 2 ^ 40 + seq % 2 ^ 40)
     let out := d.enqueueAs die ctx kind none (fun t => t :: rest) thread va (.command cmd) note read
     let e := d.errq die ctx 0x07 kind (d.dieId die) thread va tag
     (∀ u ∈ x.unsent, u.ctx ≠ ctx) → seqDiff seq (x.oldest ctx) < 4096 → (∀ o ∈ x.outs, o.ctx = ctx → o.seq ≠ seq) →
     (out.die die).inbox = x.inbox ∧ (out.die die).transit = x.transit ∧ (out.die die).outs = x.outs ∧
     natAt (out.die die).seqs ctx = (seq + 1) % 2 ^ 40 ∧
     out.cmds = (d.cmds.map fun c => if c.id = cmd then { c with result := 1 + 2 * 7, body := .finished } else c) ∧
     out.mem = e.mem ∧ out.posted = e.posted ∧
     (1024 ≤ k.count + (d.posted.filter fun p => p.order == .errq die ctx).length → out.mem = d.mem ∧ out.posted = d.posted) ∧
     ∀ pa, k.count + (d.posted.filter fun p => p.order == .errq die ctx).length < 1024 →
       d.xlateNow die ctx (accLocal true) (k.errqVa + BitVec.ofNat 64
         (32 * ((k.head + (k.count + (d.posted.filter fun p => p.order == .errq die ctx).length)) % 1024))) = .ok pa →
       e = d.post (.errq die ctx) pa ([0x07#8, BitVec.ofNat 8 kind] ++ leBytes (d.dieId die % 2 ^ 14) 2 ++ leBytes thread.toNat 4 ++
         leBytes (va.toNat % 2 ^ 57) 8 ++ leBytes tag.toNat 8 ++ leBytes d.ns 8)) ∧
  (∀ (s : State) (c : Cur) (d a : Reg) (tk : Bool) (pas : List Nat) (arrPa : Nat), s.dev.cur = some c → c.t.regs ≤ 64 →
     let src := c.t.dval a.toNat
     let land := c.t.dval (a.toNat + 2)
     let arr := c.t.dval (a.toNat + 4)
     let nb := (c.t.val (a.toNat + 6)).toNat
     let n := min nb 4096
     let token := tokenOf tk d
     let reads := regsFrom a.toNat 7
     let pages := pagesOf land.toNat n
     let i := Instr.rread d a tk
     c.t.able (regsFrom a.toNat 8 ++ tokenRegs token) = true →
     (src.toNat % 4 ≠ 0 → exec i s = .next (s.traps c (.at 0x05 0 src))) ∧
     (src.toNat % 4 = 0 → nb % 4 ≠ 0 → exec i s = .next (s.traps c (.here 0x05 0))) ∧
     (src.toNat % 4 = 0 → nb % 4 = 0 → land.toNat % 64 = 0 → arr.toNat % 8 = 0 → c.mayIssue s.dev .rmt (tokenRegs token) →
       pas.length = pages.length →
       (∀ k < pas.length, s.dev.xlate c.w.die c.w.ctx .rmt (accLocal true) c.t.walkFail (BitVec.ofNat 64 (natAt pages k * 4096)) =
         .hit (natAt pas k)) →
       c.reaches s.dev .rmt (accLocal true) (a.toNat + 4) arrPa →
       (n = 0 → Issues s c i 1 reads s.dev .rmt token [] 3 .finished) ∧
       (0 < n → canonicalRange src n = true → ∀ pa : Option Nat,
         (∀ p, pa = some p → c.reaches s.dev .rmt (accRemote false) a.toNat p) →
         (pa = none → s.dev.xlate c.w.die c.w.ctx .rmt (accRemote false) c.t.walkFail src = .fail 2) →
         let lines := (List.range ((n + 63) / 64)).map fun k =>
           natAt pas ((land.toNat + 64 * k) / 4096 - land.toNat / 4096) + (land.toNat + 64 * k) % 4096
         exec i s = .next (s.completes c 1
           ((s.dev.issued c (c.command s.dev .rmt token (src.toNat / 4096 :: arr.toNat / 4096 :: pages) 0 .remote)).enqueueAs
             c.w.die c.w.ctx 0x01 (pa.map homeOf) (rreadBody n (pa.getD 0)) (c.w.threadField c.tid) src (.command s.dev.nextCmd)
             { fwd := false, va := 0, freed := false }
             (some { ctx := c.w.ctx, seq := 0, cmd := s.dev.nextCmd, landing := lines, arrival := arrPa, n := n, got := [],
                     fail7 := false, conflict := false, allBenign := true }))
           ((c.t.note reads).pends (tokenRegs token))))))

/-- R72 to R74, R88: a message takes its context's next sequence, which goes on by one, where no earlier one of the context waits for
its own; while fewer than 4,096 sequences separate it from the oldest, its die is not draining and the budgets allow it, it leaves,
sealed, and waits for its answer; the read record of a remote read is kept under the sequence. Where 4,096 do, it waits for its
sequence. Where the spec leaves a point open or to inference, the model's choice stands (log 39, 40). -/
def Obligations.TagsRise : Prop :=
  ∀ (d : Dev) (die ctx kind dst : Nat) (rest : List Dword) (thread : Word) (va : Dword) (after : After) (note : Note)
    (read : Option ReadRec) (k : Ctx), die < 4 → ctx < 64 → (d.die die).seqs.length = 64 → d.ctx? die ctx = some k → k.fab = 0 → k.upd = 0 →
    let x := d.die die
    let seq := natAt x.seqs ctx
    let tag : Dword := BitVec.ofNat 64 (d.dieId die * 2 ^ 50 + x.inc.toNat * 2 ^ 46 + ctx % 64 * 2 ^ 40 + seq % 2 ^ 40)
    let out := d.enqueueAs die ctx kind (some dst) (fun t => t :: rest) thread va after note read
    (∀ u ∈ x.unsent, u.ctx ≠ ctx) →
    (4096 ≤ seqDiff seq (x.oldest ctx) → out = d.modDie die fun x => { x with unsent := x.unsent ++
      [{ ctx := ctx, kind := kind, dst := some dst, body := 0 :: rest, thread := thread, va := va, after := after, note := note,
         read := read }] }) ∧
    (seqDiff seq (x.oldest ctx) < 4096 → (∀ o ∈ x.outs, o.ctx = ctx → o.seq ≠ seq) → x.draining = false →
      (kind = 0x01 → (x.outs.filter fun o => o.kind == 0x01 && o.sent).length < 4096) →
      let y := out.die die
      natAt y.seqs ctx = (seq + 1) % 2 ^ 40 ∧
      (∃ o, y.outs = x.outs ++ [o] ∧ o.ctx = ctx ∧ o.seq = seq ∧ o.sent = true ∧ o.dst = some dst ∧ o.after = after ∧
        o.resends = 0 ∧ o.ws = mkMsg kind dst (d.dieId die) x.inc (tag :: rest)) ∧
      y.reads = x.reads ++ (read.map fun r => { r with seq := seq }).toList ∧
      (∃ m, (if dst % 2 ^ 14 = d.dieId die then y.inbox = x.inbox ++ [m] else y.transit = x.transit ++ [m]) ∧
        msgE2eOk m.ws = true ∧ m.note = note))

/-- R110, R398, R124, R113: an invocation whose checks pass takes the lowest free slot, answers its handle, and sends its message to the
die it names, to its address's home, or to the handle's location; an INVOKEH takes its place in its order; an order-table entry that
it makes holds the sequence that its message takes, behind those that wait for theirs (R74, log 40). R243: it waits for the L2
atomics of its thread that acquire. R102: an invocation by die or by handle names no address for an error-queue entry; the model
writes zero (log 58). Where the spec leaves a point open or to inference, the model's choice stands (log 40, 58, 66). -/
def Obligations.Invocations : Prop :=
  ∀ (s : State) (c : Cur) (d a b : Reg) (hint : Option ArrHint) (k : Ctx) (args : List Byte) (saw : Dev) (word slot : Nat),
    s.dev.cur = some c →
    c.t.regs ≤ 64 → s.dev.ctx? c.w.die c.w.ctx = some k →
    let x := s.dev.die c.w.die
    let arr := hint.bind fun h => if h.av then some h.arr.toNat else none
    let more := (arr.map fun r => regsFrom r 2).getD []
    let fn := (c.t.val (a.toNat + 2)).toNat
    let addr := c.t.val (a.toNat + 3)
    let n := min (fnField k.invt fn 22 1) 64 / 4 * 4
    let gen := if (x.slot slot).gen = 0 then 1 else (x.slot slot).gen
    let h : Dword := BitVec.ofNat 64 (s.dev.dieId c.w.die * 2 ^ 50 + slot * 2 ^ 34 + gen * 2 ^ 26 + c.w.ctx * 2 ^ 20)
    let entry := fun (die : Nat) => ({ HrtSlot.empty with used := true, ctx := c.w.ctx, state := 1, gen := gen, loc := die } : HrtSlot)
    let named := (arr.map c.t.dval).getD 0
    let task : Task := { newh := h, fn := fn, args := args, arrpa := word, arrva := named, addrh := 0, base := 0, isq := 0,
                         issuer := c.w.threadField c.tid }
    let answers := fun (i : Instr) (reads : List Nat) (kind die : Nat) (va : Dword) (y : Die) (t : Task) =>
      exec i s = .next (s.completes c (if hint = none then 1 else 2)
        ((saw.setDie c.w.die (y.setSlot slot (entry die))).enqueueAs c.w.die c.w.ctx kind (some die) t.body (c.w.threadField c.tid)
          va (.invoked h) { fwd := false, va := named, freed := false } none)
        ((c.t.note (reads ++ [b.toNat] ++ more)).stow d.toNat h.toNat 2))
    c.t.able (regsFrom a.toNat 4 ++ [b.toNat] ++ more ++ regsFrom d.toNat 2) = true → fn < 4096 → fn < k.invcnt → addr.toNat % 4 = 0 →
    (n = 0 ∧ args = [] ∧ saw = s.dev ∨
      0 < n ∧ ∃ p, s.dev.scratchAt c.w addr n 4 = .ok p ∧ args = s.dev.scratchRdBytes p n ∧ saw = s.dev.thrSaw c.who p n) →
    (∀ r, arr = some r → (c.t.dval r).toNat % 8 = 0 ∧ c.reaches s.dev .rmt (accLocal true) r word) → (arr = none → word = 0) →
    x.freeSlot = some slot → 
    (s.dev.acquiring c.who ≠ [] → ∀ i ∈ [Instr.invokeDie d a b hint, .invokeAddr d a b hint, .invokeh d a b hint],
      exec i s = .next (s.waits c s.dev (.commands (s.dev.acquiring c.who) []) none)) ∧
    (s.dev.acquiring c.who = [] →
    (s.dev.inTorus (c.t.val a.toNat).toNat = true →
      answers (.invokeDie d a b hint) [a.toNat, a.toNat + 2, a.toNat + 3] 0x02 (c.t.val a.toNat).toNat 0 x task) ∧
    (∀ pa, c.reaches s.dev .rmt (accRemote false) a.toNat pa →
      answers (.invokeAddr d a b hint) (regsFrom a.toNat 4) 0x02 (homeOf pa) (c.t.dval a.toNat) x task) ∧
    (handleOk (c.t.dval a.toNat) c.w.ctx = true →
      let up := c.t.dval a.toNat
      (∀ o, x.order? c.w.uid c.tid up = some o →
        answers (.invokeh d a b hint) (regsFrom a.toNat 4) 0x03 (s.dev.whereTo c.w.die up) 0
          { x with orders := x.orders.map fun p =>
              if p.uid = c.w.uid ∧ p.tid = c.tid ∧ p.h = up then { p with next := (p.next + 1) % 65536 } else p }
          { task with addrh := up, base := o.base, isq := o.next }) ∧
      (x.order? c.w.uid c.tid up = none → x.orders.length < 4096 →
        let own := (natAt x.seqs c.w.ctx + (x.unsent.filter fun u => u.ctx == c.w.ctx).length) % 2 ^ 40
        answers (.invokeh d a b hint) (regsFrom a.toNat 4) 0x03 (s.dev.whereTo c.w.die up) 0
          { x with orders := x.orders ++ [{ uid := c.w.uid, tid := c.tid, h := up, base := own, next := 1 }] }
          { task with addrh := up, base := own, isq := 0 })) ∧
    ((s.dev.inTorus (c.t.val a.toNat).toNat = false →
      exec (.invokeDie d a b hint) s = .next (s.traps c (.here 0x0D 0))) ∧
     (handleOk (c.t.dval a.toNat) c.w.ctx = false → exec (.invokeh d a b hint) s = .next (s.traps c (.here 0x0D 0)))))

/-- R114, R121, R131, R133: RETH names the forward handle of its task; HGET sends its request; HFREE frees the order entries of the
handle (R124). At its ORIGIN the slot's GEN rises at once: with LOCV 1 the slot is free and HFREE goes to LOC, with LOCV 0 it stays
allocated and is to be freed, and a handle of an old generation changes nothing; on another die HFREE goes to where the handle's
messages go. A handle that fails R114 faults in each. R231: HGET's 64 bytes may lie in two ranks. R243: HGET and HFREE wait for the
L2 atomics of their thread that acquire. Where the spec leaves a point open or to inference, the model's choice stands (log 37, 58,
66). -/
def Obligations.HandleInstructions : Prop :=
  ∀ (s : State) (c : Cur) (d a b : Reg), s.dev.cur = some c →
    let h := c.t.dval a.toNat
    let good := h.toNat % 2 ^ 20 = 0 ∧ h.toNat / 2 ^ 26 % 2 ^ 8 ≠ 0 ∧ h.toNat / 2 ^ 20 % 2 ^ 6 = c.w.ctx
    let pair := regsFrom a.toNat 2
    let bad : Out := .next (s.traps c (.here 0x0D 0))
    let freed := s.dev.modDie c.w.die fun x => { x with orders := x.orders.filter fun o => o.h != h }
    (c.t.able pair = true →
      (∀ self, c.w.kind = .task self →
        (h = 0 ∨ good ∧ h ≠ self → exec (.reth a) s =
          .next (s.completes c 1 (s.dev.modWg c.w.uid fun w => { w with forward := h }) (c.t.note pair))) ∧
        (h ≠ 0 → ¬good ∨ h = self → exec (.reth a) s = bad)) ∧
      ((∀ self, c.w.kind ≠ .task self) → exec (.reth a) s = bad) ∧
      (s.dev.acquiring c.who ≠ [] → exec (.hfree a) s = .next (s.waits c s.dev (.commands (s.dev.acquiring c.who) []) none)) ∧
      (good → s.dev.acquiring c.who = [] →
        let frees := fun (dev : Dev) => exec (.hfree a) s = .next (s.completes c 1 dev (c.t.note pair))
        let tells := fun (dev : Dev) (dst : Nat) => dev.enqueue c.w.die (h.toNat / 2 ^ 20 % 2 ^ 6) 0x05 (some dst) (fun tag => [tag, 0, h])
          (c.w.threadField c.tid) 0 .none
        let slot := h.toNat / 2 ^ 34 % 2 ^ 16
        let e := (s.dev.die c.w.die).slot slot
        let mine := e.used = true ∧ e.gen = h.toNat / 2 ^ 26 % 2 ^ 8 ∧ e.ctx = c.w.ctx
        let risen := e.gen % 255 + 1
        let becomes := fun (e : HrtSlot) => freed.modDie c.w.die fun x => x.setSlot slot e
        (h.toNat / 2 ^ 50 % 2 ^ 14 = s.dev.dieId c.w.die →
          (¬mine → frees freed) ∧
          (mine → e.locv = true → frees (tells (becomes { HrtSlot.empty with gen := risen }) e.loc)) ∧
          (mine → e.locv = false → frees (becomes { e with gen := risen, freeing := some (c.w.threadField c.tid) }))) ∧
        (h.toNat / 2 ^ 50 % 2 ^ 14 ≠ s.dev.dieId c.w.die → frees (tells freed (freed.whereTo c.w.die h)))) ∧
      (¬good → s.dev.acquiring c.who = [] → exec (.hfree a) s = bad)) ∧
    (c.t.able (pair ++ [b.toNat, d.toNat]) = true →
      (¬good → exec (.hget d a b) s = bad) ∧
      (∀ p, good → (c.t.val b.toNat).toNat % 4 = 0 → s.dev.spanAt c.w (c.t.val b.toNat) 64 4 = some p →
        d.toNat ∉ c.t.pend → (∀ f ∈ c.rises, natAt c.w.flags f < 65535) → s.dev.acquiring c.who ≠ [] →
        exec (.hget d a b) s = .next (s.waits c s.dev (.commands (s.dev.acquiring c.who) []) none)) ∧
      ∀ p, good → (c.t.val b.toNat).toNat % 4 = 0 → s.dev.spanAt c.w (c.t.val b.toNat) 64 4 = some p →
        c.mayIssue s.dev .rmt [d.toNat] →
        exec (.hget d a b) s = .next (s.completes c 1
          ((s.dev.issued c (c.command s.dev .rmt (some (d.toNat, 1)) [] 0 (.hget p.uid p.off none))).enqueue c.w.die c.w.ctx 0x04
            (some (s.dev.whereTo c.w.die h)) (fun tag => [tag, 0, h]) (c.w.threadField c.tid) 0 (.command s.dev.nextCmd))
          ((c.t.note (pair ++ [b.toNat])).pends [d.toNat])))

/-- R132: HSTAT reads what the issuing die knows, without a message: from the HRT where the die is the handle's ORIGIN and GEN matches
(of a slot allocated to a handle of the thread's context, the model's reading, log 64), from the location cache where it holds the
handle, and else UNKNOWN. The predicate receives true exactly when the state is DONE. R114: a handle that fails its checks faults.
Where the spec leaves a point open or to inference, the model's choice stands (log 64). -/
def Obligations.HstatReads : Prop :=
  ∀ (s : State) (c : Cur) (pd : PredReg) (d a : Reg), s.dev.cur = some c →
    let h := c.t.dval a.toNat
    let x := s.dev.die c.w.die
    let slot := h.toNat / 2 ^ 34 % 2 ^ 16
    let e := x.slot slot
    let mine := h.toNat / 2 ^ 50 % 2 ^ 14 = s.dev.dieId c.w.die ∧ e.used = true ∧ e.gen = h.toNat / 2 ^ 26 % 2 ^ 8 ∧ e.ctx = c.w.ctx
    let good := h.toNat % 2 ^ 20 = 0 ∧ h.toNat / 2 ^ 26 % 2 ^ 8 ≠ 0 ∧ h.toNat / 2 ^ 20 % 2 ^ 6 = c.w.ctx
    c.t.able (regsFrom a.toNat 2 ++ [d.toNat]) = true →
    let answers := fun (st : Nat) (cause fcode : Byte) => exec (.hstat pd d a) s = .next (s.completes c 1 s.dev
      (((c.t.note (regsFrom a.toNat 2)).set d.toNat (BitVec.ofNat 32 (st + 2 ^ 8 * cause.toNat + 2 ^ 16 * fcode.toNat))).setPred pd
        (decide (st = 2))))
    (¬good → exec (.hstat pd d a) s = .next (s.traps c (.here 0x0D 0))) ∧
    (good → mine → answers e.state e.cause e.fcode) ∧
    (good → ¬mine → (∀ l, x.loc? h = some l → answers l.state l.cause l.fcode) ∧ (x.loc? h = none → answers 0 0 0))

/-- R400, R402 to R406, R288, R289: multiplies, drains, quantisations and transposes whose checks pass issue their command; the forms
that overwrite a whole tile or start it anew set its tensor scale. A tile out of range raises ACCUM_RANGE; a descriptor that breaks
its conditions TENSOR_DESC with its number; a multiply or a part transpose whose tensor scale is not the tile's TENSOR_DESC, NaN
equal to NaN; a sparse multiply whose generator context is empty or of another descriptor PATTERN_FORMAT with word index 16, and one
with a transposed A whose pattern is not invertible NONINV. R275: no drain to FP32 rounds under SR (log 85). R311, R312: a multiply
has its DESC hint. R278 to R281, R284, R287, R289, R294, R277: a multiply that the engine accepts adds to each element (i, j) of its
region of the tile, group by group, the exact sum of the products of the elements of A and B times the two scales, with one rounding
to FP32 to nearest even; an exact zero leaves the element as it is; an element outside its tensor, or that is no member, is an exact
zero. mmaz starts at +0. It writes no scratchpad and no other element, answers 1, and sets BADSCALE where a scale that it reads has
bit [7] set. R280, R292, R293, R405, R265 to R267, R271, R406, R408: DRAIN and TQUANT write, for each row of the region that meets
the descriptor, the codes of its elements packed, each rounded once from the exact product of the element and the tensor scale, for
TQUANT by the scale of its block, which they write too; TXP copies a region transposed, and reads it whole first; PATLD loads a
generator context. A word of scratchpad that such a write meets is written whole: the bits that the write covers are its own, and
the others are those that the word held. Where the spec leaves a point open or to inference, the model's choice stands (log 21, 65,
85). -/
def Obligations.MatrixCommands : Prop :=
  (∀ (s : State) (c : Cur) (d a : Reg) (tk : Bool) (shape : Shape), s.dev.cur = some c → c.t.regs ≤ 64 →
     let token := tokenOf tk d
     let v := fun (i : Nat) => (c.t.val (a.toNat + i)).toNat
     let origin := fun (i : Nat) => (v i / 2 ^ 16, v i % 2 ^ 16)
     let m := if shape.m128 then 128 else 64
     let n := if shape.n128 then 128 else 64
     let issues := fun (i : Instr) (words regs : Nat) (op : MtxOp) (tsrc : Option (Nat × XVal)) =>
       c.mayIssue s.dev .mtx (tokenRegs token) → exec i s = .next (s.completes c words
         (match tsrc with
         | some (tile, x) => (s.dev.issued c (c.command s.dev .mtx token [] 1 (.mtx op))).modWg c.w.uid fun w =>
             { w with tsrc := w.tsrc.set tile x }
         | none => s.dev.issued c (c.command s.dev .mtx token [] 1 (.mtx op)))
         ((c.t.note (regsFrom a.toNat regs)).pends (tokenRegs token)))
     let inTile := fun (tile : Nat) (o : Nat × Nat) (m n : Nat) =>
       tile < c.w.acc ∧ o.1 + m ≤ 128 ∧ o.2 + n ≤ 128 ∧ o.1 % 64 = 0 ∧ o.2 % 64 = 0
     c.t.able (regsFrom a.toNat 4 ++ tokenRegs token) = true →
     (∀ sparse : Bool, ∀ i ∈ [Instr.mma d a tk shape sparse none, .mmaz d a tk shape sparse none],
       exec i s = .next (s.traps c (.here 0x01 0))) ∧
     (∀ (sparse : Bool) (h : DescHint),
       let da := s.dev.desc c h.da.toNat
       let db := s.dev.desc c h.db.toNat
       let tile := v 3 % 8
       let gi := v 3 / 16 % 4
       let scale := (XVal.mul da.tensorScale db.tensorScale).1
       let op := fun (zero : Bool) => MtxOp.mma zero sparse h.ta h.tb m n shape.kDim da db (origin 0) (origin 1) (origin 2) tile gi
       let both := [Instr.mma d a tk shape sparse (some h), .mmaz d a tk shape sparse (some h)]
       (mmaDesc da (origin 0) (!h.ta) false sparse = false → ∀ i ∈ both, exec i s = .next (s.traps c (.here 0x0B h.da.toNat))) ∧
       (mmaDesc da (origin 0) (!h.ta) false sparse = true → mmaDesc db (origin 1) h.tb true sparse = false →
         ∀ i ∈ both, exec i s = .next (s.traps c (.here 0x0B h.db.toNat))) ∧
       (mmaDesc da (origin 0) (!h.ta) false sparse = true → mmaDesc db (origin 1) h.tb true sparse = true →
       (sparse = true → inTile tile (origin 2) m n →
         (c.w.gen gi = none → ∀ i ∈ both, exec i s = .next (s.traps c (.here 0x0A 16))) ∧
         ∀ g, c.w.gen gi = some g →
           (g.desc ≠ h.da.toNat → ∀ i ∈ both, exec i s = .next (s.traps c (.at 0x0A 16 g.patva))) ∧
           (g.desc = h.da.toNat → h.ta = true → invertible g.words = false →
             ∀ i ∈ both, exec i s = .next (s.traps c (.at 0x09 gi g.patva)))) ∧
       (¬inTile tile (origin 2) m n → ∀ i ∈ both, exec i s = .next (s.traps c (.here 0x0C tile))) ∧
       ∀ pat : Option Pat, inTile tile (origin 2) m n → (sparse = false → pat = none) →
         (sparse = true → ∃ g, c.w.gen gi = some g ∧ g.desc = h.da.toNat ∧ (h.ta = true → invertible g.words = true) ∧ pat = some g.pat) →
         let sa : MmaSide := { desc := da, o := origin 0, k0 := !h.ta, pat := pat }
         let sb : MmaSide := { desc := db, o := origin 1, k0 := h.tb, pat := none }
         s.dev.checkSegs c.w (sa.segments m shape.kDim ++ sb.segments n shape.kDim ++ sa.scaleSegs m shape.kDim ++
           sb.scaleSegs n shape.kDim) = .ok () →
         issues (.mmaz d a tk shape sparse (some h)) 2 4 (op true) (some (tile, scale)) ∧
         (XVal.same scale (c.w.scaleOfTile tile) = true → issues (.mma d a tk shape sparse (some h)) 2 4 (op false) none) ∧
         (XVal.same scale (c.w.scaleOfTile tile) = false →
           exec (.mma d a tk shape sparse (some h)) s = .next (s.traps c (.here 0x0B h.da.toNat))))) ∧
     (∀ (quant : Bool) (rm : Rm3) (sat : Bool) (stream : BitVec 8),
       let i := if quant then Instr.tquant d a tk rm sat stream else .drain d a tk rm sat stream
       let dd := s.dev.desc c (v 2 % 256)
       let m := if v 2 / 2 ^ 8 % 2 = 1 then 128 else 64
       let n := if v 2 / 2 ^ 9 % 2 = 1 then 128 else 64
       let tile := v 2 / 2 ^ 12 % 8
       let good := if quant then quantDesc dd (origin 1) m n else drainDesc dd (origin 1) rm
       (good = false → exec i s = .next (s.traps c (.here 0x0B (v 2 % 256)))) ∧
       (good = true → ¬inTile tile (origin 0) m n → exec i s = .next (s.traps c (.here 0x0C tile))) ∧
       (good = true → inTile tile (origin 0) m n →
         s.dev.checkSegs c.w (destSegs dd (origin 1) m n ++ if quant then
           (blockStarts dd (origin 1) m n).map fun e => (dd.scaleAt ((origin 1).2 + e.2) ((origin 1).1 + e.1), 1) else []) = .ok () →
         issues i 1 3 (.drain quant rm sat stream (s.dev.seed c) dd m n (origin 0) (origin 1) tile
           (XVal.mul (c.w.scaleOfTile tile) dd.tensorScale).1) none)) ∧
     let st := v 2 % 8
     let dt := v 2 / 2 ^ 8 % 8
     let op := MtxOp.txp m n (origin 0) (origin 1) st dt
     (¬inTile st (origin 0) m n → exec (.txp d a tk shape) s = .next (s.traps c (.here 0x0C st))) ∧
     (inTile st (origin 0) m n → ¬inTile dt (origin 1) n m → exec (.txp d a tk shape) s = .next (s.traps c (.here 0x0C dt))) ∧
     (inTile st (origin 0) m n → inTile dt (origin 1) n m →
       (m = 128 ∧ n = 128 → issues (.txp d a tk shape) 1 3 op (some (dt, c.w.scaleOfTile st))) ∧
       (¬(m = 128 ∧ n = 128) → XVal.same (c.w.scaleOfTile dt) (c.w.scaleOfTile st) = true → issues (.txp d a tk shape) 1 3 op none) ∧
       (¬(m = 128 ∧ n = 128) → XVal.same (c.w.scaleOfTile dt) (c.w.scaleOfTile st) = false →
         exec (.txp d a tk shape) s = .next (s.traps c (.here 0x0B 0))))) ∧
  (∀ (d v : Dev) (w : Wg) (zero sparse ta tb : Bool) (m n kDim : Nat) (da db : Desc) (oa ob oc : Nat × Nat) (tile gi : Nat),
     canonical 0#32 w.tiles = true → d.wg? w.uid = some w → oc.1 + m ≤ 128 → oc.2 + n ≤ 128 →
     (sparse = true → (w.gen gi).isSome = true) →
     let pat := if sparse then (w.gen gi).map Gen.pat else none
     let inside := fun (x : Desc) (c : Nat × Nat) => decide (c.1 < x.dim 1 ∧ c.2 < x.dim 0)
     let elem := fun (x : Desc) (p : Option Pat) (c : Nat × Nat) =>
       let bit := x.fmt.width * c.2
       if inside x c && p.all fun q => q.member c.1 c.2 then
         valueOf x.fmt (leValue (v.rangeRd (v.placeOf w (x.base + c.1 * x.stride 1 + bit / 8)) ((bit % 8 + x.fmt.width + 7) / 8)) / 2 ^ (bit % 8)
           % 2 ^ x.fmt.width)
       else .fin false 0 1
     let scaleByte := fun (x : Desc) (p : Option Pat) (at_ : Nat → Nat × Nat) (k : Nat) =>
       let first := k / x.block * x.block
       let c := at_ first
       let s := if x.baxis = 0 then c.2 / x.block + (x.dim 0 + x.block - 1) / x.block * c.1 else c.2 + x.dim 0 * (c.1 / x.block)
       if x.scfmt ≠ 0 ∧ ∃ i < x.block, inside x (at_ (first + i)) = true ∧
           (p.all fun q => q.present false ((at_ (first + i)).1 / q.gran) ((at_ (first + i)).2 / q.gran)) = true then
         some (BitVec.ofNat 8 (v.scratchRd (v.placeOf w (x.scbase + s)) 1))
       else none
     let scaleVal := fun (x : Desc) (b : Option Byte) => (b.map (scaleValue x.scale)).getD (.fin false 1 1)
     let ca := fun (i k : Nat) => if ta then (oa.1 + k, oa.2 + i) else (oa.1 + i, oa.2 + k)
     let cb := fun (j k : Nat) => if tb then (ob.1 + j, ob.2 + k) else (ob.1 + k, ob.2 + j)
     let g := if da.scfmt = 0 then (if db.scfmt = 0 then 32 else db.block) else if db.scfmt = 0 then da.block else min da.block db.block
     let product := fun (i j t : Nat) =>
       let sum := (List.range g).foldl (fun x k =>
         (XVal.add false x (XVal.mul (elem da pat (ca i (t * g + k))) (elem db none (cb j (t * g + k)))).1).1) (.fin false 0 1)
       (XVal.mul (XVal.mul sum (scaleVal da (scaleByte da pat (ca i) (t * g)))).1 (scaleVal db (scaleByte db none (cb j) (t * g)))).1
     let sum := fun (i j : Nat) => (List.range (kDim / g)).foldl (fun (acc : Word) t =>
         if (product i j t).isZero then acc
         else BitVec.ofNat 32 (roundTo .fp32 .rne false (XVal.add false (valueOf .fp32 acc.toNat) (product i j t)).1).1)
       (if zero then 0#32 else w.acc_ tile (oc.1 + i) (oc.2 + j))
     let bad := ((List.range m).any fun i => (List.range (kDim / g)).any fun t =>
         (scaleByte da pat (ca i) (t * g)).any (badScale da.scale)) ||
       (List.range n).any fun j => (List.range (kDim / g)).any fun t => (scaleByte db none (cb j) (t * g)).any (badScale db.scale)
     let r := d.runMtx v w (.mma zero sparse ta tb m n kDim da db oa ob oc tile gi)
     r.writes = [] ∧ r.token = 1 ∧ r.sticky = (if bad then 0x20#7 else 0#7) ∧ { r.d with wgs := d.wgs } = d ∧
     (∀ u, u ≠ w.uid → r.d.wg? u = d.wg? u) ∧
     ∃ w', r.d.wg? w.uid = some w' ∧ { w' with tiles := w.tiles } = w ∧
       (∀ i j, i < m → j < n → w'.acc_ tile (oc.1 + i) (oc.2 + j) = sum i j) ∧
       ∀ t x y, x < 128 → y < 128 → ¬(t = tile ∧ oc.1 ≤ x ∧ x < oc.1 + m ∧ oc.2 ≤ y ∧ y < oc.2 + n) → w'.acc_ t x y = w.acc_ t x y) ∧
  ((∀ (d v : Dev) (w : Wg) (quant : Bool) (rm : Rm3) (sat : Bool) (stream : BitVec 8) (seed : Dword) (dd : Desc) (m n : Nat)
       (oacc od : Nat × Nat) (tile : Nat) (T : XVal),
     let val := fun (e : Nat × Nat) => (XVal.mul (valueOf .fp32 (w.acc_ tile (oacc.1 + e.1) (oacc.2 + e.2)).toNat) T).1
     let mode := fun (e : Nat × Nat) => rm.mode (srValue seed stream (BitVec.ofNat 64 (od.2 + e.2 + dd.dim 0 * (od.1 + e.1))))
     let inside := fun (e : Nat × Nat) => decide (od.1 + e.1 < dd.dim 1 ∧ od.2 + e.2 < dd.dim 0)
     let b := dd.block
     let first := fun (e : Nat × Nat) => if dd.baxis = 0 then (e.1, e.2 / b * b) else (e.1 / b * b, e.2)
     let scale := fun (e : Nat × Nat) => scaleOf dd.scale dd.fmt (((((List.range b).map fun k =>
       if dd.baxis = 0 then ((first e).1, (first e).2 + k) else ((first e).1 + k, (first e).2)).filter inside)).map val)
     let code := fun (e : Nat × Nat) =>
       if quant then blockElement dd.scale dd.fmt (scale e) (mode e) sat (val e) else (roundTo dd.fmt (mode e) sat (val e)).1
     let k := min n (dd.dim 0 - od.2)
     let rows := min m (dd.dim 1 - od.1)
     let row := fun (i : Nat) => (d.placeOf w (dd.base + (od.1 + i) * dd.stride 1 + od.2 * dd.fmt.width / 8), dd.fmt.width * k,
       (List.range k).foldr (fun j x => code (i, j) + 2 ^ dd.fmt.width * x) 0)
     let s := fun (e : Nat × Nat) => if dd.baxis = 0 then (od.2 + e.2) / b + (dd.dim 0 + b - 1) / b * (od.1 + e.1)
       else od.2 + e.2 + dd.dim 0 * ((od.1 + e.1) / b)
     let byte := fun (e : Nat × Nat) => (d.placeOf w (dd.scbase + s e), 8, (scale e).toNat)
     let r := d.runMtx v w (.drain quant rm sat stream seed dd m n oacc od tile T)
     dd.baxis < 2 → 0 < b →
     r.d = d ∧ r.token = 1 ∧ r.sticky = 0#7 ∧
     (0 < k → ∀ i < rows, row i ∈ r.writes) ∧
     (quant = true → ∀ i < rows, ∀ j < k, first (i, j) = (i, j) → byte (i, j) ∈ r.writes) ∧
     ∀ x ∈ r.writes, (∃ i < rows, x = row i) ∨ (quant = true ∧ ∃ i < rows, ∃ j < k, x = byte (i, j))) ∧
   (∀ (d v : Dev) (w : Wg) (m n : Nat) (os od : Nat × Nat) (st dt : Nat), canonical 0#32 w.tiles = true → d.wg? w.uid = some w →
     od.1 + n ≤ 128 → od.2 + m ≤ 128 →
     let r := d.runMtx v w (.txp m n os od st dt)
     r.writes = [] ∧ r.token = 1 ∧ r.sticky = 0#7 ∧ { r.d with wgs := d.wgs } = d ∧ (∀ u, u ≠ w.uid → r.d.wg? u = d.wg? u) ∧
     ∃ w', r.d.wg? w.uid = some w' ∧ { w' with tiles := w.tiles } = w ∧
       (∀ i j, i < m → j < n → w'.acc_ dt (od.1 + j) (od.2 + i) = w.acc_ st (os.1 + i) (os.2 + j)) ∧
       ∀ t x y, x < 128 → y < 128 → ¬(t = dt ∧ od.1 ≤ x ∧ x < od.1 + n ∧ od.2 ≤ y ∧ y < od.2 + m) → w'.acc_ t x y = w.acc_ t x y) ∧
   (∀ (d v : Dev) (w : Wg) (c : Nat) (g : Gen),
     d.runMtx v w (.patld c g) =
       { d := d.modWg w.uid fun w => { w with gens := w.gens.set c (some g) }, writes := [], token := 1, sticky := 0#7 }) ∧
   ∀ (d : Dev) (q : Wg) (p : Place) (nb x : Nat), d.wg? p.uid = some q → p.off < 2 ^ 22 → 0 < nb → p.off + (nb + 7) / 8 ≤ q.scratch →
     let ws := d.tileWords [(p, nb, x)]
     (∀ j < nb, ∃ e ∈ ws, e.uid = p.uid ∧ e.off = (8 * p.off + j) / 32 * 4 ∧ e.mask.getLsbD ((8 * p.off + j) % 32) = true ∧
       e.value.getLsbD ((8 * p.off + j) % 32) = x.testBit j) ∧
     ∀ e ∈ ws, e.uid = p.uid ∧ e.off % 4 = 0 ∧ e.base = BitVec.ofNat 32 (d.scratchRd { uid := e.uid, off := e.off } 4) ∧
       ∀ b < 32, e.mask.getLsbD b = true → 8 * p.off ≤ 8 * e.off + b ∧ 8 * e.off + b < 8 * p.off + nb)

/-- R298, R407 to R413: pattern instructions whose checks pass issue their command; an empty generator context raises PATTERN_FORMAT
with word index 16, and a transposed walk of a pattern that is not invertible NONINV. R295 to R297, R299: the set that each pattern
word stands for, with the columns that HASH gives a row; and what each word does to the stack of sets: it pushes or replaces where
its fields keep their limits, its reserved bits are zero and the stack allows it, and is refused otherwise. R301 to R306, R409 to
R413: PATGEN writes the records of the present granules from the cursor on, as many as its limit and its capacity admit of, and sets
the cursor after them; PATX writes whole lines of the granules that two contexts share and the line at which it stops; PATPART the
split points; PATPTR the counts of granules or members before each line; PATSAVE the image of a context; PATREST loads one back, or
answers 3 and changes nothing. A count of 2^32 or more in PATPTR has no value that the spec states (log 22). Where the spec leaves a
point open or to inference, the model's choice stands (log 7, 21, 22, 71). -/
def Obligations.PatternCommands : Prop :=
  (∀ (s : State) (c : Cur) (d a b : Reg) (tk t el : Bool) (ci : BitVec 2), s.dev.cur = some c → c.t.regs ≤ 64 →
     let token := tokenOf tk d
     let x := c.t.val a.toNat
     let y := (c.t.val b.toNat).toNat
     let cap := (c.t.val (a.toNat + 1)).toNat
     let issues := fun (i : Instr) (reads : List Nat) (op : MtxOp) => c.mayIssue s.dev .mtx (tokenRegs token) →
       Issues s c i 1 reads s.dev .mtx token [] 1 (.mtx op)
     let range := fun (align n : Nat) => x.toNat % align = 0 ∧ s.dev.scratchSeg c.w x.toNat n = .ok ()
     let p := s.dev.placeOf c.w x.toNat
     c.t.able (regsFrom a.toNat 4 ++ [b.toNat] ++ tokenRegs token) = true →
     (c.w.gen ci.toNat = none → ∀ i ∈ [Instr.patgen d a b tk t ci, .patpart d a b tk t ci, .patptr d a b tk t el ci, .patsave d a tk ci,
         .patx d a b tk t ci], exec i s = .next (s.traps c (.here 0x0A 16))) ∧
     (∀ g, c.w.gen ci.toNat = some g →
       (invertible g.words = false → ∀ i ∈ [Instr.patgen d a b tk true ci, .patpart d a b tk true ci, .patptr d a b tk true el ci],
         exec i s = .next (s.traps c (.at 0x09 ci.toNat g.patva))) ∧
       ((t = true → invertible g.words = true) →
       (range 8 cap → issues (.patgen d a b tk t ci) [a.toNat, a.toNat + 1, b.toNat]
         (.patgen t ci.toNat p.uid p.off cap (min y (2 ^ 24 - 1)))) ∧
       (1 ≤ y → y ≤ 4096 → range 8 (8 * (y + 1)) →
         issues (.patpart d a b tk t ci) [a.toNat, b.toNat] (.patpart t ci.toNat p.uid p.off y)) ∧
       (x.toNat % 8 = 0 → y = 0 ∨ 4096 < y →
         exec (.patpart d a b tk t ci) s = .next (s.traps c (.at 0x0A 18 g.patva))) ∧
       (range 4 (4 * y) → issues (.patptr d a b tk t el ci) [a.toNat, b.toNat] (.patptr t el ci.toNat p.uid p.off y)) ∧
       (range 64 1024 → issues (.patsave d a tk ci) [a.toNat] (.patsave ci.toNat p.uid p.off)) ∧
       ∀ h, let c2 := (c.t.val (a.toNat + 3)).toNat % 4
         c.w.gen c2 = some h → g.gran = h.gran → g.rows = h.rows → g.cols = h.cols → (t = true → invertible h.words = true) →
         range 8 cap → issues (.patx d a b tk t ci) (regsFrom a.toNat 4 ++ [b.toNat])
           (.patx t ci.toNat c2 p.uid p.off cap (c.t.val (a.toNat + 2)).toNat y))) ∧
     (range 64 1024 → issues (.patrest d a tk ci) [a.toNat] (.patrest ci.toNat p.uid p.off)) ∧
     let desc := s.dev.desc c (y % 256)
     ((desc.ok && desc.sparse) = false → exec (.patld d b tk ci) s = .next (s.traps c (.here 0x0B (y % 256)))) ∧
     ∀ (ws : List Dword) (pas : List Nat), (desc.ok && desc.sparse) = true → 1 ≤ ws.length → ws.length ≤ 16 → pas.length = ws.length →
       (∀ k < ws.length, s.dev.xlate c.w.die c.w.ctx (.copy c.w.core) (accLocal false) c.t.walkFail
           (BitVec.ofNat 64 (desc.patva + 8 * k)) = .hit (natAt pas k) ∧ s.dev.rd (natAt pas k) 8 = (dwordAt ws k).toNat) →
       (∀ k, k + 1 < ws.length → (dwordAt ws k).toNat / 2 ^ 60 ≠ 0) →
       ((dwordAt ws (ws.length - 1)).toNat / 2 ^ 60 = 0 ∨ ws.length = 16) →
       (∀ e, parsePat ws 0 [] = .error e →
         exec (.patld d b tk ci) s = .next (s.traps c (.at 0x0A e (BitVec.ofNat 64 desc.patva)))) ∧
       (∀ set, parsePat ws 0 [] = .ok set → c.mayIssue s.dev .mtx (tokenRegs token) →
         Issues s c (.patld d b tk ci) 1 [b.toNat] s.dev .mtx token (pagesOf desc.patva (8 * ws.length)) 1 (.mtx (.patld ci.toNat
         { words := ws, patva := BitVec.ofNat 64 desc.patva, desc := y % 256, gran := granOf desc.gran, rows := desc.dim 1,
           cols := desc.dim 0, transposed := false, cursor := (0, 0) })))) ∧
  ((∀ r col, PatSet.full.mem r col = true ∧ PatSet.empty.mem r col = false) ∧
   (∀ (lo hi : Int) (r col : Nat), (PatSet.band lo hi).mem r col = true ↔ lo ≤ (col : Int) - r ∧ (col : Int) - r ≤ hi) ∧
   (∀ (off : Int) (w d r col : Nat), 1 ≤ d → ((PatSet.dil off w d).mem r col = true ↔ ∃ m < w, (col : Int) = r + off + d * m)) ∧
   (∀ (off : Int) (bs r col : Nat), (PatSet.bdiag off bs).mem r col = true ↔ ((col / bs : Nat) : Int) - (r / bs : Nat) = off) ∧
   (∀ (rb cb : Nat) (x y : PatSet) (r col : Nat),
     (PatSet.kron rb cb x y).mem r col = (x.mem (r / rb) (col / cb) && y.mem (r % rb) (col % cb))) ∧
   (∀ (l kh seed r col : Nat), seed < 2 ^ 32 →
     ((PatSet.hash true l kh seed).mem r col = true ↔
       ∃ j < kh, col = ((2 * (seed / 2 ^ 16) + 1) * ((r + j) % 2 ^ l) + seed % 2 ^ 16) % 2 ^ l) ∧
     ((PatSet.hash false l kh seed).mem r col = true ↔
       ∃ j < kh, col = (mix64 (BitVec.ofNat 64 (seed * 2 ^ 32) ^^^ BitVec.ofNat 64 (r * 2 ^ 8) ^^^ BitVec.ofNat 64 j)).toNat % 2 ^ l)) ∧
   (∀ (columns : Bool) (lo hi : Nat) (x : PatSet) (r col : Nat), (PatSet.clip columns lo hi x).mem r col = true ↔
     lo ≤ (if columns then col else r) ∧ (if columns then col else r) < hi ∧ x.mem r col = true) ∧
   (∀ (dr dc : Int) (x : PatSet) (r col : Nat), (PatSet.shift dr dc x).mem r col = true ↔
     ∃ r' c' : Nat, x.mem r' c' = true ∧ (r : Int) = r' + dr ∧ (col : Int) = c' + dc) ∧
   (∀ (x y : PatSet) (r col : Nat), (PatSet.union x y).mem r col = (x.mem r col || y.mem r col) ∧
     (PatSet.isect x y).mem r col = (x.mem r col && y.mem r col)) ∧
   (∀ (w : Nat) (st : List PatSet),
     let op := w / 2 ^ 60 % 2 ^ 4
     let f := fun (lo n : Nat) => w / 2 ^ lo % 2 ^ n
     let sg := fun (lo n : Nat) => (BitVec.ofNat n (w / 2 ^ lo)).toInt
     let pushes := fun (code : Nat) (ok : Prop) (x : PatSet) => op = code →
       (ok ∧ st.length < 4 → patWord w st = some (x :: st)) ∧ (¬(ok ∧ st.length < 4) → patWord w st = none)
     let one := fun (code : Nat) (ok : Prop) (g : PatSet → PatSet) => op = code →
       (∀ x rest, st = x :: rest → (ok → patWord w st = some (g x :: rest)) ∧ (¬ok → patWord w st = none)) ∧
       (st = [] → patWord w st = none)
     let two := fun (code : Nat) (ok : Prop) (g : PatSet → PatSet → PatSet) => op = code →
       (∀ y x rest, st = y :: x :: rest → (ok → patWord w st = some (g x y :: rest)) ∧ (¬ok → patWord w st = none)) ∧
       (st.length < 2 → patWord w st = none)
     pushes 1 (f 0 60 = 0) .full ∧ pushes 2 (f 0 60 = 0) .empty ∧
     pushes 3 (f 56 4 = 0 ∧ sg 28 28 ≤ sg 0 28) (.band (sg 28 28) (sg 0 28)) ∧
     pushes 4 (f 56 4 = 0 ∧ 1 ≤ f 16 12 ∧ 1 ≤ f 0 16) (.dil (sg 28 28) (f 16 12) (f 0 16)) ∧
     pushes 5 (f 56 4 = 0 ∧ 1 ≤ f 0 28) (.bdiag (sg 28 28) (f 0 28)) ∧
     two 6 (f 56 4 = 0 ∧ 1 ≤ f 28 28 ∧ 1 ≤ f 0 28) (.kron (f 28 28) (f 0 28)) ∧
     pushes 7 (f 32 14 = 0 ∧ f 54 5 ≤ 24 ∧ 1 ≤ f 46 8 ∧ f 46 8 ≤ min 255 (2 ^ f 54 5))
       (.hash (decide (f 59 1 = 1)) (f 54 5) (f 46 8) (f 0 32)) ∧
     one 8 (f 56 3 = 0 ∧ f 28 28 ≤ f 0 28) (.clip (decide (f 59 1 = 1)) (f 28 28) (f 0 28)) ∧
     one 9 (f 58 2 = 0) (.shift (sg 29 29) (sg 0 29)) ∧
     two 10 (f 0 60 = 0) .union ∧ two 11 (f 0 60 = 0) .isect ∧ (12 ≤ op → patWord w st = none)) ∧
   (∀ (w : Dword) (ws : List Dword) (i : Nat) (st : List PatSet),
     let op := w.toNat / 2 ^ 60
     (op ≠ 0 → patWord w.toNat st = none → parsePat (w :: ws) i st = .error i) ∧
     (∀ st', op ≠ 0 → patWord w.toNat st = some st' → parsePat (w :: ws) i st = parsePat ws (i + 1) st') ∧
     (∀ x, w = 0 → st = [x] → parsePat (w :: ws) i st = .ok x) ∧
     (op = 0 → w ≠ 0 ∨ st.length ≠ 1 → parsePat (w :: ws) i st = .error i)) ∧
   (∀ (i : Nat) (st : List PatSet), parsePat [] i st = .error 15)) ∧
  ((∀ (p : Pat) (t : Bool) (cur : Nat × Nat) (e : Nat × Nat), 0 < p.gran →
     let maj := if t then p.cols else p.rows
     let min_ := if t then p.rows else p.cols
     let here := fun (a b : Nat) => if t then p.member (p.gran * e.2 + b) (p.gran * e.1 + a) else p.member (p.gran * e.1 + a) (p.gran * e.2 + b)
     (e ∈ p.from_ t cur ↔ e.1 < (maj + p.gran - 1) / p.gran ∧ e.2 < (min_ + p.gran - 1) / p.gran ∧
       (cur.1 < e.1 ∨ cur.1 = e.1 ∧ cur.2 ≤ e.2) ∧ ∃ a < p.gran, ∃ b < p.gran, here a b = true) ∧
     (∀ a b, a < p.gran → b < p.gran → (p.mask t e.1 e.2).testBit (a * p.gran + b) = here a b) ∧ p.mask t e.1 e.2 < 2 ^ (p.gran * p.gran)) ∧
   (∀ (p : Pat) (t : Bool) (cur : Nat × Nat), (p.from_ t cur).Pairwise fun a b => a.1 < b.1 ∨ a.1 = b.1 ∧ a.2 < b.2) ∧
   (∀ g maj min_ mask, maj < 2 ^ 24 → min_ < 2 ^ 24 →
     (mask = 2 ^ (g * g) - 1 → recordOf g maj min_ mask = leBytes (maj + 2 ^ 32 * min_ + 2 ^ 63) 8) ∧
     (mask ≠ 2 ^ (g * g) - 1 → recordOf g maj min_ mask = leBytes (maj + 2 ^ 32 * min_) 8 ++ leBytes mask (g * g / 8))) ∧
   ∀ (d v : Dev) (w : Wg) (c : Nat) (g : Gen) (t : Bool) (p : Place), w.gen c = some g →
     let nl := g.pat.lines t
     let upTo := fun (i : Nat) => ((List.range i).map fun l => (g.pat.line t l).length).sum
     (∀ cap, d.runMtx v w (.patgen t c p.uid p.off cap 0) =
       { d := d, writes := [], token := if g.pat.from_ g.transposed g.cursor = [] then 2 ^ 31 else 0, sticky := 0#7 }) ∧
     (∀ cap limit, 0 < limit →
       let seq := g.pat.from_ t (if t = g.transposed then g.cursor else (0, 0))
       let bytes := fun (k : Nat) => (seq.take k).flatMap fun e => recordOf g.gran e.1 e.2 (g.pat.mask t e.1 e.2)
       ∃ k ≤ limit, k ≤ seq.length ∧ (bytes k).length ≤ cap ∧ (k = limit ∨ k = seq.length ∨ cap < (bytes (k + 1)).length) ∧
         d.runMtx v w (.patgen t c p.uid p.off cap limit) =
           { d := d.modWg w.uid fun w => { w with gens := w.gens.set c (some { g with transposed := t, cursor := (seq[k]?).getD (nl, 0) }) }
             writes := [(p, 8 * (bytes k).length, leValue (bytes k))]
             token := k + (if k = seq.length then 2 ^ 31 else 0), sticky := 0#7 }) ∧
     (∀ c2 h cap start limit, w.gen c2 = some h →
       let r := d.runMtx v w (.patx t c c2 p.uid p.off cap start limit)
       let line := fun (i : Nat) => (g.pat.line t i).filterMap fun m =>
         if g.pat.mask t i m &&& h.pat.mask t i m = 0 then none else some (recordOf g.gran i m (g.pat.mask t i m &&& h.pat.mask t i m))
       let recs := fun (next : Nat) => (List.range (next - start)).flatMap fun i => line (start + i)
       let bytes := fun (next : Nat) => (recs next).flatten
       let wrote := fun (next : Nat) => r.writes = (p, 8 * (bytes next).length, leValue (bytes next)) ::
         (if (bytes next).length + 4 ≤ cap then [({ p with off := p.off + (bytes next).length }, 32, next % 2 ^ 32)] else [])
       r.d = d ∧ r.sticky = 0#7 ∧
       (nl ≤ start → wrote start ∧ r.token = 0) ∧
       (start < nl → ∃ next, start ≤ next ∧ next ≤ nl ∧
         (start < next → (recs next).length ≤ limit ∧ (bytes next).length + 4 ≤ cap) ∧
         (next < nl → limit < (recs (next + 1)).length ∨ cap < (bytes (next + 1)).length + 4) ∧
         wrote next ∧ r.token = (recs next).length % 2 ^ 24 + (if next = start then 2 ^ 30 else 0) +
           (if next = start ∨ (List.range nl).any (fun i => decide (next ≤ i) && !(line i).isEmpty) then 2 ^ 31 else 0))) ∧
     (∀ n, 0 < n →
       let total := fun (s : Nat) => s * (nl + upTo nl) / n
       ∃ f : Nat → Nat × Nat, d.runMtx v w (.patpart t c p.uid p.off n) =
           { d := d, writes := [(p, 64 * (n + 1), leValue ((List.range (n + 1)).flatMap fun s => leBytes (f s).1 4 ++ leBytes (f s).2 4))]
             token := n + 1, sticky := 0#7 } ∧
         ∀ s ≤ n, (f s).1 ≤ nl ∧ (f s).1 + upTo (f s).1 ≤ total s ∧ (∀ i ≤ nl, i + upTo i ≤ total s → i ≤ (f s).1) ∧
           (f s).2 = total s - (f s).1) ∧
     (∀ el cap,
       let n := if t then g.cols else g.rows
       let others := if t then g.rows else g.cols
       let members := fun (i : Nat) => ((List.range i).map fun l =>
         ((List.range others).filter fun j => if t then g.pat.member j l else g.pat.member l j).length).sum
       let due := (if el then n else nl) + 1
       let ptr := fun (i : Nat) => if el then members i else upTo i
       let r := d.runMtx v w (.patptr t el c p.uid p.off cap)
       { r.d with free := d.free } = d ∧ r.sticky = 0#7 ∧ r.token = min due cap % 2 ^ 24 + (if cap < due then 2 ^ 31 else 0) ∧
       ∃ bs : List Byte, r.writes = [(p, 8 * bs.length, leValue bs)] ∧ bs.length = 4 * min due cap ∧
         ∀ i < min due cap, ptr i < 2 ^ 32 → (bs.drop (4 * i)).take 4 = leBytes (ptr i) 4) ∧
     (g.words.length ≤ 16 → ∃ bs : List Byte, bs.length = 1024 ∧
       d.runMtx v w (.patsave c p.uid p.off) = { d := d, writes := [(p, 8192, leValue bs)], token := 1, sticky := 0#7 } ∧
       bs.take (8 * g.words.length) = bytesOf g.words ∧
       (bs.drop 128).take 8 = leBytes (g.cursor.1 % 2 ^ 24 + 2 ^ 32 * (g.cursor.2 % 2 ^ 24)) 8 ∧
       bs.drop 1020 = leBytes (crc32c (bs.take 1020)).toNat 4 ∧
       -- what PATREST reads back
       ∀ c', v.rangeRd p 1024 = bs →
         let legal := (parsePat g.words 0 []).isOk = true ∧ (g.gran = 16 ∨ g.gran = 32 ∨ g.gran = 64) ∧ 1 ≤ g.rows ∧ g.rows < 2 ^ 24 ∧
           1 ≤ g.cols ∧ g.cols < 2 ^ 24 ∧ g.patva.toNat % 8 = 0 ∧
           g.patva.toNat + 8 * g.words.length ≤ 2 ^ 57 ∧ g.desc < 256 ∧
           patWords g.words = g.words ∧ g.cursorOk = true
         legal → d.runMtx v w (.patrest c' p.uid p.off) =
           { d := d.modWg w.uid fun w => { w with gens := w.gens.set c' (some g) }, writes := [], token := 1, sticky := 0#7 }) ∧
     ∀ c', leValue (((v.rangeRd p 1024).drop 1020).take 4) ≠ (crc32c ((v.rangeRd p 1024).take 1020)).toNat →
       d.runMtx v w (.patrest c' p.uid p.off) = { d := d, writes := [], token := 3, sticky := 0#7 })

/-- R282, R401: tdset and tdget move the 64 bytes of a descriptor between a scratchpad and the context's table. R239, R240: a later
engine command of the thread that names the bytes comes after what the thread had observed when it accessed them. R243: they wait
for the L2 atomics of the thread that acquire. R283, R285: a descriptor that keeps its conditions has a known format, sizes from 1
to 2²⁴ − 1 in its rank and 1 beyond it, and a base that is a multiple of 16. R415, R146, R147: LAUNCH answers the lowest offset
whose limit a field of the record does not keep, NOFIT where an empty core cannot hold the workgroup (its registers, its scratchpad,
its spill extent, or a cluster group in proof mode), NOTLOCAL, or enters the record, which becomes eligible at once when its
dependences are met; where 256 entries are pending it waits, or takes DEADLINE. R424, R168: TLBINV removes the context's entries for
the pages and waits for the commands that used them, the arrivals of launches (R400) among them. R243: LAUNCH waits for the L2
atomics of its thread that acquire. Where the spec leaves a point open or to inference, the model's choice stands (log 22, 66). -/
def Obligations.TableCommands : Prop :=
  (∀ (s : State) (c : Cur) (a b : Reg) (k : Ctx), s.dev.cur = some c → c.t.able [a.toNat, b.toNat] = true →
     s.dev.ctx? c.w.die c.w.ctx = some k →
     (s.dev.acquiring c.who ≠ [] → ∀ i ∈ [Instr.tdset a b, .tdget a b],
       exec i s = .next (s.waits c s.dev (.commands (s.dev.acquiring c.who) []) none)) ∧
     (s.dev.acquiring c.who = [] →
     let x := c.t.val a.toNat
     let n := (c.t.val b.toNat).toNat % 256
     let t := c.t.note [a.toNat, b.toNat]
     (x.toNat % 16 ≠ 0 → ∀ i ∈ [Instr.tdset a b, .tdget a b], exec i s = .next (s.traps c (.at 0x05 0 (BitVec.ofNat 64 x.toNat)))) ∧
     ∀ p, x.toNat % 16 = 0 → s.dev.scratchAt c.w x 64 16 = .ok p →
       exec (.tdset a b) s = .next (s.completes c 1 ((s.dev.thrSaw c.who p 64).modCtx c.w.die c.w.ctx fun k =>
         { k with tdt := writeBytes k.tdt (64 * n) (s.dev.scratchRdBytes p 64) }) t) ∧
       exec (.tdget a b) s = .next (s.completes c 1 (((s.dev.thrSaw c.who p 64).thrOver p 64).scratchWrBytes p (leBytes (readLE k.tdt (64 * n) 64) 64)) t) ∧
       ∀ k' : Ctx, canonical 0#8 k.tdt = true → k' = { k with tdt := writeBytes k.tdt (64 * n) (s.dev.scratchRdBytes p 64) } →
         leBytes (readLE k'.tdt (64 * n) 64) 64 = s.dev.scratchRdBytes p 64)) ∧
  (∀ x : Desc, x.ok = true →
     let byte := fun (i : Nat) => x.raw / 2 ^ (8 * i) % 2 ^ 8
     let word := fun (i : Nat) => x.raw / 2 ^ (8 * i) % 2 ^ 32
     let rank := byte 8 / 4 % 4 + 1
     (byte 8 % 4 = 1 ∨ byte 8 % 4 = 2) ∧ byte 8 / 16 = 0 ∧ byte 9 ≤ 10 ∧ byte 10 / 64 ≠ 3 ∧ byte 10 % 4 ≠ 3 ∧ byte 11 = 0 ∧
     word 44 = 0 ∧ word 0 % 16 = 0 ∧ byte 10 / 8 % 4 < rank ∧ (byte 10 / 32 % 2 = 1 → byte 8 % 4 = 1) ∧
     ∀ k < 4, (k < rank → 1 ≤ word (16 + 4 * k) ∧ word (16 + 4 * k) < 2 ^ 24) ∧ (rank ≤ k → word (16 + 4 * k) = 1) ∧
       (1 ≤ k → k < rank → word (28 + 4 * k) % 16 = 0) ∧ (1 ≤ k → rank ≤ k → word (28 + 4 * k) = 0)) ∧
  (∀ (s : State) (c : Cur) (d a b : Reg) (k : Ctx), s.dev.cur = some c → s.dev.ctx? c.w.die c.w.ctx = some k → c.w.kind ≠ .walker →
     (c.t.able [a.toNat, b.toNat, d.toNat] = true → s.dev.acquiring c.who ≠ [] →
       exec (.launch d a b) s = .next (s.waits c s.dev (.commands (s.dev.acquiring c.who) []) none)) ∧
     (∀ p, c.t.able [a.toNat, b.toNat, d.toNat] = true → s.dev.acquiring c.who = [] → (c.t.val a.toNat).toNat % 16 = 0 →
       s.dev.scratchAt c.w (c.t.val a.toNat) 128 16 = .ok p →
       let r := s.dev.scratchRd p 128
       let saw := s.dev.thrSaw c.who p 128
       let answers := fun (dev : Dev) (v : Nat) => exec (.launch d a b) s =
         .next (s.completes c 1 dev ((c.t.note [a.toNat, b.toNat]).set d.toNat (BitVec.ofNat 32 v)))
       let f := fun (off n : Nat) => r / 2 ^ (8 * off) % 2 ^ (8 * n)
       let threads := f 20 2 * f 22 2 * f 24 2
       let keeps : List (Nat × Prop) :=
         [(0, f 0 8 % 8 = 0 ∧ f 0 8 < 2 ^ 57), (8, 1 ≤ f 8 4 ∧ f 8 4 < 2 ^ 31), (12, 1 ≤ f 12 4 ∧ f 12 4 ≤ 65535),
          (16, 1 ≤ f 16 4 ∧ f 16 4 ≤ 65535), (20, 1 ≤ threads ∧ threads ≤ 1024), (22, 1 ≤ f 22 2), (24, 1 ≤ f 24 2),
          (26, 1 ≤ f 26 1 ∧ f 26 1 ≤ 64), (27, f 27 1 % 8 = 0 ∧ f 27 1 ≤ 192), (28, f 28 4 % 64 = 0),
          (32, f 32 4 % 256 = 0 ∧ 256 ≤ f 32 4 ∧ f 32 4 ≤ 2 ^ 22), (36, f 36 1 ≤ 8),
          (37, (f 37 1 = 1 ∨ f 37 1 = 2 ∨ f 37 1 = 4 ∨ f 37 1 = 8) ∧ f 8 4 % f 37 1 = 0), (38, f 38 1 ≤ 3), (39, f 39 1 ≤ 4)] ++
         ((List.range 4).flatMap fun i =>
           [(48 + 16 * i, f (48 + 16 * i) 8 % 8 = 0 ∧ (f 39 1 ≤ i → f (48 + 16 * i) 8 = 0)),
            (56 + 16 * i, f 39 1 ≤ i → f (56 + 16 * i) 4 = 0), (60 + 16 * i, f (60 + 16 * i) 4 = 0)]) ++
         [(112, f 112 8 % 8 = 0), (120, f 120 8 = 0)]
       let fails := fun (off : Nat) => ∃ e ∈ keeps, e.1 = off ∧ ¬e.2
       let core := if k.proof then k.supCore else 1
       let noFit := (if core = 0 then 261120 else 262144) < threads * (8 * ((f 26 1 + 7) / 8) + f 27 1) ∨
         (if core = 0 then 2 ^ 22 - 2 ^ 16 else 2 ^ 22) < f 32 4 ∨
         2 ^ 20 < (256 + 32 * threads + 4 * threads * (64 + f 27 1) + f 32 4 + 65536 * f 36 1 + 4096 + threads * f 28 4 + 65535) / 65536 ∨
         k.proof = true ∧ 1 < f 37 1
       let dep := fun (i : Nat) => s.dev.xlate c.w.die c.w.ctx .rmt (accLocal false) c.t.walkFail (BitVec.ofNat 64 (f (48 + 16 * i) 8))
       (∀ off, fails off → (∀ o < off, ¬fails o) → answers saw (1 + 256 * off)) ∧
       ((∀ off, ¬fails off) → noFit → answers saw 2) ∧
       ((∀ off, ¬fails off) → ¬noFit → ∀ i < f 39 1, (∀ j < i, ∃ pa, dep j = .hit pa) → dep i = .fail 8 → answers saw 3) ∧
       (∀ (pas : List Nat) (donePa : Nat), (∀ off, ¬fails off) → ¬noFit → pas.length = f 39 1 →
         (∀ i < pas.length, dep i = .hit (natAt pas i)) →
         (f 112 8 = 0 → donePa = 0) →
         (f 112 8 ≠ 0 → s.dev.xlate c.w.die c.w.ctx .rmt (accRemote true) c.t.walkFail
           (BitVec.ofNat 64 (f 112 8)) = .hit donePa) →
         let deps := (List.range pas.length).map fun i => (natAt pas i, f (56 + 16 * i) 4)
         ((s.dev.die c.w.die).launches.length < 256 → answers (saw.enter c.w r deps donePa) 0) ∧
         (256 ≤ (s.dev.die c.w.die).launches.length → c.t.expired = true ∨ (c.t.val b.toNat).toNat = 0 →
           exec (.launch d a b) s = .next (s.traps c (.here 0x07 0))) ∧
         (256 ≤ (s.dev.die c.w.die).launches.length → c.t.expired = false → (c.t.val b.toNat).toNat ≠ 0 →
           exec (.launch d a b) s = .next (s.waits c s.dev .entry
             (if (c.t.val b.toNat).toNat = 2 ^ 32 - 1 then none else some (1024 * (c.t.val b.toNat).toNat)))))) ∧
     (c.t.able (regsFrom a.toNat 2 ++ [b.toNat]) = true →
       let va := c.t.dval a.toNat
       let page := va.toNat / 4096
       let n := (c.t.val b.toNat).toNat
       let gone := fun (e : TlbEnt) => e.ctx = c.w.ctx ∧ (n = 0 ∨
         page < (e.vpn + 1) * 512 ^ e.level ∧ e.vpn * 512 ^ e.level < page + n)
       let dev := s.dev.modDie c.w.die fun x => { x with
         tlb := x.tlb.filter fun e => ¬gone e
         walks := x.walks.map fun w => if w.ctx = c.w.ctx ∧ w.holder.isSome = true then { w with overtaken := true } else w }
       let ids := s.dev.staleCmds c.w.die c.w.ctx page n
       let read := c.t.note ((if n = 0 then [] else regsFrom a.toNat 2) ++ [b.toNat])
       let arrivals := s.dev.staleArrivals c.w.die c.w.ctx page n
       (∀ x ids as, c.t.susp = some x → x.why = .commands ids as →
         let left := s.dev.running ids
         let due := s.dev.awaited c.w.die c.w.ctx as
         (left = [] → due = [] → exec (.tlbinv a b) s = .next (s.completes c 1 s.dev read)) ∧
         (left ≠ [] ∨ due ≠ [] → exec (.tlbinv a b) s = .next (s.waits c s.dev (.commands left due) none))) ∧
       ((∀ x ids as, c.t.susp = some x → x.why ≠ .commands ids as) →
       (n ≠ 0 → 2 ^ 57 ≤ va.toNat ∨ 2 ^ 57 < (page + n) * 4096 → exec (.tlbinv a b) s = .next (s.traps c (.at 0x0F 1 va))) ∧
       (n = 0 ∨ va.toNat < 2 ^ 57 ∧ (page + n) * 4096 ≤ 2 ^ 57 →
         (ids = [] → arrivals = [] → exec (.tlbinv a b) s = .next (s.completes c 1 dev read)) ∧
         (ids ≠ [] ∨ arrivals ≠ [] → exec (.tlbinv a b) s = .next (s.waits c dev (.commands ids arrivals) none))))))

/-! ## Events -/

/-- R21 to R23: a sample period gives every core its sample, sets HOT at 95 °C, throttles a cluster at 100 °C, and at 110 °C trips the
die: its cores stop and its reset is due. Periods follow one another every 10 µs. A droop alarm is counted and slows its cluster for
2 µs; a one in ALARM clears it. That an alarm concerns one core, which the event names, that HOT rises at the alarm and not at the
evaluation of the next sample period, and the samples of a period that names too few cores are the model's choice (log 42). R20,
R24: the average of the last millisecond, which is left free, against the limit: above it the first stage begins, below 95 percent
of it the limit ends, and 1 ms in the first stage above the limit begins the second; every cluster runs at a quarter of the rate in
the second stage and at least at half in the first. Where the spec leaves a point open or to inference, the model's choice stands
(log 42, 43, 61). -/
def Obligations.SensorsAndPower : Prop :=
  (∀ (s : State) (die core : Nat) (temps : List Nat), die < 4 → core < 72 →
     let x := s.dev.die die
     let celsius := fun (n : Nat) => (n + 40) * 4
     let sample := fun (c : Nat) => (temps[c]?).getD (x.core c).temp % 1024
     x.cores.length = 72 → x.clusters.length = 9 →
     (die ∈ s.dev.present → die ∉ s.mgmt.pendingResets → (if die = 0 then 3 else 4) ≤ s.mgmt.bootStep → 19000 ≤ s.dev.raw - x.sampleAt →
       ((∃ c < 72, celsius 110 ≤ sample c) → ∃ t, exec (.thermalSamplePeriod die temps) s = .next t ∧ t.mgmt.alert = true ∧
         t.dev.resets = s.dev.resets ++ [(die, 1)] ∧ (t.dev.die die).joining = true ∧
         (t.dev.die die).sampleAt = x.sampleAt + 19000 ∧ ∀ b ∈ t.dev.flight, b ∈ s.dev.flight ∧ ∀ w ∈ s.dev.wgs, w.die = die → b.uid ≠ w.uid) ∧
       ((∀ c < 72, sample c < celsius 110) → ∃ t, exec (.thermalSamplePeriod die temps) s = .next t ∧ t.mgmt = s.mgmt ∧
         (t.dev.die die).sampleAt = x.sampleAt + 19000 ∧ (∀ c < 72, ((t.dev.die die).core c).temp = sample c ∧
           (celsius 95 ≤ sample c ∨ (x.core c).alarmed = true → ((t.dev.die die).core c).hot = true) ∧
           ((x.core c).hot = true → celsius 88 < sample c → ((t.dev.die die).core c).hot = true) ∧
           ((x.core c).hot = false → sample c < celsius 95 → (x.core c).alarmed = false → ((t.dev.die die).core c).hot = false) ∧
           ((x.core c).hot = true → sample c ≤ celsius 88 → (x.core c).alarmed = false →
             ((t.dev.die die).core c).hot = decide ((x.core c).hold + 1 < 100))) ∧
         ∀ k < 9, ((∃ j < 8, celsius 100 ≤ sample (8 * k + j)) → ((t.dev.die die).cluster k).throttle = true) ∧
           ((∀ j < 8, sample (8 * k + j) ≤ celsius 97) → ((t.dev.die die).cluster k).throttle = false))) ∧
     (∃ t, exec (.droopAlarm die core) s = .next t ∧
       let y := (t.dev.die die).core core
       y.hot = true ∧ y.alarm = true ∧ y.droopCnt = min 255 ((x.core core).droopCnt + 1) ∧
       ((t.dev.die die).cluster (core / 8)).droopUntil = some (s.dev.raw + 3800) ∧
       ((t.dev.die die).cluster (core / 8)).rate = if 2 ≤ s.mgmt.stage then 4 else 2) ∧
     (∀ last, (x.cluster (core / 8)).droopUntil = some last → last ≤ s.dev.raw →
       ∃ t, exec (.droopResponseEnd die (core / 8)) s = .next t ∧ ((t.dev.die die).cluster (core / 8)).droopUntil = none ∧
         ((t.dev.die die).cluster (core / 8)).rate = if 2 ≤ s.mgmt.stage then 4
           else if s.mgmt.stage = 1 ∨ (x.cluster (core / 8)).throttle = true then 2 else 1) ∧
     ∀ v : Word, ∃ t, exec (.thermstatWrite die core v) s = .next t ∧
       (t.dev.die die).core core = if v.getLsbD 30 then { x.core core with alarm := false, droopCnt := 0 } else x.core core) ∧
  (∀ s : State,
     (∃ t, exec .powerLimitEval s = .next t ∧ t.mgmt.limit = s.mgmt.limit ∧
       (s.mgmt.stage = 0 → t.mgmt.stage = if s.mgmt.limit * 1000 < t.mgmt.average then 1 else 0) ∧
       (s.mgmt.stage ≠ 0 → t.mgmt.average * 100 < s.mgmt.limit * 1000 * 95 → t.mgmt.stage = 0) ∧
       ∀ n, ∀ c ∈ (t.dev.die n).clusters, (t.mgmt.stage = 2 → c.rate = 4) ∧ (t.mgmt.stage = 1 → c.rate = 2)) ∧
     (s.mgmt.stage = 1 → s.mgmt.limit * 1000 < s.mgmt.average → 1900000 ≤ s.dev.raw - s.mgmt.stageSince →
       ∃ t, exec .powerLimitSecondStage s = .next t ∧ t.mgmt.stage = 2 ∧ ∀ n, ∀ c ∈ (t.dev.die n).clusters, c.rate = 4))

/-- R31, R14, R15, R26, R164: a cold reset puts the package at step 1 with every die as at reset, the incarnations from the boot flash
record and the package's coordinates from the pins; companion memory stays. That device memory reads 0 there already, before step 4
makes it zero, is the model's choice (log 2). Without a die 0 ALERT_N is low. R15, R27, R29, R31, R34, R64, R66, R81: the steps of
the bring-up: each leads to the next when it succeeds; a failed step lowers ALERT_N and is reported. At step 2 an image is accepted
or the package stays; step 4 makes the memory of every die zero but for the firmware at the start of its reserved region (where the
model puts it, log 63); step 5 increments the incarnations, or has them wait for a drain where 15 increments have gone by since the
last; step 7 waits for the torus, for the Talbo links (the model's reading, log 49) and for those, and then begins the JOINs and the
quarantine of every die. Without a die 0 nothing leaves reset. R23, R32, R64 to R66, R81, R164: a reset of die 1, 2 or 3 that is
due: its workgroups and commands are gone, its memory is zero but for the firmware, its retired frames and the incarnations it has
recorded of others stay. Its incarnation rises by one and it joins again: its JOINs are outstanding to every package and its
quarantine begins; an increment that would be the sixteenth since the last drain waits until the drain has ended (R66), and with it,
by the model's choice (log 45), what follows it. A reset of die 0 puts the package at step 2; that its device memory reads 0 there
already, before step 4 makes it zero, is the model's choice (log 2). Where the spec leaves a point open or to inference, the model's
choice stands (log 2, 45, 49, 50, 56, 63, 70). -/
def Obligations.ResetAndBoot : Prop :=
  (∀ s : State, ∃ t, exec .coldReset s = .next t ∧ t.mgmt.bootStep = 1 ∧ t.mgmt.incs = s.mgmt.flashIncs ∧ t.mgmt.limit = 2700 ∧
     t.mgmt.running = none ∧ t.mgmt.requests = [] ∧ t.mgmt.alert = decide (0 ∉ s.dev.present) ∧ t.dev.pkg = s.mgmt.pinGA ∧
     t.dev.present = s.dev.present ∧ t.dev.wgs = [] ∧ t.dev.live = [] ∧ (∀ n, t.dev.die n = Die.reset) ∧
     ∀ a, byteAt t.dev.mem a = if 2 ^ 51 ≤ a then byteAt s.dev.mem a else 0#8) ∧
  (∀ s : State, 1 ≤ s.mgmt.bootStep → s.mgmt.bootStep ≤ 7 → s.dev.present.Nodup → (∀ n ∈ s.dev.present, n < 4) →
     let done := exec .bootStepComplete s
     let torus := 0 < s.dev.torus.1 ∧ 0 < s.dev.torus.2.1 ∧ 0 < s.dev.torus.2.2
     let linked := s.dev.torusOk = true → ∀ n ∈ s.dev.present, ∀ unit < 12,
       axisSize s.dev.torus (dirAxis (dirOf unit)) ≤ 1 ∨ ((s.dev.die n).link unit).up = true
     (0 ∉ s.dev.present → done = .next { s with mgmt := { s.mgmt with alert := true } }) ∧
     (0 ∈ s.dev.present →
       (s.mgmt.stepOk = false → done = .next { s with mgmt :=
         { s.mgmt with alert := true, report := s.mgmt.report ++ [s.mgmt.bootStep] } }) ∧
       (s.mgmt.stepOk = true → s.mgmt.bootStep = 2 → s.mgmt.chosen = none → ∃ t, done = .next t ∧
         t.mgmt.bootStep = 2 ∧ t.mgmt.alert = true ∧ t.dev = s.dev) ∧
       (s.mgmt.stepOk = true → s.mgmt.bootStep = 7 → ¬torus ∨ ¬linked ∨ s.mgmt.pendingIncs ≠ [] → done = .next s) ∧
       (s.mgmt.stepOk = true → (s.mgmt.bootStep = 2 → s.mgmt.chosen ≠ none) →
         (s.mgmt.bootStep = 7 → torus ∧ linked ∧ s.mgmt.pendingIncs = []) →
         ∃ t, done = .next t ∧ t.mgmt.bootStep = s.mgmt.bootStep + 1 ∧ t.mgmt.alert = false ∧
           (s.mgmt.bootStep = 2 → t.mgmt.secretBlocked = true ∧ t.mgmt.running.isSome = true) ∧
           (s.mgmt.bootStep = 4 → canonical 0#8 s.dev.mem = true →
             (∀ a, 2 ^ 51 ≤ a → byteAt t.dev.mem a = byteAt s.dev.mem a) ∧
             ∀ n ∈ s.dev.present, ∀ o < 2 ^ 37, byteAt t.dev.mem ((4 * s.dev.pkg.toNat + n) * 2 ^ 37 + o) =
               if 0x1F_0000_0000 ≤ o then (s.mgmt.firmware[o - 0x1F_0000_0000]?).getD 0#8 else 0#8) ∧
           (s.mgmt.bootStep = 5 → s.mgmt.incs.length = 4 → s.mgmt.flashIncs.length = 4 → s.mgmt.drainCount.length = 4 →
             ((∀ n ∈ s.dev.present, natAt s.mgmt.drainCount n < 15) → ∀ n < 4, natAt t.mgmt.incs n =
               if n ∈ s.dev.present then (natAt s.mgmt.incs n + 1) % 16 else natAt s.mgmt.incs n) ∧
             ((∀ n ∈ s.dev.present, 15 ≤ natAt s.mgmt.drainCount n) →
               t.mgmt.incs = s.mgmt.incs ∧ t.mgmt.pendingIncs = s.mgmt.pendingIncs ++ s.dev.present)) ∧
           (s.mgmt.bootStep = 6 → t.dev.pwnA = true ∧ t.dev.pwnB = decide (2 ∈ s.dev.present)) ∧
           (s.mgmt.bootStep = 7 → ∀ n ∈ s.dev.present, (t.dev.die n).joining = true ∧
             (t.dev.die n).quarantine = some (s.dev.raw + 121600000) ∧
             ∀ p ∈ s.dev.packages, ∃ j ∈ t.mgmt.joins, j.die = n ∧ j.peer = p ∧ j.inc = (s.dev.die n).inc.toNat ∧ j.resends = 0)))) ∧
  (∀ (s : State) (die cause : Nat), die < 4 → cause < 3 → die ∈ s.dev.present → die ∉ s.mgmt.pendingResets → 4 ≤ s.mgmt.bootStep →
     (die, cause) ∈ s.dev.resets → s.mgmt.incs.length = 4 → s.mgmt.drainCount.length = 4 →
     let x := s.dev.die die
     let risen := (natAt s.mgmt.incs die + 1) % 16
     (die ≠ 0 → ∃ t, exec (.dieReset die cause) s = .next t ∧
       (∀ w ∈ t.dev.wgs, w.die = die → w.kind = .walker) ∧ (∀ k ∈ t.dev.cmds, k.die ≠ die) ∧
       (∀ b ∈ t.dev.flight, ∀ w ∈ s.dev.wgs, w.die = die → b.uid ≠ w.uid) ∧ (∀ e ∈ t.dev.resets, e.1 ≠ die) ∧
       (canonical 0#8 s.dev.mem = true → ∀ o < 2 ^ 37, byteAt t.dev.mem ((4 * s.dev.pkg.toNat + die) * 2 ^ 37 + o) =
         if 0x1F_0000_0000 ≤ o then (s.mgmt.firmware[o - 0x1F_0000_0000]?).getD 0#8 else 0#8) ∧
       (t.dev.die die).joining = true ∧ (t.dev.die die).retired = x.retired ∧ (t.dev.die die).peerInc = x.peerInc ∧
       (t.dev.die die).hosts = [] ∧ (t.dev.die die).ctxs = [] ∧ (t.dev.die die).outs = [] ∧ t.mgmt.bootStep = s.mgmt.bootStep ∧
       (natAt s.mgmt.drainCount die < 15 → natAt t.mgmt.incs die = risen ∧ t.mgmt.pendingResets = s.mgmt.pendingResets ∧
         (t.dev.die die).inc.toNat = risen ∧ (t.dev.die die).quarantine = some (s.dev.raw + 121600000) ∧
         ∀ p ∈ s.dev.packages, ∃ j ∈ t.mgmt.joins, j.die = die ∧ j.peer = p ∧ j.inc = risen ∧ j.resends = 0) ∧
       (15 ≤ natAt s.mgmt.drainCount die → t.mgmt.incs = s.mgmt.incs ∧ t.mgmt.pendingResets = s.mgmt.pendingResets ++ [die] ∧
         (t.dev.die die).inc = x.inc)) ∧
     ((∀ n ∈ s.dev.present, n < 4) → die = 0 → ∃ t, exec (.dieReset die cause) s = .next t ∧
       t.mgmt.bootStep = 2 ∧ t.dev.wgs = [] ∧ t.mgmt.requests = [] ∧ (∀ n < 4, (t.dev.die n).retired = (s.dev.die n).retired) ∧
       ∀ a, byteAt t.dev.mem a = if 2 ^ 51 ≤ a then byteAt s.dev.mem a else 0#8))

/-- R135, R137, R155: while its port is up the companion writes any bytes of the package's dies below their reserved regions, or of its
own memory: at once where no copy of their lines is recorded or being invalidated, no write waits for them and none of its port
waits (R138), and else it invalidates them and the write waits. Its read of a line that no invalidation and no write waits for sets
the sharer bit of the port. An acknowledgement ends the oldest invalidation, and a write whose lines are clean then is performed,
one of an error-queue entry counting it (R103). A port goes down. R148: where no entry waits and the ring has room and a port is up,
the oldest record is written as 64 bytes at its place in the ring, the producer index after it, and nothing else in memory changes;
otherwise it is held, or lost where 256 are held. When the companion has moved the consumer index, it is read from the ring, and a
held entry is written in the same way once there is room. Where the spec leaves a point open or to inference, the model's choice
stands (log 49, 52, 79). -/
def Obligations.Companion : Prop :=
  (∀ (s : State) (port : Bool) (pa : Nat) (data : List Byte),
     let d := s.dev
     let up := if port then d.pwnB else d.pwnA
     let may := fun (n : Nat) => if 2 ^ 51 ≤ pa then pa + n ≤ 2 ^ 52
       else pa / 2 ^ 39 % 2 ^ 12 = d.pkg.toNat ∧ pa / 2 ^ 37 % 4 ∈ d.present ∧ pa % 2 ^ 37 + n ≤ 0x1F_0000_0000
     let dirty := fun (e : Dev) (l : Nat) => getKey 0#2 e.sharers l ≠ 0#2 ∨ l ∈ e.invalidating
     let waits := fun (l : Nat) => ∃ p ∈ d.posted, l ∈ linesOf p.pa p.bytes.length
     let lines := linesOf pa data.length
     (up = true → may data.length →
       ((∀ l ∈ lines, ¬dirty d l ∧ ¬waits l) → (∀ p ∈ d.posted, p.order ≠ .port port) → exec (.companionWrite port pa data) s = .next (s.withDev (d.storeBytes pa data))) ∧
       ((∃ l ∈ lines, dirty d l ∨ waits l) ∨ (∃ p ∈ d.posted, p.order = .port port) → exec (.companionWrite port pa data) s =
         .next (s.withDev { lines.foldl Dev.invalidate d with posted := d.posted ++ [{ pa := pa, bytes := data, order := .port port }] }))) ∧
     (up = false ∨ ¬may data.length → exec (.companionWrite port pa data) s = .next s) ∧
     (up = true → may 1 → pa < 2 ^ 51 → pa / 64 ∉ d.invalidating → ¬waits (pa / 64) →
       exec (.companionRead port pa) s = .next (s.withDev { d with
         sharers := putKey (pa / 64) (getKey 0#2 d.sharers (pa / 64) ||| (if port then 2#2 else 1#2)) d.sharers })) ∧
     (up = false ∨ ¬may 1 ∨ 2 ^ 51 ≤ pa ∨ pa / 64 ∈ d.invalidating ∨ waits (pa / 64) → exec (.companionRead port pa) s = .next s) ∧
     (let e := { d with invalidating := d.invalidating.drop 1 }
      let counts := fun (x : Dev) (p : Posted) => match p.order with
        | .errq die ctx => x.modCtx die ctx fun k => { k with count := k.count + 1 }
        | .none | .port _ => x
      (d.posted = [] → exec .invalidationAcknowledgement s = .next (s.withDev e)) ∧
      ∀ p : Posted, d.posted = [p] →
       ((∀ l ∈ linesOf p.pa p.bytes.length, ¬dirty e l) →
         exec .invalidationAcknowledgement s = .next (s.withDev { counts (e.storeBytes p.pa p.bytes) p with posted := [] })) ∧
       ((∃ l ∈ linesOf p.pa p.bytes.length, dirty e l) → exec .invalidationAcknowledgement s =
         .next (s.withDev { (linesOf p.pa p.bytes.length).foldl Dev.invalidate e with posted := [p] }))) ∧
     exec (.penwynPortDown port) s = .next (s.withDev (if port then { d with pwnB := false } else { d with pwnA := false }))) ∧
  (∀ (s : State) (e : EvRec) (es : List EvRec) (r : Ring), canonical 0#8 s.dev.mem = true → 1 ≤ r.size →
     let full := fun (cons : Nat) => (r.prod + 2 ^ 64 - cons % 2 ^ 64) % 2 ^ 64 = r.size
     let up := s.dev.pwnA = true ∨ s.dev.pwnB = true
     let slot := 2 ^ 51 + r.base + 4096 + 64 * (r.prod % r.size)
     let index := 2 ^ 51 + r.base
     let next := (r.prod + 1) % 2 ^ 64
     let bytes : List Byte := [BitVec.ofNat 8 e.type, BitVec.ofNat 8 e.cause, BitVec.ofNat 8 e.ctx, if s.mgmt.lost then 1#8 else 0#8] ++
       leBytes (e.die % 2 ^ 14) 2 ++ [0#8, 0#8] ++ leBytes e.time 8 ++ leBytes e.va.toNat 8 ++ leBytes e.detail0.toNat 8 ++
       leBytes e.detail1.toNat 8 ++ List.replicate 24 0#8
     let written := fun (t : State) (cons : Nat) => t.mgmt.ring = some { r with prod := next, cons := cons } ∧ t.mgmt.lost = false ∧
       t.dev.rdBytes slot 64 = bytes ∧ t.dev.rd index 8 = next ∧
       ∀ a, (a < index ∨ index + 8 ≤ a) → (a < slot ∨ slot + 64 ≤ a) → t.dev.rd a 1 = s.dev.rd a 1
     (s.dev.records = e :: es →
       (s.mgmt.held = [] → s.mgmt.ring = some r → ¬full r.cons → up →
         ∃ t, exec .errorRecordMessage s = .next t ∧ t.dev.records = es ∧ t.mgmt.held = [] ∧ written t r.cons) ∧
       (s.mgmt.held ≠ [] ∨ s.mgmt.ring = none ∨ s.mgmt.ring = some r ∧ (full r.cons ∨ ¬up) →
         (s.mgmt.held.length < 256 → exec .errorRecordMessage s =
           .next { s with dev := { s.dev with records := es }, mgmt := { s.mgmt with held := s.mgmt.held ++ [e] } }) ∧
         (256 ≤ s.mgmt.held.length → exec .errorRecordMessage s =
           .next { s with dev := { s.dev with records := es }, mgmt := { s.mgmt with lost := true } }))) ∧
     (s.dev.records = [] → exec .errorRecordMessage s = .next s) ∧
     (s.mgmt.ring = none → exec .eventRingConsumerIndex s = .next s) ∧
     (s.mgmt.ring = some r →
       let cons := s.dev.rd (index + 8) 8
       (s.mgmt.held = [] ∨ full cons ∨ ¬up → exec .eventRingConsumerIndex s =
         .next { s with mgmt := { s.mgmt with ring := some { r with cons := cons } } }) ∧
       (s.mgmt.held = [e] → ¬full cons → up →
         ∃ t, exec .eventRingConsumerIndex s = .next t ∧ t.mgmt.held = [] ∧ written t cons)))

/-- R139, R20, R22, R28, R34, R52, R66, R148, R149, R432: the controller acts on the oldest request when no later one repeats its REQID,
and answers it with a response and its message: registers read and written, a link key loaded, the power limit, a page-service
answer, the event ring, the end of a drain, the security version, a die reset and the torus. The first invalid field is answered by
its offset. A reset of die 0 is not answered; a page-service answer waits for the companion's writes before it (R138, R158). R30,
R432: attest answers with the report and the certificate as one string of 176-byte pieces in three responses. R139 to R142: create
makes the context on its dies when every field keeps its limits and the supervisors fit, and it is then live (R137, R141: where the
companion shares a line of an error queue, its copy is invalidated first, and the request stays, with its block as it was read,
until the queue can be made zero); a context number that is live cannot be created again, and one that is not live cannot be
destroyed. destroy stops the context's work: where none of its messages has a sequence and is not ended, nothing of it is left and
the request is answered; else the request stays until they have ended. Where the spec leaves a point open or to inference, the
model's choice stands (log 11, 45, 49, 52, 62, 67, 72, 80, 81). -/
def Obligations.ManagementRequests : Prop :=
  (∀ (s : State) (q : MgmtReq) (qs : List MgmtReq), s.mgmt.requests = q :: qs → 7 ≤ s.mgmt.bootStep →
     (∀ r ∈ qs, r.reqid ≠ q.reqid) →
     let answer := fun (t : State) (status offset : Nat) (bs : List Byte) => { t with mgmt := { t.mgmt with
       requests := qs, creating := none
       responses := s.mgmt.responses ++ [{ reqid := q.reqid, status := status, offset := offset, results := bs }]
       outbox := s.mgmt.outbox ++ [sealMsg (mkMsg 0x65 q.src (t.dev.dieId 0) t.dev.d0.inc
         ([q.reqid, BitVec.ofNat 64 (status + 2 ^ 8 * offset)] ++ dwordsOf bs))] } }
     let ok := fun (t : State) (bs : List Byte) => answer t 0 0 bs
     let p := fun (i : Nat) => (dwordAt q.params i).toNat
     let present := p 0 < 4 ∧ p 0 ∈ s.dev.present
     let unit := p 1 < 72 ∨ p 1 = 0xFF
     let code := 1 ≤ p 2 ∧ p 2 ≤ 3 ∨ 0x10 ≤ p 2 ∧ p 2 ≤ 0x1A
     let size := fun (i : Nat) => 1 ≤ p i ∧ p i ≤ 16
     let checks : List (Nat × Instr × List Prop) :=
       [(0x03, .readreg, [present, unit, code]), (0x04, .writereg, [present, unit, code]),
        (0x05, .loadkey, [present, p 1 < 12, p 2 < 2, p 3 < 2, p 4 < 2 ^ 51]), (0x06, .setpower, [1500 ≤ p 0 ∧ p 0 ≤ 2700]),
        (0x08, .pagedone, [p 0 < 2 ^ 32 ∧ (∃ r ∈ s.dev.pageReqs, r.id = p 0), p 1 < 2]),
        (0x09, .setevent, [p 0 < 2 ^ 51 ∧ p 0 % 4096 = 0, p 1 ∈ [256, 512, 1024, 2048, 4096, 8192, 16384, 32768, 65536]]),
        (0x0B, .commitsvn, [p 0 < 2 ^ 32]), (0x0C, .resetdie, [present]), (0x0D, .settorus, [size 0, size 1, size 2])]
     (∀ e ∈ checks, q.op = e.1 → ∀ i < e.2.2.length, ¬(e.2.2[i]?).getD True → (∀ k < i, (e.2.2[k]?).getD True) →
       exec e.2.1 s = .next (answer s 2 (8 * i) [])) ∧
     (∀ o, present → unit → code → regName (p 1) (p 2) = .error o → (q.op = 0x03 → exec .readreg s = .next (answer s 2 o [])) ∧
       (q.op = 0x04 → exec .writereg s = .next (answer s 2 o []))) ∧
     (q.op = 0x03 → present → ∀ r, regName (p 1) (p 2) = .ok r →
       exec .readreg s = .next (ok s (leBytes ((s.dev.die (p 0)).readReg r) 8))) ∧
     (q.op = 0x04 → present → ∀ r, regName (p 1) (p 2) = .ok r →
       (∀ x, (s.dev.die (p 0)).writeReg r (BitVec.ofNat 32 (p 3)) = some x →
         exec .writereg s = .next (ok (s.withDev (s.dev.setDie (p 0) x)) [])) ∧
       ((s.dev.die (p 0)).writeReg r (BitVec.ofNat 32 (p 3)) = none → exec .writereg s = .next (answer s 2 16 []))) ∧
     (q.op = 0x05 → present → p 1 < 12 → p 2 < 2 → p 3 < 2 → p 4 < 2 ^ 51 →
       let bs := s.dev.rdBytes (2 ^ 51 + p 4) 36
       let k : Key := { key := bs.take 32, salt := bs.drop 32 }
       exec .loadkey s = .next (ok (s.withDev (s.dev.modDie (p 0) fun x => x.modLink (p 1) fun l =>
         if p 2 = 1 then { l with rx := l.rx.set (p 3) (some k) }
         else { l with tx := l.tx.set (p 3) (some k), uses := l.uses.set (p 3) 0,
                        expiring := l.expiring && decide (p 3 ≠ if l.txSlot then 1 else 0) })) [])) ∧
     (q.op = 0x06 → 1500 ≤ p 0 → p 0 ≤ 2700 → exec .setpower s = .next (ok { s with mgmt := { s.mgmt with limit := p 0 } } [])) ∧
     (q.op = 0x08 → p 0 < 2 ^ 32 → p 1 < 2 → (∃ r ∈ s.dev.pageReqs, r.id = p 0) →
       (∃ w ∈ s.dev.posted, ∃ port, w.order = .port port) → exec .pagedone s = .next s) ∧
     (q.op = 0x08 → p 0 < 2 ^ 32 → p 1 < 2 → (∀ w ∈ s.dev.posted, ∀ port, w.order ≠ .port port) →
       ∀ r, s.dev.pageReqs.find? (fun r => r.id == p 0) = some r →
       exec .pagedone s = .next (ok (s.withDev (r.cmds.foldl (fun d id => d.settle id (if p 1 = 0 then 1 else 2))
         { s.dev with pageReqs := s.dev.pageReqs.filter fun e => e.id != r.id })) [])) ∧
     (q.op = 0x09 → p 0 < 2 ^ 51 → p 0 % 4096 = 0 → p 1 ∈ [256, 512, 1024, 2048, 4096, 8192, 16384, 32768, 65536] →
       s.mgmt.held = [] → ∃ t, exec .setevent s = .next t ∧
         t.mgmt = (ok { s with mgmt := { s.mgmt with ring := some { base := p 0, size := p 1, prod := 0, cons := 0 } } } []).mgmt ∧
         (canonical 0#8 s.dev.mem = true → ∀ a, byteAt t.dev.mem a =
           if 2 ^ 51 + p 0 ≤ a ∧ a < 2 ^ 51 + p 0 + 16 then 0#8 else byteAt s.dev.mem a)) ∧
     (q.op = 0x0A → ∃ t, exec .drainend s = .next t ∧ t.mgmt.drain = false ∧ t.mgmt.reports = [] ∧ t.mgmt.pendingIncs = [] ∧
       t.mgmt.pendingResets = [] ∧ t.mgmt.requests = qs ∧
       (s.mgmt.pendingIncs = [] → s.mgmt.pendingResets = [] → t.mgmt.drainCount = [0, 0, 0, 0] ∧ t.mgmt.incs = s.mgmt.incs) ∧
       (∀ n < 4, s.mgmt.pendingIncs = [n] → s.mgmt.pendingResets = [] → s.mgmt.incs.length = 4 →
         natAt t.mgmt.incs n = (natAt s.mgmt.incs n + 1) % 16) ∧
       (∀ n < 4, s.mgmt.pendingIncs = [] → s.mgmt.pendingResets = [n] → s.mgmt.incs.length = 4 →
         natAt t.mgmt.incs n = (natAt s.mgmt.incs n + 1) % 16 ∧ (t.dev.die n).inc.toNat = natAt t.mgmt.incs n ∧
         (t.dev.die n).joining = true ∧ (t.dev.die n).quarantine = some (s.dev.raw + 121600000) ∧
         ∀ pk ∈ s.dev.packages, ∃ j ∈ t.mgmt.joins, j.die = n ∧ j.peer = pk ∧ j.inc = natAt t.mgmt.incs n ∧ j.resends = 0) ∧
       ∀ n, (t.dev.die n).draining = false) ∧
     (q.op = 0x0B → ∀ g, s.mgmt.running = some g → p 0 < 2 ^ 32 →
       (p 0 = g.svn → exec .commitsvn s = .next (ok { s with mgmt := { s.mgmt with minSvn := max s.mgmt.minSvn (p 0) } } [])) ∧
       (p 0 ≠ g.svn → exec .commitsvn s = .next (answer s 2 0 []))) ∧
     (q.op = 0x0C → present → 0 < p 0 →
       exec .resetdie s = .next (ok (s.withDev { s.dev with resets := s.dev.resets ++ [(p 0, 0)] }) [])) ∧
     (q.op = 0x0C → present → p 0 = 0 → exec .resetdie s =
       .next { s with dev := { s.dev with resets := s.dev.resets ++ [(0, 0)] }, mgmt := { s.mgmt with requests := qs, creating := none } }) ∧
     (q.op = 0x0D → size 0 → size 1 → size 2 →
       let set := { s.dev with torus := (p 0, p 1, p 2) }
       let pkg := s.dev.pkg.toNat
       let inside := pkg / 256 < p 0 ∧ pkg / 16 % 16 < p 1 ∧ pkg % 16 < p 2
       let down := ∀ n < 4, ∀ u < 12, ((s.dev.die n).link u).up = false
       (down → s.mgmt.bootStep = 7 ∨ inside → exec .settorus s = .next (ok (s.withDev set) [])) ∧
       (down → 8 ≤ s.mgmt.bootStep → ¬inside →
         exec .settorus s = .next (ok (s.withDev (set.record 0x09 0xFF 0 0 (BitVec.ofNat 64 pkg) 0)) [])) ∧
       (¬down → exec .settorus s = .next (answer s 3 0 [])))) ∧
  (∀ (s : State) (q : MgmtReq) (qs : List MgmtReq) (g : Running), s.mgmt.requests = q :: qs → 7 ≤ s.mgmt.bootStep →
     (∀ r ∈ qs, r.reqid ≠ q.reqid) → q.op = 0x07 → s.mgmt.running = some g → (dwordAt q.params 4).toNat < 256 →
     ∃ t a b c, exec .attest s = .next t ∧ t.dev = s.dev ∧ t.mgmt.requests = qs ∧
       t.mgmt.responses = s.mgmt.responses ++ [a, b, c] ∧
       t.mgmt.outbox = s.mgmt.outbox ++ [a, b, c].map (fun r => sealMsg (mkMsg 0x65 q.src (s.dev.dieId 0) s.dev.d0.inc
         ([q.reqid, 0] ++ dwordsOf r.results))) ∧ (∀ r ∈ [a, b, c], r.reqid = q.reqid ∧ r.status = 0) ∧
       a.results.length = 176 ∧ b.results.length = 176 ∧
       a.results ++ b.results ++ c.results = report g (bytesOf ((List.range 4).map fun i => dwordAt q.params i))
         ((s.dev.live.find? fun e => e.1 == (dwordAt q.params 4).toNat).map fun e => (e.1, e.2.2)) ++ certificate g.svn) ∧
  (∀ (s : State) (q : MgmtReq) (qs : List MgmtReq), s.mgmt.requests = q :: qs → 8 ≤ s.mgmt.bootStep →
     (∀ r ∈ qs, r.reqid ≠ q.reqid) →
     let answer := fun (t : State) (status : Nat) => { t with mgmt := { t.mgmt with
       requests := qs, creating := none, responses := s.mgmt.responses ++ [{ reqid := q.reqid, status := status, offset := 0, results := [] }]
       outbox := s.mgmt.outbox ++ [sealMsg (mkMsg 0x65 q.src (t.dev.dieId 0) t.dev.d0.inc [q.reqid, BitVec.ofNat 64 status])] } }
     let p := (dwordAt q.params 0).toNat
     let b := s.mgmt.creating.getD (s.dev.rdBytes (2 ^ 51 + p) 256)
     let ctx := blockAt b 0 1
     let checked := s.mgmt.creating.isSome = true ∨ ctx < 64 ∧ (∀ e ∈ s.dev.live, e.1 ≠ ctx) ∧ s.dev.blockFault b = none
     let live := ∃ e ∈ s.dev.live, e.1 = p
     let mine := fun (o : Outst) => o.ctx = p
     let pending := ∃ n < 4, ∃ o ∈ (s.dev.die n).outs, mine o
     (q.op = 0x01 → p < 2 ^ 51 → checked → s.dev.errqDirty b ≠ [] → exec .create s = .next
       { s with dev := (s.dev.errqDirty b).foldl Dev.invalidate s.dev, mgmt := { s.mgmt with creating := some b } }) ∧
     (q.op = 0x01 → p < 2 ^ 51 → s.mgmt.creating = none → ctx < 64 → (∀ e ∈ s.dev.live, e.1 ≠ ctx) → ∀ o, s.dev.blockFault b = some o →
       exec .create s = .next { s with mgmt := { s.mgmt with
         requests := qs, creating := none
         responses := s.mgmt.responses ++ [{ reqid := q.reqid, status := 2, offset := o, results := [] }]
         outbox := s.mgmt.outbox ++ [sealMsg (mkMsg 0x65 q.src (s.dev.dieId 0) s.dev.d0.inc
           [q.reqid, BitVec.ofNat 64 (2 + 2 ^ 8 * o)])] } }) ∧
     (q.op = 0x01 → p < 2 ^ 51 → checked → ∀ d, s.dev.errqDirty b = [] →
       s.dev.createAll b (blockDies b) = .ok d →
       exec .create s = .next (answer (s.withDev { d with live := d.live ++ [(ctx, blockDies b, sha512 b)] }) 0)) ∧
     (q.op = 0x01 → p < 2 ^ 51 → s.mgmt.creating = none → ctx < 64 → (∃ e ∈ s.dev.live, e.1 = ctx) → exec .create s = .next (answer s 5)) ∧
     (q.op = 0x02 → p < 64 → ¬live → exec .destroy s = .next (answer s 4)) ∧
     (q.op = 0x02 → p < 64 → live → (∀ n < 4, ∀ k ∈ (s.dev.die n).ctxs, k.ctx = p → k.ending = none) → ∃ t, exec .destroy s = .next t ∧
       (∀ w ∈ t.dev.wgs, w.die < 4 → w.ctx = p → w.kind = .walker) ∧
       (∀ w, w ∈ t.dev.posted ↔ w ∈ s.dev.posted ∧ ∀ n < 4, w.order ≠ .errq n p) ∧
       (∀ n < 4, (∀ l ∈ (t.dev.die n).launches, l.ctx ≠ p) ∧ (∀ u ∈ (t.dev.die n).unsent, u.ctx ≠ p)) ∧
       (pending → t.mgmt = s.mgmt ∧ t.dev.live = s.dev.live ∧ ∀ n < 4,
         (t.dev.die n).outs = ((s.dev.die n).outs.map fun o =>
           if o.ctx = p then { o with after := .none, quiet := true } else o) ∧ ∀ k ∈ (t.dev.die n).ctxs, k.ctx = p → k.ending = some .destroyed) ∧
       (¬pending → t.mgmt = (answer s 0).mgmt ∧ (∀ e ∈ t.dev.live, e.1 ≠ p) ∧ ∀ n < 4,
         (t.dev.die n).outs = (s.dev.die n).outs ∧ (∀ k ∈ (t.dev.die n).ctxs, k.ctx ≠ p) ∧ (∀ e ∈ (t.dev.die n).tlb, e.ctx ≠ p) ∧
         (∀ e ∈ (t.dev.die n).hrt, e.2.used = true → e.2.ctx ≠ p))) ∧
     (q.op = 0x02 → p < 64 → live → s.dev.endingOf p = some .destroyed →
       ((∃ n < 4, ∃ o ∈ (s.dev.die n).outs, mine o) → exec .destroy s = .next s) ∧
       ((∀ n < 4, ∀ o ∈ (s.dev.die n).outs, ¬mine o) → exec .destroy s = .next (answer (s.withDev (s.dev.clearCtx p)) 0))))

/-- R37 to R39, R63, R77, R139: a message on its way is dropped when held for more than 1 ms; one just received is counted as one more
die visited, and after 64 is not sent on. Then the die it is for takes it in (its management controller, on die 0, takes a request
that passes the checks), or it joins the queue of the unit that the route names, or it is counted as not routable. R37, R39: the
route follows dimension order on the shorter way round the ring, and the way up when both are as long. R46, R48 to R50, R53, R54,
R59: a flit of each type that passes the checks of its receiver is accepted; of a data flit the messages enter their buffer; one
that fails a check is counted in its field of LINKERR and nothing else of its link changes but the times of authentication failures;
a registration flit whose value does not match is malformed and reported; one whose RXSLOT shows the retired slot cleared frees it,
and the controller is told. R44, R47, R53 to R55, R77: a port that is up and can send drops the messages that have waited too long
for it and transmits: near the limit of its key the registration flit of the other slot where it may switch, else a retire flit that
is due, else the messages of the granted virtual channel that fit into 26 words, else an idle flit. R45, R46: packing loses and
reorders no message of a virtual channel, and what is packed is of the granted channel and fits. R34, R36, R51 to R56: a link that
may train comes up; the sender switches slots with a registration flit; the retire flit falls due again after 1,024 flits, and until
the peer has cleared the slot that was left there is no switch back; a link whose other end trains anew goes down at this end too,
without its keys; keys that expire or are exhausted and repeated authentication failures are recorded, the last two with the link
going down. Where the spec leaves a point open or to inference, the model's choice stands (log 4, 28, 46, 47, 48, 49, 54, 62, 68,
69, 73, 74, 80, 87, 88). -/
def Obligations.LinksAndRoutes : Prop :=
  (∀ (s : State) (die idx : Nat) (m : Msg), die < 4 → (s.dev.die die).transit[idx]? = some m →
     let d := s.dev.modDie die fun x => { x with transit := x.transit.eraseIdx idx }
     let m' := if m.held then { m with ws := withHop m.ws } else m
     let goes := fun (e : Dev) => exec (.messageRoute die idx) s = .next { s with dev := e }
     (s.dev.heldLong m = true → goes (d.modDie die fun x => x.count fun c => { c with remheld := satInc c.remheld })) ∧
     (s.dev.heldLong m = false → m.held = true → 64 ≤ msgHops m.ws →
       goes (d.modDie die fun x => x.count fun c => { c with unroute := satInc c.unroute })) ∧
     (s.dev.heldLong m = false → (m.held = true → msgHops m.ws < 64) →
       (msgDst m'.ws = d.dieId die →
         (mgmtOnly (msgKind m'.ws) = false → goes (d.modDie die fun x => { x with inbox := x.inbox ++ [m'] })) ∧
         (mgmtOnly (msgKind m'.ws) = true → ∀ g, d.screen die m' = some g → goes (d.modDie die fun x => x.count g)) ∧
         (msgKind m'.ws = 0x64 → die = 0 → d.screen die m' = none → 4 ≤ m'.ws.length → exec (.messageRoute die idx) s = .next
           { s with dev := d
                    mgmt := { s.mgmt with requests := s.mgmt.requests ++ [{
                      src := msgSrc m'.ws, reqid := dwordAt m'.ws 2, op := msgAt m'.ws 24 0 16, params := m'.ws.drop 4 }] } })) ∧
       (∀ u dl robin, d.hop die m' = .out u dl robin → goes
         (d.modDie die fun x => ({ x with robin := robin }).modLink u fun l =>
           { l with queue := l.queue ++ [{ m' with out := dl, held := false }] })) ∧
       (d.hop die m' = .unroute → goes (d.modDie die fun x => x.count fun c => { c with unroute := satInc c.unroute })))) ∧
  (∀ n axis c t : Nat, c < n → t < n → axis < 3 →
     let up := (t + n - c) % n
     (c = t → waysOn n axis c t = none) ∧
     (c ≠ t → 2 < n → up ≤ n - up → waysOn n axis c t = some { first := [2 * axis], fallback := [2 * axis + 1] }) ∧
     (c ≠ t → 2 < n → n - up < up → waysOn n axis c t = some { first := [2 * axis + 1], fallback := [2 * axis] }) ∧
     (c ≠ t → n = 2 → waysOn n axis c t = some { first := [2 * axis, 2 * axis + 1], fallback := [] })) ∧
  (∀ (s : State) (die unit ty : Nat) (flit : Option Flit) (f : Flit) (e : Dev),
     die < 4 → unit < 15 → ((s.dev.die die).link unit).up = true → s.dev.arriving die unit flit = some (f, e) →
     flitField f 60 4 = ty →
     ∀ i, (i, ty) ∈ [(Instr.dataFlit die unit flit, 0), (.idleFlit die unit flit, 1), (.registrationFlit die unit flit, 2),
       (.retireFlit die unit flit, 3)] →
     let l := (e.die die).link unit
     let onLink := fun (g : Link → Link) => e.modDie die fun x => x.modLink unit g
     let goes := fun (d : Dev) => exec i s = .next (s.withDev d)
     (l.check unit f = .crc → goes (onLink fun l => { l with crcFail := min 255 (l.crcFail + 1) })) ∧
     (l.check unit f = .malformed → goes (onLink fun l => { l with malformed := min 255 (l.malformed + 1) })) ∧
     (l.check unit f = .auth → goes (onLink fun l => { l with
       authFail := min 255 (l.authFail + 1)
       authTimes := (l.authTimes.filter fun t => decide (e.raw - t ≤ rawOfUs 1000)) ++ [e.raw] })) ∧
     (f.crcOk = false → l.check unit f = .crc) ∧
     ∀ pt n, l.check unit f = .ok pt n →
       (unit < 12 → l.badRegistration f pt = true → goes
         (let d := onLink fun l => { l with malformed := min 255 (l.malformed + 1) }
          { d with keyReports := d.keyReports ++ [(die, unit)] })) ∧
       ((unit < 12 → l.badRegistration f pt = false) →
         let retired := l.sinceRetire ≠ none ∧ (dwordAt pt 2).getLsbD (1 - slotNo l.txSlot) = false
         let d := onLink fun l => l.accept f pt n
         let d := { d with slotReports := d.slotReports ++ if retired then [(die, unit, 1 - slotNo l.txSlot)] else [] }
         (ty ≠ 0 → goes d) ∧
         (ty = 0 → goes
           (let ms := unpackMsgs 13 ((pt.drop 3).take (flitField f 48 8 / 8))
            let d := ms.zipIdx.foldl (fun d e =>
              d.receiveMsg die unit d.nextSeq (flitField f 56 1 == 1) e.1 ((f.notes[e.2]?).getD plainNote)) d
            { d with nextSeq := d.nextSeq + 1 })))) ∧
  (∀ (s : State) (die unit : Nat),
     let d := s.dev.dropLate die unit
     let x := d.die die
     let l := x.link unit
     let goes := fun (x : Die) => exec (.flitTransmission die unit) s = .next (s.withDev (d.setDie die x))
     ((∀ m ∈ ((s.dev.die die).link unit).queue, s.dev.heldLong m = false) → die < 4 → unit < (s.dev.die die).links.length →
       d = s.dev) ∧
     (l.up = true → (unit < 12 → l.used < 2 ^ 32 ∧ (l.txKey (slotNo l.txSlot)).isSome = true) →
       (unit < 12 → 2 ^ 32 - 2 ^ 20 ≤ l.used → l.maySwitch = true → goes (x.switchKey unit)) ∧
       ((unit < 12 → 2 ^ 32 - 2 ^ 20 ≤ l.used → l.maySwitch = false) →
         (l.dueRetire = true → goes (x.sendRetire unit)) ∧
         (l.dueRetire = false → l.grant = none → goes
           ((x.modLink unit fun l => { l with waited := l.waits none }).sendFlit unit 1 0 0 l.sent [] 0 [])) ∧
         ∀ v, l.dueRetire = false → l.grant = some v →
           let p := packMsgs v 26 l.queue
           let body := p.1.flatMap Msg.ws
           goes ((x.modLink unit fun l => { l with queue := p.2, waited := l.waits (some v) }).sendFlit unit 0 (v / 2) (v % 2)
             (updAt l.sent v fun n => (n + 1) % 256) body (8 * body.length) (p.1.map Msg.note))))) ∧
  (∀ (v room : Nat) (ms : List Msg), (∀ m ∈ ms, 0 < m.ws.length) →
     let p := packMsgs v room ms
     (p.1 ++ p.2).filter (fun m => m.vc == v) = ms.filter (fun m => m.vc == v) ∧ p.2.filter (fun m => m.vc != v) = ms.filter (fun m => m.vc != v) ∧
     (∀ m ∈ p.1, m.vc = v) ∧ (p.1.flatMap Msg.ws).length ≤ room) ∧
  (∀ (s : State) (die unit : Nat), die < 4 →
     let x := s.dev.die die
     let l := x.link unit
     (unit < 12 → s.dev.mayTrain s.mgmt die unit = true →
       exec (.linkTrained die unit) s = .next (s.withDev (s.dev.modDie die fun x => x.linkUp unit))) ∧
     (12 ≤ unit → unit < 15 → 4 ≤ s.mgmt.bootStep → l.up = false → die ∈ s.dev.present → linkPeer die unit ∈ s.dev.present →
       exec (.linkTrained die unit) s = .next (s.withDev
         ((s.dev.modDie die fun x => (x.linkDown unit).linkUp unit).modDie (linkPeer die unit) fun x =>
           (x.linkDown (linkBack die unit)).linkUp (linkBack die unit)))) ∧
     (unit < 12 → ∀ k, l.up = true → l.txKey (1 - slotNo l.txSlot) = some k → l.peerRx.getLsbD (1 - slotNo l.txSlot) = true →
       l.used < 2 ^ 32 → l.dueRetire = false → l.sinceRetire = none →
       exec (.keySwitch die unit) s = .next (s.withDev (s.dev.modDie die fun x =>
         (x.sendFlit unit 2 0 0 l.sent [BitVec.ofNat 64 (1 - slotNo l.txSlot), keyCheck k] 0 []).modLink unit fun l =>
           { l with txSlot := !l.txSlot, expiring := false, dueRetire := true, sinceRetire := none, waited := l.waits none }))) ∧
     (unit < 12 → l.dueRetire = true ∨ l.sinceRetire ≠ none → exec (.keySwitch die unit) s = .next (s.withDev (s.dev.modDie die fun x => x))) ∧
     (unit < 12 → l.up = true → unit < x.links.length → ∃ t, exec (.linkTrained die unit) s = .next t ∧
       let y := t.dev.die die
       (y.link unit).up = false ∧ (∀ i < 2, (y.link unit).txKey i = none ∧ (y.link unit).rxKey i = none) ∧ (y.link unit).queue = [] ∧
       y.transit = x.transit ++ l.queue) ∧
     (∀ n, l.sinceRetire = some n → 1024 ≤ n → l.up = true → l.peerRx.getLsbD (1 - slotNo l.txSlot) = true →
       unit < x.links.length → ∃ t, exec (.retireResend die unit) s = .next t ∧ (t.dev.die die).link unit = { l with dueRetire := true }) ∧
     (unit < 12 → l.up = true → 2 ^ 32 - 2 ^ 20 ≤ l.used → l.maySwitch = false → l.expiring = false →
       exec (.keyExpiring die unit) s = .next (s.withDev
         ((s.dev.modDie die fun x => x.modLink unit fun l => { l with expiring := true }).record 0x06 0xFF die 0 (BitVec.ofNat 64 unit) 0))) ∧
     (unit < 12 → l.up = true → 2 ^ 32 ≤ l.used → exec (.keyExhausted die unit) s = .next (s.withDev
       ((s.dev.modDie die fun x => x.linkDown unit).record 0x05 0xFF die 0 (BitVec.ofNat 64 unit) 0))) ∧
     (unit < 12 → l.up = true → 64 < l.authTimes.length → exec (.authFailureLimit die unit) s = .next (s.withDev
       ((s.dev.modDie die fun x => x.linkDown unit).record 0x05 0xFF die 0 (BitVec.ofNat 64 unit) 1))))

/-- R78 to R86, R90, R93 to R100: an update that is read for the first time and whose lines are clean is applied once, remembered under
its sequence and acknowledged with its status. R82, R84, R90, R93 to R97, R99: what an update that is neither unbacked nor late does
at its home. RADD, RMIN, RMAX and ROR replace the target by the result, RARRIVE adds to a count that saturates, RWONCE takes each
word by its state, an XAL RADD adds exactly (full-range) or in rounded units (windowed), and RCLOSE closes the line; every other
byte stays, and an attached arrival word rises by what was accepted. R100, R160: an update whose target, or whose arrival word, lies
in the reserved region or in a retired frame has status 7 and changes nothing; a late one, other than RCLOSE, has status 4, sets
LATE of a target that is an XAL line, and raises REMLATE. Where the spec leaves a point open or to inference, the model's choice
stands (log 52, 91). -/
def Obligations.UpdatesApplied : Prop :=
  (∀ (s : State) (die idx kind : Nat) (m : Msg) (w : Window),
     ∀ i, (i, kind) ∈ [(Instr.raddUpdate die idx, 0x40), (.rminUpdate die idx, 0x41), (.rmaxUpdate die idx, 0x42),
       (.rorUpdate die idx, 0x43), (.rwonceUpdate die idx, 0x44), (.rarriveUpdate die idx, 0x45), (.rcloseUpdate die idx, 0x46)] →
     s.dev.reads die idx kind (updOk kind) m → s.dev.newTag die idx m (ctlOldest m.ws) w → s.dev.updWait m.ws = none →
     let r := (s.dev.consume die idx).applyUpdate die kind m.ws
     let tag := dwordAt m.ws 2
     exec i s = .next (s.withDev ((r.1.modDie die fun x => x.putWindow { w with seen := putKey (tagSeq tag) r.2 w.seen }).acknowledge
       die tag r.2))) ∧
  ((∀ (d : Dev) (die kind : Nat) (ws : List Dword), d.updUnbacked ws = false → (kind ≠ 0x46 → d.updClosed ws = false) →
     canonical 0#8 d.mem = true →
     let pa := updPa ws
     let ty := updType ws
     let op := (dwordAt ws 6).toNat
     let base := pa / 64 * 64
     let line := d.rd base 64
     let p := d.updEffect die kind ws
     let r := d.applyUpdate die kind ws
     let only := fun (a n : Nat) => ∀ b, b < a ∨ a + n ≤ b → byteAt p.1.mem b = byteAt d.mem b
     let writes := fun (n v : Nat) => p.2.1 = 1 ∧ p.2.2 = 1 ∧ p.1.rd pa n = v % 2 ^ (8 * n) ∧ only pa n
     let a4 := d.rd pa 4
     let o4 := op % 2 ^ 32
     let after := p.1.rd base 64
     -- the arrival word, and the status
     (r.2 = p.2.1 ∧ (updArr ws = none ∨ p.2.2 = 0 → r.1 = p.1) ∧
       ∀ a, updArr ws = some a → p.2.2 ≠ 0 → r.1.rd a 4 = min (p.1.rd a 4 + p.2.2) 0xFFFF_FFFF ∧
         ∀ b, b < a ∨ a + 4 ≤ b → byteAt r.1.mem b = byteAt p.1.mem b) ∧
     -- integers
     (kind = 0x40 → (ty = 0x0 → writes 4 (a4 + op)) ∧ (ty = 0x2 → writes 8 (d.rd pa 8 + op))) ∧
     (ty = 0x0 → (kind = 0x41 → writes 4 (BitVec.ofInt 32 (min (BitVec.ofNat 32 a4).toInt (BitVec.ofNat 32 op).toInt)).toNat) ∧
       (kind = 0x42 → writes 4 (BitVec.ofInt 32 (max (BitVec.ofNat 32 a4).toInt (BitVec.ofNat 32 op).toInt)).toNat)) ∧
     (ty = 0x1 → (kind = 0x41 → writes 4 (min a4 o4)) ∧ (kind = 0x42 → writes 4 (max a4 o4))) ∧
     (ty = 0x2 → (kind = 0x41 → writes 8 (BitVec.ofInt 64 (min (BitVec.ofNat 64 (d.rd pa 8)).toInt (BitVec.ofNat 64 op).toInt)).toNat) ∧
       (kind = 0x42 → writes 8 (BitVec.ofInt 64 (max (BitVec.ofNat 64 (d.rd pa 8)).toInt (BitVec.ofNat 64 op).toInt)).toNat)) ∧
     (ty = 0x3 → (kind = 0x41 → writes 8 (min (d.rd pa 8) op)) ∧ (kind = 0x42 → writes 8 (max (d.rd pa 8) op))) ∧
     -- FP32: a NaN, two codes without the sign, two with it, and one of each
     (ty = 0x4 → kind = 0x41 ∨ kind = 0x42 →
       let nan := fun (c : Nat) => 0x7F80_0000 < c % 2 ^ 31
       let low := kind = 0x41
       (nan a4 ∨ nan o4 → writes 4 0x7FC0_0000) ∧
       (¬nan a4 → ¬nan o4 →
         (a4 < 2 ^ 31 → o4 < 2 ^ 31 → writes 4 (if low then min a4 o4 else max a4 o4)) ∧
         (2 ^ 31 ≤ a4 → 2 ^ 31 ≤ o4 → writes 4 (if low then max a4 o4 else min a4 o4)) ∧
         (2 ^ 31 ≤ a4 → o4 < 2 ^ 31 → writes 4 (if low then a4 else o4)) ∧
         (a4 < 2 ^ 31 → 2 ^ 31 ≤ o4 → writes 4 (if low then o4 else a4)))) ∧
     (kind = 0x43 → ty = 0x7 → writes 8 (d.rd pa 8 ||| op)) ∧
     (kind = 0x45 → ty = 0x9 → writes 4 (min (a4 + o4) 0xFFFF_FFFF)) ∧
     -- write-once words
     (kind = 0x44 → ty = 0x8 →
       let n := updNw ws + 1
       let v := fun (i : Nat) => bits (dwordAt ws (6 + i / 2)).toNat (32 * (i % 2)) 32
       let old := fun (i : Nat) => d.written.contains (pa / 4 + i)
       let count := fun (f : Nat → Bool) => ((List.range n).filter f).length
       let conf := count fun i => old i && d.rd (pa + 4 * i) 4 != v i
       p.2.2 = count (fun i => !old i) ∧ p.2.1 = (if conf ≠ 0 then 3 else if p.2.2 = 0 then 2 else 1) ∧
       (∀ i, i < n → p.1.written.contains (pa / 4 + i) = true ∧ p.1.rd (pa + 4 * i) 4 = if old i then d.rd (pa + 4 * i) 4 else v i) ∧
       (die < 4 →
         (p.1.die die).counters.rembenign.toNat = min 0xFFFF_FFFF ((d.die die).counters.rembenign.toNat +
           count fun i => old i && d.rd (pa + 4 * i) 4 == v i) ∧
         (p.1.die die).counters.remconflict.toNat = min 0xFFFF_FFFF ((d.die die).counters.remconflict.toNat + conf) ∧
         ∀ i, i < n → old i = true → d.rd (pa + 4 * i) 4 ≠ v i →
           (∀ j, i < j → j < n → old j = true → d.rd (pa + 4 * j) 4 = v j) →
           (p.1.die die).counters.conflictpa = BitVec.ofNat 64 ((pa + 4 * i) % 2 ^ 52)) ∧
       only pa (4 * n)) ∧
     -- exact accumulator lines
     (kind = 0x40 → ty = 0x5 ∨ ty = 0x6 →
       (p.2.2 = if p.2.1 = 1 then 1 else 0) ∧ only base 64 ∧
       (3 ≤ bits line 509 3 → p.2.1 = 6 ∧ after = line)) ∧
     (kind = 0x40 → ty = 0x5 →
       (bits line 509 3 = 2 → p.2.1 = 6 ∧ after = line ||| 2 ^ 507) ∧
       (bits line 509 3 ≤ 1 → bits line 320 32 = 0x8000_0000 → p.2.1 = 5 ∧ after = line) ∧
       (bits line 509 3 ≤ 1 → bits line 320 32 ≠ 0x8000_0000 →
         let special := if fp32Nan o4 then some 354 else if fp32Inf o4 then some (if fp32Neg o4 then 353 else 352) else none
         let u := BitVec.ofNat 320 (fp32Units o4)
         p.2.1 = 1 ∧ bits after 509 3 = 1 ∧ bits after 320 32 = (bits line 320 32 + 1) % 2 ^ 32 ∧
         BitVec.ofNat 320 after = (if special.isSome then BitVec.ofNat 320 line
           else if fp32Neg o4 then BitVec.ofNat 320 line - u else BitVec.ofNat 320 line + u) ∧
         ∀ k, 352 ≤ k → k < 509 → after.testBit k = (line.testBit k || special == some k))) ∧
     (kind = 0x40 → ty = 0x6 →
       (bits line 509 3 = 1 → p.2.1 = 6 ∧ after = line ||| 2 ^ 357) ∧
       (bits line 509 3 = 2 → bits line 464 9 ≠ updE ws → p.2.1 = 6 ∧ after = line ||| 2 ^ 507) ∧
       (bits line 509 3 = 0 ∨ bits line 509 3 = 2 ∧ bits line 464 9 = updE ws →
         (bits line 448 16 = 256 → p.2.1 = 5 ∧ after = line) ∧
         (bits line 448 16 ≠ 256 →
           let x := fun (i : Nat) => bits (dwordAt ws (6 + i / 2)).toNat (32 * (i % 2)) 32
           let q := fun (i : Nat) => winUnits (x i) (updE ws)
           let fin := fun (i : Nat) => !fp32Nan (x i) && !fp32Inf (x i)
           let acc := fun (l i : Nat) => BitVec.ofNat 56 (bits l (56 * i) 56)
           let one := fun (f : Nat → Bool) => (List.range 8).any f
           p.2.1 = 1 ∧ bits after 509 3 = 2 ∧ bits after 464 9 = updE ws ∧ bits after 448 16 = (bits line 448 16 + 1) % 2 ^ 16 ∧
           (∀ i, i < 8 → acc after i = if fin i && decide (q i < 2 ^ 47) then
               (if fp32Neg (x i) then acc line i - BitVec.ofNat 56 (q i) else acc line i + BitVec.ofNat 56 (q i))
             else acc line i) ∧
           ∀ k, 473 ≤ k → k < 509 → after.testBit k = (line.testBit k ||
             k == 504 && one (fun i => fp32Nan (x i)) ||
             k == 503 && one (fun i => fp32Inf (x i) && fp32Neg (x i)) ||
             k == 502 && one (fun i => fp32Inf (x i) && !fp32Neg (x i)) ||
             k == 508 && one (fun i => fin i && decide (2 ^ 47 ≤ q i)))))) ∧
     -- closing
     (kind = 0x46 → p.2.1 = 1 ∧ p.2.2 = 1 ∧ p.1.closed.contains (pa / 64) = true ∧ only base 64 ∧
       (∀ n, n ≠ pa / 64 → p.1.closed.contains n = d.closed.contains n) ∧
       after = if bits line 509 3 = 1 then line ||| 2 ^ 355 else if bits line 509 3 = 2 then line ||| 2 ^ 505 else line)) ∧
   -- the integer nearest to a quotient, of two that are as near the even one
   (∀ m n : Nat,
     let q : Int := nearestShift m n
     2 * ((m : Int) - q * 2 ^ n).natAbs ≤ 2 ^ n ∧ (2 * ((m : Int) - q * 2 ^ n).natAbs = 2 ^ n → q % 2 = 0)) ∧
   ∀ c e : Nat, winUnits c e = match -149 - exp9 e with
     | .ofNat n => fp32Units c * 2 ^ n
     | .negSucc n => nearestShift (fp32Units c) (n + 1)) ∧
  (∀ (d : Dev) (die kind : Nat) (ws : List Dword), die < 4 →
     let base := updPa ws / 64 * 64
     let line := d.rd base 64
     let r := d.applyUpdate die kind ws
     (d.updUnbacked ws = true → r = (d, 7)) ∧
     (d.updUnbacked ws = false → kind ≠ 0x46 → d.updClosed ws = true → canonical 0#8 d.mem = true →
       r.2 = 4 ∧ (r.1.die die).counters.remlate = satInc (d.die die).counters.remlate ∧
       r.1.rd base 64 = (if bits line 509 3 = 1 then line ||| 2 ^ 356 else if bits line 509 3 = 2 then line ||| 2 ^ 506 else line) ∧
       ∀ b, b < base ∨ base + 64 ≤ b → byteAt r.1.mem b = byteAt d.mem b))

/-- R78: an update whose sequence has been seen is applied no second time: nothing of memory, of the written words and of the closed
lines changes, and the status first sent is sent again. -/
def Obligations.DuplicatesNotApplied : Prop :=
  ∀ (s t : State) (die idx kind st : Nat) (m : Msg) (w : Window),
    ∀ i, (i, kind) ∈ [(Instr.raddUpdate die idx, 0x40), (.rminUpdate die idx, 0x41), (.rmaxUpdate die idx, 0x42),
      (.rorUpdate die idx, 0x43), (.rwonceUpdate die idx, 0x44), (.rarriveUpdate die idx, 0x45), (.rcloseUpdate die idx, 0x46)] →
    let tag := dwordAt m.ws 2
    s.dev.reads die idx kind (updOk kind) m → (s.dev.die die).window? (tagDie tag) (tagCtx tag) = some w →
    findKey (tagSeq tag) (w.advance (ctlOldest m.ws)).seen = some st → seqAhead (w.advance (ctlOldest m.ws)).lwm (tagSeq tag) = false →
    exec i s = .next t → t.dev.mem = s.dev.mem ∧ t.dev.written = s.dev.written ∧ t.dev.closed = s.dev.closed ∧
      ∃ d : Dev, t.dev = d.acknowledge die tag st ∧ d.mem = s.dev.mem

/-- R71, R75 to R77, R79, R80, R87 to R89, R101, R160: the parts of a read that are asked for are sent, each with the bytes from its own
address, or with STATUS 7 where its first or last byte has no memory behind it; a part writes its words once, or is turned away,
also where a frame that it would write has been retired (R164, the model's choice, log 89), and the last part of a read completes
it; an acknowledgement is taken entry by entry, each of which enters its error, frees the message and lets what waited for it go on;
a message not acknowledged in time is sent again at most eight times and then abandoned with an error-queue entry; messages held too
long are dropped, and a window that has heard nothing for 192 ms goes. Where the spec leaves a point open or to inference, the
model's choice stands (log 41, 52, 59, 76, 89, 90). -/
def Obligations.ReadsAndTimers : Prop :=
  ∀ (s : State) (die idx : Nat) (m : Msg), die < 4 →
    let taken := s.dev.consume die idx
    let tag := dwordAt m.ws 2
    let freed := fun (d : Dev) (o : Outst) => d.modDie die fun x =>
      { x with outs := x.outs.filter fun q => !(q.ctx == o.ctx && q.seq == o.seq)
               reads := x.reads.filter fun q => !(q.ctx == o.ctx && q.seq == o.seq) }
    (s.dev.reads die idx 0x01 rreadOk m →
      let total := msgAt m.ws 24 0 13
      let part := fun (d : Dev) (p : Nat) =>
        let n := min 64 (total - 64 * p)
        let pa := msgAt m.ws 32 0 52 + 64 * p
        let reply := if d.unbacked pa || d.unbacked (pa + n - 1) then [tag, BitVec.ofNat 64 (p + 2 ^ 6 * n + 2 ^ 13 * 7)]
          else tag :: BitVec.ofNat 64 (p + 2 ^ 6 * n) :: dwordsOf (d.rdBytes pa n)
        d.emit die (mkMsg 0x21 (tagDie tag) (d.dieId die) (d.die die).inc reply)
      exec (.rreadRequest die idx) s = .next (s.withDev
        (((List.range ((total + 63) / 64)).filter fun p => msgAt m.ws 40 p 1 == 1).foldl part taken))) ∧
    (s.dev.reads die idx 0x20 ackOk m → exec (.acknowledgement die idx) s = .next (s.withDev
      ((ackEntries (m.ws.drop 2)).foldl (fun d e => d.ackEntry die e.1 e.2) taken))) ∧
    (∀ (d : Dev) (t : Dword) (st : Nat), (d.outOf die t = none → d.ackEntry die t st = d) ∧
      ∀ o, d.outOf die t = some o →
        tagDie t = d.dieId die ∧ tagInc t = (d.die die).inc.toNat ∧ (d.die die).out? (tagCtx t) (tagSeq t) = some o ∧
        (o.kind = 0x01 ∨ o.kind = 0x04 → d.ackEntry die t st = d) ∧
        (o.kind ≠ 0x01 → o.kind ≠ 0x04 →
          let e := freed (if 3 ≤ st ∧ st ≤ 7 then d.errqOf die o st o.kind (o.dst.getD 0) else d) o
          (o.after = .none → d.ackEntry die t st = e.pump die) ∧
          (∀ id, o.after = .command id → d.ackEntry die t st =
            (e.modCmd id fun c => { c with result := BitVec.ofNat 64 (1 + 2 * st), body := .finished }).pump die) ∧
          (∀ pa va, o.after = .arrival pa va → d.ackEntry die t st = (e.sendArrival die o.ctx pa va).pump die))) ∧
    (∀ o r, s.dev.reads die idx 0x21 replyOk m → taken.outOf die tag = some o → (taken.die die).readRec o.ctx o.seq = some r →
      let p := msgAt m.ws 24 0 6
      let landing := natAt r.landing p
      let clean := taken.clean landing 64 && taken.clean (lineBase r.arrival) 64
      p < (r.n + 63) / 64 → p ∉ r.got →
      (clean = false → exec (.readReply die idx) s = .next (s.withDev ((s.dev.flush landing 64).flush (lineBase r.arrival) 64))) ∧
      (clean = true →
        let e := taken.takePart die o r m.ws p
        (e.2.got.length < (r.n + 63) / 64 → exec (.readReply die idx) s = .next (s.withDev (e.1.modDie die fun x =>
          { x.modOut o.ctx o.seq (fun o => { o with sentAt := e.1.raw }) with
            reads := x.reads.map fun q => if q.ctx = e.2.ctx ∧ q.seq = e.2.seq then e.2 else q }))) ∧
        ∀ cmd, (r.n + 63) / 64 ≤ e.2.got.length → o.after = .command cmd →
          let st := if e.2.fail7 then 7 else if e.2.conflict then 3 else if e.2.allBenign then 2 else 1
          exec (.readReply die idx) s = .next (s.withDev (((freed e.1 o).modCmd cmd fun c =>
            { c with result := BitVec.ofNat 64 (1 + 2 * st + 2 ^ 16 * e.2.got.length), body := .finished }).pump die)))) ∧
    (∀ (d : Dev) (o : Outst) (r : ReadRec) (ws : List Dword) (p : Nat),
      let landing := natAt r.landing p
      let q := { r with got := r.got ++ [p] }
      let late := d.isClosed landing || d.isClosed r.arrival
      let words := (List.range (min 64 (r.n - 64 * p) / 4)).map fun i => bits (dwordAt ws (4 + i / 2)).toNat (32 * (i % 2)) 32
      let w := d.writeOnce die landing words { accepted := 0, benign := 0, conflict := 0 }
      let arrived := if w.2.accepted = 0 then w.1
        else w.1.store r.arrival 4 (min (w.1.rd r.arrival 4 + w.2.accepted) 0xFFFF_FFFF)
      let gone := d.isRetired landing = true ∨ d.isRetired r.arrival = true
      (msgAt ws 24 13 3 ≠ 0 ∨ gone → d.takePart die o r ws p =
        (d.errqOf die o 0x07 0x21 (o.dst.getD 0), { q with fail7 := true, allBenign := false })) ∧
      (msgAt ws 24 13 3 = 0 → ¬gone → late = true → d.takePart die o r ws p =
        ((d.modDie die fun x => x.count fun c => { c with remlate := satInc c.remlate }).errqOf die o 0x04 0x21 (o.dst.getD 0),
          { q with allBenign := false })) ∧
      (msgAt ws 24 13 3 = 0 → ¬gone → late = false → d.takePart die o r ws p =
        (if w.2.conflict = 0 then arrived else arrived.errqOf die o 0x03 0x21 (o.dst.getD 0),
          { q with conflict := r.conflict || w.2.conflict != 0, allBenign := r.allBenign && w.2.benign == words.length }))) ∧
    (∀ ctx seq o dst, (s.dev.die die).out? ctx seq = some o → o.dst = some dst → o.sent = true →
      rawOfUs o.retrans ≤ s.dev.raw - o.sentAt →
      (8 ≤ o.resends → o.after = .none → exec (.retransmissionTimer die ctx seq) s = .next (s.withDev
        ((freed (s.dev.errqOf die o 0x01 o.kind dst) o).pump die))) ∧
      (8 ≤ o.resends → exec (.retransmissionTimer die ctx seq) s = .next (s.withDev (s.dev.abandon die o))) ∧
      (o.resends < 8 →
        let again := { o with resends := o.resends + 1, sentAt := o.sentAt + rawOfUs o.retrans, due := true }
        let d := s.dev.modDie die fun x => x.modOut ctx seq fun o =>
          { o with resends := o.resends + 1, sentAt := o.sentAt + rawOfUs o.retrans, due := true }
        exec (.retransmissionTimer die ctx seq) s = .next (s.withDev
          (if s.dev.admits die o.ctx o.kind dst then d.transmit die again dst else d)))) ∧
    (∀ x, (s.dev.die die).inbox.length = x → s.dev.heldLong m = true →
      ((s.dev.die die).inbox[idx]? = some m → ∃ t, exec (.heldMessageTimeout die idx) s = .next t ∧
        (t.dev.die die).inbox = (s.dev.die die).inbox.eraseIdx idx ∧
        (t.dev.die die).counters.remheld = satInc (s.dev.die die).counters.remheld) ∧
      ((s.dev.die die).transit[idx]? = some m → ∃ t, exec (.heldMessageTimeout die (x + idx)) s = .next t ∧
        (t.dev.die die).transit = (s.dev.die die).transit.eraseIdx idx ∧ (t.dev.die die).inbox = (s.dev.die die).inbox ∧
        (t.dev.die die).counters.remheld = satInc (s.dev.die die).counters.remheld) ∧
      (∀ l ∈ (s.dev.die die).links, m ∈ l.queue → (s.dev.die die).transit.length ≤ idx →
        ∃ t, exec (.heldMessageTimeout die (x + idx)) s = .next t ∧ ∀ l ∈ (t.dev.die die).links, m ∉ l.queue)) ∧
    ∀ src ctx w, w ∈ (s.dev.die die).windows → w.src = src → w.ctx = ctx → 364800000 ≤ s.dev.raw - w.lastAt →
      ∃ t, exec (.windowExpiry die src ctx) s = .next t ∧ w ∉ (t.dev.die die).windows

/-- R104 in full: an entry that finds COUNT = 1,024 is not written, now or later, and sets OVF; a record ERRQ_OVERFLOW with the context
number goes to the companion if OVF was clear, and none while it is set. -/
def Obligations.ErrorQueueFull : Prop :=
  ∀ (d : Dev) (die ctx cause kind peer : Nat) (thread : Word) (va tag : Dword) (k : Ctx), die < 4 →
    d.ctx? die ctx = some k → k.count = 1024 →
    let e := d.errq die ctx cause kind peer thread va tag
    e.mem = d.mem ∧ e.posted = d.posted ∧ e.ctx? die ctx = some { k with ovf := true } ∧ (k.ovf = true → e.records = d.records) ∧
    (k.ovf = false → ∃ r, e.records = d.records ++ [r] ∧ r.type = 1 ∧ r.cause = 0x08 ∧ r.ctx = ctx ∧ r.die = d.dieId die)

/-- R111, R117, R118, R122, R126, R127, R133, R142: an invocation, an INVOKEH, an HFREE and a record move, read for the first time, do
at the die what their handle's route says: they are applied at the host, sent on, held at the origin, or answered as stale; of a
context that the die does not have the new handle is told broken; and they are acknowledged. Where there is no room, the message
waits. R117, R118, R126: where a message addressed to a handle goes: to the record where there is one, else along the forwarding
record, else to the origin, where a slot with a confirmed location sends it on, one without holds it, and no slot means stale; and a
request waits only where the inboxes of its die would hold more than 16,384 entries, or its records are full. R131, R132, R118: an
HGET request is answered by the host at once with its state and result, by the origin of a held handle as PENDING and of a stale one
as BROKEN, of a context that is not here as BROKEN, or forwarded; the host tells its location to the issuer of a message that was
forwarded, which an INVOKEH also shows by the tag of another die than its new handle's origin; a result reply ends the request, and
the words of its bytes (of a final state DONE), or of the root (BROKEN), wait to be copied; a location update is applied and
acknowledged. R118: a location update is applied in the order of its version: one whose version is behind the origin's changes
nothing there, and one that is not behind sets the place. R117, R133: the first sends on what the slot held; a slot that HFREE waits
to free takes it with the generation before its own, sends what it held and HFREE to LOC, and then is free. Which VER is behind
another where the 16 bits wrap is the model's choice (log 92). Where the spec leaves a point open or to inference, the model's
choice stands (log 34, 35, 36, 37, 58, 75, 76, 77, 78, 86, 92). -/
def Obligations.HandleMessages : Prop :=
  (∀ (s : State) (die idx : Nat) (m : Msg) (w : Window),
     let taken := s.dev.consume die idx
     let tag := dwordAt m.ws 2
     let acked := fun (d : Dev) => s.withDev ((d.modDie die fun x => x.putWindow { w with seen := putKey (tagSeq tag) 1 w.seen }).acknowledge
       die tag 1)
     let first := fun (kind : Nat) (ok : List Dword → Bool) => s.dev.reads die idx kind ok m ∧ s.dev.newTag die idx m (ctlOldest m.ws) w
     let t2 := taskOf 0x02 m
     let t3 := taskOf 0x03 m
     let h := dwordAt m.ws 4
     let fwd := dwordAt m.ws 5
     let last := msgAt m.ws 24 45 1 == 1
     let broken := fun (d : Dev) (t : Task) =>
       let d := d.breakNew die t cSTALE
       if m.note.freed then d.freeAt die t.newh else d
     let needs := fun (d : Dev) (h : Dword) (rec : Bool) (queued : HostRec → Nat) => d.noRoom die h rec queued = none
     let news := fun (r : HostRec) => if r.newOrder t3 then 2 else 1
     (first 0x02 (invokeMsgOk 0x02) →
       (s.dev.hostsFull die = true → exec (.invokeMessage die idx) s = .next s) ∧
       (s.dev.hostsFull die = false → exec (.invokeMessage die idx) s = .next (acked
         (if taken.noCtx die t2.newh then taken.tellNoCtx die t2.newh t2.arrpa t2.arrva 0 else taken.acceptInvoke die t2)))) ∧
     (first 0x03 (invokeMsgOk 0x03) →
       (∀ d, s.dev.noRoom die t3.addrh true news = some d → exec (.invokehMessage die idx) s = .next (s.withDev d) ∧ d = s.dev) ∧
       (needs s.dev t3.addrh true news →
         let goes := fun (d : Dev) => exec (.invokehMessage die idx) s = .next (acked d)
         (taken.noCtx die t3.newh = true → goes (taken.tellNoCtx die t3.newh t3.arrpa t3.arrva 0)) ∧
         (taken.noCtx die t3.newh = false →
           (∀ r, taken.route die t3.addrh = .act r → r.freed = false → goes (taken.acceptInvokeh die r t3 m)) ∧
           (∀ r, taken.route die t3.addrh = .act r → r.freed = true → goes (broken taken t3)) ∧
           (∀ dst, taken.route die t3.addrh = .pass dst → goes (taken.passOn die (hCtx t3.newh) m dst)) ∧
           (taken.route die t3.addrh = .hold → goes (taken.modDie die fun x =>
             let e := x.slot (hSlot t3.addrh)
             x.setSlot (hSlot t3.addrh) { e with held := e.held ++ [m] })) ∧
           (taken.route die t3.addrh = .stale → goes (broken taken t3))))) ∧
     (first 0x05 (fun ws => ws.length == 5 && msgAt ws 24 40 24 == 0) →
       let goes := fun (d : Dev) => exec (.hfreeMessage die idx) s = .next (acked d)
       (taken.noCtx die h = true → goes taken) ∧
       (taken.noCtx die h = false →
         ((taken.slotOf die h).isSome = true → goes (taken.release die h devThread)) ∧
         (taken.slotOf die h = none →
           (∀ r, taken.route die h = .act r → goes (
             let d := taken.modDie die fun x => (x.modHost r.h fun r => { r with freed := true }).sweep r.h
             if r.freed = true ∨ tagDie tag = hOrigin r.h ∨ taken.dieId die = hOrigin r.h then d
             else d.passOn die (hCtx r.h) m (hOrigin r.h))) ∧
           (∀ dst, taken.route die h = .pass dst → goes (taken.passOn die (hCtx h) m dst)) ∧
           (taken.route die h = .stale → goes taken)))) ∧
     (first 0x06 moveOk →
       let goes := fun (d : Dev) => exec (.recordMove die idx) s = .next (acked d)
       let here := (s.dev.die die).host? h
       let more := fun (_ : HostRec) => if here.all fun r => r.incoming.isSome then (moveCursors m.ws).length else 0
       let d := taken.moveIn die (msgSrc m.ws) m
       (∀ e, s.dev.noRoom die fwd here.isNone more = some e → exec (.recordMove die idx) s = .next (s.withDev e) ∧ e = s.dev) ∧
       (needs s.dev fwd here.isNone more → taken.noCtx die h = false →
         (∀ r, taken.route die fwd = .act r → goes (if last then d.attach die h fwd else d)) ∧
         (∀ dst, taken.route die fwd = .pass dst → goes (taken.passOn die (hCtx h) m dst)) ∧
         (taken.route die fwd = .hold → goes (taken.holdAt die fwd m)) ∧
         (taken.route die fwd = .stale → goes (if last then
             (d.modDie die fun x => x.modHost h fun r => { r with ver := (r.ver + 1) % 65536, incoming := none }).finish die
               [.broken h cSTALE h]
           else d))))) ∧
  (∀ (d : Dev) (die : Nat) (h : Dword),
     let x := d.die die
     (∀ r, x.host? h = some r → d.route die h = .act r) ∧
     (x.host? h = none → ∀ f, x.forward? h = some f → d.route die h = .pass f.loc) ∧
     (x.host? h = none → x.forward? h = none →
       (hOrigin h ≠ d.dieId die → d.route die h = .pass (hOrigin h)) ∧
       (hOrigin h = d.dieId die →
         let e := x.slot (hSlot h)
         let mine := e.used = true ∧ e.gen = hGen h ∧ e.ctx = hCtx h
         (mine → e.locv = true → d.route die h = .pass e.loc) ∧
         (mine → e.locv = false → d.route die h = .hold) ∧
         (¬mine → d.route die h = .stale))) ∧
     ∀ needsRec queued,
       (d.noRoom die h needsRec queued = none ∨ d.noRoom die h needsRec queued = some d) ∧
       (x.inboxUse + 1 ≤ 16384 → x.hosts.length < 65536 → (∀ r, d.route die h = .act r → x.inboxUse + queued r ≤ 16384) →
         d.noRoom die h needsRec queued = none)) ∧
  (∀ (s : State) (die idx : Nat) (m : Msg) (w : Window),
     let taken := s.dev.consume die idx
     let tag := dwordAt m.ws 2
     let h := dwordAt m.ws 4
     (∀ (d : Dev) (r : HostRec) (m : Msg) (issuer : Nat), d.tellIssuer die r m issuer =
       if m.note.fwd = true ∨ tagDie (dwordAt m.ws 2) ≠ issuer then d.sendLoc die r issuer .none else d) ∧
     (s.dev.reads die idx 0x04 (fun ws => ws.length == 5 && dwordAt ws 3 == 0) m → taken.noCtx die h = true →
       exec (.hgetRequest die idx) s = .next (s.withDev (taken.sendResult die tag hBROKEN cNOCTX 0 h []))) ∧
     (s.dev.reads die idx 0x04 (fun ws => ws.length == 5 && dwordAt ws 3 == 0) m → taken.noCtx die h = false →
       (∀ r, taken.route die h = .act r → r.freed = false → exec (.hgetRequest die idx) s = .next (s.withDev
         ((taken.sendResult die tag r.state r.cause r.fcode (if r.state = hBROKEN then r.root else 0) r.result).tellIssuer die r
           m (tagDie tag)))) ∧
       (∀ r, taken.route die h = .act r → r.freed = true →
         exec (.hgetRequest die idx) s = .next (s.withDev (taken.sendResult die tag hBROKEN cSTALE 0 h []))) ∧
       (taken.route die h = .hold →
         exec (.hgetRequest die idx) s = .next (s.withDev (taken.sendResult die tag hPENDING 0 0 0 []))) ∧
       (taken.route die h = .stale →
         exec (.hgetRequest die idx) s = .next (s.withDev (taken.sendResult die tag hBROKEN cSTALE 0 h []))) ∧
       ∀ dst, taken.route die h = .pass dst → exec (.hgetRequest die idx) s = .next (s.withDev (taken.passHget die dst m))) ∧
     (s.dev.reads die idx 0x22 (fun ws => decide (5 ≤ ws.length ∧ msgAt ws 24 24 7 ≤ 64) && ws.length == 5 + (msgAt ws 24 24 7 + 7) / 8) m →
       ∀ o id, taken.outOf die tag = some o → o.kind = 0x04 → o.after = .command id →
       let st := msgAt m.ws 24 0 4
       let n := msgAt m.ws 24 24 7
       let bytes := if st = 2 then (bytesOf (m.ws.drop 5)).take n else if st = 3 then leBytes (dwordAt m.ws 4).toNat 8 else []
       let token := if st = 2 then 2 + 2 ^ 24 * n
         else if st = 3 then 3 + 2 ^ 8 * msgAt m.ws 24 8 8 + 2 ^ 16 * msgAt m.ws 24 16 8 + 2 ^ 24 * 8 else 1
       exec (.resultReply die idx) s = .next (s.withDev
         (((taken.modDie die fun x => x.dropOut o.ctx o.seq).modCmd id fun c => { c with
           result := BitVec.ofNat 64 token
           body := match c.body with
             | .hget uid off _ => .hget uid off (some ((List.range ((bytes.length + 3) / 4)).map fun i =>
                 (4 * i, (bytes.drop (4 * i)).take 4)))
             | b => b }).pump die))) ∧
     (s.dev.reads die idx 0x47 (fun ws => ws.length == 8 && msgAt ws 40 14 50 == 0 && decide (1 ≤ msgAt ws 24 0 4 ∧ msgAt ws 24 0 4 ≤ 3)) m →
       s.dev.newTag die idx m (msgAt m.ws 56 0 40) w → taken.noCtx die h = false →
       exec (.locationUpdate die idx) s = .next (s.withDev (((taken.applyLoc die m.ws).modDie die fun x =>
         x.putWindow { w with seen := putKey (tagSeq tag) 1 w.seen }).acknowledge die tag 1)))) ∧
  ((∀ (d : Dev) (die : Nat) (ws : List Dword) (e : HrtSlot), die < 4 → d.slotOf die (dwordAt ws 4) = some e →
     e.locv = true → e.ver < 65536 →
     let ver := msgAt ws 24 24 16
     let e' := ((d.applyLoc die ws).die die).slot (hSlot (dwordAt ws 4))
     ((ver + 65536 - e.ver) % 65536 < 32768 → e'.loc = msgAt ws 40 0 14 ∧ e'.ver = ver) ∧
     (32768 ≤ (ver + 65536 - e.ver) % 65536 → e' = e)) ∧
   ∀ (d : Dev) (die : Nat) (ws : List Dword), die < 4 →
     let h := dwordAt ws 4
     let n := hSlot h
     let e := (d.die die).slot n
     let ver := msgAt ws 24 24 16
     let loc := msgAt ws 40 0 14
     let known := { e with loc := loc, ver := ver, locv := true, held := [] }
     let told := if e.state = 1 ∧ msgAt ws 24 0 4 ≠ 1 then
       { known with state := msgAt ws 24 0 4, cause := BitVec.ofNat 8 (msgAt ws 24 8 8), fcode := BitVec.ofNat 8 (msgAt ws 24 16 8),
                    root := dwordAt ws 6 } else known
     let sent := e.held.foldl (fun d m => d.passOn die e.ctx m loc) (d.modDie die fun x => x.setSlot n told)
     hOrigin h = d.dieId die → (d.die die).forward? h = none → e.used = true → e.ctx = hCtx h → e.locv = false →
     (ver + 65536 - e.ver % 65536) % 65536 < 32768 →
       (e.freeing = none → e.gen = hGen h → d.applyLoc die ws = sent) ∧
       ∀ thread, e.freeing = some thread → e.gen = hGen h % 255 + 1 → d.applyLoc die ws =
         (sent.modDie die fun x => x.setSlot n { HrtSlot.empty with gen := (x.slot n).gen }).enqueue die (hCtx h) 0x05 (some loc)
           (fun tag => [tag, 0, h]) thread 0 .none)

/-- R64 to R66, R60, R80, R81: a JOIN is recorded in every die of the package, where a new incarnation ends the windows, the operations
and the handles of the old one, and is acknowledged by a message of kind 0x61; the last acknowledgement lets the die run work; a
JOIN not acknowledged within 1 ms is sent again, at most 8 times, and then recorded as given up; quarantines end, and the requests
and updates that arrived in one are discarded; the management controller sends DRAIN to each of its dies, a die that receives one
admits no request or update any more, and the package reports with a message when nothing is unacknowledged; a budget period of 8 µs
begins anew. R61, R179: a new period grants a context its budgets, less what it has overspent; nothing left over is carried into it.
Where the spec leaves a point open or to inference, the model's choice stands (log 44, 45). -/
def Obligations.JoinsAndDrains : Prop :=
  (∀ (s : State) (idx : Nat) (m : Msg),
     (s.dev.reads 0 idx 0x60 (fun _ => true) m →
       let told := [0, 1, 2, 3].foldl (fun d n => d.recordInc n (msgSrc m.ws) (msgSinc m.ws)) (s.dev.consume 0 idx)
       exec (.join 0 idx) s = .next (s.withDev
         (told.emit 0 (mkMsg 0x61 (msgSrc m.ws) (told.dieId 0) told.d0.inc [])))) ∧
     (∀ (d : Dev) (n id inc : Nat), n < 4 →
       (d.incOf n id = inc ∨ id = d.dieId n → d.recordInc n id inc = d) ∧
       (d.incOf n id ≠ inc → id ≠ d.dieId n →
         let e := d.modDie n fun x => { x with peerInc := setKey 0 x.peerInc id (inc % 16)
                                               windows := x.windows.filter fun w => w.src != id }
         (canonical 0 (d.die n).peerInc = true → getKey 0 (e.die n).peerInc id = inc % 16) ∧
           d.recordInc n id inc = (e.opsReset n id).handlesReset n id)) ∧
     (∀ (d : Dev) (n id : Nat), d.opsReset n id =
       ((d.die n).outs.filter fun o => o.dst == some id && (classOf o.kind == some 2 || o.kind == 0x01)).foldl
         (fun d o => d.abandon n o) d) ∧
     (∀ die, die < 4 → s.dev.reads die idx 0x61 (fun _ => true) m → (∀ j ∈ s.mgmt.joins, j.die = die → j.peer = msgSrc m.ws / 4) →
       (∀ e ∈ s.dev.resets, e.1 ≠ die) → die ∉ s.mgmt.pendingResets →
       ∃ t, exec (.joinAcknowledgement die idx) s = .next t ∧ (t.dev.die die).joining = false ∧ die ∈ t.dev.passDue ∧
         t.mgmt.joins = s.mgmt.joins.filter fun j => j.die != die) ∧
     (∀ die, die < 4 → s.dev.reads die idx 0x61 (fun _ => true) m → ∀ j ∈ s.mgmt.joins, j.die = die → j.peer ≠ msgSrc m.ws / 4 →
       ∃ t, exec (.joinAcknowledgement die idx) s = .next t ∧ t.dev = s.dev.consume die idx ∧
         t.mgmt.joins = s.mgmt.joins.filter fun k => !(k.die == die && k.peer == msgSrc m.ws / 4)) ∧
     (∀ j : JoinOut, (s.mgmt.joins.find? fun k => k.die == j.die && k.peer == j.peer) = some j → 1900000 ≤ s.dev.raw - j.sentAt →
       (j.resends < 8 → ∃ t, exec (.joinResend j.die j.peer) s = .next t ∧
         t.dev = s.dev.emit 0 (mkMsg 0x60 (4 * j.peer) (s.dev.dieId j.die) (BitVec.ofNat 4 j.inc) []) ∧
         { j with sentAt := j.sentAt + 1900000, resends := j.resends + 1 } ∈ t.mgmt.joins) ∧
       (8 ≤ j.resends → ∃ t, exec (.joinResend j.die j.peer) s = .next t ∧ j ∉ t.mgmt.joins ∧
         ∃ r, t.dev.records = s.dev.records ++ [r] ∧ r.cause = 0x07)) ∧
     (∀ n, n < 4 → ∃ t, exec .joinQuarantineEnd s = .next t ∧ (t.dev.die n).quarantine =
       (match (s.dev.die n).quarantine with
       | some at_ => if at_ ≤ s.dev.raw then none else some at_
       | none => none) ∧
       ∀ at_, (s.dev.die n).quarantine = some at_ → at_ ≤ s.dev.raw → (t.dev.die n).inbox = (s.dev.die n).inbox.filter fun m =>
         !((msgClass m.ws == 0 || msgClass m.ws == 2) && decide (m.since < at_) && msgDst m.ws == s.dev.dieId n)) ∧
     ((∀ n, n < 4 → ∀ m ∈ (s.dev.die n).inbox, msgKind m.ws ≠ 0x62) → exec .drainMessage s = .next
       { s with dev := s.dev.present.foldl (fun d n => d.emit 0 (mkMsg 0x62 (d.dieId n) (d.dieId 0) d.d0.inc [])) s.dev
                mgmt := { s.mgmt with drain := true } }) ∧
     (∀ n, n < 4 → m ∈ (s.dev.die n).inbox → msgKind m.ws = 0x62 → ∃ t, exec .drainMessage s = .next t ∧ t.mgmt = s.mgmt ∧
       (∀ k, k < 4 → (t.dev.die k).inbox = (s.dev.die k).inbox.filter fun m => msgKind m.ws != 0x62) ∧
       (s.dev.screen n m = none → (t.dev.die n).draining = true)) ∧
     (s.mgmt.drain = true → s.mgmt.joins = [] →
       (∀ n ∈ s.dev.present, n ∈ s.mgmt.pendingResets ∨ (s.dev.die n).draining = true ∧ ∀ o ∈ (s.dev.die n).outs, o.sent = false) →
       s.dev.pkg.toNat ∉ s.mgmt.reports → exec .drainReport s = .next { s with mgmt := { s.mgmt with
         reports := s.mgmt.reports ++ [s.dev.pkg.toNat]
         outbox := s.mgmt.outbox ++ [sealMsg (mkMsg 0x63 (s.dev.dieId 0) (s.dev.dieId 0) s.dev.d0.inc [])] } }) ∧
     ∀ die, die < 4 → 15200 ≤ s.dev.raw - (s.dev.die die).periodAt →
       let d := s.dev.modDie die fun x => { x with periodAt := x.periodAt + 15200
                                                   ctxs := x.ctxs.map Ctx.newPeriod }
       exec (.budgetPeriod die) s = .next (s.withDev (d.pump die))) ∧
  (∀ k : Ctx,
     (0 ≤ k.fabLeft → k.newPeriod.fabLeft = 256 * k.fab) ∧ (k.fabLeft < 0 → k.newPeriod.fabLeft = 256 * k.fab + k.fabLeft) ∧
     (0 ≤ k.updLeft → k.newPeriod.updLeft = k.upd) ∧ (k.updLeft < 0 → k.newPeriod.updLeft = k.upd + k.updLeft) ∧
     (0 ≤ k.dramLeft → k.newPeriod.dramLeft = k.dram) ∧ (k.dramLeft < 0 → k.newPeriod.dramLeft = k.dram + k.dramLeft))

/-- R368, R200, R201, R23, R131, R137, R184, R386, R387, R389, R390, R396, R397, R427: a command that has nothing left to do completes;
the atomics, arm, onceclr and xcvt do their access then, a write once the line is clean and an arm after the earlier ones of its
thread on the word; until the line is clean they invalidate it, and one that meets a retired frame has no effect. An HGET completes
when the words of its reply are written, not while its workgroup is saved. A token of a saved workgroup waits for the line of its
register, and one of a remote operation for the entries of the error queue that come before it. A command that completes is no
longer outstanding; nothing of a die goes on that an error resets. R386, R387, R373: an L2 compare-and-swap of 4 bytes answers what
memory held, and writes the new value only when that was the old one; an L2 atomic answers what memory held, and writes the new
value of its table, ld nothing. R161, R162, R179, R239, R290, R383, R149, R369, R131: a copy command moves one piece, or one word of
it, whose two pages translate, while its context's DRAM budget lasts, or reads a word of it ahead; a word of an HGET's reply is
written on the CPY path (R236); a gather moves an element, or loses one whose page does not translate, which sets its bit of the
mask; the matrix engine of a core runs its oldest command, which acts on the tiles and writes scratchpad word by word, each whole,
where what it does not cover is what it has read there, once or again (R405); a page-service request of 100 ms is answered as not
resident; a wait whose deadline has passed is marked. Where the spec leaves a point open or to inference, the model's choice stands
(log 8, 15, 21, 36, 38, 52, 55, 65, 66, 84). -/
def Obligations.EnginesRun : Prop :=
  (∀ (s : State) (id pick : Nat) (x : Cmd), s.dev.cmd? id = some x → (∀ w ∈ s.dev.wgs, w.ended = false) →
     let goes := fun (d : Dev) => exec (.tokenCompletion id pick) s = .next (s.withDev d)
     let value := fun (d : Dev) (v : Nat) => goes (d.complete { x with result := BitVec.ofNat 64 v })
     let away := ∃ v, goes ({ s.dev with free := s.dev.free + 1 }.complete { x with result := v })
     (s.dev.tripped x.die = true → exec (.tokenCompletion id pick) s = .next s) ∧
     (∀ y ∈ (s.dev.complete x).cmds, y.id ≠ x.id) ∧
     (x.cls = .rmt → (∃ p ∈ s.dev.posted, p.order = .errq x.die x.ctx) → exec (.tokenCompletion id pick) s = .next s) ∧
     (s.dev.tripped x.die = false → (x.cls = .rmt → ∀ p ∈ s.dev.posted, p.order ≠ .errq x.die x.ctx) →
       (∃ pa ∈ s.dev.tokenPas x, s.dev.clean pa 4 = false) → goes ((s.dev.tokenPas x).foldl (fun d pa => d.flush pa 4) s.dev)) ∧
     (s.dev.tripped x.die = false → (x.cls = .rmt → ∀ p ∈ s.dev.posted, p.order ≠ .errq x.die x.ctx) →
       (∀ pa ∈ s.dev.tokenPas x, s.dev.clean pa 4 = true) →
       (x.body = .finished → goes (s.dev.complete x)) ∧
       (∀ src dst n bar, x.body = .copy src dst n bar [] → goes (s.dev.complete x)) ∧
       (∀ src dst os od m n bar, x.body = .copyt src dst os od m n bar [] → goes (s.dev.complete x)) ∧
       (∀ sc base iu io du dof size, x.body = .gather sc base iu io du dof size [] → goes (s.dev.complete x)) ∧
       (x.body = .prefetch [] → goes (s.dev.complete x)) ∧
       (∀ wide pa old new, x.body = .casg wide pa old new →
         let n := if wide then 8 else 4
         let r := s.dev.casAt wide pa old new
         (s.dev.isRetired pa = true → away) ∧
         (s.dev.isRetired pa = false → s.dev.clean pa n = true → value r.1 r.2) ∧
         (s.dev.isRetired pa = false → s.dev.clean pa n = false → goes (s.dev.flush pa n))) ∧
       (∀ op pa y, x.body = .atomg op pa y →
         let r := s.dev.atomAt op pa y
         (s.dev.isRetired pa = true → away) ∧
         (s.dev.isRetired pa = false → op = .ld ∨ s.dev.clean pa (atomBytes op) = true → value r.1 r.2) ∧
         (s.dev.isRetired pa = false → op ≠ .ld → s.dev.clean pa (atomBytes op) = false → goes (s.dev.flush pa (atomBytes op)))) ∧
       (∀ pa f64 i, x.body = .xcvt pa f64 i →
         (s.dev.isRetired pa = false → value s.dev (xcvtCode (s.dev.rd pa 64) (if f64 then .fp64 else .fp32) i)) ∧
         (s.dev.isRetired pa = true → away)) ∧
       (∀ pa target, x.body = .arm pa target → s.dev.armBefore x pa = false →
         (s.dev.isRetired pa = false → s.dev.clean (pa + 4) 4 = true → goes ((s.dev.store (pa + 4) 4 target.toNat).complete x)) ∧
         (s.dev.isRetired pa = false → s.dev.clean (pa + 4) 4 = false → goes (s.dev.flush (pa + 4) 4)) ∧
         (s.dev.isRetired pa = true → goes (s.dev.complete x))) ∧
       (∀ pa target, x.body = .arm pa target → s.dev.armBefore x pa = true → exec (.tokenCompletion id pick) s = .next s) ∧
       (∀ left pa, x.body = .onceclr left → left[pick % left.length]? = some pa →
         let rest := left.eraseIdx (pick % left.length)
         (s.dev.isRetired pa = true → goes (s.dev.putCmd { x with body := .onceclr rest })) ∧
         (s.dev.isRetired pa = false → s.dev.clean pa 64 = true → goes
           ({ s.dev.store pa 64 0 with written := s.dev.written.filter fun w => w / 16 != pa / 64
                                       closed := s.dev.closed.filter fun l => l != pa / 64 }.putCmd { x with body := .onceclr rest })) ∧
         (s.dev.isRetired pa = false → s.dev.clean pa 64 = false → goes (s.dev.flush pa 64))) ∧
       (x.body = .onceclr [] → goes (s.dev.complete x)) ∧
       (∀ uid off left w, x.body = .hget uid off (some left) → s.dev.wg? x.uid = some w →
         (w.isResident = true → left = [] → goes (s.dev.complete x)) ∧
         (w.isResident = false ∨ left ≠ [] → exec (.tokenCompletion id pick) s = .next s)))) ∧
  (∀ (d : Dev) (pa : Nat), canonical 0#8 d.mem = true →
     (∀ old new : Word,
       let r := d.casAt false pa (old.setWidth 64) (new.setWidth 64)
       r.2 = d.rd pa 4 ∧ r.1.rd pa 4 = (if d.rd pa 4 = old.toNat then new.toNat else d.rd pa 4) ∧
       ∀ a, a < pa ∨ pa + 4 ≤ a → byteAt r.1.mem a = byteAt d.mem a) ∧
     (∀ old new : Dword,
       let r := d.casAt true pa old new
       r.2 = d.rd pa 8 ∧ r.1.rd pa 8 = (if d.rd pa 8 = old.toNat then new.toNat else d.rd pa 8) ∧
       ∀ a, a < pa ∨ pa + 8 ≤ a → byteAt r.1.mem a = byteAt d.mem a) ∧
     ∀ y : Dword,
       let m4 := BitVec.ofNat 32 (d.rd pa 4)
       let y4 : Word := y.setWidth 32
       let m8 := BitVec.ofNat 64 (d.rd pa 8)
       let becomes := fun (op : AtomOp) (n v : Nat) =>
         let r := d.atomAt op pa y
         r.2 = d.rd pa n ∧ r.1.rd pa n = v ∧ ∀ a, a < pa ∨ pa + n ≤ a → byteAt r.1.mem a = byteAt d.mem a
       becomes .add 4 (m4 + y4).toNat ∧ becomes .min 4 (BitVec.ofInt 32 (min m4.toInt y4.toInt)).toNat ∧
       becomes .max 4 (BitVec.ofInt 32 (max m4.toInt y4.toInt)).toNat ∧ becomes .minu 4 (min m4.toNat y4.toNat) ∧
       becomes .maxu 4 (max m4.toNat y4.toNat) ∧ becomes .and 4 (m4 &&& y4).toNat ∧ becomes .or 4 (m4 ||| y4).toNat ∧
       becomes .xor 4 (m4 ^^^ y4).toNat ∧ becomes .xchg 4 y4.toNat ∧
       becomes .fadd 4 ((fpAdd .fp32 .rne m4.toNat y4.toNat).1 % 2 ^ 32) ∧
       becomes .dadd 8 (m8 + y).toNat ∧ becomes .dmin 8 (BitVec.ofInt 64 (min m8.toInt y.toInt)).toNat ∧
       becomes .dmax 8 (BitVec.ofInt 64 (max m8.toInt y.toInt)).toNat ∧ becomes .dor 8 (m8 ||| y).toNat ∧
       becomes .dxchg 8 y.toNat ∧ becomes .ld 4 m4.toNat) ∧
  (∀ (s : State),
     (∀ off n k, 0 < n →
       let c := cutRange off n k
       (k = 0 → c = ((off, n), [])) ∧
       (0 < k → ∃ j, j = (k - 1) % ((n + 3) / 4) ∧ c.1 = (off + 4 * j, min 4 (n - 4 * j)) ∧
         ∀ b, off ≤ b → b < off + n → (c.1.1 ≤ b ∧ b < c.1.1 + c.1.2) ∨ ∃ e ∈ c.2, e.1 ≤ b ∧ b < e.1 + e.2)) ∧
     (∀ id k x a b len off n p q, s.dev.cmd? id = some x → x.walking = none → s.dev.dramOpen x.die x.ctx = true →
       s.dev.tripped x.die = false → x.body = .copy (.mem a) (.mem b) len none [(off, n)] → x.bad = [] →
       let c := cutRange off n k
       s.dev.xlate x.die x.ctx (.copy x.core) (accCopy false) x.walkFail (a + BitVec.ofNat 64 c.1.1) = .hit p →
       s.dev.xlate x.die x.ctx (.copy x.core) (accCopy true) x.walkFail (b + BitVec.ofNat 64 c.1.1) = .hit q →
       s.dev.cutOff p = false → s.dev.cutOff q = false → s.dev.clean q c.1.2 = true → (∀ y ∈ s.dev.cmds, y.id = x.id → y = x) →
       ∃ t, exec (.copyGranule id (2 * k)) s = .next t ∧ t.dev.mem = writeBytes s.dev.mem q (s.dev.engineMem x p c.1.2) ∧
         (t.dev.cmd? id).map Cmd.body = some (.copy (.mem a) (.mem b) len none c.2)) ∧
     (∀ id k x a dst len bar off n p, s.dev.cmd? id = some x → x.walking = none → s.dev.dramOpen x.die x.ctx = true →
       s.dev.tripped x.die = false → x.body = .copy (.mem a) dst len bar [(off, n)] → x.bad = [] → (∀ y ∈ s.dev.cmds, y.id = x.id → y = x) →
       let j := 4 * (k % ((n + 3) / 4))
       s.dev.xlate x.die x.ctx (.copy x.core) (accCopy false) x.walkFail (a + BitVec.ofNat 64 (off + j)) = .hit p → s.dev.cutOff p = false →
       ∃ t y, exec (.copyGranule id (2 * k + 1)) s = .next t ∧ t.dev.mem = s.dev.mem ∧ t.dev.cmd? id = some y ∧ y.body = x.body ∧
         ∀ e, e ∈ y.earlyMem ↔ e ∈ x.earlyMem ∨ e.1 % 4 = 0 ∧ p < e.1 + 4 ∧ e.1 < p + min 4 (n - j) ∧
           e.2 = BitVec.ofNat 32 (s.dev.rd e.1 4) ∧ ∀ f ∈ x.earlyMem, f.1 ≠ e.1) ∧
     (∀ id pick x uid off left w e, s.dev.cmd? id = some x → x.walking = none → s.dev.tripped x.die = false →
       x.body = .hget uid off (some left) → s.dev.wg? x.uid = some w → left[pick % left.length]? = some e →
       (w.isResident = true → exec (.copyGranule id pick) s = .next (s.withDev
         ((s.dev.rangeWrBy x 1 { uid := uid, off := off + e.1 } e.2).putCmd
           { x with body := .hget uid off (some (left.eraseIdx (pick % left.length))) }))) ∧
       (w.isResident = false → exec (.copyGranule id pick) s = .next s)) ∧
     (∀ id x sc base iu io du dof size e, s.dev.cmd? id = some x → x.walking = none → s.dev.dramOpen x.die x.ctx = true →
       s.dev.tripped x.die = false → x.body = .gather sc base iu io du dof size [e] → (∀ y ∈ s.dev.cmds, y.id = x.id → y = x) →
       let word : Place := { uid := iu, off := io + 4 * e.i }
       let slot : Place := { uid := du, off := dof + size * e.i + e.lo }
       let d1 := if e.idx.isNone then s.dev.settleAt x 1 word 4 else s.dev
       let idx := e.idx.getD (leValue (d1.engineRd x 1 word 4))
       let va := base + BitVec.ofNat 64 (idx * size) + BitVec.ofNat 64 e.lo
       let page := d1.xlate x.die x.ctx (.copy x.core) (accCopy sc) x.walkFail va
       (∀ pa, page = .hit pa → d1.cutOff pa = false → sc = true → d1.clean pa e.n = true →
         ∃ t, exec (.copyGranule id 0) s = .next t ∧
           t.dev.mem = writeBytes s.dev.mem pa ((d1.settleAt x 1 slot e.n).engineRd x 1 slot e.n) ∧
           (t.dev.cmd? id).map Cmd.body = some (.gather sc base iu io du dof size [])) ∧
       (∀ pa, page = .hit pa → d1.cutOff pa = false → sc = false → ∃ (t : State) (d : Dev) (y : Cmd), exec (.copyGranule id 0) s = .next t ∧
         d.mem = s.dev.mem ∧ d.wgs = s.dev.wgs ∧ d.stale = d1.stale ∧
         t.dev = (d.rangeWrBy x 1 slot (s.dev.engineMem x pa e.n)).putCmd y ∧
         y.body = .gather sc base iu io du dof size []) ∧
       (∀ r, page = .fail r → ∃ t y, exec (.copyGranule id 0) s = .next t ∧ t.dev.mem = s.dev.mem ∧ t.dev.cmd? id = some y ∧
         y.result = x.result ||| (1#64 <<< e.i) ∧ y.body = .gather sc base iu io du dof size [])) ∧
     (∀ die core x op w, s.dev.nextMtx die core = some (x, op) → s.dev.wg? x.uid = some w → s.dev.tripped die = false →
       let d := s.dev.catchUp x 2 fun _ => true
       let r := d.runMtx (d.engineView x 2) w op
       let left := d.tileWords r.writes
       exec (.mtxAccept die core) s = .next (s.withDev (r.d.modCmd x.id fun c =>
         { c with body := if left.isEmpty then .finished else .spread left, result := BitVec.ofNat 64 r.token
                  sticky := c.sticky ||| r.sticky, early := [] }))) ∧
     (∀ id pick x left e, s.dev.cmd? id = some x → x.walking = none → s.dev.tripped x.die = false → x.body = .spread left →
       left[pick % left.length]? = some e →
       let rest := left.eraseIdx (pick % left.length)
       let p : Place := { uid := e.uid, off := e.off }
       let again := (pick / left.length) % 2 = 1 ∧ e.mask ≠ BitVec.allOnes 32
       (¬again → exec (.copyGranule id pick) s = .next (s.withDev
         ((s.dev.rangeWrBy x 2 p (leBytes ((e.base &&& ~~~e.mask) ||| (e.value &&& e.mask)).toNat 4)).putCmd
           { x with body := if rest.isEmpty then .finished else .spread rest }))) ∧
       (again → exec (.copyGranule id pick) s = .next (s.withDev (s.dev.putCmd
         { x with body := .spread ({ e with base := BitVec.ofNat 32 (s.dev.scratchRd p 4) } :: rest) })))) ∧
     (∀ r, s.dev.pageReqs.find? (fun q => q.id == r.id) = some r → 190000000 ≤ s.dev.raw - r.since →
       exec (.pageServiceTimeout r.id) s = .next (s.withDev (r.cmds.foldl (fun d id => d.settle id 2#64)
         { s.dev with pageReqs := s.dev.pageReqs.filter fun q => q.id != r.id }))) ∧
     ∀ uid tid w t x n, s.dev.wg? uid = some w → w.live = true → w.threads[tid]? = some t → t.pos = .waiting → t.susp = some x →
       x.limit = some n → x.since + n ≤ s.dev.clock w.die w.core →
       ∃ s', exec (.deadlineExpiry uid tid) s = .next s' ∧ s'.dev.thread? uid tid = some { t with expired := true })

/-- R228, R182, R187, R189: while the cores of its die do not stand still (R23, R64), a workgroup whose threads have all exited ends; a
workgroup that stops, alone in its unit, is saved when its pages are ready; after 10 ms of throttling every workgroup of the cluster
stops; and with every thread of a core parked the youngest unit that does not hold the oldest parked thread stops. On a die that an
error resets, or that joins, none of them ends, is saved or stops. R173, R176, R191, R204 to R206: on a die whose cores do not stand
still (R23, R64) a placement pass places the task that waits alone and fits, and pre-empts for one that does not fit; a launch that
has waited 2 ms is aged; and a decision of a channel streams the threads that it chooses, or, where the channel has proof work and
no other, those at the place of the rotation, which moves on. R205: without a thread that has waited for 64 decisions and without a
cohort that is ready, the start is of the best class, and of that class at the lowest address; the threads chosen are at most 64, of
its workgroup and at its address. R250, R62, R161, R164, R421, R431: an uncorrectable error under an atomic, or in a core, aborts
the context; under a granule that a copy reads the granule fails; at a home slice the request or update goes on; in the buffers of a
die a message is lost; under an entry that a walk reads the walk fails, and under one that the routine reads by ptld the walker
thread faults; each is recorded, with the physical address where there is one, and a frame of the package is retired. Where the spec
leaves a point open or to inference, the model's choice stands (log 7, 15, 23, 24, 25, 26, 83, 93, 94, 95). -/
def Obligations.WorkMoves : Prop :=
  (∀ (s : State),
     (∀ uid w, s.dev.wg? uid = some w → w.live = true → w.kind ≠ .walker → (∀ t ∈ w.threads, t.pos = .exited) →
       s.dev.busy uid = false → s.dev.coresStopped w.die = false → ∃ t, exec (.workgroupEnd uid) s = .next t ∧ (∀ p ∈ t.dev.wgs, p.uid = uid → p.ended = true) ∧
         w.die ∈ t.dev.passDue) ∧
     (∀ uid w ps, s.dev.wg? uid = some w → w.live = true → s.dev.unitOf w = [w] → w.stopping = true →
       (∀ b ∈ s.dev.flight, b.uid ≠ uid) → s.dev.busy uid = false → (∃ t ∈ w.threads, t.pos ≠ .exited) → s.dev.extentReady w = some ps →
       s.dev.coresStopped w.die = false →
       ∃ t q, exec (.workgroupSave uid) s = .next t ∧ t.dev.wg? uid = some q ∧ q.loc = .saved s.dev.nextSeq ∧ q.stopping = false ∧
         q.mem = [] ∧ q.tiles = [] ∧ (w.proof = false → ∀ u ∈ q.threads, u.susp = none)) ∧
     (∀ die cluster, let k := (s.dev.die die).cluster cluster
       k.throttle = true → k.switched = false → 19000000 ≤ s.dev.raw - k.throttleSince →
       ∃ t, exec (.wholeContextSwitch die cluster) s = .next t ∧
         ∀ w ∈ t.dev.wgs, w.die = die → w.live = true → w.cluster = cluster → w.kind ≠ .walker → w.stopping = true) ∧
     (∀ uid w, s.dev.wg? uid = some w → s.dev.coresStopped w.die = true →
       ∀ i ∈ [Instr.workgroupEnd uid, .workgroupSave uid], exec i s = .next (s.withDev s.dev)) ∧
     (∀ die core, s.dev.coresStopped die = true → exec (.eviction die core) s = .next (s.withDev s.dev)) ∧
     ∀ die core uid tid t, s.dev.oldestParked die core = some (uid, tid) → s.dev.thread? uid tid = some t → t.expired = false →
       t.pos = .waiting → s.dev.metNow die core t = false → s.dev.allParked die core = true →
       (∀ w ∈ s.dev.on die core, w.stopping = false) → s.dev.coresStopped die = false →
       match leastBy (fun (w : Wg) => s.dev.nextUid - w.uid) ((s.dev.on die core).filter fun w => !w.isService && w.uid != uid) with
       | some w => exec (.eviction die core) s = .next (s.withDev (s.dev.stop ((s.dev.unitOf w).map Wg.uid)))
       | none => exec (.eviction die core) s = .next (s.withDev (s.dev.modThread uid tid fun t => { t with expired := true }))) ∧
  (∀ (s : State) (die : Nat), die < 4 →
     (s.dev.coresStopped die = true → exec (.placementPass die) s = .next (s.withDev s.dev) ∧
       ∀ core channel, exec (.selectorDecision die core channel) s = .next (s.withDev s.dev)) ∧
     (s.dev.coresStopped die = false →
       let d := { s.dev with passDue := s.dev.passDue.filter fun n => n != die }.modDie die fun x => x.ageOld s.dev.agesNow
       ∀ e h k, d.visits die = [e] → e.cand = .task h → d.candCtx die e.cand = some k → k.proof = false →
         (∀ d', d.placeTask die h = some d' → exec (.placementPass die) s = .next (s.withDev d')) ∧
         (d.placeTask die h = none → exec (.placementPass die) s = .next (s.withDev (d.preempt die e)))) ∧
     (∀ cand l, (s.dev.die die).launches[cand]? = some l → l.eligible.isSome = true → 3800000 ≤ s.dev.raw - l.lastPlaced →
       ∃ t l', exec (.candidateAging die cand) s = .next t ∧ (t.dev.die die).launches[cand]? = some l' ∧ l' = { l with aged := true }) ∧
     ∀ core channel, core < 72 → channel < 4 → s.dev.coresStopped die = false →
       let d := s.dev.rotateCore die core
       let ls := d.looks die core channel
       let e := d.askFetch ls
       let table := ((e.die die).core core).abt.map Prod.fst
       let ready := ls.filter fun l => !l.w.proof && table.contains l.t.resume && e.readyAlone l
       let cand := candidates (ready.filter fun l => !l.t.yielded)
       let proofs := ls.filter fun l => l.w.proof && e.readyAlone l
       let seen := (ready.filter fun l => !l.t.yielded) ++ proofs
       let goes := fun (f : Dev) => exec (.selectorDecision die core channel) s = .next (s.withDev f)
       (8 ≤ e.inFlight die core channel → goes e) ∧
       (e.inFlight die core channel < 8 →
         (channel ≠ 0 ∨ e.proofCtxs ls = [] →
           (∀ p, choose205 cand = some p → goes ((e.age channel ls cand seen p.looks).stream channel p)) ∧
           (choose205 cand = none → goes (if (candidates ready).isEmpty then e else e.age channel ls [] seen []))) ∧
         ∀ c f p at_, channel = 0 → e.proofCtxs ls = [c] → e.turn die core c = (f, .pick p at_) → choose205 cand = none →
           goes ((((f.modCtx die c fun k => { k with hold := p.looks.head?.map fun l => (at_, l.w.uid, l.tid), passed := false }).age 0 ls
             cand seen []).modCtx die c fun k => { k with rot := BitVec.ofNat 64 (at_ + 8), hold := none }).stream 0 p))) ∧
  (∀ (cand : List Look) (p : Pick), choose205 cand = some p → (∀ l ∈ cand, l.t.age < 64 ∧ l.addr < 2 ^ 64) → (∀ l ∈ cand, l.cohort = false) →
     p.cohort = false ∧ p.looks.length ≤ 64 ∧ ∃ b ∈ cand, (∀ l ∈ cand, b.rank < l.rank ∨ (b.rank = l.rank ∧ b.addr ≤ l.addr)) ∧
       ∀ l ∈ p.looks, l ∈ cand ∧ l.w.uid = b.w.uid ∧ l.addr = b.addr ∧ b.tid ≤ l.tid) ∧
  (∀ (s : State) (die : Nat), die < 4 →
     let goes := fun (site : UeSite) (d : Dev) => exec (.uncorrectableError die site) s = .next (s.withDev d)
     let noted := fun (d : Dev) (ctx pa : Nat) => (d.record 0x02 ctx die (BitVec.ofNat 64 pa) 0 0).retire pa
     (∀ id x pa, s.dev.cmd? id = some x → x.atomPa = some pa → x.die = die →
       goes (.atomic id) ((noted s.dev x.ctx pa).ueAbort die x.ctx).sweepEnded) ∧
     (∀ id pick x pa e, s.dev.cmd? id = some x → x.die = die → s.dev.ueRead x pick = some (pa, e) →
       goes (.copyGranule id pick) (noted e x.ctx pa)) ∧
     (∀ x va dst n bar off k pick pa, x.body = .copy (.mem va) dst n bar [(off, k)] → x.bad = [] →
       s.dev.xlate x.die x.ctx (.copy x.core) (accCopy false) x.walkFail (va + BitVec.ofNat 64 off) = .hit pa → isCompanion pa = false →
       let page := pageOf (va + BitVec.ofNat 64 off)
       s.dev.ueRead x pick = some (pa, s.dev.putCmd { x.failGranule false page rRetired with
         body := .copy (.mem va) dst n bar ((pieces va.toNat (dst.cut (.mem va)) n).filter fun e =>
           pageOf (va + BitVec.ofNat 64 e.1) == page) })) ∧
     (∀ idx part m pa, (s.dev.die die).inbox[idx]? = some m → homePa m.ws part = some pa →
       goes (.home idx part) (noted s.dev (tagCtx (dwordAt m.ws 2)) pa)) ∧
     (∀ idx m, (s.dev.die die).inbox[idx]? = some m → goes (.buffer idx)
       ((s.dev.modDie die fun x => { x with inbox := x.inbox.eraseIdx idx }).record 0x02
         (if msgClass m.ws = 3 then 0xFF else tagCtx (dwordAt m.ws 2)) die 0 0 0)) ∧
     (∀ idx m, (s.dev.die die).transit[idx]? = some m → goes (.buffer ((s.dev.die die).inbox.length + idx))
       ((s.dev.modDie die fun x => { x with transit := x.transit.eraseIdx idx }).record 0x02
         (if msgClass m.ws = 3 then 0xFF else tagCtx (dwordAt m.ws 2)) die 0 0 0)) ∧
     (∀ ctx pa, isCompanion pa = false → homeOf pa = s.dev.dieId die → ctx = 0xFF ∨ (s.dev.ctx? die ctx).isSome = true →
       goes (.dram ctx pa) (noted s.dev ctx pa)) ∧
     (∀ k level v c pa, (s.dev.die die).walks[k]? = some v → s.dev.ctx? die v.ctx = some c →
       s.dev.entryAt die (v.page * 4096) c.root 5 level = some pa → isCompanion pa = false →
       goes (.walk k level) ((noted s.dev v.ctx pa).endWalk die v (.error rWalkFail))) ∧
     (∀ c rd a, s.dev.cur = some c → c.instr = .ptld rd a → c.w.kind = .walker → c.w.die = die → c.t.able (groupIdx a 2) = true →
       let pa := (c.t.pair a).toNat
       let owner := match (s.dev.die die).held? c.w.uid c.tid with
         | some v => v.ctx
         | none => 0xFF
       pa % 8 = 0 → homeOf pa = s.dev.dieId die → pa < 2 ^ 51 → s.dev.isRetired pa = false →
       exec (.uncorrectableError die .ptld) s = State.act 1 (fun _ _ => .fault (.at 0x0F rWalkFail (c.t.pair a)))
         (s.withDev (noted s.dev owner pa))) ∧
     (∀ uid w, s.dev.wg? uid = some w → w.die = die → w.isResident = true → w.kind ≠ .walker →
       goes (.core uid) (((s.dev.record 0x02 w.ctx die 0 0 0).ueAbort die w.ctx).sweepEnded)) ∧
     ∀ pa, isCompanion pa = false → s.dev.isHere (homeOf pa) = true → pa / 4096 ∉ (s.dev.die (homeOf pa % 4)).retired →
       ((s.dev.die (homeOf pa % 4)).retired.length < 256 → (s.dev.retire pa).isRetired pa = true) ∧
       (256 ≤ (s.dev.die (homeOf pa % 4)).retired.length → (s.dev.retire pa).resets = s.dev.resets ++ [(homeOf pa % 4, 2)]))
end

