-- ==== Sys2Proof/Laws/State.lean ====
section
/-!
SUPPORT. What each update of the state leaves in each field: one lemma for each field of each update.
-/

namespace Sys2Proof.Machine

/-! ## The state -/

@[simp] theorem withDev_mgmt (s : State) (d : Dev) : (s.withDev d).mgmt = s.mgmt := rfl
@[simp] theorem withDev_dev (s : State) (d : Dev) : (s.withDev d).dev = d := rfl
@[simp] theorem withDev_agenda (s : State) (d : Dev) : (s.withDev d).agenda = s.agenda := rfl
@[simp] theorem completes_mgmt (s : State) (c : Cur) (n : Nat) (d : Dev) (t : Thread) : (s.completes c n d t).mgmt = s.mgmt := rfl
@[simp] theorem completes_dev (s : State) (c : Cur) (n : Nat) (d : Dev) (t : Thread) : (s.completes c n d t).dev = d.commit c (t.advance n) := rfl
@[simp] theorem completes_agenda (s : State) (c : Cur) (n : Nat) (d : Dev) (t : Thread) : (s.completes c n d t).agenda = s.agenda := rfl
@[simp] theorem leaves_mgmt (s : State) (c : Cur) (d : Dev) (t : Thread) : (s.leaves c d t).mgmt = s.mgmt := rfl
@[simp] theorem leaves_dev (s : State) (c : Cur) (d : Dev) (t : Thread) : (s.leaves c d t).dev = d.commitOut c t := rfl
@[simp] theorem leaves_agenda (s : State) (c : Cur) (d : Dev) (t : Thread) : (s.leaves c d t).agenda = s.agenda := rfl
@[simp] theorem waits_mgmt (s : State) (c : Cur) (d : Dev) (why : Wait) (limit : Option Nat) : (s.waits c d why limit).mgmt = s.mgmt := rfl
@[simp] theorem waits_dev (s : State) (c : Cur) (d : Dev) (why : Wait) (limit : Option Nat) : (s.waits c d why limit).dev = d.suspend c why limit := rfl
@[simp] theorem waits_agenda (s : State) (c : Cur) (d : Dev) (why : Wait) (limit : Option Nat) : (s.waits c d why limit).agenda = s.agenda := rfl
@[simp] theorem traps_mgmt (s : State) (c : Cur) (x : Trap) : (s.traps c x).mgmt = s.mgmt := rfl
@[simp] theorem traps_dev (s : State) (c : Cur) (x : Trap) : (s.traps c x).dev = s.dev.takeFault c c.t c.t.off x c.addr := rfl
@[simp] theorem traps_agenda (s : State) (c : Cur) (x : Trap) : (s.traps c x).agenda = s.agenda := rfl

/-! ## The device -/

@[simp] theorem setDie_raw (d : Dev) (n : Nat) (x : Die) : (d.setDie n x).raw = d.raw := by
  unfold Dev.setDie; split <;> rfl
@[simp] theorem setDie_tick (d : Dev) (n : Nat) (x : Die) : (d.setDie n x).tick = d.tick := by
  unfold Dev.setDie; split <;> rfl
@[simp] theorem setDie_free (d : Dev) (n : Nat) (x : Die) : (d.setDie n x).free = d.free := by
  unfold Dev.setDie; split <;> rfl
@[simp] theorem setDie_pkg (d : Dev) (n : Nat) (x : Die) : (d.setDie n x).pkg = d.pkg := by
  unfold Dev.setDie; split <;> rfl
@[simp] theorem setDie_torus (d : Dev) (n : Nat) (x : Die) : (d.setDie n x).torus = d.torus := by
  unfold Dev.setDie; split <;> rfl
@[simp] theorem setDie_present (d : Dev) (n : Nat) (x : Die) : (d.setDie n x).present = d.present := by
  unfold Dev.setDie; split <;> rfl
@[simp] theorem setDie_mem (d : Dev) (n : Nat) (x : Die) : (d.setDie n x).mem = d.mem := by
  unfold Dev.setDie; split <;> rfl
@[simp] theorem setDie_written (d : Dev) (n : Nat) (x : Die) : (d.setDie n x).written = d.written := by
  unfold Dev.setDie; split <;> rfl
@[simp] theorem setDie_closed (d : Dev) (n : Nat) (x : Die) : (d.setDie n x).closed = d.closed := by
  unfold Dev.setDie; split <;> rfl
@[simp] theorem setDie_sharers (d : Dev) (n : Nat) (x : Die) : (d.setDie n x).sharers = d.sharers := by
  unfold Dev.setDie; split <;> rfl
@[simp] theorem setDie_invalidating (d : Dev) (n : Nat) (x : Die) : (d.setDie n x).invalidating = d.invalidating := by
  unfold Dev.setDie; split <;> rfl
@[simp] theorem setDie_posted (d : Dev) (n : Nat) (x : Die) : (d.setDie n x).posted = d.posted := by
  unfold Dev.setDie; split <;> rfl
@[simp] theorem setDie_stale (d : Dev) (n : Nat) (x : Die) : (d.setDie n x).stale = d.stale := by
  unfold Dev.setDie; split <;> rfl
@[simp] theorem setDie_touched (d : Dev) (n : Nat) (x : Die) : (d.setDie n x).touched = d.touched := by
  unfold Dev.setDie; split <;> rfl
@[simp] theorem setDie_pwnA (d : Dev) (n : Nat) (x : Die) : (d.setDie n x).pwnA = d.pwnA := by
  unfold Dev.setDie; split <;> rfl
@[simp] theorem setDie_pwnB (d : Dev) (n : Nat) (x : Die) : (d.setDie n x).pwnB = d.pwnB := by
  unfold Dev.setDie; split <;> rfl
@[simp] theorem setDie_wgs (d : Dev) (n : Nat) (x : Die) : (d.setDie n x).wgs = d.wgs := by
  unfold Dev.setDie; split <;> rfl
@[simp] theorem setDie_flight (d : Dev) (n : Nat) (x : Die) : (d.setDie n x).flight = d.flight := by
  unfold Dev.setDie; split <;> rfl
@[simp] theorem setDie_cmds (d : Dev) (n : Nat) (x : Die) : (d.setDie n x).cmds = d.cmds := by
  unfold Dev.setDie; split <;> rfl
@[simp] theorem setDie_pageReqs (d : Dev) (n : Nat) (x : Die) : (d.setDie n x).pageReqs = d.pageReqs := by
  unfold Dev.setDie; split <;> rfl
@[simp] theorem setDie_live (d : Dev) (n : Nat) (x : Die) : (d.setDie n x).live = d.live := by
  unfold Dev.setDie; split <;> rfl
@[simp] theorem setDie_records (d : Dev) (n : Nat) (x : Die) : (d.setDie n x).records = d.records := by
  unfold Dev.setDie; split <;> rfl
@[simp] theorem setDie_resets (d : Dev) (n : Nat) (x : Die) : (d.setDie n x).resets = d.resets := by
  unfold Dev.setDie; split <;> rfl
@[simp] theorem setDie_keyReports (d : Dev) (n : Nat) (x : Die) : (d.setDie n x).keyReports = d.keyReports := by
  unfold Dev.setDie; split <;> rfl
@[simp] theorem setDie_slotReports (d : Dev) (n : Nat) (x : Die) : (d.setDie n x).slotReports = d.slotReports := by
  unfold Dev.setDie; split <;> rfl
@[simp] theorem setDie_passDue (d : Dev) (n : Nat) (x : Die) : (d.setDie n x).passDue = d.passDue := by
  unfold Dev.setDie; split <;> rfl
@[simp] theorem setDie_nextUid (d : Dev) (n : Nat) (x : Die) : (d.setDie n x).nextUid = d.nextUid := by
  unfold Dev.setDie; split <;> rfl
@[simp] theorem setDie_nextCmd (d : Dev) (n : Nat) (x : Die) : (d.setDie n x).nextCmd = d.nextCmd := by
  unfold Dev.setDie; split <;> rfl
@[simp] theorem setDie_nextSeq (d : Dev) (n : Nat) (x : Die) : (d.setDie n x).nextSeq = d.nextSeq := by
  unfold Dev.setDie; split <;> rfl
@[simp] theorem modDie_raw (d : Dev) (n : Nat) (f : Die → Die) : (d.modDie n f).raw = d.raw := setDie_raw ..
@[simp] theorem modDie_tick (d : Dev) (n : Nat) (f : Die → Die) : (d.modDie n f).tick = d.tick := setDie_tick ..
@[simp] theorem modDie_free (d : Dev) (n : Nat) (f : Die → Die) : (d.modDie n f).free = d.free := setDie_free ..
@[simp] theorem modDie_pkg (d : Dev) (n : Nat) (f : Die → Die) : (d.modDie n f).pkg = d.pkg := setDie_pkg ..
@[simp] theorem modDie_torus (d : Dev) (n : Nat) (f : Die → Die) : (d.modDie n f).torus = d.torus := setDie_torus ..
@[simp] theorem modDie_present (d : Dev) (n : Nat) (f : Die → Die) : (d.modDie n f).present = d.present := setDie_present ..
@[simp] theorem modDie_mem (d : Dev) (n : Nat) (f : Die → Die) : (d.modDie n f).mem = d.mem := setDie_mem ..
@[simp] theorem modDie_written (d : Dev) (n : Nat) (f : Die → Die) : (d.modDie n f).written = d.written := setDie_written ..
@[simp] theorem modDie_closed (d : Dev) (n : Nat) (f : Die → Die) : (d.modDie n f).closed = d.closed := setDie_closed ..
@[simp] theorem modDie_sharers (d : Dev) (n : Nat) (f : Die → Die) : (d.modDie n f).sharers = d.sharers := setDie_sharers ..
@[simp] theorem modDie_invalidating (d : Dev) (n : Nat) (f : Die → Die) : (d.modDie n f).invalidating = d.invalidating := setDie_invalidating ..
@[simp] theorem modDie_posted (d : Dev) (n : Nat) (f : Die → Die) : (d.modDie n f).posted = d.posted := setDie_posted ..
@[simp] theorem modDie_stale (d : Dev) (n : Nat) (f : Die → Die) : (d.modDie n f).stale = d.stale := setDie_stale ..
@[simp] theorem modDie_touched (d : Dev) (n : Nat) (f : Die → Die) : (d.modDie n f).touched = d.touched := setDie_touched ..
@[simp] theorem modDie_pwnA (d : Dev) (n : Nat) (f : Die → Die) : (d.modDie n f).pwnA = d.pwnA := setDie_pwnA ..
@[simp] theorem modDie_pwnB (d : Dev) (n : Nat) (f : Die → Die) : (d.modDie n f).pwnB = d.pwnB := setDie_pwnB ..
@[simp] theorem modDie_wgs (d : Dev) (n : Nat) (f : Die → Die) : (d.modDie n f).wgs = d.wgs := setDie_wgs ..
@[simp] theorem modDie_flight (d : Dev) (n : Nat) (f : Die → Die) : (d.modDie n f).flight = d.flight := setDie_flight ..
@[simp] theorem modDie_cmds (d : Dev) (n : Nat) (f : Die → Die) : (d.modDie n f).cmds = d.cmds := setDie_cmds ..
@[simp] theorem modDie_pageReqs (d : Dev) (n : Nat) (f : Die → Die) : (d.modDie n f).pageReqs = d.pageReqs := setDie_pageReqs ..
@[simp] theorem modDie_live (d : Dev) (n : Nat) (f : Die → Die) : (d.modDie n f).live = d.live := setDie_live ..
@[simp] theorem modDie_records (d : Dev) (n : Nat) (f : Die → Die) : (d.modDie n f).records = d.records := setDie_records ..
@[simp] theorem modDie_resets (d : Dev) (n : Nat) (f : Die → Die) : (d.modDie n f).resets = d.resets := setDie_resets ..
@[simp] theorem modDie_keyReports (d : Dev) (n : Nat) (f : Die → Die) : (d.modDie n f).keyReports = d.keyReports := setDie_keyReports ..
@[simp] theorem modDie_slotReports (d : Dev) (n : Nat) (f : Die → Die) : (d.modDie n f).slotReports = d.slotReports := setDie_slotReports ..
@[simp] theorem modDie_passDue (d : Dev) (n : Nat) (f : Die → Die) : (d.modDie n f).passDue = d.passDue := setDie_passDue ..
@[simp] theorem modDie_nextUid (d : Dev) (n : Nat) (f : Die → Die) : (d.modDie n f).nextUid = d.nextUid := setDie_nextUid ..
@[simp] theorem modDie_nextCmd (d : Dev) (n : Nat) (f : Die → Die) : (d.modDie n f).nextCmd = d.nextCmd := setDie_nextCmd ..
@[simp] theorem modDie_nextSeq (d : Dev) (n : Nat) (f : Die → Die) : (d.modDie n f).nextSeq = d.nextSeq := setDie_nextSeq ..
@[simp] theorem modWg_raw (d : Dev) (uid : Nat) (f : Wg → Wg) : (d.modWg uid f).raw = d.raw := rfl
@[simp] theorem modWg_tick (d : Dev) (uid : Nat) (f : Wg → Wg) : (d.modWg uid f).tick = d.tick := rfl
@[simp] theorem modWg_free (d : Dev) (uid : Nat) (f : Wg → Wg) : (d.modWg uid f).free = d.free := rfl
@[simp] theorem modWg_pkg (d : Dev) (uid : Nat) (f : Wg → Wg) : (d.modWg uid f).pkg = d.pkg := rfl
@[simp] theorem modWg_torus (d : Dev) (uid : Nat) (f : Wg → Wg) : (d.modWg uid f).torus = d.torus := rfl
@[simp] theorem modWg_present (d : Dev) (uid : Nat) (f : Wg → Wg) : (d.modWg uid f).present = d.present := rfl
@[simp] theorem modWg_d0 (d : Dev) (uid : Nat) (f : Wg → Wg) : (d.modWg uid f).d0 = d.d0 := rfl
@[simp] theorem modWg_d1 (d : Dev) (uid : Nat) (f : Wg → Wg) : (d.modWg uid f).d1 = d.d1 := rfl
@[simp] theorem modWg_d2 (d : Dev) (uid : Nat) (f : Wg → Wg) : (d.modWg uid f).d2 = d.d2 := rfl
@[simp] theorem modWg_d3 (d : Dev) (uid : Nat) (f : Wg → Wg) : (d.modWg uid f).d3 = d.d3 := rfl
@[simp] theorem modWg_mem (d : Dev) (uid : Nat) (f : Wg → Wg) : (d.modWg uid f).mem = d.mem := rfl
@[simp] theorem modWg_written (d : Dev) (uid : Nat) (f : Wg → Wg) : (d.modWg uid f).written = d.written := rfl
@[simp] theorem modWg_closed (d : Dev) (uid : Nat) (f : Wg → Wg) : (d.modWg uid f).closed = d.closed := rfl
@[simp] theorem modWg_sharers (d : Dev) (uid : Nat) (f : Wg → Wg) : (d.modWg uid f).sharers = d.sharers := rfl
@[simp] theorem modWg_invalidating (d : Dev) (uid : Nat) (f : Wg → Wg) : (d.modWg uid f).invalidating = d.invalidating := rfl
@[simp] theorem modWg_posted (d : Dev) (uid : Nat) (f : Wg → Wg) : (d.modWg uid f).posted = d.posted := rfl
@[simp] theorem modWg_stale (d : Dev) (uid : Nat) (f : Wg → Wg) : (d.modWg uid f).stale = d.stale := rfl
@[simp] theorem modWg_touched (d : Dev) (uid : Nat) (f : Wg → Wg) : (d.modWg uid f).touched = d.touched := rfl
@[simp] theorem modWg_pwnA (d : Dev) (uid : Nat) (f : Wg → Wg) : (d.modWg uid f).pwnA = d.pwnA := rfl
@[simp] theorem modWg_pwnB (d : Dev) (uid : Nat) (f : Wg → Wg) : (d.modWg uid f).pwnB = d.pwnB := rfl
@[simp] theorem modWg_flight (d : Dev) (uid : Nat) (f : Wg → Wg) : (d.modWg uid f).flight = d.flight := rfl
@[simp] theorem modWg_cmds (d : Dev) (uid : Nat) (f : Wg → Wg) : (d.modWg uid f).cmds = d.cmds := rfl
@[simp] theorem modWg_pageReqs (d : Dev) (uid : Nat) (f : Wg → Wg) : (d.modWg uid f).pageReqs = d.pageReqs := rfl
@[simp] theorem modWg_live (d : Dev) (uid : Nat) (f : Wg → Wg) : (d.modWg uid f).live = d.live := rfl
@[simp] theorem modWg_records (d : Dev) (uid : Nat) (f : Wg → Wg) : (d.modWg uid f).records = d.records := rfl
@[simp] theorem modWg_resets (d : Dev) (uid : Nat) (f : Wg → Wg) : (d.modWg uid f).resets = d.resets := rfl
@[simp] theorem modWg_keyReports (d : Dev) (uid : Nat) (f : Wg → Wg) : (d.modWg uid f).keyReports = d.keyReports := rfl
@[simp] theorem modWg_slotReports (d : Dev) (uid : Nat) (f : Wg → Wg) : (d.modWg uid f).slotReports = d.slotReports := rfl
@[simp] theorem modWg_passDue (d : Dev) (uid : Nat) (f : Wg → Wg) : (d.modWg uid f).passDue = d.passDue := rfl
@[simp] theorem modWg_nextUid (d : Dev) (uid : Nat) (f : Wg → Wg) : (d.modWg uid f).nextUid = d.nextUid := rfl
@[simp] theorem modWg_nextCmd (d : Dev) (uid : Nat) (f : Wg → Wg) : (d.modWg uid f).nextCmd = d.nextCmd := rfl
@[simp] theorem modWg_nextSeq (d : Dev) (uid : Nat) (f : Wg → Wg) : (d.modWg uid f).nextSeq = d.nextSeq := rfl
@[simp] theorem modThread_raw (d : Dev) (uid i : Nat) (f : Thread → Thread) : (d.modThread uid i f).raw = d.raw := rfl
@[simp] theorem modThread_tick (d : Dev) (uid i : Nat) (f : Thread → Thread) : (d.modThread uid i f).tick = d.tick := rfl
@[simp] theorem modThread_free (d : Dev) (uid i : Nat) (f : Thread → Thread) : (d.modThread uid i f).free = d.free := rfl
@[simp] theorem modThread_pkg (d : Dev) (uid i : Nat) (f : Thread → Thread) : (d.modThread uid i f).pkg = d.pkg := rfl
@[simp] theorem modThread_torus (d : Dev) (uid i : Nat) (f : Thread → Thread) : (d.modThread uid i f).torus = d.torus := rfl
@[simp] theorem modThread_present (d : Dev) (uid i : Nat) (f : Thread → Thread) : (d.modThread uid i f).present = d.present := rfl
@[simp] theorem modThread_d0 (d : Dev) (uid i : Nat) (f : Thread → Thread) : (d.modThread uid i f).d0 = d.d0 := rfl
@[simp] theorem modThread_d1 (d : Dev) (uid i : Nat) (f : Thread → Thread) : (d.modThread uid i f).d1 = d.d1 := rfl
@[simp] theorem modThread_d2 (d : Dev) (uid i : Nat) (f : Thread → Thread) : (d.modThread uid i f).d2 = d.d2 := rfl
@[simp] theorem modThread_d3 (d : Dev) (uid i : Nat) (f : Thread → Thread) : (d.modThread uid i f).d3 = d.d3 := rfl
@[simp] theorem modThread_mem (d : Dev) (uid i : Nat) (f : Thread → Thread) : (d.modThread uid i f).mem = d.mem := rfl
@[simp] theorem modThread_written (d : Dev) (uid i : Nat) (f : Thread → Thread) : (d.modThread uid i f).written = d.written := rfl
@[simp] theorem modThread_closed (d : Dev) (uid i : Nat) (f : Thread → Thread) : (d.modThread uid i f).closed = d.closed := rfl
@[simp] theorem modThread_sharers (d : Dev) (uid i : Nat) (f : Thread → Thread) : (d.modThread uid i f).sharers = d.sharers := rfl
@[simp] theorem modThread_invalidating (d : Dev) (uid i : Nat) (f : Thread → Thread) : (d.modThread uid i f).invalidating = d.invalidating := rfl
@[simp] theorem modThread_posted (d : Dev) (uid i : Nat) (f : Thread → Thread) : (d.modThread uid i f).posted = d.posted := rfl
@[simp] theorem modThread_stale (d : Dev) (uid i : Nat) (f : Thread → Thread) : (d.modThread uid i f).stale = d.stale := rfl
@[simp] theorem modThread_touched (d : Dev) (uid i : Nat) (f : Thread → Thread) : (d.modThread uid i f).touched = d.touched := rfl
@[simp] theorem modThread_pwnA (d : Dev) (uid i : Nat) (f : Thread → Thread) : (d.modThread uid i f).pwnA = d.pwnA := rfl
@[simp] theorem modThread_pwnB (d : Dev) (uid i : Nat) (f : Thread → Thread) : (d.modThread uid i f).pwnB = d.pwnB := rfl
@[simp] theorem modThread_flight (d : Dev) (uid i : Nat) (f : Thread → Thread) : (d.modThread uid i f).flight = d.flight := rfl
@[simp] theorem modThread_cmds (d : Dev) (uid i : Nat) (f : Thread → Thread) : (d.modThread uid i f).cmds = d.cmds := rfl
@[simp] theorem modThread_pageReqs (d : Dev) (uid i : Nat) (f : Thread → Thread) : (d.modThread uid i f).pageReqs = d.pageReqs := rfl
@[simp] theorem modThread_live (d : Dev) (uid i : Nat) (f : Thread → Thread) : (d.modThread uid i f).live = d.live := rfl
@[simp] theorem modThread_records (d : Dev) (uid i : Nat) (f : Thread → Thread) : (d.modThread uid i f).records = d.records := rfl
@[simp] theorem modThread_resets (d : Dev) (uid i : Nat) (f : Thread → Thread) : (d.modThread uid i f).resets = d.resets := rfl
@[simp] theorem modThread_keyReports (d : Dev) (uid i : Nat) (f : Thread → Thread) : (d.modThread uid i f).keyReports = d.keyReports := rfl
@[simp] theorem modThread_slotReports (d : Dev) (uid i : Nat) (f : Thread → Thread) : (d.modThread uid i f).slotReports = d.slotReports := rfl
@[simp] theorem modThread_passDue (d : Dev) (uid i : Nat) (f : Thread → Thread) : (d.modThread uid i f).passDue = d.passDue := rfl
@[simp] theorem modThread_nextUid (d : Dev) (uid i : Nat) (f : Thread → Thread) : (d.modThread uid i f).nextUid = d.nextUid := rfl
@[simp] theorem modThread_nextCmd (d : Dev) (uid i : Nat) (f : Thread → Thread) : (d.modThread uid i f).nextCmd = d.nextCmd := rfl
@[simp] theorem modThread_nextSeq (d : Dev) (uid i : Nat) (f : Thread → Thread) : (d.modThread uid i f).nextSeq = d.nextSeq := rfl
@[simp] theorem commit_raw (d : Dev) (c : Cur) (t : Thread) : (d.commit c t).raw = d.raw := rfl
@[simp] theorem commit_tick (d : Dev) (c : Cur) (t : Thread) : (d.commit c t).tick = d.tick := rfl
@[simp] theorem commit_free (d : Dev) (c : Cur) (t : Thread) : (d.commit c t).free = d.free := rfl
@[simp] theorem commit_pkg (d : Dev) (c : Cur) (t : Thread) : (d.commit c t).pkg = d.pkg := rfl
@[simp] theorem commit_torus (d : Dev) (c : Cur) (t : Thread) : (d.commit c t).torus = d.torus := rfl
@[simp] theorem commit_present (d : Dev) (c : Cur) (t : Thread) : (d.commit c t).present = d.present := rfl
@[simp] theorem commit_d0 (d : Dev) (c : Cur) (t : Thread) : (d.commit c t).d0 = d.d0 := rfl
@[simp] theorem commit_d1 (d : Dev) (c : Cur) (t : Thread) : (d.commit c t).d1 = d.d1 := rfl
@[simp] theorem commit_d2 (d : Dev) (c : Cur) (t : Thread) : (d.commit c t).d2 = d.d2 := rfl
@[simp] theorem commit_d3 (d : Dev) (c : Cur) (t : Thread) : (d.commit c t).d3 = d.d3 := rfl
@[simp] theorem commit_mem (d : Dev) (c : Cur) (t : Thread) : (d.commit c t).mem = d.mem := rfl
@[simp] theorem commit_written (d : Dev) (c : Cur) (t : Thread) : (d.commit c t).written = d.written := rfl
@[simp] theorem commit_closed (d : Dev) (c : Cur) (t : Thread) : (d.commit c t).closed = d.closed := rfl
@[simp] theorem commit_sharers (d : Dev) (c : Cur) (t : Thread) : (d.commit c t).sharers = d.sharers := rfl
@[simp] theorem commit_invalidating (d : Dev) (c : Cur) (t : Thread) : (d.commit c t).invalidating = d.invalidating := rfl
@[simp] theorem commit_posted (d : Dev) (c : Cur) (t : Thread) : (d.commit c t).posted = d.posted := rfl
@[simp] theorem commit_stale (d : Dev) (c : Cur) (t : Thread) : (d.commit c t).stale = d.stale := rfl
@[simp] theorem commit_touched (d : Dev) (c : Cur) (t : Thread) : (d.commit c t).touched = d.touched := rfl
@[simp] theorem commit_pwnA (d : Dev) (c : Cur) (t : Thread) : (d.commit c t).pwnA = d.pwnA := rfl
@[simp] theorem commit_pwnB (d : Dev) (c : Cur) (t : Thread) : (d.commit c t).pwnB = d.pwnB := rfl
@[simp] theorem commit_flight (d : Dev) (c : Cur) (t : Thread) : (d.commit c t).flight = d.flight := rfl
@[simp] theorem commit_cmds (d : Dev) (c : Cur) (t : Thread) : (d.commit c t).cmds = d.cmds := rfl
@[simp] theorem commit_pageReqs (d : Dev) (c : Cur) (t : Thread) : (d.commit c t).pageReqs = d.pageReqs := rfl
@[simp] theorem commit_live (d : Dev) (c : Cur) (t : Thread) : (d.commit c t).live = d.live := rfl
@[simp] theorem commit_records (d : Dev) (c : Cur) (t : Thread) : (d.commit c t).records = d.records := rfl
@[simp] theorem commit_resets (d : Dev) (c : Cur) (t : Thread) : (d.commit c t).resets = d.resets := rfl
@[simp] theorem commit_keyReports (d : Dev) (c : Cur) (t : Thread) : (d.commit c t).keyReports = d.keyReports := rfl
@[simp] theorem commit_slotReports (d : Dev) (c : Cur) (t : Thread) : (d.commit c t).slotReports = d.slotReports := rfl
@[simp] theorem commit_passDue (d : Dev) (c : Cur) (t : Thread) : (d.commit c t).passDue = d.passDue := rfl
@[simp] theorem commit_nextUid (d : Dev) (c : Cur) (t : Thread) : (d.commit c t).nextUid = d.nextUid := rfl
@[simp] theorem commit_nextCmd (d : Dev) (c : Cur) (t : Thread) : (d.commit c t).nextCmd = d.nextCmd := rfl
@[simp] theorem commit_nextSeq (d : Dev) (c : Cur) (t : Thread) : (d.commit c t).nextSeq = d.nextSeq := rfl
@[simp] theorem modCmd_raw (d : Dev) (id : Nat) (f : Cmd → Cmd) : (d.modCmd id f).raw = d.raw := rfl
@[simp] theorem modCmd_tick (d : Dev) (id : Nat) (f : Cmd → Cmd) : (d.modCmd id f).tick = d.tick := rfl
@[simp] theorem modCmd_free (d : Dev) (id : Nat) (f : Cmd → Cmd) : (d.modCmd id f).free = d.free := rfl
@[simp] theorem modCmd_pkg (d : Dev) (id : Nat) (f : Cmd → Cmd) : (d.modCmd id f).pkg = d.pkg := rfl
@[simp] theorem modCmd_torus (d : Dev) (id : Nat) (f : Cmd → Cmd) : (d.modCmd id f).torus = d.torus := rfl
@[simp] theorem modCmd_present (d : Dev) (id : Nat) (f : Cmd → Cmd) : (d.modCmd id f).present = d.present := rfl
@[simp] theorem modCmd_d0 (d : Dev) (id : Nat) (f : Cmd → Cmd) : (d.modCmd id f).d0 = d.d0 := rfl
@[simp] theorem modCmd_d1 (d : Dev) (id : Nat) (f : Cmd → Cmd) : (d.modCmd id f).d1 = d.d1 := rfl
@[simp] theorem modCmd_d2 (d : Dev) (id : Nat) (f : Cmd → Cmd) : (d.modCmd id f).d2 = d.d2 := rfl
@[simp] theorem modCmd_d3 (d : Dev) (id : Nat) (f : Cmd → Cmd) : (d.modCmd id f).d3 = d.d3 := rfl
@[simp] theorem modCmd_mem (d : Dev) (id : Nat) (f : Cmd → Cmd) : (d.modCmd id f).mem = d.mem := rfl
@[simp] theorem modCmd_written (d : Dev) (id : Nat) (f : Cmd → Cmd) : (d.modCmd id f).written = d.written := rfl
@[simp] theorem modCmd_closed (d : Dev) (id : Nat) (f : Cmd → Cmd) : (d.modCmd id f).closed = d.closed := rfl
@[simp] theorem modCmd_sharers (d : Dev) (id : Nat) (f : Cmd → Cmd) : (d.modCmd id f).sharers = d.sharers := rfl
@[simp] theorem modCmd_invalidating (d : Dev) (id : Nat) (f : Cmd → Cmd) : (d.modCmd id f).invalidating = d.invalidating := rfl
@[simp] theorem modCmd_posted (d : Dev) (id : Nat) (f : Cmd → Cmd) : (d.modCmd id f).posted = d.posted := rfl
@[simp] theorem modCmd_stale (d : Dev) (id : Nat) (f : Cmd → Cmd) : (d.modCmd id f).stale = d.stale := rfl
@[simp] theorem modCmd_touched (d : Dev) (id : Nat) (f : Cmd → Cmd) : (d.modCmd id f).touched = d.touched := rfl
@[simp] theorem modCmd_pwnA (d : Dev) (id : Nat) (f : Cmd → Cmd) : (d.modCmd id f).pwnA = d.pwnA := rfl
@[simp] theorem modCmd_pwnB (d : Dev) (id : Nat) (f : Cmd → Cmd) : (d.modCmd id f).pwnB = d.pwnB := rfl
@[simp] theorem modCmd_wgs (d : Dev) (id : Nat) (f : Cmd → Cmd) : (d.modCmd id f).wgs = d.wgs := rfl
@[simp] theorem modCmd_flight (d : Dev) (id : Nat) (f : Cmd → Cmd) : (d.modCmd id f).flight = d.flight := rfl
@[simp] theorem modCmd_pageReqs (d : Dev) (id : Nat) (f : Cmd → Cmd) : (d.modCmd id f).pageReqs = d.pageReqs := rfl
@[simp] theorem modCmd_live (d : Dev) (id : Nat) (f : Cmd → Cmd) : (d.modCmd id f).live = d.live := rfl
@[simp] theorem modCmd_records (d : Dev) (id : Nat) (f : Cmd → Cmd) : (d.modCmd id f).records = d.records := rfl
@[simp] theorem modCmd_resets (d : Dev) (id : Nat) (f : Cmd → Cmd) : (d.modCmd id f).resets = d.resets := rfl
@[simp] theorem modCmd_keyReports (d : Dev) (id : Nat) (f : Cmd → Cmd) : (d.modCmd id f).keyReports = d.keyReports := rfl
@[simp] theorem modCmd_slotReports (d : Dev) (id : Nat) (f : Cmd → Cmd) : (d.modCmd id f).slotReports = d.slotReports := rfl
@[simp] theorem modCmd_passDue (d : Dev) (id : Nat) (f : Cmd → Cmd) : (d.modCmd id f).passDue = d.passDue := rfl
@[simp] theorem modCmd_nextUid (d : Dev) (id : Nat) (f : Cmd → Cmd) : (d.modCmd id f).nextUid = d.nextUid := rfl
@[simp] theorem modCmd_nextCmd (d : Dev) (id : Nat) (f : Cmd → Cmd) : (d.modCmd id f).nextCmd = d.nextCmd := rfl
@[simp] theorem modCmd_nextSeq (d : Dev) (id : Nat) (f : Cmd → Cmd) : (d.modCmd id f).nextSeq = d.nextSeq := rfl
@[simp] theorem record_raw (d : Dev) (cause ctx die : Nat) (va x y : Dword) : (d.record cause ctx die va x y).raw = d.raw := rfl
@[simp] theorem record_tick (d : Dev) (cause ctx die : Nat) (va x y : Dword) : (d.record cause ctx die va x y).tick = d.tick := rfl
@[simp] theorem record_free (d : Dev) (cause ctx die : Nat) (va x y : Dword) : (d.record cause ctx die va x y).free = d.free := rfl
@[simp] theorem record_pkg (d : Dev) (cause ctx die : Nat) (va x y : Dword) : (d.record cause ctx die va x y).pkg = d.pkg := rfl
@[simp] theorem record_torus (d : Dev) (cause ctx die : Nat) (va x y : Dword) : (d.record cause ctx die va x y).torus = d.torus := rfl
@[simp] theorem record_present (d : Dev) (cause ctx die : Nat) (va x y : Dword) : (d.record cause ctx die va x y).present = d.present := rfl
@[simp] theorem record_d0 (d : Dev) (cause ctx die : Nat) (va x y : Dword) : (d.record cause ctx die va x y).d0 = d.d0 := rfl
@[simp] theorem record_d1 (d : Dev) (cause ctx die : Nat) (va x y : Dword) : (d.record cause ctx die va x y).d1 = d.d1 := rfl
@[simp] theorem record_d2 (d : Dev) (cause ctx die : Nat) (va x y : Dword) : (d.record cause ctx die va x y).d2 = d.d2 := rfl
@[simp] theorem record_d3 (d : Dev) (cause ctx die : Nat) (va x y : Dword) : (d.record cause ctx die va x y).d3 = d.d3 := rfl
@[simp] theorem record_mem (d : Dev) (cause ctx die : Nat) (va x y : Dword) : (d.record cause ctx die va x y).mem = d.mem := rfl
@[simp] theorem record_written (d : Dev) (cause ctx die : Nat) (va x y : Dword) : (d.record cause ctx die va x y).written = d.written := rfl
@[simp] theorem record_closed (d : Dev) (cause ctx die : Nat) (va x y : Dword) : (d.record cause ctx die va x y).closed = d.closed := rfl
@[simp] theorem record_sharers (d : Dev) (cause ctx die : Nat) (va x y : Dword) : (d.record cause ctx die va x y).sharers = d.sharers := rfl
@[simp] theorem record_invalidating (d : Dev) (cause ctx die : Nat) (va x y : Dword) : (d.record cause ctx die va x y).invalidating = d.invalidating := rfl
@[simp] theorem record_posted (d : Dev) (cause ctx die : Nat) (va x y : Dword) : (d.record cause ctx die va x y).posted = d.posted := rfl
@[simp] theorem record_stale (d : Dev) (cause ctx die : Nat) (va x y : Dword) : (d.record cause ctx die va x y).stale = d.stale := rfl
@[simp] theorem record_touched (d : Dev) (cause ctx die : Nat) (va x y : Dword) : (d.record cause ctx die va x y).touched = d.touched := rfl
@[simp] theorem record_pwnA (d : Dev) (cause ctx die : Nat) (va x y : Dword) : (d.record cause ctx die va x y).pwnA = d.pwnA := rfl
@[simp] theorem record_pwnB (d : Dev) (cause ctx die : Nat) (va x y : Dword) : (d.record cause ctx die va x y).pwnB = d.pwnB := rfl
@[simp] theorem record_wgs (d : Dev) (cause ctx die : Nat) (va x y : Dword) : (d.record cause ctx die va x y).wgs = d.wgs := rfl
@[simp] theorem record_flight (d : Dev) (cause ctx die : Nat) (va x y : Dword) : (d.record cause ctx die va x y).flight = d.flight := rfl
@[simp] theorem record_cmds (d : Dev) (cause ctx die : Nat) (va x y : Dword) : (d.record cause ctx die va x y).cmds = d.cmds := rfl
@[simp] theorem record_pageReqs (d : Dev) (cause ctx die : Nat) (va x y : Dword) : (d.record cause ctx die va x y).pageReqs = d.pageReqs := rfl
@[simp] theorem record_live (d : Dev) (cause ctx die : Nat) (va x y : Dword) : (d.record cause ctx die va x y).live = d.live := rfl
@[simp] theorem record_resets (d : Dev) (cause ctx die : Nat) (va x y : Dword) : (d.record cause ctx die va x y).resets = d.resets := rfl
@[simp] theorem record_keyReports (d : Dev) (cause ctx die : Nat) (va x y : Dword) : (d.record cause ctx die va x y).keyReports = d.keyReports := rfl
@[simp] theorem record_slotReports (d : Dev) (cause ctx die : Nat) (va x y : Dword) : (d.record cause ctx die va x y).slotReports = d.slotReports := rfl
@[simp] theorem record_passDue (d : Dev) (cause ctx die : Nat) (va x y : Dword) : (d.record cause ctx die va x y).passDue = d.passDue := rfl
@[simp] theorem record_nextUid (d : Dev) (cause ctx die : Nat) (va x y : Dword) : (d.record cause ctx die va x y).nextUid = d.nextUid := rfl
@[simp] theorem record_nextCmd (d : Dev) (cause ctx die : Nat) (va x y : Dword) : (d.record cause ctx die va x y).nextCmd = d.nextCmd := rfl
@[simp] theorem record_nextSeq (d : Dev) (cause ctx die : Nat) (va x y : Dword) : (d.record cause ctx die va x y).nextSeq = d.nextSeq := rfl
@[simp] theorem dropFromBundle_raw (d : Dev) (tid : Nat) : (d.dropFromBundle tid).raw = d.raw := by
  unfold Dev.dropFromBundle; split <;> rfl
@[simp] theorem dropFromBundle_tick (d : Dev) (tid : Nat) : (d.dropFromBundle tid).tick = d.tick := by
  unfold Dev.dropFromBundle; split <;> rfl
@[simp] theorem dropFromBundle_free (d : Dev) (tid : Nat) : (d.dropFromBundle tid).free = d.free := by
  unfold Dev.dropFromBundle; split <;> rfl
@[simp] theorem dropFromBundle_pkg (d : Dev) (tid : Nat) : (d.dropFromBundle tid).pkg = d.pkg := by
  unfold Dev.dropFromBundle; split <;> rfl
@[simp] theorem dropFromBundle_torus (d : Dev) (tid : Nat) : (d.dropFromBundle tid).torus = d.torus := by
  unfold Dev.dropFromBundle; split <;> rfl
@[simp] theorem dropFromBundle_present (d : Dev) (tid : Nat) : (d.dropFromBundle tid).present = d.present := by
  unfold Dev.dropFromBundle; split <;> rfl
@[simp] theorem dropFromBundle_d0 (d : Dev) (tid : Nat) : (d.dropFromBundle tid).d0 = d.d0 := by
  unfold Dev.dropFromBundle; split <;> rfl
@[simp] theorem dropFromBundle_d1 (d : Dev) (tid : Nat) : (d.dropFromBundle tid).d1 = d.d1 := by
  unfold Dev.dropFromBundle; split <;> rfl
@[simp] theorem dropFromBundle_d2 (d : Dev) (tid : Nat) : (d.dropFromBundle tid).d2 = d.d2 := by
  unfold Dev.dropFromBundle; split <;> rfl
@[simp] theorem dropFromBundle_d3 (d : Dev) (tid : Nat) : (d.dropFromBundle tid).d3 = d.d3 := by
  unfold Dev.dropFromBundle; split <;> rfl
@[simp] theorem dropFromBundle_mem (d : Dev) (tid : Nat) : (d.dropFromBundle tid).mem = d.mem := by
  unfold Dev.dropFromBundle; split <;> rfl
@[simp] theorem dropFromBundle_written (d : Dev) (tid : Nat) : (d.dropFromBundle tid).written = d.written := by
  unfold Dev.dropFromBundle; split <;> rfl
@[simp] theorem dropFromBundle_closed (d : Dev) (tid : Nat) : (d.dropFromBundle tid).closed = d.closed := by
  unfold Dev.dropFromBundle; split <;> rfl
@[simp] theorem dropFromBundle_sharers (d : Dev) (tid : Nat) : (d.dropFromBundle tid).sharers = d.sharers := by
  unfold Dev.dropFromBundle; split <;> rfl
@[simp] theorem dropFromBundle_invalidating (d : Dev) (tid : Nat) : (d.dropFromBundle tid).invalidating = d.invalidating := by
  unfold Dev.dropFromBundle; split <;> rfl
@[simp] theorem dropFromBundle_posted (d : Dev) (tid : Nat) : (d.dropFromBundle tid).posted = d.posted := by
  unfold Dev.dropFromBundle; split <;> rfl
@[simp] theorem dropFromBundle_stale (d : Dev) (tid : Nat) : (d.dropFromBundle tid).stale = d.stale := by
  unfold Dev.dropFromBundle; split <;> rfl
@[simp] theorem dropFromBundle_touched (d : Dev) (tid : Nat) : (d.dropFromBundle tid).touched = d.touched := by
  unfold Dev.dropFromBundle; split <;> rfl
@[simp] theorem dropFromBundle_pwnA (d : Dev) (tid : Nat) : (d.dropFromBundle tid).pwnA = d.pwnA := by
  unfold Dev.dropFromBundle; split <;> rfl
@[simp] theorem dropFromBundle_pwnB (d : Dev) (tid : Nat) : (d.dropFromBundle tid).pwnB = d.pwnB := by
  unfold Dev.dropFromBundle; split <;> rfl
@[simp] theorem dropFromBundle_wgs (d : Dev) (tid : Nat) : (d.dropFromBundle tid).wgs = d.wgs := by
  unfold Dev.dropFromBundle; split <;> rfl
@[simp] theorem dropFromBundle_cmds (d : Dev) (tid : Nat) : (d.dropFromBundle tid).cmds = d.cmds := by
  unfold Dev.dropFromBundle; split <;> rfl
@[simp] theorem dropFromBundle_pageReqs (d : Dev) (tid : Nat) : (d.dropFromBundle tid).pageReqs = d.pageReqs := by
  unfold Dev.dropFromBundle; split <;> rfl
@[simp] theorem dropFromBundle_live (d : Dev) (tid : Nat) : (d.dropFromBundle tid).live = d.live := by
  unfold Dev.dropFromBundle; split <;> rfl
@[simp] theorem dropFromBundle_records (d : Dev) (tid : Nat) : (d.dropFromBundle tid).records = d.records := by
  unfold Dev.dropFromBundle; split <;> rfl
@[simp] theorem dropFromBundle_resets (d : Dev) (tid : Nat) : (d.dropFromBundle tid).resets = d.resets := by
  unfold Dev.dropFromBundle; split <;> rfl
@[simp] theorem dropFromBundle_keyReports (d : Dev) (tid : Nat) : (d.dropFromBundle tid).keyReports = d.keyReports := by
  unfold Dev.dropFromBundle; split <;> rfl
@[simp] theorem dropFromBundle_slotReports (d : Dev) (tid : Nat) : (d.dropFromBundle tid).slotReports = d.slotReports := by
  unfold Dev.dropFromBundle; split <;> rfl
@[simp] theorem dropFromBundle_passDue (d : Dev) (tid : Nat) : (d.dropFromBundle tid).passDue = d.passDue := by
  unfold Dev.dropFromBundle; split <;> rfl
@[simp] theorem dropFromBundle_nextUid (d : Dev) (tid : Nat) : (d.dropFromBundle tid).nextUid = d.nextUid := by
  unfold Dev.dropFromBundle; split <;> rfl
@[simp] theorem dropFromBundle_nextCmd (d : Dev) (tid : Nat) : (d.dropFromBundle tid).nextCmd = d.nextCmd := by
  unfold Dev.dropFromBundle; split <;> rfl
@[simp] theorem dropFromBundle_nextSeq (d : Dev) (tid : Nat) : (d.dropFromBundle tid).nextSeq = d.nextSeq := by
  unfold Dev.dropFromBundle; split <;> rfl
@[simp] theorem commitOut_raw (d : Dev) (c : Cur) (t : Thread) : (d.commitOut c t).raw = d.raw := by
  unfold Dev.commitOut; split <;> simp [Dev.occupy]
@[simp] theorem commitOut_tick (d : Dev) (c : Cur) (t : Thread) : (d.commitOut c t).tick = d.tick := by
  unfold Dev.commitOut; split <;> simp [Dev.occupy]
@[simp] theorem commitOut_free (d : Dev) (c : Cur) (t : Thread) : (d.commitOut c t).free = d.free := by
  unfold Dev.commitOut; split <;> simp [Dev.occupy]
@[simp] theorem commitOut_pkg (d : Dev) (c : Cur) (t : Thread) : (d.commitOut c t).pkg = d.pkg := by
  unfold Dev.commitOut; split <;> simp [Dev.occupy]
@[simp] theorem commitOut_torus (d : Dev) (c : Cur) (t : Thread) : (d.commitOut c t).torus = d.torus := by
  unfold Dev.commitOut; split <;> simp [Dev.occupy]
@[simp] theorem commitOut_present (d : Dev) (c : Cur) (t : Thread) : (d.commitOut c t).present = d.present := by
  unfold Dev.commitOut; split <;> simp [Dev.occupy]
@[simp] theorem commitOut_mem (d : Dev) (c : Cur) (t : Thread) : (d.commitOut c t).mem = d.mem := by
  unfold Dev.commitOut; split <;> simp [Dev.occupy]
@[simp] theorem commitOut_written (d : Dev) (c : Cur) (t : Thread) : (d.commitOut c t).written = d.written := by
  unfold Dev.commitOut; split <;> simp [Dev.occupy]
@[simp] theorem commitOut_closed (d : Dev) (c : Cur) (t : Thread) : (d.commitOut c t).closed = d.closed := by
  unfold Dev.commitOut; split <;> simp [Dev.occupy]
@[simp] theorem commitOut_sharers (d : Dev) (c : Cur) (t : Thread) : (d.commitOut c t).sharers = d.sharers := by
  unfold Dev.commitOut; split <;> simp [Dev.occupy]
@[simp] theorem commitOut_invalidating (d : Dev) (c : Cur) (t : Thread) : (d.commitOut c t).invalidating = d.invalidating := by
  unfold Dev.commitOut; split <;> simp [Dev.occupy]
@[simp] theorem commitOut_posted (d : Dev) (c : Cur) (t : Thread) : (d.commitOut c t).posted = d.posted := by
  unfold Dev.commitOut; split <;> simp [Dev.occupy]
@[simp] theorem commitOut_stale (d : Dev) (c : Cur) (t : Thread) : (d.commitOut c t).stale = d.stale := by
  unfold Dev.commitOut; split <;> simp [Dev.occupy]
@[simp] theorem commitOut_touched (d : Dev) (c : Cur) (t : Thread) : (d.commitOut c t).touched = d.touched := by
  unfold Dev.commitOut; split <;> simp [Dev.occupy]
@[simp] theorem commitOut_pwnA (d : Dev) (c : Cur) (t : Thread) : (d.commitOut c t).pwnA = d.pwnA := by
  unfold Dev.commitOut; split <;> simp [Dev.occupy]
@[simp] theorem commitOut_pwnB (d : Dev) (c : Cur) (t : Thread) : (d.commitOut c t).pwnB = d.pwnB := by
  unfold Dev.commitOut; split <;> simp [Dev.occupy]
@[simp] theorem commitOut_cmds (d : Dev) (c : Cur) (t : Thread) : (d.commitOut c t).cmds = d.cmds := by
  unfold Dev.commitOut; split <;> simp [Dev.occupy]
@[simp] theorem commitOut_pageReqs (d : Dev) (c : Cur) (t : Thread) : (d.commitOut c t).pageReqs = d.pageReqs := by
  unfold Dev.commitOut; split <;> simp [Dev.occupy]
@[simp] theorem commitOut_live (d : Dev) (c : Cur) (t : Thread) : (d.commitOut c t).live = d.live := by
  unfold Dev.commitOut; split <;> simp [Dev.occupy]
@[simp] theorem commitOut_records (d : Dev) (c : Cur) (t : Thread) : (d.commitOut c t).records = d.records := by
  unfold Dev.commitOut; split <;> simp [Dev.occupy]
@[simp] theorem commitOut_resets (d : Dev) (c : Cur) (t : Thread) : (d.commitOut c t).resets = d.resets := by
  unfold Dev.commitOut; split <;> simp [Dev.occupy]
@[simp] theorem commitOut_keyReports (d : Dev) (c : Cur) (t : Thread) : (d.commitOut c t).keyReports = d.keyReports := by
  unfold Dev.commitOut; split <;> simp [Dev.occupy]
@[simp] theorem commitOut_slotReports (d : Dev) (c : Cur) (t : Thread) : (d.commitOut c t).slotReports = d.slotReports := by
  unfold Dev.commitOut; split <;> simp [Dev.occupy]
@[simp] theorem commitOut_passDue (d : Dev) (c : Cur) (t : Thread) : (d.commitOut c t).passDue = d.passDue := by
  unfold Dev.commitOut; split <;> simp [Dev.occupy]
@[simp] theorem commitOut_nextUid (d : Dev) (c : Cur) (t : Thread) : (d.commitOut c t).nextUid = d.nextUid := by
  unfold Dev.commitOut; split <;> simp [Dev.occupy]
@[simp] theorem commitOut_nextCmd (d : Dev) (c : Cur) (t : Thread) : (d.commitOut c t).nextCmd = d.nextCmd := by
  unfold Dev.commitOut; split <;> simp [Dev.occupy]
@[simp] theorem commitOut_nextSeq (d : Dev) (c : Cur) (t : Thread) : (d.commitOut c t).nextSeq = d.nextSeq := by
  unfold Dev.commitOut; split <;> simp [Dev.occupy]
@[simp] theorem invalidate_raw (d : Dev) (l : Nat) : (d.invalidate l).raw = d.raw := by
  unfold Dev.invalidate; split <;> rfl
@[simp] theorem invalidate_tick (d : Dev) (l : Nat) : (d.invalidate l).tick = d.tick := by
  unfold Dev.invalidate; split <;> rfl
@[simp] theorem invalidate_free (d : Dev) (l : Nat) : (d.invalidate l).free = d.free := by
  unfold Dev.invalidate; split <;> rfl
@[simp] theorem invalidate_pkg (d : Dev) (l : Nat) : (d.invalidate l).pkg = d.pkg := by
  unfold Dev.invalidate; split <;> rfl
@[simp] theorem invalidate_torus (d : Dev) (l : Nat) : (d.invalidate l).torus = d.torus := by
  unfold Dev.invalidate; split <;> rfl
@[simp] theorem invalidate_present (d : Dev) (l : Nat) : (d.invalidate l).present = d.present := by
  unfold Dev.invalidate; split <;> rfl
@[simp] theorem invalidate_d0 (d : Dev) (l : Nat) : (d.invalidate l).d0 = d.d0 := by
  unfold Dev.invalidate; split <;> rfl
@[simp] theorem invalidate_d1 (d : Dev) (l : Nat) : (d.invalidate l).d1 = d.d1 := by
  unfold Dev.invalidate; split <;> rfl
@[simp] theorem invalidate_d2 (d : Dev) (l : Nat) : (d.invalidate l).d2 = d.d2 := by
  unfold Dev.invalidate; split <;> rfl
@[simp] theorem invalidate_d3 (d : Dev) (l : Nat) : (d.invalidate l).d3 = d.d3 := by
  unfold Dev.invalidate; split <;> rfl
@[simp] theorem invalidate_mem (d : Dev) (l : Nat) : (d.invalidate l).mem = d.mem := by
  unfold Dev.invalidate; split <;> rfl
@[simp] theorem invalidate_written (d : Dev) (l : Nat) : (d.invalidate l).written = d.written := by
  unfold Dev.invalidate; split <;> rfl
@[simp] theorem invalidate_closed (d : Dev) (l : Nat) : (d.invalidate l).closed = d.closed := by
  unfold Dev.invalidate; split <;> rfl
@[simp] theorem invalidate_posted (d : Dev) (l : Nat) : (d.invalidate l).posted = d.posted := by
  unfold Dev.invalidate; split <;> rfl
@[simp] theorem invalidate_stale (d : Dev) (l : Nat) : (d.invalidate l).stale = d.stale := by
  unfold Dev.invalidate; split <;> rfl
@[simp] theorem invalidate_touched (d : Dev) (l : Nat) : (d.invalidate l).touched = d.touched := by
  unfold Dev.invalidate; split <;> rfl
@[simp] theorem invalidate_pwnA (d : Dev) (l : Nat) : (d.invalidate l).pwnA = d.pwnA := by
  unfold Dev.invalidate; split <;> rfl
@[simp] theorem invalidate_pwnB (d : Dev) (l : Nat) : (d.invalidate l).pwnB = d.pwnB := by
  unfold Dev.invalidate; split <;> rfl
@[simp] theorem invalidate_wgs (d : Dev) (l : Nat) : (d.invalidate l).wgs = d.wgs := by
  unfold Dev.invalidate; split <;> rfl
@[simp] theorem invalidate_flight (d : Dev) (l : Nat) : (d.invalidate l).flight = d.flight := by
  unfold Dev.invalidate; split <;> rfl
@[simp] theorem invalidate_cmds (d : Dev) (l : Nat) : (d.invalidate l).cmds = d.cmds := by
  unfold Dev.invalidate; split <;> rfl
@[simp] theorem invalidate_pageReqs (d : Dev) (l : Nat) : (d.invalidate l).pageReqs = d.pageReqs := by
  unfold Dev.invalidate; split <;> rfl
@[simp] theorem invalidate_live (d : Dev) (l : Nat) : (d.invalidate l).live = d.live := by
  unfold Dev.invalidate; split <;> rfl
@[simp] theorem invalidate_records (d : Dev) (l : Nat) : (d.invalidate l).records = d.records := by
  unfold Dev.invalidate; split <;> rfl
@[simp] theorem invalidate_resets (d : Dev) (l : Nat) : (d.invalidate l).resets = d.resets := by
  unfold Dev.invalidate; split <;> rfl
@[simp] theorem invalidate_keyReports (d : Dev) (l : Nat) : (d.invalidate l).keyReports = d.keyReports := by
  unfold Dev.invalidate; split <;> rfl
@[simp] theorem invalidate_slotReports (d : Dev) (l : Nat) : (d.invalidate l).slotReports = d.slotReports := by
  unfold Dev.invalidate; split <;> rfl
@[simp] theorem invalidate_passDue (d : Dev) (l : Nat) : (d.invalidate l).passDue = d.passDue := by
  unfold Dev.invalidate; split <;> rfl
@[simp] theorem invalidate_nextUid (d : Dev) (l : Nat) : (d.invalidate l).nextUid = d.nextUid := by
  unfold Dev.invalidate; split <;> rfl
@[simp] theorem invalidate_nextCmd (d : Dev) (l : Nat) : (d.invalidate l).nextCmd = d.nextCmd := by
  unfold Dev.invalidate; split <;> rfl
@[simp] theorem invalidate_nextSeq (d : Dev) (l : Nat) : (d.invalidate l).nextSeq = d.nextSeq := by
  unfold Dev.invalidate; split <;> rfl

/-- A die that was set is what it was set to. -/
theorem die_setDie {n : Nat} (h : n < 4) (d : Dev) (x : Die) : (d.setDie n x).die n = x := by
  obtain rfl | rfl | rfl | rfl : n = 0 ∨ n = 1 ∨ n = 2 ∨ n = 3 := by omega
  all_goals rfl
theorem die_modDie {n : Nat} (h : n < 4) (d : Dev) (f : Die → Die) : (d.modDie n f).die n = f (d.die n) := die_setDie h ..
/-- A write to one die leaves the others. -/
theorem die_setDie_of_ne {n k : Nat} (h : n ≠ k) (hn : n < 4) (hk : k < 4) (d : Dev) (x : Die) : (d.setDie n x).die k = d.die k := by
  obtain rfl | rfl | rfl | rfl : n = 0 ∨ n = 1 ∨ n = 2 ∨ n = 3 := by omega
  all_goals
    obtain rfl | rfl | rfl | rfl : k = 0 ∨ k = 1 ∨ k = 2 ∨ k = 3 := by omega
    all_goals first | rfl | exact absurd rfl h
theorem core_modCore {n : Nat} {x : Die} (h : n < x.cores.length) (f : Core → Core) : (x.modCore n f).core n = f (x.core n) := by
  simp [Die.modCore, Die.core, updAt, h]
theorem cluster_modCluster {n : Nat} {x : Die} (h : n < x.clusters.length) (f : Cluster → Cluster) :
    (x.modCluster n f).cluster n = f (x.cluster n) := by
  simp [Die.modCluster, Die.cluster, updAt, h]
theorem link_modLink {n : Nat} {x : Die} (h : n < x.links.length) (f : Link → Link) : (x.modLink n f).link n = f (x.link n) := by
  simp [Die.modLink, Die.link, updAt, h]

/-! ## Dies -/

@[simp] theorem die_modCore_inc (x : Die) (n : Nat) (f : Core → Core) : (x.modCore n f).inc = x.inc := rfl
@[simp] theorem die_modCore_peerInc (x : Die) (n : Nat) (f : Core → Core) : (x.modCore n f).peerInc = x.peerInc := rfl
@[simp] theorem die_modCore_quarantine (x : Die) (n : Nat) (f : Core → Core) : (x.modCore n f).quarantine = x.quarantine := rfl
@[simp] theorem die_modCore_draining (x : Die) (n : Nat) (f : Core → Core) : (x.modCore n f).draining = x.draining := rfl
@[simp] theorem die_modCore_periodAt (x : Die) (n : Nat) (f : Core → Core) : (x.modCore n f).periodAt = x.periodAt := rfl
@[simp] theorem die_modCore_sampleAt (x : Die) (n : Nat) (f : Core → Core) : (x.modCore n f).sampleAt = x.sampleAt := rfl
@[simp] theorem die_modCore_joining (x : Die) (n : Nat) (f : Core → Core) : (x.modCore n f).joining = x.joining := rfl
@[simp] theorem die_modCore_clusters (x : Die) (n : Nat) (f : Core → Core) : (x.modCore n f).clusters = x.clusters := rfl
@[simp] theorem die_modCore_links (x : Die) (n : Nat) (f : Core → Core) : (x.modCore n f).links = x.links := rfl
@[simp] theorem die_modCore_counters (x : Die) (n : Nat) (f : Core → Core) : (x.modCore n f).counters = x.counters := rfl
@[simp] theorem die_modCore_transit (x : Die) (n : Nat) (f : Core → Core) : (x.modCore n f).transit = x.transit := rfl
@[simp] theorem die_modCore_inbox (x : Die) (n : Nat) (f : Core → Core) : (x.modCore n f).inbox = x.inbox := rfl
@[simp] theorem die_modCore_robin (x : Die) (n : Nat) (f : Core → Core) : (x.modCore n f).robin = x.robin := rfl
@[simp] theorem die_modCore_outs (x : Die) (n : Nat) (f : Core → Core) : (x.modCore n f).outs = x.outs := rfl
@[simp] theorem die_modCore_unsent (x : Die) (n : Nat) (f : Core → Core) : (x.modCore n f).unsent = x.unsent := rfl
@[simp] theorem die_modCore_windows (x : Die) (n : Nat) (f : Core → Core) : (x.modCore n f).windows = x.windows := rfl
@[simp] theorem die_modCore_reads (x : Die) (n : Nat) (f : Core → Core) : (x.modCore n f).reads = x.reads := rfl
@[simp] theorem die_modCore_seqs (x : Die) (n : Nat) (f : Core → Core) : (x.modCore n f).seqs = x.seqs := rfl
@[simp] theorem die_modCore_hrt (x : Die) (n : Nat) (f : Core → Core) : (x.modCore n f).hrt = x.hrt := rfl
@[simp] theorem die_modCore_hosts (x : Die) (n : Nat) (f : Core → Core) : (x.modCore n f).hosts = x.hosts := rfl
@[simp] theorem die_modCore_forwards (x : Die) (n : Nat) (f : Core → Core) : (x.modCore n f).forwards = x.forwards := rfl
@[simp] theorem die_modCore_locs (x : Die) (n : Nat) (f : Core → Core) : (x.modCore n f).locs = x.locs := rfl
@[simp] theorem die_modCore_orders (x : Die) (n : Nat) (f : Core → Core) : (x.modCore n f).orders = x.orders := rfl
@[simp] theorem die_modCore_ctxs (x : Die) (n : Nat) (f : Core → Core) : (x.modCore n f).ctxs = x.ctxs := rfl
@[simp] theorem die_modCore_launches (x : Die) (n : Nat) (f : Core → Core) : (x.modCore n f).launches = x.launches := rfl
@[simp] theorem die_modCore_tlb (x : Die) (n : Nat) (f : Core → Core) : (x.modCore n f).tlb = x.tlb := rfl
@[simp] theorem die_modCore_walks (x : Die) (n : Nat) (f : Core → Core) : (x.modCore n f).walks = x.walks := rfl
@[simp] theorem die_modCore_retired (x : Die) (n : Nat) (f : Core → Core) : (x.modCore n f).retired = x.retired := rfl
@[simp] theorem die_modCluster_inc (x : Die) (n : Nat) (f : Cluster → Cluster) : (x.modCluster n f).inc = x.inc := rfl
@[simp] theorem die_modCluster_peerInc (x : Die) (n : Nat) (f : Cluster → Cluster) : (x.modCluster n f).peerInc = x.peerInc := rfl
@[simp] theorem die_modCluster_quarantine (x : Die) (n : Nat) (f : Cluster → Cluster) : (x.modCluster n f).quarantine = x.quarantine := rfl
@[simp] theorem die_modCluster_draining (x : Die) (n : Nat) (f : Cluster → Cluster) : (x.modCluster n f).draining = x.draining := rfl
@[simp] theorem die_modCluster_periodAt (x : Die) (n : Nat) (f : Cluster → Cluster) : (x.modCluster n f).periodAt = x.periodAt := rfl
@[simp] theorem die_modCluster_sampleAt (x : Die) (n : Nat) (f : Cluster → Cluster) : (x.modCluster n f).sampleAt = x.sampleAt := rfl
@[simp] theorem die_modCluster_joining (x : Die) (n : Nat) (f : Cluster → Cluster) : (x.modCluster n f).joining = x.joining := rfl
@[simp] theorem die_modCluster_cores (x : Die) (n : Nat) (f : Cluster → Cluster) : (x.modCluster n f).cores = x.cores := rfl
@[simp] theorem die_modCluster_links (x : Die) (n : Nat) (f : Cluster → Cluster) : (x.modCluster n f).links = x.links := rfl
@[simp] theorem die_modCluster_counters (x : Die) (n : Nat) (f : Cluster → Cluster) : (x.modCluster n f).counters = x.counters := rfl
@[simp] theorem die_modCluster_transit (x : Die) (n : Nat) (f : Cluster → Cluster) : (x.modCluster n f).transit = x.transit := rfl
@[simp] theorem die_modCluster_inbox (x : Die) (n : Nat) (f : Cluster → Cluster) : (x.modCluster n f).inbox = x.inbox := rfl
@[simp] theorem die_modCluster_robin (x : Die) (n : Nat) (f : Cluster → Cluster) : (x.modCluster n f).robin = x.robin := rfl
@[simp] theorem die_modCluster_outs (x : Die) (n : Nat) (f : Cluster → Cluster) : (x.modCluster n f).outs = x.outs := rfl
@[simp] theorem die_modCluster_unsent (x : Die) (n : Nat) (f : Cluster → Cluster) : (x.modCluster n f).unsent = x.unsent := rfl
@[simp] theorem die_modCluster_windows (x : Die) (n : Nat) (f : Cluster → Cluster) : (x.modCluster n f).windows = x.windows := rfl
@[simp] theorem die_modCluster_reads (x : Die) (n : Nat) (f : Cluster → Cluster) : (x.modCluster n f).reads = x.reads := rfl
@[simp] theorem die_modCluster_seqs (x : Die) (n : Nat) (f : Cluster → Cluster) : (x.modCluster n f).seqs = x.seqs := rfl
@[simp] theorem die_modCluster_hrt (x : Die) (n : Nat) (f : Cluster → Cluster) : (x.modCluster n f).hrt = x.hrt := rfl
@[simp] theorem die_modCluster_hosts (x : Die) (n : Nat) (f : Cluster → Cluster) : (x.modCluster n f).hosts = x.hosts := rfl
@[simp] theorem die_modCluster_forwards (x : Die) (n : Nat) (f : Cluster → Cluster) : (x.modCluster n f).forwards = x.forwards := rfl
@[simp] theorem die_modCluster_locs (x : Die) (n : Nat) (f : Cluster → Cluster) : (x.modCluster n f).locs = x.locs := rfl
@[simp] theorem die_modCluster_orders (x : Die) (n : Nat) (f : Cluster → Cluster) : (x.modCluster n f).orders = x.orders := rfl
@[simp] theorem die_modCluster_ctxs (x : Die) (n : Nat) (f : Cluster → Cluster) : (x.modCluster n f).ctxs = x.ctxs := rfl
@[simp] theorem die_modCluster_launches (x : Die) (n : Nat) (f : Cluster → Cluster) : (x.modCluster n f).launches = x.launches := rfl
@[simp] theorem die_modCluster_tlb (x : Die) (n : Nat) (f : Cluster → Cluster) : (x.modCluster n f).tlb = x.tlb := rfl
@[simp] theorem die_modCluster_walks (x : Die) (n : Nat) (f : Cluster → Cluster) : (x.modCluster n f).walks = x.walks := rfl
@[simp] theorem die_modCluster_retired (x : Die) (n : Nat) (f : Cluster → Cluster) : (x.modCluster n f).retired = x.retired := rfl
@[simp] theorem die_modLink_inc (x : Die) (n : Nat) (f : Link → Link) : (x.modLink n f).inc = x.inc := rfl
@[simp] theorem die_modLink_peerInc (x : Die) (n : Nat) (f : Link → Link) : (x.modLink n f).peerInc = x.peerInc := rfl
@[simp] theorem die_modLink_quarantine (x : Die) (n : Nat) (f : Link → Link) : (x.modLink n f).quarantine = x.quarantine := rfl
@[simp] theorem die_modLink_draining (x : Die) (n : Nat) (f : Link → Link) : (x.modLink n f).draining = x.draining := rfl
@[simp] theorem die_modLink_periodAt (x : Die) (n : Nat) (f : Link → Link) : (x.modLink n f).periodAt = x.periodAt := rfl
@[simp] theorem die_modLink_sampleAt (x : Die) (n : Nat) (f : Link → Link) : (x.modLink n f).sampleAt = x.sampleAt := rfl
@[simp] theorem die_modLink_joining (x : Die) (n : Nat) (f : Link → Link) : (x.modLink n f).joining = x.joining := rfl
@[simp] theorem die_modLink_cores (x : Die) (n : Nat) (f : Link → Link) : (x.modLink n f).cores = x.cores := rfl
@[simp] theorem die_modLink_clusters (x : Die) (n : Nat) (f : Link → Link) : (x.modLink n f).clusters = x.clusters := rfl
@[simp] theorem die_modLink_counters (x : Die) (n : Nat) (f : Link → Link) : (x.modLink n f).counters = x.counters := rfl
@[simp] theorem die_modLink_transit (x : Die) (n : Nat) (f : Link → Link) : (x.modLink n f).transit = x.transit := rfl
@[simp] theorem die_modLink_inbox (x : Die) (n : Nat) (f : Link → Link) : (x.modLink n f).inbox = x.inbox := rfl
@[simp] theorem die_modLink_robin (x : Die) (n : Nat) (f : Link → Link) : (x.modLink n f).robin = x.robin := rfl
@[simp] theorem die_modLink_outs (x : Die) (n : Nat) (f : Link → Link) : (x.modLink n f).outs = x.outs := rfl
@[simp] theorem die_modLink_unsent (x : Die) (n : Nat) (f : Link → Link) : (x.modLink n f).unsent = x.unsent := rfl
@[simp] theorem die_modLink_windows (x : Die) (n : Nat) (f : Link → Link) : (x.modLink n f).windows = x.windows := rfl
@[simp] theorem die_modLink_reads (x : Die) (n : Nat) (f : Link → Link) : (x.modLink n f).reads = x.reads := rfl
@[simp] theorem die_modLink_seqs (x : Die) (n : Nat) (f : Link → Link) : (x.modLink n f).seqs = x.seqs := rfl
@[simp] theorem die_modLink_hrt (x : Die) (n : Nat) (f : Link → Link) : (x.modLink n f).hrt = x.hrt := rfl
@[simp] theorem die_modLink_hosts (x : Die) (n : Nat) (f : Link → Link) : (x.modLink n f).hosts = x.hosts := rfl
@[simp] theorem die_modLink_forwards (x : Die) (n : Nat) (f : Link → Link) : (x.modLink n f).forwards = x.forwards := rfl
@[simp] theorem die_modLink_locs (x : Die) (n : Nat) (f : Link → Link) : (x.modLink n f).locs = x.locs := rfl
@[simp] theorem die_modLink_orders (x : Die) (n : Nat) (f : Link → Link) : (x.modLink n f).orders = x.orders := rfl
@[simp] theorem die_modLink_ctxs (x : Die) (n : Nat) (f : Link → Link) : (x.modLink n f).ctxs = x.ctxs := rfl
@[simp] theorem die_modLink_launches (x : Die) (n : Nat) (f : Link → Link) : (x.modLink n f).launches = x.launches := rfl
@[simp] theorem die_modLink_tlb (x : Die) (n : Nat) (f : Link → Link) : (x.modLink n f).tlb = x.tlb := rfl
@[simp] theorem die_modLink_walks (x : Die) (n : Nat) (f : Link → Link) : (x.modLink n f).walks = x.walks := rfl
@[simp] theorem die_modLink_retired (x : Die) (n : Nat) (f : Link → Link) : (x.modLink n f).retired = x.retired := rfl
@[simp] theorem die_count_inc (x : Die) (f : Counters → Counters) : (x.count f).inc = x.inc := rfl
@[simp] theorem die_count_peerInc (x : Die) (f : Counters → Counters) : (x.count f).peerInc = x.peerInc := rfl
@[simp] theorem die_count_quarantine (x : Die) (f : Counters → Counters) : (x.count f).quarantine = x.quarantine := rfl
@[simp] theorem die_count_draining (x : Die) (f : Counters → Counters) : (x.count f).draining = x.draining := rfl
@[simp] theorem die_count_periodAt (x : Die) (f : Counters → Counters) : (x.count f).periodAt = x.periodAt := rfl
@[simp] theorem die_count_sampleAt (x : Die) (f : Counters → Counters) : (x.count f).sampleAt = x.sampleAt := rfl
@[simp] theorem die_count_joining (x : Die) (f : Counters → Counters) : (x.count f).joining = x.joining := rfl
@[simp] theorem die_count_cores (x : Die) (f : Counters → Counters) : (x.count f).cores = x.cores := rfl
@[simp] theorem die_count_clusters (x : Die) (f : Counters → Counters) : (x.count f).clusters = x.clusters := rfl
@[simp] theorem die_count_links (x : Die) (f : Counters → Counters) : (x.count f).links = x.links := rfl
@[simp] theorem die_count_transit (x : Die) (f : Counters → Counters) : (x.count f).transit = x.transit := rfl
@[simp] theorem die_count_inbox (x : Die) (f : Counters → Counters) : (x.count f).inbox = x.inbox := rfl
@[simp] theorem die_count_robin (x : Die) (f : Counters → Counters) : (x.count f).robin = x.robin := rfl
@[simp] theorem die_count_outs (x : Die) (f : Counters → Counters) : (x.count f).outs = x.outs := rfl
@[simp] theorem die_count_unsent (x : Die) (f : Counters → Counters) : (x.count f).unsent = x.unsent := rfl
@[simp] theorem die_count_windows (x : Die) (f : Counters → Counters) : (x.count f).windows = x.windows := rfl
@[simp] theorem die_count_reads (x : Die) (f : Counters → Counters) : (x.count f).reads = x.reads := rfl
@[simp] theorem die_count_seqs (x : Die) (f : Counters → Counters) : (x.count f).seqs = x.seqs := rfl
@[simp] theorem die_count_hrt (x : Die) (f : Counters → Counters) : (x.count f).hrt = x.hrt := rfl
@[simp] theorem die_count_hosts (x : Die) (f : Counters → Counters) : (x.count f).hosts = x.hosts := rfl
@[simp] theorem die_count_forwards (x : Die) (f : Counters → Counters) : (x.count f).forwards = x.forwards := rfl
@[simp] theorem die_count_locs (x : Die) (f : Counters → Counters) : (x.count f).locs = x.locs := rfl
@[simp] theorem die_count_orders (x : Die) (f : Counters → Counters) : (x.count f).orders = x.orders := rfl
@[simp] theorem die_count_ctxs (x : Die) (f : Counters → Counters) : (x.count f).ctxs = x.ctxs := rfl
@[simp] theorem die_count_launches (x : Die) (f : Counters → Counters) : (x.count f).launches = x.launches := rfl
@[simp] theorem die_count_tlb (x : Die) (f : Counters → Counters) : (x.count f).tlb = x.tlb := rfl
@[simp] theorem die_count_walks (x : Die) (f : Counters → Counters) : (x.count f).walks = x.walks := rfl
@[simp] theorem die_count_retired (x : Die) (f : Counters → Counters) : (x.count f).retired = x.retired := rfl
@[simp] theorem die_modCtx_inc (x : Die) (c : Nat) (f : Ctx → Ctx) : (x.modCtx c f).inc = x.inc := rfl
@[simp] theorem die_modCtx_peerInc (x : Die) (c : Nat) (f : Ctx → Ctx) : (x.modCtx c f).peerInc = x.peerInc := rfl
@[simp] theorem die_modCtx_quarantine (x : Die) (c : Nat) (f : Ctx → Ctx) : (x.modCtx c f).quarantine = x.quarantine := rfl
@[simp] theorem die_modCtx_draining (x : Die) (c : Nat) (f : Ctx → Ctx) : (x.modCtx c f).draining = x.draining := rfl
@[simp] theorem die_modCtx_periodAt (x : Die) (c : Nat) (f : Ctx → Ctx) : (x.modCtx c f).periodAt = x.periodAt := rfl
@[simp] theorem die_modCtx_sampleAt (x : Die) (c : Nat) (f : Ctx → Ctx) : (x.modCtx c f).sampleAt = x.sampleAt := rfl
@[simp] theorem die_modCtx_joining (x : Die) (c : Nat) (f : Ctx → Ctx) : (x.modCtx c f).joining = x.joining := rfl
@[simp] theorem die_modCtx_cores (x : Die) (c : Nat) (f : Ctx → Ctx) : (x.modCtx c f).cores = x.cores := rfl
@[simp] theorem die_modCtx_clusters (x : Die) (c : Nat) (f : Ctx → Ctx) : (x.modCtx c f).clusters = x.clusters := rfl
@[simp] theorem die_modCtx_links (x : Die) (c : Nat) (f : Ctx → Ctx) : (x.modCtx c f).links = x.links := rfl
@[simp] theorem die_modCtx_counters (x : Die) (c : Nat) (f : Ctx → Ctx) : (x.modCtx c f).counters = x.counters := rfl
@[simp] theorem die_modCtx_transit (x : Die) (c : Nat) (f : Ctx → Ctx) : (x.modCtx c f).transit = x.transit := rfl
@[simp] theorem die_modCtx_inbox (x : Die) (c : Nat) (f : Ctx → Ctx) : (x.modCtx c f).inbox = x.inbox := rfl
@[simp] theorem die_modCtx_robin (x : Die) (c : Nat) (f : Ctx → Ctx) : (x.modCtx c f).robin = x.robin := rfl
@[simp] theorem die_modCtx_outs (x : Die) (c : Nat) (f : Ctx → Ctx) : (x.modCtx c f).outs = x.outs := rfl
@[simp] theorem die_modCtx_unsent (x : Die) (c : Nat) (f : Ctx → Ctx) : (x.modCtx c f).unsent = x.unsent := rfl
@[simp] theorem die_modCtx_windows (x : Die) (c : Nat) (f : Ctx → Ctx) : (x.modCtx c f).windows = x.windows := rfl
@[simp] theorem die_modCtx_reads (x : Die) (c : Nat) (f : Ctx → Ctx) : (x.modCtx c f).reads = x.reads := rfl
@[simp] theorem die_modCtx_seqs (x : Die) (c : Nat) (f : Ctx → Ctx) : (x.modCtx c f).seqs = x.seqs := rfl
@[simp] theorem die_modCtx_hrt (x : Die) (c : Nat) (f : Ctx → Ctx) : (x.modCtx c f).hrt = x.hrt := rfl
@[simp] theorem die_modCtx_hosts (x : Die) (c : Nat) (f : Ctx → Ctx) : (x.modCtx c f).hosts = x.hosts := rfl
@[simp] theorem die_modCtx_forwards (x : Die) (c : Nat) (f : Ctx → Ctx) : (x.modCtx c f).forwards = x.forwards := rfl
@[simp] theorem die_modCtx_locs (x : Die) (c : Nat) (f : Ctx → Ctx) : (x.modCtx c f).locs = x.locs := rfl
@[simp] theorem die_modCtx_orders (x : Die) (c : Nat) (f : Ctx → Ctx) : (x.modCtx c f).orders = x.orders := rfl
@[simp] theorem die_modCtx_launches (x : Die) (c : Nat) (f : Ctx → Ctx) : (x.modCtx c f).launches = x.launches := rfl
@[simp] theorem die_modCtx_tlb (x : Die) (c : Nat) (f : Ctx → Ctx) : (x.modCtx c f).tlb = x.tlb := rfl
@[simp] theorem die_modCtx_walks (x : Die) (c : Nat) (f : Ctx → Ctx) : (x.modCtx c f).walks = x.walks := rfl
@[simp] theorem die_modCtx_retired (x : Die) (c : Nat) (f : Ctx → Ctx) : (x.modCtx c f).retired = x.retired := rfl

/-! ## Threads -/

/-- What a register write comes to, by where the register lies (R210, R201). -/
theorem set_eq (t : Thread) (i : Nat) (v : Word) : t.set i v =
    if i < t.regs then (if t.locked.contains i then t else { t with work := t.work.set i v })
    else if i < t.alloc then { t with sticky := t.sticky ||| 0x40#7 } else t := by
  unfold Thread.set Thread.put
  by_cases h : i < t.regs
  · simp only [if_pos h]
  · simp only [if_neg h]
    by_cases h2 : i < t.alloc
    · simp only [if_pos h2]
    · simp only [if_neg h2]

@[simp] theorem note_pos (t : Thread) (is : List Nat) : (t.note is).pos = t.pos := by
  unfold Thread.note; split <;> rfl
@[simp] theorem note_blk (t : Thread) (is : List Nat) : (t.note is).blk = t.blk := by
  unfold Thread.note; split <;> rfl
@[simp] theorem note_off (t : Thread) (is : List Nat) : (t.note is).off = t.off := by
  unfold Thread.note; split <;> rfl
@[simp] theorem note_row (t : Thread) (is : List Nat) : (t.note is).row = t.row := by
  unfold Thread.note; split <;> rfl
@[simp] theorem note_work (t : Thread) (is : List Nat) : (t.note is).work = t.work := by
  unfold Thread.note; split <;> rfl
@[simp] theorem note_regs (t : Thread) (is : List Nat) : (t.note is).regs = t.regs := by
  unfold Thread.note; split <;> rfl
@[simp] theorem note_preds (t : Thread) (is : List Nat) : (t.note is).preds = t.preds := by
  unfold Thread.note; split <;> rfl
@[simp] theorem note_trapDepth (t : Thread) (is : List Nat) : (t.note is).trapDepth = t.trapDepth := by
  unfold Thread.note; split <;> rfl
@[simp] theorem note_trapCause (t : Thread) (is : List Nat) : (t.note is).trapCause = t.trapCause := by
  unfold Thread.note; split <;> rfl
@[simp] theorem note_trapAddr (t : Thread) (is : List Nat) : (t.note is).trapAddr = t.trapAddr := by
  unfold Thread.note; split <;> rfl
@[simp] theorem note_retired (t : Thread) (is : List Nat) : (t.note is).retired = t.retired := by
  unfold Thread.note; split <;> rfl
@[simp] theorem note_age (t : Thread) (is : List Nat) : (t.note is).age = t.age := by
  unfold Thread.note; split <;> rfl
@[simp] theorem note_yielded (t : Thread) (is : List Nat) : (t.note is).yielded = t.yielded := by
  unfold Thread.note; split <;> rfl
@[simp] theorem note_pend (t : Thread) (is : List Nat) : (t.note is).pend = t.pend := by
  unfold Thread.note; split <;> rfl
@[simp] theorem note_locked (t : Thread) (is : List Nat) : (t.note is).locked = t.locked := by
  unfold Thread.note; split <;> rfl
@[simp] theorem note_cache (t : Thread) (is : List Nat) : (t.note is).cache = t.cache := by
  unfold Thread.note; split <;> rfl
@[simp] theorem note_sp (t : Thread) (is : List Nat) : (t.note is).sp = t.sp := by
  unfold Thread.note; split <;> rfl
@[simp] theorem note_susp (t : Thread) (is : List Nat) : (t.note is).susp = t.susp := by
  unfold Thread.note; split <;> rfl
@[simp] theorem note_suspended (t : Thread) (is : List Nat) : (t.note is).suspended = t.suspended := by
  unfold Thread.note; split <;> rfl
@[simp] theorem note_expired (t : Thread) (is : List Nat) : (t.note is).expired = t.expired := by
  unfold Thread.note; split <;> rfl
@[simp] theorem note_walkFail (t : Thread) (is : List Nat) : (t.note is).walkFail = t.walkFail := by
  unfold Thread.note; split <;> rfl
@[simp] theorem note_spilled (t : Thread) (is : List Nat) : (t.note is).spilled = t.spilled := by
  unfold Thread.note; split <;> rfl
@[simp] theorem note_raised (t : Thread) (is : List Nat) : (t.note is).raised = t.raised := by
  unfold Thread.note; split <;> rfl
@[simp] theorem set_pos (t : Thread) (i : Nat) (v : Word) : (t.set i v).pos = t.pos := by
  rw [set_eq]; split
  · split <;> rfl
  · split <;> rfl
@[simp] theorem set_blk (t : Thread) (i : Nat) (v : Word) : (t.set i v).blk = t.blk := by
  rw [set_eq]; split
  · split <;> rfl
  · split <;> rfl
@[simp] theorem set_off (t : Thread) (i : Nat) (v : Word) : (t.set i v).off = t.off := by
  rw [set_eq]; split
  · split <;> rfl
  · split <;> rfl
@[simp] theorem set_row (t : Thread) (i : Nat) (v : Word) : (t.set i v).row = t.row := by
  rw [set_eq]; split
  · split <;> rfl
  · split <;> rfl
@[simp] theorem set_regs (t : Thread) (i : Nat) (v : Word) : (t.set i v).regs = t.regs := by
  rw [set_eq]; split
  · split <;> rfl
  · split <;> rfl
@[simp] theorem set_preds (t : Thread) (i : Nat) (v : Word) : (t.set i v).preds = t.preds := by
  rw [set_eq]; split
  · split <;> rfl
  · split <;> rfl
@[simp] theorem set_trapDepth (t : Thread) (i : Nat) (v : Word) : (t.set i v).trapDepth = t.trapDepth := by
  rw [set_eq]; split
  · split <;> rfl
  · split <;> rfl
@[simp] theorem set_trapCause (t : Thread) (i : Nat) (v : Word) : (t.set i v).trapCause = t.trapCause := by
  rw [set_eq]; split
  · split <;> rfl
  · split <;> rfl
@[simp] theorem set_trapAddr (t : Thread) (i : Nat) (v : Word) : (t.set i v).trapAddr = t.trapAddr := by
  rw [set_eq]; split
  · split <;> rfl
  · split <;> rfl
@[simp] theorem set_retired (t : Thread) (i : Nat) (v : Word) : (t.set i v).retired = t.retired := by
  rw [set_eq]; split
  · split <;> rfl
  · split <;> rfl
@[simp] theorem set_age (t : Thread) (i : Nat) (v : Word) : (t.set i v).age = t.age := by
  rw [set_eq]; split
  · split <;> rfl
  · split <;> rfl
@[simp] theorem set_yielded (t : Thread) (i : Nat) (v : Word) : (t.set i v).yielded = t.yielded := by
  rw [set_eq]; split
  · split <;> rfl
  · split <;> rfl
@[simp] theorem set_pend (t : Thread) (i : Nat) (v : Word) : (t.set i v).pend = t.pend := by
  rw [set_eq]; split
  · split <;> rfl
  · split <;> rfl
@[simp] theorem set_locked (t : Thread) (i : Nat) (v : Word) : (t.set i v).locked = t.locked := by
  rw [set_eq]; split
  · split <;> rfl
  · split <;> rfl
@[simp] theorem set_cache (t : Thread) (i : Nat) (v : Word) : (t.set i v).cache = t.cache := by
  rw [set_eq]; split
  · split <;> rfl
  · split <;> rfl
@[simp] theorem set_sp (t : Thread) (i : Nat) (v : Word) : (t.set i v).sp = t.sp := by
  rw [set_eq]; split
  · split <;> rfl
  · split <;> rfl
@[simp] theorem set_susp (t : Thread) (i : Nat) (v : Word) : (t.set i v).susp = t.susp := by
  rw [set_eq]; split
  · split <;> rfl
  · split <;> rfl
@[simp] theorem set_suspended (t : Thread) (i : Nat) (v : Word) : (t.set i v).suspended = t.suspended := by
  rw [set_eq]; split
  · split <;> rfl
  · split <;> rfl
@[simp] theorem set_expired (t : Thread) (i : Nat) (v : Word) : (t.set i v).expired = t.expired := by
  rw [set_eq]; split
  · split <;> rfl
  · split <;> rfl
@[simp] theorem set_walkFail (t : Thread) (i : Nat) (v : Word) : (t.set i v).walkFail = t.walkFail := by
  rw [set_eq]; split
  · split <;> rfl
  · split <;> rfl
@[simp] theorem set_spilled (t : Thread) (i : Nat) (v : Word) : (t.set i v).spilled = t.spilled := by
  rw [set_eq]; split
  · split <;> rfl
  · split <;> rfl
@[simp] theorem set_raised (t : Thread) (i : Nat) (v : Word) : (t.set i v).raised = t.raised := by
  rw [set_eq]; split
  · split <;> rfl
  · split <;> rfl
@[simp] theorem raise_pos (t : Thread) (b : BitVec 7) : (t.raise b).pos = t.pos := rfl
@[simp] theorem raise_blk (t : Thread) (b : BitVec 7) : (t.raise b).blk = t.blk := rfl
@[simp] theorem raise_off (t : Thread) (b : BitVec 7) : (t.raise b).off = t.off := rfl
@[simp] theorem raise_row (t : Thread) (b : BitVec 7) : (t.raise b).row = t.row := rfl
@[simp] theorem raise_work (t : Thread) (b : BitVec 7) : (t.raise b).work = t.work := rfl
@[simp] theorem raise_regs (t : Thread) (b : BitVec 7) : (t.raise b).regs = t.regs := rfl
@[simp] theorem raise_preds (t : Thread) (b : BitVec 7) : (t.raise b).preds = t.preds := rfl
@[simp] theorem raise_trapDepth (t : Thread) (b : BitVec 7) : (t.raise b).trapDepth = t.trapDepth := rfl
@[simp] theorem raise_trapCause (t : Thread) (b : BitVec 7) : (t.raise b).trapCause = t.trapCause := rfl
@[simp] theorem raise_trapAddr (t : Thread) (b : BitVec 7) : (t.raise b).trapAddr = t.trapAddr := rfl
@[simp] theorem raise_retired (t : Thread) (b : BitVec 7) : (t.raise b).retired = t.retired := rfl
@[simp] theorem raise_age (t : Thread) (b : BitVec 7) : (t.raise b).age = t.age := rfl
@[simp] theorem raise_yielded (t : Thread) (b : BitVec 7) : (t.raise b).yielded = t.yielded := rfl
@[simp] theorem raise_pend (t : Thread) (b : BitVec 7) : (t.raise b).pend = t.pend := rfl
@[simp] theorem raise_locked (t : Thread) (b : BitVec 7) : (t.raise b).locked = t.locked := rfl
@[simp] theorem raise_cache (t : Thread) (b : BitVec 7) : (t.raise b).cache = t.cache := rfl
@[simp] theorem raise_sp (t : Thread) (b : BitVec 7) : (t.raise b).sp = t.sp := rfl
@[simp] theorem raise_susp (t : Thread) (b : BitVec 7) : (t.raise b).susp = t.susp := rfl
@[simp] theorem raise_suspended (t : Thread) (b : BitVec 7) : (t.raise b).suspended = t.suspended := rfl
@[simp] theorem raise_expired (t : Thread) (b : BitVec 7) : (t.raise b).expired = t.expired := rfl
@[simp] theorem raise_walkFail (t : Thread) (b : BitVec 7) : (t.raise b).walkFail = t.walkFail := rfl
@[simp] theorem raise_spilled (t : Thread) (b : BitVec 7) : (t.raise b).spilled = t.spilled := rfl
@[simp] theorem raise_raised (t : Thread) (b : BitVec 7) : (t.raise b).raised = t.raised := rfl
@[simp] theorem advance_pos (t : Thread) (n : Nat) : (t.advance n).pos = t.pos := rfl
@[simp] theorem advance_blk (t : Thread) (n : Nat) : (t.advance n).blk = t.blk := rfl
@[simp] theorem advance_row (t : Thread) (n : Nat) : (t.advance n).row = t.row := rfl
@[simp] theorem advance_work (t : Thread) (n : Nat) : (t.advance n).work = t.work := rfl
@[simp] theorem advance_regs (t : Thread) (n : Nat) : (t.advance n).regs = t.regs := rfl
@[simp] theorem advance_preds (t : Thread) (n : Nat) : (t.advance n).preds = t.preds := rfl
@[simp] theorem advance_sticky (t : Thread) (n : Nat) : (t.advance n).sticky = t.sticky := rfl
@[simp] theorem advance_trapDepth (t : Thread) (n : Nat) : (t.advance n).trapDepth = t.trapDepth := rfl
@[simp] theorem advance_trapCause (t : Thread) (n : Nat) : (t.advance n).trapCause = t.trapCause := rfl
@[simp] theorem advance_trapAddr (t : Thread) (n : Nat) : (t.advance n).trapAddr = t.trapAddr := rfl
@[simp] theorem advance_age (t : Thread) (n : Nat) : (t.advance n).age = t.age := rfl
@[simp] theorem advance_yielded (t : Thread) (n : Nat) : (t.advance n).yielded = t.yielded := rfl
@[simp] theorem advance_pend (t : Thread) (n : Nat) : (t.advance n).pend = t.pend := rfl
@[simp] theorem advance_locked (t : Thread) (n : Nat) : (t.advance n).locked = t.locked := rfl
@[simp] theorem advance_cache (t : Thread) (n : Nat) : (t.advance n).cache = t.cache := rfl
@[simp] theorem advance_sp (t : Thread) (n : Nat) : (t.advance n).sp = t.sp := rfl
@[simp] theorem advance_spilled (t : Thread) (n : Nat) : (t.advance n).spilled = t.spilled := rfl
@[simp] theorem setPred_pos (t : Thread) (p : PredReg) (v : Bool) : (t.setPred p v).pos = t.pos := by
  unfold Thread.setPred; split <;> rfl
@[simp] theorem setPred_blk (t : Thread) (p : PredReg) (v : Bool) : (t.setPred p v).blk = t.blk := by
  unfold Thread.setPred; split <;> rfl
@[simp] theorem setPred_off (t : Thread) (p : PredReg) (v : Bool) : (t.setPred p v).off = t.off := by
  unfold Thread.setPred; split <;> rfl
@[simp] theorem setPred_row (t : Thread) (p : PredReg) (v : Bool) : (t.setPred p v).row = t.row := by
  unfold Thread.setPred; split <;> rfl
@[simp] theorem setPred_work (t : Thread) (p : PredReg) (v : Bool) : (t.setPred p v).work = t.work := by
  unfold Thread.setPred; split <;> rfl
@[simp] theorem setPred_regs (t : Thread) (p : PredReg) (v : Bool) : (t.setPred p v).regs = t.regs := by
  unfold Thread.setPred; split <;> rfl
@[simp] theorem setPred_sticky (t : Thread) (p : PredReg) (v : Bool) : (t.setPred p v).sticky = t.sticky := by
  unfold Thread.setPred; split <;> rfl
@[simp] theorem setPred_trapDepth (t : Thread) (p : PredReg) (v : Bool) : (t.setPred p v).trapDepth = t.trapDepth := by
  unfold Thread.setPred; split <;> rfl
@[simp] theorem setPred_trapCause (t : Thread) (p : PredReg) (v : Bool) : (t.setPred p v).trapCause = t.trapCause := by
  unfold Thread.setPred; split <;> rfl
@[simp] theorem setPred_trapAddr (t : Thread) (p : PredReg) (v : Bool) : (t.setPred p v).trapAddr = t.trapAddr := by
  unfold Thread.setPred; split <;> rfl
@[simp] theorem setPred_retired (t : Thread) (p : PredReg) (v : Bool) : (t.setPred p v).retired = t.retired := by
  unfold Thread.setPred; split <;> rfl
@[simp] theorem setPred_age (t : Thread) (p : PredReg) (v : Bool) : (t.setPred p v).age = t.age := by
  unfold Thread.setPred; split <;> rfl
@[simp] theorem setPred_yielded (t : Thread) (p : PredReg) (v : Bool) : (t.setPred p v).yielded = t.yielded := by
  unfold Thread.setPred; split <;> rfl
@[simp] theorem setPred_pend (t : Thread) (p : PredReg) (v : Bool) : (t.setPred p v).pend = t.pend := by
  unfold Thread.setPred; split <;> rfl
@[simp] theorem setPred_locked (t : Thread) (p : PredReg) (v : Bool) : (t.setPred p v).locked = t.locked := by
  unfold Thread.setPred; split <;> rfl
@[simp] theorem setPred_cache (t : Thread) (p : PredReg) (v : Bool) : (t.setPred p v).cache = t.cache := by
  unfold Thread.setPred; split <;> rfl
@[simp] theorem setPred_sp (t : Thread) (p : PredReg) (v : Bool) : (t.setPred p v).sp = t.sp := by
  unfold Thread.setPred; split <;> rfl
@[simp] theorem setPred_susp (t : Thread) (p : PredReg) (v : Bool) : (t.setPred p v).susp = t.susp := by
  unfold Thread.setPred; split <;> rfl
@[simp] theorem setPred_suspended (t : Thread) (p : PredReg) (v : Bool) : (t.setPred p v).suspended = t.suspended := by
  unfold Thread.setPred; split <;> rfl
@[simp] theorem setPred_expired (t : Thread) (p : PredReg) (v : Bool) : (t.setPred p v).expired = t.expired := by
  unfold Thread.setPred; split <;> rfl
@[simp] theorem setPred_walkFail (t : Thread) (p : PredReg) (v : Bool) : (t.setPred p v).walkFail = t.walkFail := by
  unfold Thread.setPred; split <;> rfl
@[simp] theorem setPred_spilled (t : Thread) (p : PredReg) (v : Bool) : (t.setPred p v).spilled = t.spilled := by
  unfold Thread.setPred; split <;> rfl
@[simp] theorem setPred_raised (t : Thread) (p : PredReg) (v : Bool) : (t.setPred p v).raised = t.raised := by
  unfold Thread.setPred; split <;> rfl
@[simp] theorem dset_pos (t : Thread) (i : Nat) (v : Dword) : (t.dset i v).pos = t.pos := by
  simp [Thread.dset]
@[simp] theorem dset_blk (t : Thread) (i : Nat) (v : Dword) : (t.dset i v).blk = t.blk := by
  simp [Thread.dset]
@[simp] theorem dset_off (t : Thread) (i : Nat) (v : Dword) : (t.dset i v).off = t.off := by
  simp [Thread.dset]
@[simp] theorem dset_row (t : Thread) (i : Nat) (v : Dword) : (t.dset i v).row = t.row := by
  simp [Thread.dset]
@[simp] theorem dset_regs (t : Thread) (i : Nat) (v : Dword) : (t.dset i v).regs = t.regs := by
  simp [Thread.dset]
@[simp] theorem dset_preds (t : Thread) (i : Nat) (v : Dword) : (t.dset i v).preds = t.preds := by
  simp [Thread.dset]
@[simp] theorem dset_trapDepth (t : Thread) (i : Nat) (v : Dword) : (t.dset i v).trapDepth = t.trapDepth := by
  simp [Thread.dset]
@[simp] theorem dset_trapCause (t : Thread) (i : Nat) (v : Dword) : (t.dset i v).trapCause = t.trapCause := by
  simp [Thread.dset]
@[simp] theorem dset_trapAddr (t : Thread) (i : Nat) (v : Dword) : (t.dset i v).trapAddr = t.trapAddr := by
  simp [Thread.dset]
@[simp] theorem dset_retired (t : Thread) (i : Nat) (v : Dword) : (t.dset i v).retired = t.retired := by
  simp [Thread.dset]
@[simp] theorem dset_age (t : Thread) (i : Nat) (v : Dword) : (t.dset i v).age = t.age := by
  simp [Thread.dset]
@[simp] theorem dset_yielded (t : Thread) (i : Nat) (v : Dword) : (t.dset i v).yielded = t.yielded := by
  simp [Thread.dset]
@[simp] theorem dset_pend (t : Thread) (i : Nat) (v : Dword) : (t.dset i v).pend = t.pend := by
  simp [Thread.dset]
@[simp] theorem dset_locked (t : Thread) (i : Nat) (v : Dword) : (t.dset i v).locked = t.locked := by
  simp [Thread.dset]
@[simp] theorem dset_cache (t : Thread) (i : Nat) (v : Dword) : (t.dset i v).cache = t.cache := by
  simp [Thread.dset]
@[simp] theorem dset_sp (t : Thread) (i : Nat) (v : Dword) : (t.dset i v).sp = t.sp := by
  simp [Thread.dset]
@[simp] theorem dset_susp (t : Thread) (i : Nat) (v : Dword) : (t.dset i v).susp = t.susp := by
  simp [Thread.dset]
@[simp] theorem dset_suspended (t : Thread) (i : Nat) (v : Dword) : (t.dset i v).suspended = t.suspended := by
  simp [Thread.dset]
@[simp] theorem dset_expired (t : Thread) (i : Nat) (v : Dword) : (t.dset i v).expired = t.expired := by
  simp [Thread.dset]
@[simp] theorem dset_walkFail (t : Thread) (i : Nat) (v : Dword) : (t.dset i v).walkFail = t.walkFail := by
  simp [Thread.dset]
@[simp] theorem dset_spilled (t : Thread) (i : Nat) (v : Dword) : (t.dset i v).spilled = t.spilled := by
  simp [Thread.dset]
@[simp] theorem dset_raised (t : Thread) (i : Nat) (v : Dword) : (t.dset i v).raised = t.raised := by
  simp [Thread.dset]
@[simp] theorem wins_pos (t : Thread) (d : Reg) (r : Nat × BitVec 7) : (t.wins d r).pos = t.pos := by
  simp [Thread.wins]
@[simp] theorem wins_blk (t : Thread) (d : Reg) (r : Nat × BitVec 7) : (t.wins d r).blk = t.blk := by
  simp [Thread.wins]
@[simp] theorem wins_off (t : Thread) (d : Reg) (r : Nat × BitVec 7) : (t.wins d r).off = t.off := by
  simp [Thread.wins]
@[simp] theorem wins_row (t : Thread) (d : Reg) (r : Nat × BitVec 7) : (t.wins d r).row = t.row := by
  simp [Thread.wins]
@[simp] theorem wins_regs (t : Thread) (d : Reg) (r : Nat × BitVec 7) : (t.wins d r).regs = t.regs := by
  simp [Thread.wins]
@[simp] theorem wins_preds (t : Thread) (d : Reg) (r : Nat × BitVec 7) : (t.wins d r).preds = t.preds := by
  simp [Thread.wins]
@[simp] theorem wins_trapDepth (t : Thread) (d : Reg) (r : Nat × BitVec 7) : (t.wins d r).trapDepth = t.trapDepth := by
  simp [Thread.wins]
@[simp] theorem wins_trapCause (t : Thread) (d : Reg) (r : Nat × BitVec 7) : (t.wins d r).trapCause = t.trapCause := by
  simp [Thread.wins]
@[simp] theorem wins_trapAddr (t : Thread) (d : Reg) (r : Nat × BitVec 7) : (t.wins d r).trapAddr = t.trapAddr := by
  simp [Thread.wins]
@[simp] theorem wins_retired (t : Thread) (d : Reg) (r : Nat × BitVec 7) : (t.wins d r).retired = t.retired := by
  simp [Thread.wins]
@[simp] theorem wins_age (t : Thread) (d : Reg) (r : Nat × BitVec 7) : (t.wins d r).age = t.age := by
  simp [Thread.wins]
@[simp] theorem wins_yielded (t : Thread) (d : Reg) (r : Nat × BitVec 7) : (t.wins d r).yielded = t.yielded := by
  simp [Thread.wins]
@[simp] theorem wins_pend (t : Thread) (d : Reg) (r : Nat × BitVec 7) : (t.wins d r).pend = t.pend := by
  simp [Thread.wins]
@[simp] theorem wins_locked (t : Thread) (d : Reg) (r : Nat × BitVec 7) : (t.wins d r).locked = t.locked := by
  simp [Thread.wins]
@[simp] theorem wins_cache (t : Thread) (d : Reg) (r : Nat × BitVec 7) : (t.wins d r).cache = t.cache := by
  simp [Thread.wins]
@[simp] theorem wins_sp (t : Thread) (d : Reg) (r : Nat × BitVec 7) : (t.wins d r).sp = t.sp := by
  simp [Thread.wins]
@[simp] theorem wins_susp (t : Thread) (d : Reg) (r : Nat × BitVec 7) : (t.wins d r).susp = t.susp := by
  simp [Thread.wins]
@[simp] theorem wins_suspended (t : Thread) (d : Reg) (r : Nat × BitVec 7) : (t.wins d r).suspended = t.suspended := by
  simp [Thread.wins]
@[simp] theorem wins_expired (t : Thread) (d : Reg) (r : Nat × BitVec 7) : (t.wins d r).expired = t.expired := by
  simp [Thread.wins]
@[simp] theorem wins_walkFail (t : Thread) (d : Reg) (r : Nat × BitVec 7) : (t.wins d r).walkFail = t.walkFail := by
  simp [Thread.wins]
@[simp] theorem wins_spilled (t : Thread) (d : Reg) (r : Nat × BitVec 7) : (t.wins d r).spilled = t.spilled := by
  simp [Thread.wins]
@[simp] theorem wins_raised (t : Thread) (d : Reg) (r : Nat × BitVec 7) : (t.wins d r).raised = t.raised := by
  simp [Thread.wins]
@[simp] theorem pends_pos (t : Thread) (l : List Nat) : (t.pends l).pos = t.pos := note_pos ..
@[simp] theorem pends_blk (t : Thread) (l : List Nat) : (t.pends l).blk = t.blk := note_blk ..
@[simp] theorem pends_off (t : Thread) (l : List Nat) : (t.pends l).off = t.off := note_off ..
@[simp] theorem pends_row (t : Thread) (l : List Nat) : (t.pends l).row = t.row := note_row ..
@[simp] theorem pends_work (t : Thread) (l : List Nat) : (t.pends l).work = t.work := note_work ..
@[simp] theorem pends_regs (t : Thread) (l : List Nat) : (t.pends l).regs = t.regs := note_regs ..
@[simp] theorem pends_preds (t : Thread) (l : List Nat) : (t.pends l).preds = t.preds := note_preds ..
@[simp] theorem pends_trapDepth (t : Thread) (l : List Nat) : (t.pends l).trapDepth = t.trapDepth := note_trapDepth ..
@[simp] theorem pends_trapCause (t : Thread) (l : List Nat) : (t.pends l).trapCause = t.trapCause := note_trapCause ..
@[simp] theorem pends_trapAddr (t : Thread) (l : List Nat) : (t.pends l).trapAddr = t.trapAddr := note_trapAddr ..
@[simp] theorem pends_retired (t : Thread) (l : List Nat) : (t.pends l).retired = t.retired := note_retired ..
@[simp] theorem pends_age (t : Thread) (l : List Nat) : (t.pends l).age = t.age := note_age ..
@[simp] theorem pends_yielded (t : Thread) (l : List Nat) : (t.pends l).yielded = t.yielded := note_yielded ..
@[simp] theorem pends_cache (t : Thread) (l : List Nat) : (t.pends l).cache = t.cache := note_cache ..
@[simp] theorem pends_sp (t : Thread) (l : List Nat) : (t.pends l).sp = t.sp := note_sp ..
@[simp] theorem pends_susp (t : Thread) (l : List Nat) : (t.pends l).susp = t.susp := note_susp ..
@[simp] theorem pends_suspended (t : Thread) (l : List Nat) : (t.pends l).suspended = t.suspended := note_suspended ..
@[simp] theorem pends_expired (t : Thread) (l : List Nat) : (t.pends l).expired = t.expired := note_expired ..
@[simp] theorem pends_walkFail (t : Thread) (l : List Nat) : (t.pends l).walkFail = t.walkFail := note_walkFail ..
@[simp] theorem pends_spilled (t : Thread) (l : List Nat) : (t.pends l).spilled = t.spilled := note_spilled ..
@[simp] theorem pends_raised (t : Thread) (l : List Nat) : (t.pends l).raised = t.raised := note_raised ..
@[simp] theorem advance_off (t : Thread) (n : Nat) : (t.advance n).off = t.off + n := rfl
@[simp] theorem advance_retired (t : Thread) (n : Nat) : (t.advance n).retired = t.retired + BitVec.ofNat 64 n := rfl

end Sys2Proof.Machine
end

