-- ==== Sys2Proof/Laws/Maps.lean ====
section
/-!
SUPPORT. Tables in canonical form: what a table reads as after a write, that every operation on tables keeps the canonical form, and the
same for the bytes of memory.
-/

namespace Sys2Proof.Machine

variable {α : Type}

/-! ## Keys -/

theorem keysRise_cons {j : Nat} {v : α} {m : NMap α} :
    keysRise ((j, v) :: m) = true ↔ (∀ e ∈ m, j < e.1) ∧ keysRise m = true := by
  induction m generalizing j v with
  | nil => simp [keysRise]
  | cons e m ih =>
    obtain ⟨k, w⟩ := e
    simp only [keysRise, Bool.and_eq_true, decide_eq_true_eq, List.mem_cons, forall_eq_or_imp]
    constructor
    · rintro ⟨h, hr⟩
      exact ⟨⟨h, fun e he => Nat.lt_trans h ((ih.1 hr).1 e he)⟩, hr⟩
    · rintro ⟨⟨h, _⟩, hr⟩
      exact ⟨h, hr⟩

theorem findKey_none {m : NMap α} {k : Nat} (h : ∀ e ∈ m, k < e.1) : findKey k m = none := by
  induction m with
  | nil => rfl
  | cons e m ih =>
    have := h e (List.mem_cons_self ..)
    simp only [findKey]
    rw [if_neg (by omega)]
    exact ih fun e he => h e (List.mem_cons_of_mem _ he)

@[simp] theorem findKey_putKey (k j : Nat) (v : α) (m : NMap α) :
    findKey j (putKey k v m) = if j = k then some v else findKey j m := by
  induction m with
  | nil => simp [putKey, findKey, eq_comm]
  | cons e m ih =>
    obtain ⟨i, u⟩ := e
    simp only [putKey]
    split
    · simp [findKey, eq_comm]
    · split
      · rename_i h; subst h; simp only [findKey]; split <;> simp_all [eq_comm]
      · simp only [findKey, ih]; split <;> simp_all

theorem findKey_delKey_of_ne {k j : Nat} (h : j ≠ k) (m : NMap α) : findKey j (delKey k m) = findKey j m := by
  induction m with
  | nil => rfl
  | cons e m ih =>
    obtain ⟨i, u⟩ := e
    simp only [delKey]
    split
    · rename_i hi; subst hi; simp [findKey, Ne.symm h]
    · simp only [findKey, ih]

theorem findKey_delKey_self {k : Nat} {m : NMap α} (h : keysRise m = true) : findKey k (delKey k m) = none := by
  induction m with
  | nil => rfl
  | cons e m ih =>
    obtain ⟨i, u⟩ := e
    have h' := keysRise_cons.1 h
    simp only [delKey]
    split
    · rename_i hi; subst hi; exact findKey_none h'.1
    · simp_all [findKey]

theorem mem_putKey {k : Nat} {v : α} {m : NMap α} {e : Nat × α} (h : e ∈ putKey k v m) : e = (k, v) ∨ e ∈ m := by
  induction m with
  | nil => simpa [putKey] using h
  | cons i m ih =>
    obtain ⟨i, u⟩ := i
    simp only [putKey] at h
    split at h
    · simpa using h
    · split at h
      · rcases List.mem_cons.1 h with h | h
        · exact .inl h
        · exact .inr (List.mem_cons_of_mem _ h)
      · rcases List.mem_cons.1 h with h | h
        · exact .inr (h ▸ List.mem_cons_self ..)
        · rcases ih h with h | h
          · exact .inl h
          · exact .inr (List.mem_cons_of_mem _ h)

theorem mem_delKey {k : Nat} {m : NMap α} {e : Nat × α} (h : e ∈ delKey k m) : e ∈ m := by
  induction m with
  | nil => exact h
  | cons i m ih =>
    obtain ⟨i, u⟩ := i
    simp only [delKey] at h
    split at h
    · exact List.mem_cons_of_mem _ h
    · rcases List.mem_cons.1 h with h | h
      · exact h ▸ List.mem_cons_self ..
      · exact List.mem_cons_of_mem _ (ih h)

theorem keysRise_putKey {k : Nat} {v : α} {m : NMap α} (h : keysRise m = true) : keysRise (putKey k v m) = true := by
  induction m with
  | nil => rfl
  | cons i m ih =>
    obtain ⟨i, u⟩ := i
    have h' := keysRise_cons.1 h
    simp only [putKey]
    split
    · rename_i hk
      refine keysRise_cons.2 ⟨?_, h⟩
      intro e he
      rcases List.mem_cons.1 he with rfl | he
      · exact hk
      · exact Nat.lt_trans hk (h'.1 e he)
    · split
      · rename_i hk; subst hk; exact keysRise_cons.2 h'
      · refine keysRise_cons.2 ⟨?_, ih h'.2⟩
        intro e he
        rcases mem_putKey he with rfl | he
        · show i < k; omega
        · exact h'.1 e he

theorem keysRise_delKey {k : Nat} {m : NMap α} (h : keysRise m = true) : keysRise (delKey k m) = true := by
  induction m with
  | nil => rfl
  | cons i m ih =>
    obtain ⟨i, u⟩ := i
    have h' := keysRise_cons.1 h
    simp only [delKey]
    split
    · exact h'.2
    · exact keysRise_cons.2 ⟨fun e he => h'.1 e (mem_delKey he), ih h'.2⟩

theorem keysRise_filter {m : NMap α} (p : Nat × α → Bool) (h : keysRise m = true) : keysRise (m.filter p) = true := by
  induction m with
  | nil => rfl
  | cons i m ih =>
    obtain ⟨i, u⟩ := i
    have h' := keysRise_cons.1 h
    simp only [List.filter_cons]
    split
    · exact keysRise_cons.2 ⟨fun e he => h'.1 e ((List.mem_filter.1 he).1), ih h'.2⟩
    · exact ih h'.2

/-! ## The canonical form -/

variable [DecidableEq α] {dflt : α} {m : NMap α}

theorem canonical_iff : canonical dflt m = true ↔ keysRise m = true ∧ ∀ e ∈ m, e.2 ≠ dflt := by
  simp [canonical]

theorem canonical_setKey (h : canonical dflt m = true) (k : Nat) (v : α) : canonical dflt (setKey dflt m k v) = true := by
  rw [canonical_iff] at *
  unfold setKey
  split
  · exact ⟨keysRise_delKey h.1, fun e he => h.2 e (mem_delKey he)⟩
  · rename_i hv
    refine ⟨keysRise_putKey h.1, fun e he => ?_⟩
    rcases mem_putKey he with rfl | he
    · exact hv
    · exact h.2 e he

theorem canonical_filter (h : canonical dflt m = true) (p : Nat × α → Bool) : canonical dflt (m.filter p) = true := by
  rw [canonical_iff] at *
  exact ⟨keysRise_filter p h.1, fun e he => h.2 e ((List.mem_filter.1 he).1)⟩

/-- A table reads what was written to it; every other key reads as before. -/
theorem getKey_setKey (h : canonical dflt m = true) (k j : Nat) (v : α) :
    getKey dflt (setKey dflt m k v) j = if j = k then v else getKey dflt m j := by
  rw [canonical_iff] at h
  unfold setKey getKey
  split
  · rename_i hv
    by_cases hj : j = k
    · subst hj; simp [findKey_delKey_self h.1, hv]
    · simp [findKey_delKey_of_ne hj, hj]
  · simp only [findKey_putKey]
    split <;> simp

/-! ## Bytes -/

theorem Memory.wf_setByte {m : NMap Byte} (h : Memory.wf m = true) (a : Nat) (v : Byte) : Memory.wf (setByte m a v) = true :=
  canonical_setKey h a v
theorem byteAt_setByte {m : NMap Byte} (h : Memory.wf m = true) (a b : Nat) (v : Byte) :
    byteAt (setByte m a v) b = if b = a then v else byteAt m b := getKey_setKey h a b v

theorem Memory.wf_writeLE {m : NMap Byte} (h : Memory.wf m = true) (a v n : Nat) : Memory.wf (writeLE m a v n) = true := by
  induction n generalizing m a v with
  | zero => exact h
  | succ n ih => exact ih (Memory.wf_setByte h _ _) _ _
theorem Memory.wf_writeBytes {m : NMap Byte} (h : Memory.wf m = true) (a : Nat) (bs : List Byte) :
    Memory.wf (writeBytes m a bs) = true := by
  induction bs generalizing m a with
  | nil => exact h
  | cons b bs ih => exact ih (Memory.wf_setByte h _ _) _
theorem Memory.wf_clearRange {m : NMap Byte} (h : Memory.wf m = true) (a n : Nat) : Memory.wf (clearRange m a n) = true :=
  canonical_filter h _

/-- A byte of a value written: the value's byte within the range, the byte of before outside it. -/
theorem byteAt_writeLE {m : NMap Byte} (h : Memory.wf m = true) (a v n b : Nat) :
    byteAt (writeLE m a v n) b =
      if a ≤ b ∧ b < a + n then BitVec.ofNat 8 (v / 256 ^ (b - a)) else byteAt m b := by
  induction n generalizing m a v with
  | zero => rw [if_neg (by omega)]; rfl
  | succ n ih =>
    simp only [writeLE]
    rw [ih (Memory.wf_setByte h _ _), byteAt_setByte h]
    by_cases h1 : a + 1 ≤ b ∧ b < a + 1 + n
    · rw [if_pos h1, if_pos (by omega)]
      have : b - a = b - (a + 1) + 1 := by omega
      rw [this, Nat.pow_succ, Nat.mul_comm, Nat.div_div_eq_div_mul]
    · rw [if_neg h1]
      by_cases h2 : b = a
      · subst h2; simp
      · rw [if_neg h2, if_neg (by omega)]
theorem byteAt_writeBytes {m : NMap Byte} (h : Memory.wf m = true) (a : Nat) (bs : List Byte) (b : Nat) :
    byteAt (writeBytes m a bs) b = if a ≤ b ∧ b < a + bs.length then (bs[b - a]?).getD 0#8 else byteAt m b := by
  induction bs generalizing m a with
  | nil => rw [if_neg (by simp only [List.length_nil]; omega)]; rfl
  | cons x bs ih =>
    simp only [writeBytes, List.length_cons]
    rw [ih (Memory.wf_setByte h _ _), byteAt_setByte h]
    by_cases h1 : a + 1 ≤ b ∧ b < a + 1 + bs.length
    · rw [if_pos h1, if_pos (by omega)]
      have : b - a = b - (a + 1) + 1 := by omega
      rw [this, List.getElem?_cons_succ]
    · rw [if_neg h1]
      by_cases h2 : b = a
      · subst h2; simp
      · rw [if_neg h2, if_neg (by omega)]
theorem readLE_lt (m : NMap Byte) (a n : Nat) : readLE m a n < 256 ^ n := by
  induction n generalizing a with
  | zero => simp [readLE]
  | succ n ih =>
    have h1 := (byteAt m a).isLt
    have h2 := ih (a + 1)
    simp only [readLE, Nat.pow_succ]
    omega
/-- Two tables that agree on a range read the same value from it. -/
theorem readLE_congr {m t : NMap Byte} {a n : Nat} (h : ∀ b, a ≤ b → b < a + n → byteAt m b = byteAt t b) :
    readLE m a n = readLE t a n := by
  induction n generalizing a with
  | zero => rfl
  | succ n ih =>
    simp only [readLE]
    rw [h a (Nat.le_refl _) (by omega), ih fun b h1 h2 => h b (by omega) (by omega)]
/-- What was written reads back. -/
theorem readLE_writeLE {m : NMap Byte} (h : Memory.wf m = true) (a v n : Nat) : readLE (writeLE m a v n) a n = v % 256 ^ n := by
  induction n generalizing m a v with
  | zero => simp [readLE, Nat.mod_one]
  | succ n ih =>
    have h' : Memory.wf (setByte m a (BitVec.ofNat 8 v)) = true := Memory.wf_setByte h _ _
    show (byteAt (writeLE (setByte m a (BitVec.ofNat 8 v)) (a + 1) (v / 256) n) a).toNat +
      256 * readLE (writeLE (setByte m a (BitVec.ofNat 8 v)) (a + 1) (v / 256) n) (a + 1) n = _
    rw [byteAt_writeLE h', if_neg (by omega), byteAt_setByte h, if_pos rfl, ih h', BitVec.toNat_ofNat,
      show 256 ^ (n + 1) = 256 * 256 ^ n from Nat.mul_comm .., Nat.mod_mul]

/-! ## The device's memory -/

theorem invalidates_mem (ls : List Nat) (d : Dev) : (ls.foldl Dev.invalidate d).mem = d.mem := by
  induction ls generalizing d with
  | nil => rfl
  | cons l ls ih => rw [List.foldl_cons, ih, invalidate_mem]
theorem wr_mem (d : Dev) (pa n v : Nat) : (d.wr pa n v).mem = writeLE d.mem pa v n := by simp [Dev.wr, invalidates_mem]
theorem wrBytes_mem (d : Dev) (pa : Nat) (bs : List Byte) : (d.wrBytes pa bs).mem = writeBytes d.mem pa bs := by
  simp [Dev.wrBytes, invalidates_mem]
theorem examine_mem (d : Dev) (die id : Nat) : (d.examine die id).mem = d.mem := by
  unfold Dev.examine; simp only [modDie_mem]
theorem watchDie_mem (d : Dev) (pa n die : Nat) : (d.watchDie pa n die).mem = d.mem := by
  unfold Dev.watchDie
  have key : ∀ (l : List Launch) (e : Dev), (l.foldl (fun d l => d.examine die l.id) e).mem = e.mem := by
    intro l
    induction l with
    | nil => exact fun _ => rfl
    | cons a l ih => exact fun e => (ih _).trans (examine_mem ..)
  exact key _ _
theorem watch_mem (d : Dev) (pa n : Nat) : (d.watch pa n).mem = d.mem := by simp [Dev.watch, watchDie_mem]
theorem store_mem (d : Dev) (pa n v : Nat) : (d.store pa n v).mem = writeLE d.mem pa v n := by
  rw [Dev.store, watch_mem, wr_mem]
theorem storeBytes_mem (d : Dev) (pa : Nat) (bs : List Byte) : (d.storeBytes pa bs).mem = writeBytes d.mem pa bs := by
  rw [Dev.storeBytes, watch_mem, wrBytes_mem]

/-- Every write of main memory keeps the canonical form. -/
theorem wf_wr {d : Dev} (h : Memory.wf d.mem = true) (pa n v : Nat) : Memory.wf (d.wr pa n v).mem = true := by
  rw [wr_mem]; exact Memory.wf_writeLE h _ _ _
theorem wf_wrBytes {d : Dev} (h : Memory.wf d.mem = true) (pa : Nat) (bs : List Byte) : Memory.wf (d.wrBytes pa bs).mem = true := by
  rw [wrBytes_mem]; exact Memory.wf_writeBytes h _ _
theorem wf_store {d : Dev} (h : Memory.wf d.mem = true) (pa n v : Nat) : Memory.wf (d.store pa n v).mem = true := by
  rw [store_mem]; exact Memory.wf_writeLE h _ _ _
theorem wf_storeBytes {d : Dev} (h : Memory.wf d.mem = true) (pa : Nat) (bs : List Byte) :
    Memory.wf (d.storeBytes pa bs).mem = true := by
  rw [storeBytes_mem]; exact Memory.wf_writeBytes h _ _
theorem flush_mem (d : Dev) (pa n : Nat) : (d.flush pa n).mem = d.mem := invalidates_mem ..
@[simp] theorem counted_mem (d : Dev) (o : PostOrder) : (d.counted o).mem = d.mem := by
  cases o <;> simp [Dev.counted, Dev.modCtx, modDie_mem]
/-- A write of firmware or of the companion is performed, or waits and leaves memory alone (R137). -/
theorem post_mem (d : Dev) (o : PostOrder) (pa : Nat) (bs : List Byte) :
    (d.post o pa bs).mem = if d.clean pa bs.length && !o.behind d.posted then writeBytes d.mem pa bs else d.mem := by
  unfold Dev.post
  split
  · rw [counted_mem, storeBytes_mem]
  · exact flush_mem ..
theorem wf_post {d : Dev} (h : Memory.wf d.mem = true) (o : PostOrder) (pa : Nat) (bs : List Byte) :
    Memory.wf (d.post o pa bs).mem = true := by
  rw [post_mem]
  split
  · exact Memory.wf_writeBytes h _ _
  · exact h
theorem wf_postBytes {d : Dev} (h : Memory.wf d.mem = true) (pa : Nat) (bs : List Byte) :
    Memory.wf (d.postBytes pa bs).mem = true := wf_post h _ _ _
theorem wf_unpost {d : Dev} (h : Memory.wf d.mem = true) (ps kept : List Posted) : Memory.wf (d.unpost ps kept).mem = true := by
  induction ps generalizing d kept with
  | nil => exact h
  | cons p ps ih =>
    simp only [Dev.unpost]
    split
    · exact ih (by rw [counted_mem]; exact wf_storeBytes h _ _) _
    · exact ih (by rw [invalidates_mem]; exact h) _
theorem wf_wipe {d : Dev} (h : Memory.wf d.mem = true) (pa n : Nat) : Memory.wf (d.wipe pa n).mem = true := by
  rw [Dev.wipe, watch_mem]; exact Memory.wf_clearRange h _ _
theorem wf_zeroDie {d : Dev} (h : Memory.wf d.mem = true) (die : Nat) : Memory.wf (d.zeroDie die).mem = true := canonical_filter h _
theorem wf_packageReset {d : Dev} (h : Memory.wf d.mem = true) (raw : Nat) (torus : Nat × Nat × Nat) (pkg : BitVec 12) :
    Memory.wf (d.packageReset raw torus pkg).mem = true := canonical_filter h _
theorem wf_clearLine {d : Dev} (h : Memory.wf d.mem = true) (pa : Nat) : Memory.wf (d.clearLine pa).mem = true := by
  simp only [Dev.clearLine]; exact wf_store h _ _ _
theorem wf_wrImage {d : Dev} (h : Memory.wf d.mem = true) (n : Nat) (m : NMap Byte) (ps : List (Nat × Nat)) :
    Memory.wf (d.wrImage n m ps).mem = true := by
  induction ps generalizing d with
  | nil => exact h
  | cons p ps ih =>
    simp only [Dev.wrImage]
    split
    · exact ih h
    · exact ih (wf_postBytes h _ _)
/-- A scratchpad write keeps the canonical form of every scratchpad. -/
theorem wf_scratchWr {d : Dev} (h : ∀ w ∈ d.wgs, Memory.wf w.mem = true) (p : Place) (n v : Nat) :
    ∀ w ∈ (d.scratchWr p n v).wgs, Memory.wf w.mem = true := by
  simp only [Dev.scratchWr, Dev.modWg, List.mem_map]
  rintro _ ⟨w, hw, rfl⟩
  split
  · exact Memory.wf_writeLE (h w hw) _ _ _
  · exact h w hw
theorem wf_scratchWrBytes {d : Dev} (h : ∀ w ∈ d.wgs, Memory.wf w.mem = true) (p : Place) (bs : List Byte) :
    ∀ w ∈ (d.scratchWrBytes p bs).wgs, Memory.wf w.mem = true := by
  simp only [Dev.scratchWrBytes, Dev.modWg, List.mem_map]
  rintro _ ⟨w, hw, rfl⟩
  split
  · exact Memory.wf_writeBytes (h w hw) _ _
  · exact h w hw
theorem wf_reset : Memory.wf State.reset.dev.mem = true := rfl

end Sys2Proof.Machine
end

