-- ==== Sys2Proof/Laws/Ops.lean ====
section
/-!
SUPPORT. The shared operations of instructions and events: what each can do, so that a proof about an instruction cites these and does not
unfold them.
-/

namespace Sys2Proof.Machine

/-! ## From an effect to a step -/

section
variable {s : State} {c : Cur} {n : Nat} {f : Dev → Cur → Act}

theorem act_done {d : Dev} {t : Thread} (hc : s.dev.cur = some c) (hf : f s.dev c = .done d t) :
    s.act n f = .next (s.completes c n d t) := by simp [State.act, hc, hf, State.completes]
theorem act_fault {x : Trap} (hc : s.dev.cur = some c) (hf : f s.dev c = .fault x) : s.act n f = .next (s.traps c x) := by
  simp [State.act, hc, hf, State.traps]
theorem act_wait {d : Dev} {why : Wait} {limit : Option Nat} (hc : s.dev.cur = some c) (hf : f s.dev c = .wait d why limit) :
    s.act n f = .next (s.waits c d why limit) := by simp [State.act, hc, hf, State.waits]
theorem act_leave {d : Dev} {t : Thread} (hc : s.dev.cur = some c) (hf : f s.dev c = .leave d t) :
    s.act n f = .next (s.leaves c d t) := by simp [State.act, hc, hf, State.leaves]
theorem act_after {d : Dev} {t : Thread} {x : Trap} (hc : s.dev.cur = some c) (hf : f s.dev c = .after d t x) :
    s.act n f = .next (s.withDev (d.takeFault c (t.advance n) (c.t.off + n) x c.addr)) := by
  simp [State.act, hc, hf, State.withDev]
theorem act_none (hc : s.dev.cur = none) : s.act n f = .fault .noThread := by simp [State.act, hc]

/-- All that the step of an instruction can be: it answers a next state, in one of five ways, when there is a current thread, and
otherwise the fault noThread. -/
theorem act_cases (n : Nat) (f : Dev → Cur → Act) (s : State) :
    (s.dev.cur = none ∧ s.act n f = .fault .noThread) ∨
    ∃ c, s.dev.cur = some c ∧
      ((∃ d t, f s.dev c = .done d t ∧ s.act n f = .next (s.completes c n d t)) ∨
       (∃ x, f s.dev c = .fault x ∧ s.act n f = .next (s.traps c x)) ∨
       (∃ d t x, f s.dev c = .after d t x ∧
          s.act n f = .next (s.withDev (d.takeFault c (t.advance n) (c.t.off + n) x c.addr))) ∨
       (∃ d why limit, f s.dev c = .wait d why limit ∧ s.act n f = .next (s.waits c d why limit)) ∨
       ∃ d t, f s.dev c = .leave d t ∧ s.act n f = .next (s.leaves c d t)) := by
  cases hc : s.dev.cur with
  | none => exact .inl ⟨rfl, act_none hc⟩
  | some c =>
    refine .inr ⟨c, rfl, ?_⟩
    cases hf : f s.dev c with
    | done d t => exact .inl ⟨d, t, rfl, act_done hc hf⟩
    | fault x => exact .inr (.inl ⟨x, rfl, act_fault hc hf⟩)
    | after d t x => exact .inr (.inr (.inl ⟨d, t, x, rfl, act_after hc hf⟩))
    | wait d why limit => exact .inr (.inr (.inr (.inl ⟨d, why, limit, rfl, act_wait hc hf⟩)))
    | leave d t => exact .inr (.inr (.inr (.inr ⟨d, t, rfl, act_leave hc hf⟩)))

theorem pure_ok {g : Thread → Except Trap Thread} {t : Thread} (hc : s.dev.cur = some c) (hg : g c.t = .ok t) :
    s.pure n g = .next (s.completes c n s.dev t) := act_done hc (by simp [pureAct, hg])
theorem pure_error {g : Thread → Except Trap Thread} {x : Trap} (hc : s.dev.cur = some c) (hg : g c.t = .error x) :
    s.pure n g = .next (s.traps c x) := act_fault hc (by simp [pureAct, hg])

/-- A step of an instruction leaves the management controller and the agenda alone. -/
theorem act_frame {u : State} (h : s.act n f = .next u) : u.mgmt = s.mgmt ∧ u.agenda = s.agenda := by
  rcases act_cases n f s with ⟨_, h'⟩ | ⟨c, _, ⟨d, t, _, h'⟩ | ⟨x, _, h'⟩ | ⟨d, t, x, _, h'⟩ | ⟨d, w, l, _, h'⟩ | ⟨d, t, _, h'⟩⟩ <;>
    rw [h'] at h <;> cases h <;> exact ⟨rfl, rfl⟩
theorem onDev_frame {g : Dev → Dev} {u : State} (h : s.onDev g = .next u) :
    u = s.withDev (g s.dev) := by cases h; rfl
end

/-! ## Registers (R210) -/

theorem regs_le_alloc (t : Thread) : t.regs ≤ t.alloc := by unfold Thread.alloc allocOf; omega
theorem get_ok {t : Thread} {i : Nat} (h : i < t.alloc) : t.get i = .ok (t.val i) := by
  unfold Thread.val Thread.get
  by_cases h1 : i < t.regs
  · simp only [if_pos h1]
  · simp only [if_neg h1, if_pos h]
theorem get_error {t : Thread} {i : Nat} (h : t.alloc ≤ i) : t.get i = .error regRange := by
  have := regs_le_alloc t
  simp only [Thread.get, if_neg (show ¬i < t.regs by omega), if_neg (show ¬i < t.alloc by omega)]
theorem put_ok {t : Thread} {i : Nat} (v : Word) (h : i < t.alloc) : t.put i v = .ok (t.set i v) := by
  unfold Thread.set Thread.put
  by_cases h1 : i < t.regs
  · simp only [if_pos h1]
  · simp only [if_neg h1, if_pos h]
theorem put_error {t : Thread} {i : Nat} (v : Word) (h : t.alloc ≤ i) : t.put i v = .error regRange := by
  have := regs_le_alloc t
  simp only [Thread.put, if_neg (show ¬i < t.regs by omega), if_neg (show ¬i < t.alloc by omega)]
/-- What a register reads as. -/
theorem val_eq (t : Thread) (i : Nat) : t.val i = if i < t.regs then wordAt t.work i else 0#32 := by
  unfold Thread.val Thread.get
  by_cases h : i < t.regs
  · simp only [if_pos h]
  · simp only [if_neg h]
    by_cases h2 : i < t.alloc
    · simp only [if_pos h2]
    · simp only [if_neg h2]
@[simp] theorem set_alloc (t : Thread) (i : Nat) (v : Word) : (t.set i v).alloc = t.alloc := by simp [Thread.alloc]
@[simp] theorem note_alloc (t : Thread) (is : List Nat) : (t.note is).alloc = t.alloc := by simp [Thread.alloc]
@[simp] theorem note_val (t : Thread) (is : List Nat) (i : Nat) : (t.note is).val i = t.val i := by simp [val_eq]
theorem getD_ok {t : Thread} {i : Nat} (h : i < t.alloc) (h' : i + 1 < t.alloc) : t.getD i = .ok (t.dval i) := by
  simp only [Thread.getD, get_ok h, get_ok h', Thread.dval]
theorem putD_ok {t : Thread} {i : Nat} (v : Dword) (h : i < t.alloc) (h' : i + 1 < t.alloc) : t.putD i v = .ok (t.dset i v) := by
  simp only [Thread.putD, put_ok _ h, Thread.dset]
  exact put_ok _ (by simpa using h')
theorem able_iff {t : Thread} {is : List Nat} : t.able is = true ↔ ∀ i ∈ is, i < t.alloc := by simp [Thread.able]

/-! ## Scratchpad (R231) -/

theorem scratchWr_mem (d : Dev) (p : Place) (n v : Nat) : (d.scratchWr p n v).mem = d.mem := rfl
theorem scratchWrBytes_mem (d : Dev) (p : Place) (bs : List Byte) : (d.scratchWrBytes p bs).mem = d.mem := rfl
theorem wg_modWg {d : Dev} {u v : Nat} {f : Wg → Wg} (hf : ∀ w, (f w).uid = w.uid) :
    (d.modWg u f).wg? v = if u = v then (d.wg? v).map f else d.wg? v := by
  unfold Dev.modWg Dev.wg?
  simp only [List.find?_map]
  have hp : ((fun w => w.uid == v) ∘ fun w => if w.uid = u then f w else w) = fun w : Wg => w.uid == v := by
    funext w; simp only [Function.comp]; split <;> simp [hf]
  rw [hp]
  split
  · rename_i h; subst h
    cases hw : d.wgs.find? fun w => w.uid == u with
    | none => rfl
    | some w =>
      have := List.find?_some hw
      simp_all
  · rename_i h
    cases hw : d.wgs.find? fun w => w.uid == v with
    | none => rfl
    | some w =>
      have := List.find?_some hw
      have h2 : ¬w.uid = u := by intro h3; simp_all
      simp [h2]

/-! ## What the engines may still see of scratchpad (R237 to R245) -/

/-- A thread with no acquire outstanding makes its access. -/
@[simp] theorem afterAcquire_none {d : Dev} {c : Cur} (h : d.acquiring c.who = []) (f : Dev → Cur → Act) :
    afterAcquire f d c = f d c := if_pos h
/-- Observing, a fence or release, and a thread's writes change the entries for words that may be read as they were, and no more. -/
theorem observe_eq (d : Dev) (who : Nat × Nat) (f : Stale → Bool) :
    d.observe who f = { d with stale := (d.observe who f).stale } := rfl
theorem performed_eq (d : Dev) (who : Nat × Nat) (paths : BitVec 5) (wide : Bool) :
    d.performed who paths wide = { d with stale := (d.performed who paths wide).stale } := rfl
theorem released_eq (d : Dev) (c : Cur) (release wide : Bool) :
    d.released c release wide = { d with stale := (d.released c release wide).stale } := by cases release <;> rfl
/-- An access of a thread adds to the accesses that later commands come after, and changes no more. -/
theorem touch_eq (d : Dev) (who : Nat × Nat) (s : Side) (n : Nat) :
    d.touch who s n = { d with touched := (d.touch who s n).touched } := rfl
theorem thrSaw_eq (d : Dev) (who : Nat × Nat) (p : Place) (n : Nat) :
    d.thrSaw who p n = { d with touched := (d.thrSaw who p n).touched } := rfl
theorem thrOver_eq (d : Dev) (p : Place) (n : Nat) : d.thrOver p n = { d with stale := (d.thrOver p n).stale } := rfl
/-- Where no word may be read as it was, they change nothing. -/
theorem touch_nil {d : Dev} (h : d.stale = []) (who : Nat × Nat) (s : Side) (n : Nat) : d.touch who s n = d := by
  simp only [Dev.touch, h, List.filter_nil, List.map_nil, List.eraseDups_nil, List.append_nil]; rw [← h]
theorem thrSaw_nil {d : Dev} (h : d.stale = []) (who : Nat × Nat) (p : Place) (n : Nat) : d.thrSaw who p n = d := touch_nil h ..
theorem observe_nil {d : Dev} (h : d.stale = []) (who : Nat × Nat) (f : Stale → Bool) : d.observe who f = d := by
  simp only [Dev.observe, h, List.map_nil]; rw [← h]
theorem thrOver_nil {d : Dev} (h : d.stale = []) (p : Place) (n : Nat) : d.thrOver p n = d := by
  simp only [Dev.thrOver, h, List.filter_nil]; rw [← h]
/-- Then every command reads scratchpad as it is. -/
theorem sight_nil {d : Dev} (h : d.stale = []) (x : Cmd) (path : Nat) : d.sight x path = d := by simp [Dev.sight, h]
theorem catchUp_nil {d : Dev} (h : d.stale = []) (x : Cmd) (path : Nat) (near : Stale → Bool) :
    d.catchUp x path near = d := by
  simp only [Dev.catchUp, h, List.foldl_nil]; rw [← h]
/-- A command does not see a word as it was before a write that comes before the command. -/
theorem hidden_past {e : Stale} {x : Cmd} (h : x.past.contains e.cmd = true) (path : Nat) : e.hidden x path = false := by
  simp only [Stale.hidden, h, Bool.not_true, Bool.and_false, Bool.false_and]
/-- What a thread stores to is not read as it was before. -/
theorem thrOver_drops {d : Dev} {p : Place} {n : Nat} {e : Stale} (h : e ∈ (d.thrOver p n).stale) :
    (d.rangeWords p n).contains e.place = false := by
  simp only [Dev.thrOver, List.mem_filter, Bool.not_eq_true'] at h; exact h.2

/-! ## Messages at the die they are for -/

/-- A message that is read and not discarded is taken from the inbox and given on. -/
theorem onMsg_reads {d : Dev} {die idx kind : Nat} {ok : List Dword → Bool} {m : Msg} (h : d.reads die idx kind ok m)
    (f : Dev → Msg → Dev) : d.onMsg die idx kind ok f = f (d.consume die idx) m := by
  obtain ⟨h1, h2, h3, h4, h5, h6, h7⟩ := h
  have hs : d.screen die m = none := by
    simp only [Dev.screen, h4, h5]
    simp only [Bool.false_eq_true, if_false, Bool.not_true]
    split
    · rename_i h; exact absurd (h6 h.1) h.2
    · split
      · rename_i h; simp [h7] at h
      · rfl
  simp [Dev.onMsg, Dev.pick, h1, h2, hs, h3]
@[simp] theorem consume_raw (d : Dev) (die idx : Nat) : (d.consume die idx).raw = d.raw := modDie_raw ..
@[simp] theorem consume_mem (d : Dev) (die idx : Nat) : (d.consume die idx).mem = d.mem := modDie_mem ..
/-- A tagged message read for the first time is applied once, remembered and acknowledged (R78). -/
theorem tagged_new {d : Dev} {die idx kind : Nat} {ok : List Dword → Bool} {m : Msg} {w : Window} {oldest : List Dword → Nat}
    (h : d.reads die idx kind ok m) (hn : d.newTag die idx m (oldest m.ws) w) (wait : Dev → Msg → Option Dev)
    (f : Dev → Msg → Dev × Nat) (hw : wait d m = none) :
    d.tagged die idx kind ok oldest wait f =
      ((f (d.consume die idx) m).1.modDie die fun x =>
        x.putWindow { w with seen := putKey (tagSeq (dwordAt m.ws 2)) (f (d.consume die idx) m).2 w.seen }).acknowledge die
          (dwordAt m.ws 2) (f (d.consume die idx) m).2 := by
  rw [Dev.tagged, onMsg_reads h]
  obtain ⟨⟨v, rfl, hv⟩, h1, h2⟩ := hn
  rcases hv with ⟨ha, hb, rfl⟩ | ⟨u, hu, rfl⟩
  · simp only [ha, consume_raw, Dev.tagged.go, h1, h2, hw,
      show ¬(8192 ≤ ((d.consume die idx).die die).windows.length) by omega, if_false]
    simp
  · simp only [hu, consume_raw, Dev.tagged.go, h1, h2, hw]
    simp

/-! ## Management requests (R139) -/

theorem dropRepeat_none {id : Dword} {qs : List MgmtReq} (h : ∀ r ∈ qs, r.reqid ≠ id) : dropRepeat id qs = none := by
  induction qs with
  | nil => rfl
  | cons q qs ih =>
    simp only [dropRepeat, if_neg (h q (List.mem_cons_self ..)), ih fun r hr => h r (List.mem_cons_of_mem _ hr), Option.map_none]
/-- The oldest request, not repeated and of the operation, with every field valid, is acted on. -/
theorem onRequest_acts {s : State} {q : MgmtReq} {qs : List MgmtReq} {op : Nat} {params : State → List Param} (hq : s.mgmt.requests = q :: qs)
    (hb : 7 ≤ s.mgmt.bootStep) (hr : ∀ r ∈ qs, r.reqid ≠ q.reqid) (ho : q.op = op) (h1 : 1 ≤ op) (h13 : op ≤ 13)
    (hs : paramFault q 0 (params s) = none) (f : State → MgmtReq → State) : State.onRequest op params f s = .next (f s q) := by
  subst ho
  simp only [State.onRequest, hq, if_neg (show ¬s.mgmt.bootStep < 7 by omega), dropRepeat_none hr,
    if_neg (show ¬(q.op = 0 ∨ 13 < q.op) by omega), ne_eq, not_true_eq_false, if_false, hs]

/-! ## The lengths of keys, signatures and reports (R29, R30) -/

@[simp] theorem length_leBytes (v n : Nat) : (leBytes v n).length = n := by
  induction n generalizing v with
  | zero => rfl
  | succ n ih => simp [leBytes, ih]
@[simp] theorem length_ed25519Public (seed : List Byte) : (ed25519Public seed).length = 32 := by simp [ed25519Public, EdPoint.encode]
@[simp] theorem length_ed25519Sign (seed m : List Byte) : (ed25519Sign seed m).length = 64 := by simp [ed25519Sign, EdPoint.encode]
@[simp] theorem length_certificate (svn : Nat) : (certificate svn).length = 128 := by simp [certificate]
@[simp] theorem length_fitBytes (bs : List Byte) (n : Nat) : (fitBytes bs n).length = n := by simp [fitBytes]; omega
@[simp] theorem length_report (g : Running) (nonce : List Byte) (ctx : Option (Nat × List Byte)) : (report g nonce ctx).length = 256 := by
  simp [report]

end Sys2Proof.Machine
end

