-- ==== Sys2Proof/Tests/Slice0.lean ====
section
/-!
SUPPORT. Small tests: instructions that are not well formed, words written out from the encoding tables, results worked out by hand or
given by the spec's examples, and for every statement states and operands that meet its hypotheses.
-/

namespace Sys2Proof.Tests

open Sys2Proof.Machine

-- One theorem at a time: checked side by side they need more threads than the memory limit has stacks for.
set_option Elab.async false

/-! ## Instructions that are not well formed -/

/-- R309: pairs must be even. -/
theorem test_odd_pairs_refused :
    ∀ i ∈ [Instr.dadd 1 2 4, .dsub 2 1 4, .dmul 2 4 1, .dshl 1 2 3, .dshr 2 1 3, .dsar 1 2 3, .mulw 1 2 3, .mulwu 3 2 2, .dmin 1 2 4,
      .dmax 2 3 4, .dminu 2 4 5, .dmaxu 7 2 4, .dmov 2 5, .dsel 2 4 7 false 0, .pmask 1 false 0, .cas 1 2 3 .none .wg, .dcas 1 2 4 .none .wg,
      .gather 1 4 0 .e4, .scatter 3 4 0 .e4, .prefetch 1 0, .pagein 0 1 0, .atomg 0 1 0 .add .none .wg, .casg 0 1 2 .none .wg,
      .dcasg 2 1 4 .none .wg, .xcvt 2 1 false 0, .xcvt 1 2 true 0, .arm 1 0, .waitcnt 3 0, .waitline 0 1 2 0, .waitline 0 2 1 0,
      .invokeDie 1 4 0 none, .invokeAddr 1 4 0 none, .invokeh 1 4 0 none, .reth 1, .hget 0 1 0, .hstat 0 0 1, .hfree 1, .onceclr 0 1 0 false,
      .patgen 0 1 0 false false 0, .srd 1 .wgid, .swr 1 .srseed, .tlbinv 1 0, .tlbw 1 0, .ptld 1 2, .brx 1, .callx 3 0],
      i.wellFormed = false := by decide
/-- R309, R346: groups of four and eight must be aligned. -/
theorem test_groups_refused :
    ∀ i ∈ [Instr.copy 0 2 0 false .ms false none, .gather 2 2 0 .e4, .scatter 2 6 0 .e4, .dcas 2 4 6 .none .wg, .dcasg 2 4 6 .none .wg,
      .invokeDie 2 6 0 none, .rread 0 4 false, .txp 0 2 false { k := .k64, n128 := true, m128 := true },
      .mma 0 2 false { k := .k64, n128 := true, m128 := true } false none, .mmaz 0 2 false { k := .k64, n128 := true, m128 := true } false none,
      .drain 0 2 false .rne false 0, .tquant 0 2 false .rne false 0, .patx 0 2 0 false false 0, .radd 0 2 8 false .win none,
      .radd 0 4 4 false .win none, .cvtnp 0 4 0 .e2m1 .rne false none, .cvtnp 0 2 0 .e4m3 .rne false none, .cvtnp 0 1 0 .bf16 .rne false none],
      i.wellFormed = false := by decide
/-- R317, R368: a token register where no token is asked for. -/
theorem test_token_refused :
    ∀ i ∈ [Instr.copy 1 4 0 false .ms false none, .copyt 1 4 0 false { k := .k64, n128 := true, m128 := true } false none,
      .radd 1 4 0 false .i32 none, .rmin 1 4 0 false .i32 none, .rmax 1 4 0 false .i32 none, .ror 1 4 0 false none, .rwonce 1 4 0 false none,
      .rarrive 1 4 0 false none, .rclose 1 4 false none, .rread 1 8 false, .onceclr 1 4 0 false,
      .txp 1 4 false { k := .k64, n128 := true, m128 := true }, .drain 1 4 false .rne false 0, .patld 1 4 false 0, .patgen 1 4 0 false false 0,
      .patx 1 4 0 false false 0, .patpart 1 4 0 false false 0, .patptr 1 4 0 false false false 0, .patsave 1 4 false 0, .patrest 1 4 false 0],
      i.wellFormed = false := by decide
/-- R335: a field that passes bit 31. R345, R346, R348: formats, rounding modes and the fields they leave unused. R372: sizes of the
stack forms. R373, R310: the forms of ld. -/
theorem test_fields_refused :
    ∀ i ∈ [Instr.bfe 0 0 1 31, .bfeS 0 0 32 0, .bfi 0 0 31 1, .cvtn 0 0 0 .fp32 .rne false none, .cvtn 0 0 1 .bf16 .rne false none,
      .cvtn 0 0 1 .bf16 .sr false none, .cvtn 0 0 0 .bf16 .rne false (some 3), .deq 0 0 0 .bf16 .none, .deq 0 0 1 .e2m1 .none,
      .ldk 0 0 0 .b8, .stk 0 0 0 .b16, .ld 1 0 0 .b64 false none, .st 2 0 0 .b128 false none,
      .ld 0 0 0 .b32 true (some { ordered := true, scope := .wg }), .atom 0 0 1 .ld .none .wg, .atom 0 0 0 .ld .rel .wg,
      .atom 1 0 0 .dadd .none .wg, .atomg 0 2 0 .ld .acqrel .wg], i.wellFormed = false := by decide
/-- R311: hints. -/
theorem test_hints_refused :
    ∀ i ∈ [Instr.copy 0 4 0 false .ms false (some 3), .copyt 0 4 0 false { k := .k64, n128 := true, m128 := true } false (some { da := 0, db := 0, arr := 1 }),
      .radd 0 4 0 false .i32 (some { av := true, arr := 1, nw := 0 }), .radd 0 4 0 false .i32 (some { av := true, arr := 2, nw := 1 }),
      .rarrive 0 4 0 false (some { av := true, arr := 2, nw := 0 }), .rclose 0 4 false (some { av := true, arr := 2, nw := 0 }),
      .invokeDie 2 4 0 (some { av := true, arr := 3, nw := 0 }), .invokeh 2 4 0 (some { av := true, arr := 2, nw := 1 }),
      .drain 0 4 false .rne false 1, .tquant 0 4 false .rtz false 1], i.wellFormed = false := by decide

/-! ## Decoding: words written out from the tables of R308 to R318 -/

theorem test_decode_a : decodeWord .none 0x9C40_8605#32 = .ok (.cas 4 2 6 .acq .cl) ∧
    decodeWord .none 0x4041_4640#32 = .ok (.fadd 4 5 6 .rtz) ∧ decodeWord .none 0x71F1_8702#32 = .ok (.cmpp 3 7 6 7 .eq .signed .and) ∧
    decodeWord .none 0x1C41_3FFF#32 = .ok (.addi 4 4 0x3FFF none) ∧ decodeWord .none 0x1030_4487#32 = .ok (.bfeS 3 1 4 7) ∧
    decodeWord .none 0x6430_4A78#32 = .ok (.cvtn 3 1 10 .e2m1 .sr false none) := ⟨rfl, rfl, rfl, rfl, rfl, rfl⟩
theorem test_decode_remote : decodeWord .none 0xC502_0080#32 = .ok (.rread 16 8 true) ∧
    decodeWord .none 0xC803_0501#32 = .ok (.waitcnt 12 5) ∧ decodeWord .none 0xC803_0E01#32 = .ok (.waitcnt 12 14) ∧
    decodeWord .none 0xC422_00A0#32 = .ok (.xcvt 2 8 false 0) := ⟨rfl, rfl, rfl, rfl⟩
theorem test_decode_handles : decodeWord .none 0xD484_0101#32 = .ok (.hget 8 16 1) ∧ decodeWord .none 0xD403_0000#32 = .ok (.reth 12) ∧
    decodeWord .none 0xD465_0042#32 = .ok (.hstat 2 6 20) := ⟨rfl, rfl, rfl⟩
theorem test_decode_fences : decodeWord .none 0xBD00_80F2#32 = .ok (.fence 0x10 0x02 .die) := rfl
theorem test_decode_control : decodeWord .none 0xE840_8300#32 = .ok (.launch 4 2 3) ∧ decodeWord .none 0xE800_2801#32 = .ok (.grow 40) ∧
    decodeWord .none 0xE800_1002#32 = .ok (.shrink 16) ∧ decodeWord .none 0xE800_2A03#32 = .ok (.trap 0x2A) ∧
    decodeWord .none 0xF380_0004#32 = .ok .exit ∧ decodeWord .none 0xEC00_0002#32 = .ok .halt := ⟨rfl, rfl, rfl, rfl, rfl, rfl⟩
theorem test_decode_special : decodeWord .none 0xE8A0_0A04#32 = .ok (.srd 10 .cycle) ∧ decodeWord .none 0xE810_0504#32 = .ok (.srd 1 .core) ∧
    decodeWord .none 0xE880_0D05#32 = .ok (.swr 8 .srseed) ∧ decodeWord .none 0xE800_8406#32 = .ok (.tlbinv 2 4) ∧
    decodeWord .none 0xEC00_8400#32 = .ok (.tlbw 2 4) := ⟨rfl, rfl, rfl, rfl, rfl⟩
theorem test_decode_pattern : decodeWord .none 0xE4A1_069A#32 = .ok (.patgen 10 4 6 true true 2) ∧
    decodeWord .none 0xE403_0E19#32 = .ok (.patgen 0 12 14 false true 1) := ⟨rfl, rfl⟩
theorem test_decode_matrix : decodeWord .none 0xE004_2880#32 = .ok (.tquant 0 16 false .sr false 128) ∧
    decodeUnit 0xFA03_0400#32 (some 0xDD42_00D8#32) =
      .ok (.mma 20 8 true { k := .k256, n128 := true, m128 := true } false (some { da := 3, db := 4, ta := false, tb := false }), 2) ∧
    decodeUnit 0xFA03_0480#32 (some 0xDD42_00DE#32) =
      .ok (.mmaz 20 8 true { k := .k256, n128 := true, m128 := true } true (some { da := 3, db := 4, ta := true, tb := false }), 2) :=
  ⟨rfl, rfl, rfl⟩
theorem test_decode_hints : decodeUnit 0xF900_9800#32 (some 0xD142_0500#32) = .ok (.invokeDie 20 8 5 (some { av := true, arr := 12, nw := 0 }), 2) ∧
    decodeUnit 0xF900_9400#32 (some 0xC062_0C85#32) = .ok (.radd 6 8 12 true .full (some { av := true, arr := 10, nw := 0 }), 2) ∧
    decodeUnit 0xF803_FFFF#32 (some 0x3850_0000#32) = .ok (.movi 5 0 (some 0x3FFFF), 2) := ⟨rfl, rfl, rfl⟩
/-- R258, R317: the scale code 3 and unassigned operations are no instruction. -/
theorem test_decode_refuses : ∀ w ∈ [0x6D0C_806C#32, 0xFFFF_FFFF#32, 0x0000_0000#32], ∀ i n, decodeUnit w none ≠ .ok (i, n) := by
  intro w hw i n
  simp only [List.mem_cons, List.not_mem_nil, or_false] at hw
  rcases hw with rfl | rfl | rfl <;> exact fun h => by cases h


theorem test_decode_registers :
    decodeWord .none (0x05#6 ++ 2#6 ++ 4#6 ++ 6#6 ++ 0x08#8) = .ok (.dmin 2 4 6) ∧
    decodeWord .none (0x02#6 ++ 1#6 ++ 2#6 ++ 0#6 ++ 0x0A#8) = .ok (.clz 1 2) ∧
    decodeWord .none (0x03#6 ++ 1#6 ++ 2#6 ++ 3#6 ++ 0x00#8) = .ok (.mad 1 2 3) ∧
    decodeWord .none (0x06#6 ++ 8#6 ++ 10#6 ++ 0#6 ++ 0x03#8) = .ok (.dmov 8 10) ∧
    decodeWord .none (0x04#6 ++ 1#6 ++ 2#6 ++ 5#6 ++ 0#1 ++ 1#1 ++ 0#1 ++ 7#5) = .ok (.bfi 1 2 5 7) ∧
    decodeWord .none (0x0B#6 ++ 1#6 ++ 2#6 ++ 31#14) = .ok (.shli 1 2 31 false) := ⟨rfl, rfl, rfl, rfl, rfl, rfl⟩
theorem test_decode_floats :
    decodeWord .none (0x11#6 ++ 1#6 ++ 2#6 ++ 3#6 ++ 2#2 ++ 1#6) = .ok (.ffms 1 2 3 .rup) ∧
    decodeWord .none (0x12#6 ++ 1#6 ++ 2#6 ++ 0#6 ++ 1#8) = .ok (.frsq 1 2) ∧
    decodeWord .none (0x13#6 ++ 1#6 ++ 2#6 ++ 3#6 ++ 3#2 ++ 0#6) = .ok (.badd 1 2 3 .rdn) ∧
    decodeWord .none (0x14#6 ++ 1#6 ++ 2#6 ++ 3#6 ++ 0#2 ++ 5#6) = .ok (.hmax 1 2 3) ∧
    decodeWord .none (0x18#6 ++ 1#6 ++ 2#6 ++ 0#6 ++ 1#2 ++ 6#6) = .ok (.f2h 1 2 .rtz) ∧
    decodeWord .none (0x1A#6 ++ 1#6 ++ 8#6 ++ 0#6 ++ 7#4 ++ 2#3 ++ 1#1) = .ok (.cvtnp 1 8 0 .e2m1 .rup true none) ∧
    decodeWord .none (0x1B#6 ++ 1#6 ++ 2#6 ++ 3#6 ++ 7#4 ++ 1#2 ++ 0#2) = .ok (.deq 1 2 3 .e2m1 .e8m0) :=
  ⟨rfl, rfl, rfl, rfl, rfl, rfl, rfl⟩
theorem test_decode_predicates :
    decodeWord .none (0x1D#6 ++ 3#6 ++ 4#6 ++ 0#6 ++ 3#8) = .ok (.pnot 3 4) ∧
    decodeWord .none (0x1E#6 ++ 1#6 ++ 2#6 ++ 3#6 ++ 0#4 ++ 1#1 ++ 5#3) = .ok (.sel 1 2 3 true 5) ∧
    decodeWord .none (0x20#6 ++ 1#6 ++ 2#6 ++ 3#6 ++ 0#5 ++ 1#1 ++ 3#2) = .ok (.peek 1 2 3 true .flip) ∧
    decodeWord .none (0x21#6 ++ 2#6 ++ 0#6 ++ 0#6 ++ 1#2 ++ 0#2 ++ 1#1 ++ 4#3) = .ok (.pollSome 2 true 4) ∧
    decodeWord .none (0x22#6 ++ 1#6 ++ 2#6 ++ 0#6 ++ 0#4 ++ 8#4) = .ok (.fold 1 2 .fadd) ∧
    decodeWord .none (0x23#6 ++ 1#6 ++ 2#6 ++ 0#6 ++ 0#3 ++ 1#1 ++ 4#4) = .ok (.prefixOp 1 2 true .maxu) := ⟨rfl, rfl, rfl, rfl, rfl, rfl⟩
theorem test_decode_memory :
    decodeWord .none (0x24#6 ++ 3#6 ++ 4#6 ++ 0x3FF#10 ++ 2#3 ++ 1#1) = .ok (.ld 3 4 0x3FF .b32 true none) ∧
    decodeWord .none (0x25#6 ++ 4#6 ++ 5#6 ++ 1#10 ++ 4#3 ++ 0#1) = .ok (.st 4 5 1 .b128 false none) ∧
    decodeWord .none (0x29#6 ++ 2#6 ++ 5#6 ++ 1#10 ++ 3#3 ++ 1#1) = .ok (.stk 2 5 1 .b64) ∧
    decodeWord .none (0x28#6 ++ 1#6 ++ 2#6 ++ 3#6 ++ 4#3 ++ 2#5) = .ok (.barwait 4 1 2 3) ∧
    decodeWord .none (0x26#6 ++ 2#6 ++ 3#6 ++ 4#6 ++ 0xE#4 ++ 2#2 ++ 1#2) = .ok (.atom 2 3 4 .dxchg .rel .cl) ∧
    decodeWord .none (0x2F#6 ++ 2#6 ++ 6#6 ++ 8#6 ++ 1#4 ++ 3#2 ++ 3#2) = .ok (.dcasg 2 6 8 .acqrel .sys) := ⟨rfl, rfl, rfl, rfl, rfl, rfl⟩
theorem test_decode_engines :
    decodeWord .none (0x2A#6 ++ 9#6 ++ 4#6 ++ 3#6 ++ 1#1 ++ 1#2 ++ 0#1 ++ 0#4) = .ok (.copy 9 4 3 true .sm false none) ∧
    decodeWord .none (0x2C#6 ++ 2#6 ++ 4#6 ++ 3#6 ++ 1#1 ++ 1#1 ++ 2#2 ++ 0#4) = .ok (.scatter 2 4 3 .e16) ∧
    decodeWord .none (0x2D#6 ++ 2#6 ++ 4#6 ++ 3#6 ++ 1#1 ++ 1#3 ++ 0#4) = .ok (.pagein 2 4 3) ∧
    decodeWord .none (0x30#6 ++ 0#6 ++ 4#6 ++ 6#6 ++ 0#1 ++ 1#3 ++ 3#4) = .ok (.rmin 0 4 6 false .n64 none) ∧
    decodeWord .none (0x32#6 ++ 2#6 ++ 4#6 ++ 6#6 ++ 5#3 ++ 2#5) = .ok (.waitline 5 2 4 6) ∧
    decodeWord .none (0x34#6 ++ 2#6 ++ 4#6 ++ 6#6 ++ 2#8) = .ok (.invokeh 2 4 6 none) ∧
    decodeWord .none (0x36#6 ++ 0#6 ++ 4#6 ++ 6#6 ++ 0#8) = .ok (.tdset 4 6) ∧
    decodeWord .none (0x39#6 ++ 7#6 ++ 4#6 ++ 6#6 ++ 1#1 ++ 4#3 ++ 0#1 ++ 1#1 ++ 3#2) = .ok (.patptr 7 4 6 true false true 3) :=
  ⟨rfl, rfl, rfl, rfl, rfl, rfl, rfl, rfl⟩
theorem test_decode_terminators :
    decodeWord .none (0x3C#6 ++ 0#3 ++ 0#3 ++ 0xFFFFF#20) = .ok (.bra 0xFFFFF) ∧ decodeWord .none (0x3C#6 ++ 1#3 ++ 5#3 ++ 2#20) = .ok (.brcTrue 5 2) ∧
    decodeWord .none (0x3C#6 ++ 2#3 ++ 5#3 ++ 2#20) = .ok (.brcFalse 5 2) ∧ decodeWord .none (0x3C#6 ++ 3#3 ++ 0#1 ++ 2#2 ++ 9#20) = .ok (.call 2 9) ∧
    decodeWord .none (0x3C#6 ++ 7#3 ++ 0#3 ++ 4#6 ++ 0#4 ++ 3#2 ++ 1#8) = .ok (.callx 4 3) ∧
    decodeWord .none (0x3C#6 ++ 7#3 ++ 0#3 ++ 0#6 ++ 0#4 ++ 0#2 ++ 6#8) = .ok .yield ∧
    decodeWord .none (0x3B#6 ++ 2#6 ++ 4#6 ++ 0#6 ++ 1#8) = .ok (.ptld 2 4) := ⟨rfl, rfl, rfl, rfl, rfl, rfl, rfl⟩

/-! ## A small world: one workgroup on core 0 of die 0, in context 0, whose first gigabyte translates to itself -/

/-- A thread in its block at offset 1. -/
def thread0 : Thread := { Thread.fresh 64 4096 0 with pos := .running, off := 1 }
/-- A thread with registers set. -/
def threadWith (rs : List (Nat × Word)) : Thread :=
  { thread0 with work := rs.foldl (fun ws r => ws.set r.1 r.2) thread0.work, row := rs.foldl (fun ws r => ws.set r.1 r.2) thread0.row }
/-- The device: a context with a trap entry at 8, and a page that maps the first gigabyte of context 0 for every access. -/
def dev0 : Dev :=
  { Dev.reset with
    torus := (1, 1, 1)
    d0 := { Die.reset with ctxs := [{ Ctx.fresh 0 0 with trap := 8 }],
                           tlb := [{ unit := .die, ctx := 0, level := 2, vpn := 0, leaf := 0x7F }] } }
def wgWith (t : Thread) : Wg := { Wg.forWord 0 with threads := [t] }
/-- The state in which a thread of a workgroup is the current one. -/
def world (d : Dev) (w : Wg) : State :=
  { State.reset with dev := { d with wgs := [w], flight := [Bundle.forWord 0], nextUid := 1 } }
/-- Its current thread. -/
def curOf (w : Wg) (t : Thread) : Cur := { b := Bundle.forWord 0, w := w, tid := 0, t := t }
/-- The thread after an instruction. -/
def after (i : Instr) (t : Thread) : Option Thread :=
  match exec i (world dev0 (wgWith t)) with
  | .next s => s.dev.thread? 0 0
  | .fault _ => none
  | .refused _ => none
def regAfter (i : Instr) (rs : List (Nat × Word)) (r : Nat) : Option Word := (after i (threadWith rs)).map fun t => t.val r
def stickyAfter (i : Instr) (rs : List (Nat × Word)) : Option (BitVec 7) := (after i (threadWith rs)).map Thread.sticky
def causeAfter (i : Instr) (t : Thread) : Option Word := (after i t).map Thread.trapCause

/-- Chapter 13's examples of R332, R334, R335 and R336. -/
theorem test_div : regAfter (.div 1 2 3) [(2, 7), (3, 0xFFFF_FFFE)] 1 = some 0xFFFF_FFFD ∧
    regAfter (.rem 1 2 3) [(2, 7), (3, 0xFFFF_FFFE)] 1 = some 1 ∧ regAfter (.rem 1 2 3) [(2, 0xFFFF_FFF9), (3, 2)] 1 = some 0xFFFF_FFFF ∧
    regAfter (.divu 1 2 3) [(2, 5)] 1 = some 0xFFFF_FFFF ∧ regAfter (.remu 1 2 3) [(2, 5)] 1 = some 5 := by decide
theorem test_shifts : regAfter (.shl 1 2 3) [(2, 1), (3, 0x21)] 1 = some 0 ∧ regAfter (.rotl 1 2 3) [(2, 1), (3, 0x21)] 1 = some 2 ∧
    regAfter (.sar 1 2 3) [(2, 0x8000_0000), (3, 40)] 1 = some 0xFFFF_FFFF := by decide
theorem test_fields : regAfter (.bfeS 3 1 4 7) [(1, 0xABCD)] 3 = some 0xFFFF_FFBC ∧
    regAfter (.bfi 3 1 8 3) [(3, 0x1234_5678), (1, 0xF)] 3 = some 0x1234_5F78 := by decide
theorem test_mulw_reads_first : regAfter (.mulw 2 2 3) [(2, 0xFFFF_FFFE), (3, 3)] 2 = some 0xFFFF_FFFA ∧
    regAfter (.mulw 2 2 3) [(2, 0xFFFF_FFFE), (3, 3)] 3 = some 0xFFFF_FFFF := by decide
/-- The example of R337, R210: REGS 20, ALLOC 24. -/
theorem test_movx_slack : ((after (.movx 2 1) { threadWith [(1, 21), (2, 9)] with regs := 20 }).map fun t => (t.val 2, t.sticky)) = some (0, 0x40) ∧
    causeAfter (.movx 2 1) { threadWith [(1, 24), (2, 9)] with regs := 20 } = some 0x02 := ⟨by decide, by decide +kernel⟩
/-- The example of R339. -/
theorem test_fadd_modes : regAfter (.fadd 4 5 6 .rtz) [(5, 0x3F80_0000), (6, 0x3380_0000)] 4 = some 0x3F80_0000 ∧
    regAfter (.fadd 4 5 6 .rne) [(5, 0x3F80_0000), (6, 0x3380_0000)] 4 = some 0x3F80_0000 ∧
    regAfter (.fadd 4 5 6 .rup) [(5, 0x3F80_0000), (6, 0x3380_0000)] 4 = some 0x3F80_0001 ∧
    (stickyAfter (.fadd 4 5 6 .rtz) [(5, 0x3F80_0000), (6, 0x3380_0000)]).map (· &&& 0x40) = some 0 := by decide
/-- The example of R348. -/
theorem test_deq : regAfter (.deq 2 1 5 .e2m1 .e8m0) [(1, 0xC), (5, 0x7E)] 2 = some 0xBF80_0000 := by decide
/-- The example of R347. -/
theorem test_cvtn_sr :
    (match exec (.cvtn 3 1 10 .e2m1 .sr false none) (world { dev0 with d0 := { dev0.d0 with ctxs := [{ Ctx.fresh 0 0 with trap := 8, seed := 7 }] } }
        (wgWith (threadWith [(1, 0x4028_0000), (10, 7)]))) with
      | .next s => (s.dev.thread? 0 0).map fun t => t.val 3
      | .fault _ => none
      | .refused _ => none) = some 4 := by decide +kernel
/-- Chapter 10: E2M1, 2.625 between 2 and 3 under the random values 0x5FFF and 0x6000; 2.5 and 5.0 go to the even code. -/
theorem test_rounding : (roundTo .e2m1 (.sr 0x5FFF) false (valueOf .fp32 0x4028_0000)).1 = 4 ∧
    (roundTo .e2m1 (.sr 0x6000) false (valueOf .fp32 0x4028_0000)).1 = 5 ∧ (roundTo .e2m1 .rne false (valueOf .fp32 0x4020_0000)).1 = 4 ∧
    (roundTo .e2m1 .rne false (valueOf .fp32 0x40A0_0000)).1 = 6 := by decide +kernel
/-- R200, R201, R227: division by zero faults nowhere; REG_RANGE is code 2, a trap's code is 0x0E with its immediate. -/
theorem test_trap_cause : causeAfter (.trap 0x2A) thread0 = some 0x2A0E := by decide +kernel
/-- R219, R221: a write beyond ALLOC takes REG_RANGE at the trap entry of the context. -/
theorem test_reg_range : (after (.mov 40 1) { thread0 with regs := 36 }).map (fun t => (t.blk, t.trapDepth, t.trapCause)) = some (8, 1, 2) := by
  decide +kernel
/-- Chapter 11's example: LO = −16, HI = 15 over a 64 × 64 tensor with granules of 16. -/
def gen0 : Gen := { words := [0x30FF_FFFF_0000_000F, 0], patva := 0, desc := 0, gran := 16, rows := 64, cols := 64, transposed := false, cursor := (0, 0) }
theorem test_pattern_pointers : gen0.pat.pointers false = [0, 2, 5, 8, 10] := by decide +kernel
theorem test_pattern_split : (List.range 4).map (splitPoint [0, 2, 5, 8, 10] 3) = [(0, 0), (1, 3), (2, 7), (4, 10)] := by decide +kernel
theorem test_pattern_transposed : (gen0.pat.from_ true (0, 0)).take 3 = [(0, 0), (0, 1), (1, 0)] := by decide +kernel
/-- Chapter 7's example: 36 units. -/
theorem test_extent : extentUnits 256 32 (2 ^ 20) 2 4096 = 36 := by decide +kernel
/-- Chapter 4's example of a handle. -/
theorem test_handle : hOrigin 0x3514_0048_0C50_0000 = 0xD45 ∧ hSlot 0x3514_0048_0C50_0000 = 0x12 ∧ hGen 0x3514_0048_0C50_0000 = 3 ∧
    hCtx 0x3514_0048_0C50_0000 = 5 := by decide +kernel
/-- The reason of a refused access. -/
def why (r : Except Nat Nat) : Option Nat :=
  match r with
  | .ok _ => none
  | .error n => some n
/-- Chapter 6's example of a walk, with tables at frames 1 to 4 of die 1. -/
def walkDev : Dev :=
  let base : Nat := 2 ^ 37
  let put := fun (m : NMap Byte) (a v : Nat) => writeLE m (base + a) v 8
  { Dev.reset with
    torus := (1, 1, 1)
    mem := put (put (put (put [] 0x1000 (base + 0x2001)) 0x27F0 (base + 0x3001)) 0x3240 (base + 0x4001)) 0x4D10 0x20_4560_0077 }
def walkOf (va : Dword) : Option (Nat × Nat × Option Nat) :=
  match walkDev.walk 1 (2 ^ 37 + 0x1000) va with
  | .ok (level, leaf) => some (level, leafPa leaf level va.toNat, why (walkDev.leafCheck 1 accFetch level leaf va))
  | .error _ => none
theorem test_walk : walkOf 0x7F12_3456_7000 = some (1, 0x20_4576_7000, some rExec) := by decide +kernel
/-- Chapter 3's examples: XAL addends at E = −4, and a window that moves to OLDEST. -/
theorem test_xal_units : winUnits 0x3E20_0000 0x1FC = 2 ∧ winUnits 0x3E60_0000 0x1FC = 4 ∧ winUnits 0x5500_0000 0x1FC = 2 ^ 47 := by
  decide +kernel
theorem test_window : Window.advance { src := 0, ctx := 0, lwm := 0x100, seen := [(0x100, 1), (0x101, 1), (0x103, 1)], lastAt := 0 } 0x102 =
    { src := 0, ctx := 0, lwm := 0x102, seen := [(0x103, 1)], lastAt := 0 } := by decide +kernel
/-- R21: 95 °C reads 0x21C. R332: a step of the placed word runs. -/
theorem test_add_runs : ∃ t, step (State.reset.withFetchWord 32 0x0410_0000) = .next t := ⟨_, rfl⟩

/-! ## States and operands that meet the hypotheses of the statements -/

/-- A move on the spill stack that ends well with a value. -/
def isMoved {α : Type} [DecidableEq α] (m : Moved α) (x : α) : Bool :=
  match m with
  | .ok _ y => decide (y = x)
  | .miss _ => false
  | .dirty _ => false
  | .fail _ => false
theorem moved_ok {α : Type} [DecidableEq α] {m : Moved α} {x : α} (h : isMoved m x = true) : ∃ d, m = .ok d x := by
  cases m with
  | ok d y => exact ⟨d, by simp [isMoved] at h; rw [h]⟩
  | miss p => cases h
  | dirty ls => cases h
  | fail p => cases h
/-- A scratchpad access that passes its checks, and one that faults. -/
def placedAt (r : Except Trap Place) : Option Place :=
  match r with
  | .ok p => some p
  | .error _ => none
theorem placed_ok {r : Except Trap Place} {p : Place} (h : placedAt r = some p) : r = .ok p := by
  cases r with
  | ok q => simp [placedAt] at h; rw [h]
  | error x => cases h
/-- An instruction's step is a next state. -/
def goesOn (o : Out) : Bool :=
  match o with
  | .next _ => true
  | .fault _ => false
  | .refused _ => false
theorem goes_on {o : Out} (h : goesOn o = true) : ∃ t, o = .next t := by
  cases o with
  | next t => exact ⟨t, rfl⟩
  | fault r => cases h
  | refused r => cases h

/-- The current thread of the small world; every witness about an instruction takes it, with a thread and a device of its own. -/
theorem witness_cur (d : Dev) (t : Thread) : (world d (wgWith t)).dev.cur = some (curOf (wgWith t) t) := by
  simp [world, Dev.cur, Dev.wg?, Bundle.forWord, wgWith, Wg.forWord, leader, curOf]
theorem witness_StepKeepsMgmtInv : Mgmt.Inv State.reset.mgmt ∧ ∃ t, step State.reset = .next t :=
  ⟨⟨by decide, by decide, by decide, by decide, by decide, by decide⟩, goes_on (by decide +kernel)⟩
theorem witness_DecodeEncode : (Instr.add 63 0 1).isProgram = true ∧ (Instr.add 63 0 1).wellFormed = true ∧
    (Instr.movi 5 0x3FFF (some 0x3FFFF)).isProgram = true ∧ (Instr.movi 5 0x3FFF (some 0x3FFFF)).wellFormed = true := by decide
theorem witness_EncodeDecode : decodeUnit 0x1C41_3FFF#32 (some 0) = .ok (.addi 4 4 0x3FFF none, 1) ∧
    decodeUnit 0xF803_FFFF#32 (some 0x3850_0000#32) = .ok (.movi 5 0 (some 0x3FFFF), 2) := ⟨rfl, rfl⟩
/-- The first word of a block that runs, its terminator, and a terminator where none may stand. -/
def stepCur (off : Nat) (w : Word) : Cur :=
  { curOf (wgWith thread0) { thread0 with off := off } with
    b := { Bundle.forWord 0 with words := [0xFC08_0020#32, 0x00FF_0000#32, w, 0xF380_0004#32] } }
theorem witness_StepRunsDecoded : hdrLen (stepCur 1 0).hdr0 = 2 ∧
    decodeUnit ((stepCur 1 0x0410_0000#32).word 1) (some ((stepCur 1 0x0410_0000#32).word 2)) = .ok (.add 1 0 0, 1) ∧
    (Instr.add 1 0 0).isTerminator = decide (1 + 1 - 1 = 2) ∧ decodeUnit ((stepCur 2 0).word 2) none = .ok (.exit, 1) ∧
    Instr.exit.isTerminator = decide (2 + 1 - 1 = 2) ∧ decodeUnit ((stepCur 1 0xF380_0004#32).word 1) (some 0xF380_0004#32) = .ok (.exit, 1) ∧
    Instr.exit.isTerminator ≠ decide (1 + 1 - 1 = 2) := ⟨by decide, rfl, by decide, rfl, by decide, rfl, by decide⟩
/-- REGS 36, ALLOC 40: register 35 is kept, 36 to 39 are slack, 40 faults. -/
def slack : Thread := { threadWith [(1, 39), (2, 40)] with regs := 36, locked := [7] }
theorem witness_RegisterFile : slack.work.length = 64 ∧ slack.regs ≤ 64 ∧ 35 < slack.regs ∧ 35 ∉ slack.locked ∧ 7 < slack.regs ∧ 7 ∈ slack.locked ∧
    slack.regs ≤ 36 ∧ 39 < slack.alloc ∧ slack.alloc ≤ 40 := by decide
theorem witness_Does : slack.able [0, 39] = true ∧ slack.able [0, 40] = false := by decide
theorem witness_BitFields : 24 + (7 + 1) ≤ 32 ∧ 32 < 25 + (7 + 1) ∧ (24#6).toNat = 24 ∧ (7#5).toNat = 7 := by decide
theorem witness_PairsAndMoves : slack.able [1, 2] = true ∧ (slack.val 1).toNat < slack.alloc ∧ slack.alloc ≤ (slack.val 2).toNat := by decide
theorem witness_Rounding : 0 * 2 ^ 149 < (Target.el .fp32).grid 0x7F80_0000 * 1 ∧ (2 ^ 128 - 1) * 2 ^ 149 < (Target.el .fp32).grid 0x7F80_0000 * 1 ∧
    -(2 ^ 24 : Int) ≤ -(2 ^ 24) ∧ (2 ^ 24 : Int) ≤ 2 ^ 24 := by decide +kernel
/-- A NaN, the infinities, a zero, a negative number, and integers at and past the ends of the targets of R344. -/
theorem witness_Conversions : valueOf .fp32 0x7FC0_0000 = .nan ∧ valueOf .fp32 0x7F80_0000 = .inf false ∧ valueOf .fp32 0xFF80_0000 = .inf true ∧
    (∃ n d, valueOf .fp32 0 = .fin false n d ∧ n = 0) ∧ (∃ n d, valueOf .fp32 0xBF80_0000 = .fin true n d ∧ n ≠ 0) ∧
    (∃ n d, valueOf .fp32 0x4080_0000 = .fin false n d ∧ n ≠ 0) ∧ Selects .rne (2 ^ 31) 1 (2 ^ 31) ∧ Selects .rtz (-(2 ^ 31) - 1) 1 (-(2 ^ 31) - 1) ∧
    Selects .rup (2 ^ 32) 1 (2 ^ 32) ∧ Selects .rdn (-1) 2 (-1) ∧ Selects .rne 5 2 2 ∧ (valueOf .bf16 0x7FC0).isNan = true ∧
    (valueOf .fp16 0x3C00).isNan = false ∧ Below 0x8000_0000 0 ∧ ¬Below 0 0x8000_0000 := by
  refine ⟨by decide +kernel, by decide +kernel, by decide +kernel, ⟨_, _, rfl, by decide⟩, ⟨_, _, rfl, by decide⟩, ⟨_, _, rfl, by decide⟩, ?_⟩
  simp only [Selects, Below]
  decide +kernel
theorem witness_RegisterFrame : (Instr.add 1 2 3).writes thread0 = some ([1], false) ∧ (Instr.pand 1 2 3).writes thread0 = some ([], true) ∧
    ∃ u, exec (.add 1 2 3) (world dev0 (wgWith thread0)) = .next u := ⟨rfl, rfl, ⟨_, rfl⟩⟩
/-- A whole cohort's bundle, and a bundle of one thread alone. -/
theorem witness_Cohorts : (curOf (wgWith thread0) thread0).b.cohort = true ∧ hdrCohort (curOf (wgWith thread0) thread0).hdr0 = true ∧
    (curOf (wgWith thread0) thread0).members = [(0, thread0)] ∧ thread0.able [63, 0] = true ∧
    ({ curOf (wgWith thread0) thread0 with b := { Bundle.forWord 0 with cohort := false } }.b.cohort && true) = false := by decide
theorem witness_Branches : (threadWith [(2, 8)]).able (pairIdx [2]) = true ∧ ((threadWith [(2, 8)]).dval 2).toNat % 8 = 0 ∧
    ((threadWith [(2, 9)]).dval 2).toNat % 8 ≠ 0 ∧ slack.able (pairIdx [40]) = false := by decide
/-- A thread with a call frame in its cache, and a device that holds one, or a fault frame, on top of the spill stack. -/
def frame0 : CallFrame := { ret := 16, slide := 8, regs := List.replicate 8 5 }
def caller : Thread := { threadWith [(2, 8)] with cache := [frame0] }
def spilled (sp : Nat) : Thread := { threadWith [(2, 8)] with sp := sp }
def stackDev (sp : Nat) (bs : List Byte) : Dev :=
  { dev0 with mem := writeBytes (writeLE [] 0 0xFC08_0020 4) (dev0.stackVa (wgWith thread0) 0 sp).toNat bs }
theorem witness_Calls : caller.pend = [] ∧ 8 + 32 + cacheUse [frame0] ≤ (wgWith caller).stackc ∧ caller.cache = frame0 :: [] ∧
    caller.able (pairIdx [2]) = true ∧ (caller.dval 2).toNat % 8 = 0 := by decide
theorem witness_Calls_spilled : frame0.slide ∈ [8, 16, 24, 32] ∧ frame0.regs.length = frame0.slide ∧ frame0.ret.toNat % 8 = 0 ∧
    4032 + frame0.size ≤ (wgWith (spilled 4032)).spill ∧
    (∃ d, (stackDev 4032 frame0.bytes).topBytes (wgWith (spilled 4032)) 0 [] 4032 32 = .ok d (frame0.bytes.take 32)) ∧
    ∃ d, (stackDev 4032 frame0.bytes).topBytes (wgWith (spilled 4032)) 0 [] (4032 + 32) (4 * 8) = .ok d (frame0.bytes.drop 32) :=
  ⟨by decide, by decide, by decide, by decide, moved_ok (by decide +kernel), moved_ok (by decide +kernel)⟩
theorem witness_PendingTokensHold : ({ thread0 with pend := [3] } : Thread).pend ≠ [] ∧ 1 ≤ (1#12).toNat ∧ (64#12).toNat ≤ 64 := by decide
/-- REGS 8, with another thread of the workgroup parked before it. -/
def parkedWg : Wg :=
  { wgWith thread0 with threads :=
    [{ thread0 with regs := 8 }, { thread0 with pos := .waiting, susp := some { why := .parked 0 8, since := 0, limit := none } }] }
theorem witness_GrowShrink : (0#12).toNat = 0 ∧ 64 < (65#12).toNat ∧ 1 ≤ (9#12).toNat ∧ (9#12).toNat ≤ 64 ∧
    allocOf 9 - ({ thread0 with regs := 8 } : Thread).alloc = 8 ∧ 8 ≤ (world dev0 (wgWith thread0)).dev.lvsFree 0 0 ∧
    (world dev0 (wgWith thread0)).dev.parkedOn 0 0 = [] ∧ (world dev0 parkedWg).dev.parkedOn 0 0 = [0] ∧
    ({ thread0 with regs := 8 } : Thread).parkOrder = none ∧ ({ thread0 with regs := 8 } : Thread).expired = false ∧
    ({ thread0 with regs := 8, expired := true } : Thread).expired = true := by decide +kernel
def walkerWg : Wg := { wgWith thread0 with kind := .walker }
theorem witness_ThreadEndsAndTraps : thread0.trapDepth = 0 ∧ 0 < ({ thread0 with trapDepth := 1 } : Thread).trapDepth ∧ walkerWg.kind = .walker ∧
    (wgWith thread0).kind ≠ .walker := by decide
theorem witness_FaultEntry : (wgWith thread0).kind ≠ .walker ∧ (dev0.ctx? 0 0).map Ctx.trap = some 8 ∧ thread0.trapDepth < 255 ∧ thread0.cache = [] ∧
    thread0.regs ≤ 64 ∧
    (∃ d, dev0.pushBytes true (wgWith thread0) 0 [] 4096 (faultFrame (curOf (wgWith thread0) thread0) 1 thread0) = .ok d 3776) ∧
    ({ thread0 with raised := some [3] } : Thread).raised = some [3] ∧
    ∃ d, (dev0.modWg 0 fun w => { w with flags := [3].foldl (fun l f => updAt l f (· - 1)) w.flags }).pushBytes true (wgWith thread0) 0 [] 4096
      (faultFrame (curOf (wgWith thread0) thread0) 1 thread0) = .ok d 3776 :=
  ⟨by decide, by decide, by decide, by decide, by decide, moved_ok (by decide +kernel), rfl, moved_ok (by decide +kernel)⟩
/-- In the trap handler, with the fault frame of a thread at offset 1 of the block at 0 on top of the spill stack. -/
def handler : Thread := { thread0 with trapDepth := 1, sp := 3776 }
def frameBytes : List Byte := faultFrame (curOf (wgWith thread0) thread0) 1 thread0
theorem witness_EretReturns : thread0.trapDepth = 0 ∧ 0 < handler.trapDepth ∧ handler.pend = [] ∧ handler.cache = [] ∧ handler.alloc = thread0.alloc ∧
    thread0.blk.toNat % 8 = 0 ∧ 3776 + frameBytes.length = 4096 ∧
    (∃ d, (stackDev 3776 frameBytes).topBytes (wgWith handler) 0 [] 3776 32 = .ok d (frameBytes.take 32)) ∧
    (stackDev 3776 frameBytes).headerAt (curOf (wgWith handler) handler) 0 = .hit 0 ∧
    1 ≤ hdrLen (BitVec.ofNat 32 ((stackDev 3776 frameBytes).rd 0 4)) ∧
    ∃ d, (stackDev 3776 frameBytes).topBytes (wgWith handler) 0 [] (3776 + 64) (4 * 64) = .ok d ((frameBytes.drop 64).take 256) :=
  ⟨by decide, by decide, by decide, by decide, by decide, by decide, by decide +kernel, moved_ok (by decide +kernel), by decide +kernel,
    by decide +kernel, moved_ok (by decide +kernel)⟩
theorem witness_SpecialRegisters : (wgWith thread0).kind ≠ .walker ∧ (dev0.ctx? 0 0).isSome = true ∧ slack.able (regsFrom 38 2) = true ∧
    slack.able (regsFrom 40 2) = false := by decide
/-- A walk that the walker thread holds, one that waits, and an address at another die. -/
def heldWalk : Walk := { ctx := 0, page := 5, joined := [], holder := some (0, 0), overtaken := false }
def freeWalk : Walk := { heldWalk with holder := none, page := 6 }
theorem witness_Walker : walkerWg.kind = .walker ∧ (thread0.able (regsFrom 2 2 ++ regsFrom 4 2 ++ [6])) = true ∧ 4 % 8 ≠ 0 ∧
    (2 ^ 37) % 8 = 0 ∧ 2 ^ 37 < 2 ^ 51 ∧ 2 ^ 37 / 2 ^ 37 % 2 ^ 14 ≠ dev0.dieId 0 ∧ 0 / 2 ^ 37 % 2 ^ 14 = dev0.dieId 0 ∧ dev0.isRetired 0 = false ∧
    (2 ^ 51) % 8 = 0 ∧ Die.held? { Die.reset with walks := [heldWalk] } 0 0 = some heldWalk ∧ Die.held? { Die.reset with walks := [freeWalk] } 0 0 = none ∧
    (Die.held? Die.reset 0 0 = none ∧ Die.reset.walks.all (fun w => w.holder.isSome) = true) ∧
    ({ dev0 with d0 := { dev0.d0 with retired := [5] } } : Dev).isRetired 0x5008 = true ∧
    (∃ t, ({ walkerWg with threads := [{ thread0 with pos := .exited }] } : Wg).threads = [t] ∧ t.pos = .exited) ∧
    (world dev0 walkerWg).dev.wg? 0 = some walkerWg ∧ 0 < walkerWg.threads.length ∧ walkerWg.die < 4 ∧
    freeWalk.holder = none ∧ freeWalk ∉ [{ heldWalk with holder := some (0, 1) }] ∧ ({ heldWalk with holder := some (0, 1) } : Walk).holder ≠ none ∧
    Die.held? { Die.reset with walks := [{ heldWalk with holder := some (0, 1) }, freeWalk] } 0 0 = none := by
  refine ⟨by decide, by decide, by decide, by decide, by decide, by decide +kernel, by decide +kernel, by decide +kernel, by decide, by decide, by decide,
    by decide, by decide +kernel, ⟨_, rfl, rfl⟩, ?_⟩
  decide +kernel

/-- A check that passes. -/
def fine (r : Except Trap Unit) : Bool :=
  match r with
  | .ok _ => true
  | .error _ => false
theorem fine_ok {r : Except Trap Unit} (h : fine r = true) : r = .ok () := by
  cases r with
  | ok _ => rfl
  | error x => cases h
/-- The current thread of the small world with registers set, in a workgroup with 64 KiB of scratchpad. -/
def bigWg (t : Thread) : Wg := { wgWith t with scratch := 65536 }
def big (t : Thread) : Cur := curOf (bigWg t) t
def bigDev (d : Dev) (t : Thread) : Dev := (world d (bigWg t)).dev

theorem witness_LoadsStores : 2 ^ 25 ≤ (0x200_0000#32).toNat ∧ (0xC0_0000#32).toNat < 2 ^ 25 ∧ (3#32).toNat % 4 ≠ 0 ∧
    (bigDev dev0 thread0).peer (bigWg thread0) (0xC0_0000 / 2 ^ 22) = none ∧
    (bigDev dev0 thread0).peer (bigWg thread0) (65536 / 2 ^ 22) = some (bigWg thread0) ∧ (bigWg thread0).scratch < 65536 % 2 ^ 22 + 4 ∧
    65532 % 2 ^ 22 + 4 ≤ (bigWg thread0).scratch ∧ thread0.able (2 :: regsFrom 60 4) = true ∧ slack.able (2 :: regsFrom 40 1) = false := by decide +kernel
theorem witness_MemoryLaws : (bigDev dev0 thread0).wg? 0 = some (bigWg thread0) ∧ canonical 0#8 (bigWg thread0).mem = true ∧ canonical 0#8 dev0.mem = true ∧
    0xFFFF_FFFF < 256 ^ 4 ∧ canonical 0#2 [(1, 3#2)] = true ∧ getKey 0#2 [(1, 3#2)] (64 / 64) ≠ 0#2 := by decide +kernel
theorem witness_ScratchAtomics : thread0.able (2 :: regsFrom 4 2 ++ regsFrom 6 2) = true ∧
    (bigDev dev0 thread0).scratchAt (bigWg thread0) 8 8 8 = .ok { uid := 0, off := 8 } ∧
    (bigDev dev0 thread0).scratchAt (bigWg thread0) 2 4 4 = .error (.at 0x05 0 2) := ⟨by decide, placed_ok (by decide +kernel), rfl⟩
/-- A barrier with one arrival to come, phase 0, at offset 0 of scratchpad. -/
def barWg : Wg := { wgWith (threadWith [(3, 1), (5, 2), (7, 1)]) with mem := [(0, 1#8), (2, 1#8)] }
theorem witness_Barriers : thread0.able [2, 3, 4] = true ∧
    (world dev0 barWg).dev.scratchAt barWg 0 16 16 = .ok { uid := 0, off := 0 } ∧ ((world dev0 barWg).dev.barRd { uid := 0, off := 0 }).remaining = 1 ∧
    (1#32).toNat ≤ 1 ∧ 1 < (2#32).toNat ∧ ((world dev0 barWg).dev.barRd { uid := 0, off := 0 }).phase = (0#32).toNat % 16 ∧
    ((world dev0 barWg).dev.barRd { uid := 0, off := 0 }).phase ≠ (1#32).toNat % 16 ∧ (world dev0 barWg).dev.wg? 0 = some barWg ∧
    canonical 0#8 barWg.mem = true :=
  ⟨by decide, placed_ok (by decide +kernel), by decide +kernel, by decide, by decide, by decide +kernel, by decide +kernel, by decide, by decide⟩
/-- The stack's last word, a misaligned place, and a place above the stack. -/
theorem witness_SpillAccess : ((4096 : Int) + (0xFFFF_FFFC#32).toInt) % 4 = 0 ∧ 0 ≤ (4096 : Int) + (0xFFFF_FFFC#32).toInt ∧
    (4096 : Int) + (0xFFFF_FFFC#32).toInt + 4 ≤ (4096 : Nat) ∧ ((4096 : Int) + (0xFFFF_FFFD#32).toInt) % 4 ≠ 0 ∧
    ((4096 : Nat) : Int) < 4096 + (0#32).toInt + 4 ∧
    dev0.reach false (wgWith thread0) (accStack true) [] (dev0.stackVa (wgWith thread0) 0 0 + 4092) 4 4 =
      .ok [((dev0.stackVa (wgWith thread0) 0 0 + 4092).toNat, 4)] ∧
    dev0.dirtyLines [(4092, 4)] = [] ∧ ({ dev0 with sharers := putKey 63 1#2 [] } : Dev).dirtyLines [(4092, 4)] ≠ [] := by decide +kernel
/-- A command of each class may issue. -/
theorem witness_mayIssue (cls : Cls) (t : Thread) (h : t.pend = []) (regs : List Nat) : (big t).mayIssue (bigDev dev0 t) cls regs := by
  refine ⟨by simp [big, curOf, bigWg, wgWith, h], ?_, by cases cls <;> simp [Dev.taken, Dev.acquiring, bigDev, world, dev0, Dev.reset, Cls.places]⟩
  simp [Cur.rises, big, curOf, Cur.hdr1, Bundle.forWord, wordAt, hdrSets]
theorem witness_CopyCommands : (regsFrom 4 4 ++ [4, 5, 6] ++ [8]).all (fun i => decide (i < thread0.alloc)) = true ∧ (2#32).toNat % 4 ≠ 0 ∧
    (big (threadWith [(8, 4)])).copySide (bigDev dev0 thread0) true 4 4 = some (.mem 0) ∧
    (big (threadWith [(8, 4)])).copySide (bigDev dev0 thread0) false 6 4 = some (.scr 0 0) ∧
    canonicalRange 0 4 = true ∧ canonicalVa 0 = true ∧ canonicalVa (2 ^ 57) = false ∧ (8#32).toNat ≠ 0 ∧ true = (some (10 : Reg)).isSome ∧
    true ≠ (none : Option Reg).isSome ∧ (4096 : Nat) % 4 = 0 := by decide +kernel
theorem witness_announces : (big thread0).mayAnnounce (bigDev dev0 thread0) none 4 none ∧
    ∃ place, (big thread0).mayAnnounce (bigDev dev0 thread0) (some 10) 4 place :=
  ⟨rfl, _, _, placed_ok (p := { uid := 0, off := 0 }) (by decide +kernel), by decide +kernel, rfl⟩
/-- Descriptors of rank 2 in scratchpad: 1 is FP32, 2 BF16, 3 E2M1 with E8M0 scales, 4 sparse BF16. -/
def dsc (n : Nat) : Desc :=
  { num := n
    raw := match n with
    | 1 => 0x40000000010000000100000004000000103F800000000000050000000000000000
    | 2 => 0x40000000010000000100000004000000203F800000000001050000000000001000
    | 3 => 0x300000000000000000000000000000000010000000010000000100000004000000203F800000000107050000000000002000
    | _ => 0x40000000000000000000000000000000000000000000000040000000010000000100000004000000203F800000002001050000000000001000 }
def descDev : Dev :=
  { dev0 with
    d0 := { dev0.d0 with ctxs := [{ Ctx.fresh 0 0 with trap := 8, tdt := writeBytes [] 64 ([1, 2, 3, 4].flatMap fun n => leBytes (dsc n).raw 64) }] }
    mem := writeBytes [] 64 (leBytes 0x30FF_FFFF_0000_000F 8 ++ leBytes 0 8) }
theorem witness_descriptors : ∀ n ∈ [1, 2, 3, 4], (bigDev descDev thread0).desc (big thread0) n = dsc n := by decide +kernel
theorem witness_TensorAndGather : copytDesc (dsc 1) (dsc 1) 0 = true ∧ copytDesc (dsc 1) (dsc 1) 1 = false ∧ copytDesc (dsc 1) (dsc 2) 0 = false ∧
    (bigDev descDev thread0).checkRows (bigWg thread0) (dsc 1) (0, 0) 64 64 = .ok () ∧
    (regsFrom 4 4 ++ [8] ++ regsFrom 10 2).all (fun i => decide (i < thread0.alloc)) = true ∧ min (0#32).toNat 64 = 0 ∧ (2 ^ 57 ≤ (2 ^ 57 : Dword).toNat ∧ (2 ^ 57 : Dword).toNat % 16 = 0) ∧ 0 < min (65#32).toNat 64 ∧
    (bigDev dev0 thread0).scratchAt (bigWg thread0) 0 (4 * 64) 4 = .ok { uid := 0, off := 0 } ∧
    (bigDev dev0 thread0).scratchAt (bigWg thread0) 1024 (16 * 64) 16 = .ok { uid := 0, off := 1024 } :=
  ⟨by decide +kernel, by decide +kernel, by decide +kernel, fine_ok (by decide +kernel), by decide +kernel, by decide, by decide, by decide,
    placed_ok (by decide +kernel), placed_ok (by decide +kernel)⟩
/-- A pair that translates, for every unit and access; and one that a failed walk says is not resident. -/
theorem witness_reaches : (big thread0).reaches (bigDev dev0 thread0) .atm (accLocal true) 2 0 ∧ (big thread0).reaches (bigDev dev0 thread0) .rmt (accRemote true) 2 0 ∧
    (big thread0).reaches (bigDev dev0 thread0) .rmt (accRemote false) 2 0 ∧ (big thread0).reaches (bigDev dev0 thread0) .rmt (accLocal false) 2 0 ∧
    (bigDev dev0 thread0).xlate 0 0 .rmt (accRemote true) [(0, accRemote true, 2)] 0 = .fail 2 ∧ homeOf 0 = homeOf 0 :=
  ⟨by unfold Cur.reaches; decide +kernel, by unfold Cur.reaches; decide +kernel, by unfold Cur.reaches; decide +kernel,
    by unfold Cur.reaches; decide +kernel, by decide +kernel, rfl⟩
theorem witness_AtomicCommands : thread0.able (regsFrom 2 2 ++ regsFrom 4 4 ++ [6]) = true ∧ (2#64).toNat % 4 ≠ 0 ∧ (0#64).toNat % 64 = 0 ∧
    (pagesOf 0 (64 * 1)).length = [0].length ∧ natAt (pagesOf 0 (64 * 1)) 0 = 0 ∧
    (bigDev dev0 thread0).xlate 0 0 .rmt (accLocal true) [] (BitVec.ofNat 64 (0 * 4096)) = .hit 0 := by decide +kernel
/-- Every place of a class is taken. -/
def fullClass : List Cmd := List.replicate (Cls.places .atm) ((big thread0).command (bigDev dev0 thread0) .atm none [0] 0 .finished)
theorem witness_fullClass : Cls.places .atm ≤ ({ bigDev dev0 thread0 with cmds := fullClass } : Dev).taken 0 0 .atm ∧
    (∀ f ∈ (big thread0).rises, natAt (bigWg thread0).flags f < 65535) := by decide +kernel
/-- An arrival word with COUNT 0 and TARGET 1, one with COUNT at its TARGET, and an arm that is not yet applied. -/
def armCmd : Cmd := (big thread0).command (bigDev dev0 thread0) .rmt none [0] 0 (.arm 0 1)
theorem witness_Waits : ({ bigDev dev0 thread0 with mem := [(4, 1#8)] } : Dev).rd 0 4 < ({ bigDev dev0 thread0 with mem := [(4, 1#8)] } : Dev).rd 4 4 ∧
    (bigDev dev0 thread0).rd 4 4 ≤ (bigDev dev0 thread0).rd 0 4 ∧ (bigDev dev0 thread0).armsOn (big thread0) 0 = [] ∧
    ({ bigDev dev0 thread0 with cmds := [armCmd] } : Dev).armsOn (big thread0) 0 ≠ [] ∧ (BitVec.ofNat 64 ((bigDev dev0 thread0).rd 0 8) : Dword) = thread0.dval 4 ∧
    (BitVec.ofNat 64 ((bigDev dev0 thread0).rd 0 8) : Dword) ≠ (threadWith [(4, 1)]).dval 4 ∧ (0#32).toNat = 0 ∧
    ¬(thread0.expired = true ∨ (1#32).toNat = 0) := by decide +kernel
theorem witness_RemoteCommands : thread0.able (regsFrom 4 4 ++ regsFrom 8 8 ++ regsFrom 2 2 ++ [20]) = true ∧ (4#64).toNat % 64 ≠ 0 ∧ 64 < 52 % 64 + 4 * (3 + 1) ∧
    48 % 64 + 4 * (3 + 1) ≤ 64 ∧ (8#64).toNat % 8 = 0 ∧ 2 % 4 ≠ 0 ∧ (min (64#32).toNat 4096) = 64 ∧ canonicalRange 0 64 = true ∧
    (pagesOf 0 64).length = [0].length ∧ (0#32).toNat = 0 ∧ homeOf 0 = homeOf 64 := by decide +kernel
/-- A message of context 0 with sequence 0 that is not yet answered. -/
def oldOut : Outst :=
  { ctx := 0, seq := 0, ws := [], dst := some 0, sent := true, sentAt := 0, resends := 0, due := false, quiet := false, retrans := 50,
    thread := 0, va := 0, kind := 0x40, after := .none, note := plainNote }
theorem witness_TagsRise : (0 : Nat) < 4 ∧ (0 : Nat) < 64 ∧ (dev0.die 0).seqs.length = 64 ∧ (0x40 : Nat) ≠ 0x01 ∧ (dev0.die 0).draining = false ∧
    (dev0.ctx? 0 0).map Ctx.fab = some 0 ∧ (dev0.ctx? 0 0).map Ctx.upd = some 0 ∧ seqDiff 0 ((dev0.die 0).oldest 0) < 4096 ∧ (dev0.die 0).outs = [] ∧
    (dev0.die 0).unsent = [] ∧ ((dev0.die 0).outs.filter fun o => o.kind == 0x01 && o.sent).length < 4096 ∧
    4096 ≤ seqDiff 4096 ({ dev0.d0 with outs := [oldOut] }.oldest 0) := by
  decide +kernel
/-- A context with one invocation entry, of 8 argument bytes, and an issuing thread. -/
def invDev : Dev :=
  { dev0 with d0 := { dev0.d0 with ctxs := [{ Ctx.fresh 0 0 with trap := 8, invcnt := 1, invt := List.replicate 22 0#8 ++ [8#8] ++ List.replicate 9 0#8 }] } }
def handle0 : Dword := 0x0000_0004_0400_0000
theorem witness_Invocations : thread0.able (regsFrom 4 4 ++ [8] ++ regsFrom 10 2 ++ regsFrom 12 2) = true ∧
    (invDev.ctx? 0 0).map (fun k => min (fnField k.invt 0 22 1) 64 / 4 * 4) = some 8 ∧
    (bigDev invDev thread0).scratchAt (bigWg thread0) 0 8 4 = .ok { uid := 0, off := 0 } ∧ (invDev.die 0).freeSlot = some 1 ∧
    invDev.inTorus 0 = true ∧ invDev.inTorus 0x400 = false ∧ handleOk handle0 0 = true ∧ handleOk 0 0 = false ∧ (invDev.die 0).order? 0 0 handle0 = none ∧
    (invDev.die 0).orders.length < 4096 ∧ ((invDev.die 0).unsent = [] ∧ seqDiff (natAt (invDev.die 0).seqs 0) ((invDev.die 0).oldest 0) < 4096) ∧
    4096 ≤ seqDiff 4096 (Die.oldest { invDev.die 0 with outs := [oldOut] } 0) ∧
    Die.order? { invDev.die 0 with orders := [{ uid := 0, tid := 0, h := handle0, base := 0, next := 1 }] } 0 0 handle0 =
      some { uid := 0, tid := 0, h := handle0, base := 0, next := 1 } :=
  ⟨by decide, by decide +kernel, placed_ok (by decide +kernel), by decide +kernel, by decide, by decide, by decide, by decide, by decide, by decide, by decide, by decide, by decide⟩
theorem witness_HandleInstructions : thread0.able (regsFrom 4 2 ++ [8, 10]) = true ∧ handle0.toNat % 2 ^ 20 = 0 ∧ handle0.toNat / 2 ^ 26 % 2 ^ 8 ≠ 0 ∧
    handle0.toNat / 2 ^ 20 % 2 ^ 6 = 0 ∧ ({ bigWg thread0 with kind := .task 5 } : Wg).kind = .task 5 ∧ handle0 ≠ 5 ∧
    (∀ h, (bigWg thread0).kind ≠ .task h) ∧ (bigDev dev0 thread0).scratchAt (bigWg thread0) 0 64 4 = .ok { uid := 0, off := 0 } :=
  ⟨by decide, by decide, by decide, by decide, rfl, by decide, fun h hh => (by cases hh), placed_ok (by decide +kernel)⟩
/-- A handle of this die in its slot, one in the location cache, and one that is not known. -/
def ownSlot : HrtSlot := { HrtSlot.empty with used := true, state := 2, gen := 1 }
theorem witness_HstatReads : thread0.able (regsFrom 4 2 ++ [8]) = true ∧ handleOk handle0 0 = true ∧ handle0.toNat / 2 ^ 34 % 2 ^ 16 = 1 ∧
    handle0.toNat / 2 ^ 50 % 2 ^ 14 = dev0.dieId 0 ∧ (Die.slot { Die.reset with hrt := [(1, ownSlot)] } 1).gen = handle0.toNat / 2 ^ 26 % 2 ^ 8 ∧
    (Die.slot Die.reset 1).used = false ∧ Die.loc? Die.reset handle0 = none ∧
    Die.loc? { Die.reset with locs := [{ h := handle0, loc := 1, ver := 0, state := 1, cause := 0, fcode := 0 }] } handle0 =
      some { h := handle0, loc := 1, ver := 0, state := 1, cause := 0, fcode := 0 } := by decide +kernel

def mmaThread : Thread := threadWith [(8, 0), (9, 0), (10, 0), (11, 0)]
def genWg : Wg := { bigWg mmaThread with gens := [some { gen0 with desc := 4, rows := 4, cols := 32 }, none, none, none] }
def side (n : Nat) (pat : Option Pat) : MmaSide := { desc := dsc n, o := (0, 0), k0 := true, pat := pat }
theorem witness_MatrixCommands : (regsFrom 8 4 ++ [12]).all (fun i => decide (i < mmaThread.alloc)) = true ∧
    mmaDesc (dsc 2) (0, 0) true false false = true ∧ mmaDesc (dsc 2) (0, 0) false true false = true ∧ mmaDesc (dsc 4) (0, 0) true false true = true ∧
    (0 < (bigWg mmaThread).acc ∧ 64 + 64 ≤ 128 ∧ 64 % 64 = 0) ∧ ¬(8 < (bigWg mmaThread).acc) ∧ ¬(64 + 128 ≤ 128) ∧
    (genWg.gen 0).map Gen.desc = some 4 ∧ invertible gen0.words = true ∧
    (bigDev descDev thread0).checkSegs (bigWg thread0)
      ((side 2 none).segments 64 64 ++ (side 2 none).segments 64 64 ++ (side 2 none).scaleSegs 64 64 ++ (side 2 none).scaleSegs 64 64) = .ok () ∧
    (bigDev descDev thread0).checkSegs (bigWg thread0) ((side 4 ((genWg.gen 0).map Gen.pat)).segments 64 64) = .ok () ∧
    XVal.same (XVal.mul (dsc 2).tensorScale (dsc 2).tensorScale).1 ((bigWg thread0).scaleOfTile 0) = true :=
  ⟨by decide +kernel, by decide +kernel, by decide +kernel, by decide +kernel, by decide, by decide, by decide, by decide, by decide +kernel,
    fine_ok (by decide +kernel), fine_ok (by decide +kernel), by decide +kernel⟩
theorem witness_DrainCommands : drainDesc (dsc 1) (0, 0) .rne = true ∧ drainDesc (dsc 1) (0, 0) .sr = false ∧ drainDesc (dsc 3) (0, 0) .rne = false ∧ quantDesc (dsc 3) (0, 0) 64 64 = true ∧
    quantDesc (dsc 1) (0, 0) 64 64 = false ∧ (bigDev descDev thread0).checkSegs (bigWg thread0) (destSegs (dsc 1) (0, 0) 64 64) = .ok () ∧
    (bigDev descDev thread0).checkSegs (bigWg thread0) (destSegs (dsc 3) (0, 0) 64 64 ++
      (blockStarts (dsc 3) (0, 0) 64 64).map fun e => ((dsc 3).scaleAt (0 + e.2) (0 + e.1), 1)) = .ok () ∧
    XVal.same ((bigWg thread0).scaleOfTile 0) ((bigWg thread0).scaleOfTile 7) = true :=
  ⟨by decide +kernel, by decide +kernel, by decide +kernel, by decide +kernel, by decide +kernel, fine_ok (by decide +kernel),
    fine_ok (by decide +kernel), by decide +kernel⟩
/-- HASH with BIJ 0 has no transposed walk. -/
def hashWords : List Dword := [0x70C1_0000_0000_0001, 0]
theorem witness_PatternCommands : (regsFrom 4 4 ++ [8] ++ [12]).all (fun i => decide (i < thread0.alloc)) = true ∧ genWg.gen 1 = none ∧
    (genWg.gen 0).isSome = true ∧ invertible hashWords = false ∧ (0#32).toNat % 64 = 0 ∧
    (bigDev dev0 thread0).scratchSeg (bigWg thread0) 0 1024 = .ok () ∧ 1 ≤ (4096#32).toNat ∧ (4096#32).toNat ≤ 4096 ∧ 4096 < (4097#32).toNat ∧
    ((dsc 1).ok && (dsc 1).sparse) = false ∧ ((dsc 4).ok && (dsc 4).sparse) = true ∧ (dsc 4).patva = 64 :=
  ⟨by decide +kernel, by decide, by decide, by decide +kernel, by decide, fine_ok (by decide +kernel), by decide, by decide, by decide, by decide +kernel,
    by decide +kernel, by decide +kernel⟩
/-- The program of descriptor 4 in memory, and one whose first word ends it with nothing on the stack. -/
theorem witness_patld : (bigDev descDev thread0).xlate 0 0 (.copy 0) (accCopy false) [] (BitVec.ofNat 64 (64 + 8 * 1)) = .hit 72 ∧
    (bigDev descDev thread0).rd 64 8 = (0x30FF_FFFF_0000_000F#64).toNat ∧ (bigDev descDev thread0).rd 72 8 = (0#64).toNat ∧
    (0x30FF_FFFF_0000_000F#64).toNat / 2 ^ 60 ≠ 0 ∧ (0#64).toNat / 2 ^ 60 = 0 ∧
    parsePat [0x30FF_FFFF_0000_000F, 0] 0 [] = .ok (.band (-16) 15) ∧ parsePat [0] 0 [] = .error 0 ∧
    patWord (0x30FF_FFFF_0000_000F#64).toNat [] = some [.band (-16) 15] := ⟨by decide +kernel, by decide +kernel, by decide +kernel, by decide, by decide, rfl, rfl, rfl⟩
/-- A launch record of one thread, one that no core fits, and the record of zeros. -/
def launchRec (threads spill ndep : Nat) : Nat :=
  2 ^ 64 + 2 ^ 96 + 2 ^ 128 + 2 ^ 160 * threads + 2 ^ 176 + 2 ^ 192 + 2 ^ 208 * 8 + 2 ^ 224 * spill + 2 ^ 256 * 256 + 2 ^ 296 + 2 ^ 312 * ndep
def launch0 : Launch :=
  { id := 0, ctx := 0, entry := 0, grid := (1, 1, 1), dims := (1, 1, 1), regs := 8, stackc := 0, spill := 64, scratch := 256, acc := 0,
    cgsize := 1, prio := 0, arg := 0, deps := [], doneVa := 0, donePa := 0, eligible := some 0, next := 0, ended := 0, lastPlaced := 0,
    aged := false }
def invEnt : TlbEnt := { unit := .die, ctx := 0, level := 0, vpn := 5, leaf := 0x7F }
def staleCmd : Cmd := { armCmd with pages := [5] }
theorem witness_TableCommands : thread0.able [4, 5, 6] = true ∧ (8#32).toNat % 16 ≠ 0 ∧
    (bigDev dev0 thread0).scratchAt (bigWg thread0) 16 64 16 = .ok { uid := 0, off := 16 } ∧ canonical 0#8 (Ctx.fresh 0 0).tdt = true ∧
    (dsc 1).ok = true ∧ (dsc 3).ok = true ∧ (dsc 4).ok = true ∧
    (bigDev dev0 thread0).scratchAt (bigWg thread0) 0 128 16 = .ok { uid := 0, off := 0 } ∧ launchBad 0 = some 8 ∧
    launchBad (launchRec 1024 (2 ^ 26) 0) = none ∧ launchNoFit (Ctx.fresh 0 0) (launchRec 1024 (2 ^ 26) 0) = true ∧
    launchBad (launchRec 1 64 1) = none ∧ launchNoFit (Ctx.fresh 0 0) (launchRec 1 64 1) = false ∧ launchRec 1 64 1 / 2 ^ 312 % 2 ^ 8 = 1 ∧
    recField (launchRec 1 64 1) 112 8 = 0 ∧ recField (launchRec 1 64 1 + 2 ^ 896 * 8) 112 8 ≠ 0 ∧ (dev0.die 0).launches.length < 256 ∧ 256 ≤ (List.replicate 256 launch0).length ∧
    ((some { why := .commands [7] [], since := 0, limit := none } : Option Susp).map Susp.why = some (.commands [7] [])) ∧
    (bigDev dev0 thread0).xlate 0 0 .rmt (accLocal false) [] 8 = .hit 8 ∧ (bigDev dev0 thread0).xlate 0 0 .rmt (accLocal false) [] (2 ^ 37) = .miss ∧
    (bigDev dev0 thread0).xlate 0 0 .rmt (accLocal false) [(0, accLocal false, 8)] 8 = .fail 8 ∧
    2 ^ 57 ≤ (0x0200_0000_0000_0000#64).toNat ∧ (0#64).toNat < 2 ^ 57 ∧ (0 + 2 ^ 45) * 4096 ≤ 2 ^ 57 ∧ 2 ^ 57 < (1 + 2 ^ 45) * 4096 ∧
    (bigDev dev0 thread0).staleCmds 0 0 5 1 = [] ∧ ({ bigDev dev0 thread0 with cmds := [staleCmd] } : Dev).staleCmds 0 0 5 1 ≠ [] ∧
    (bigDev dev0 thread0).running [7] = [] :=
  ⟨by decide, by decide, placed_ok (by decide +kernel), by decide, by decide +kernel, by decide +kernel, by decide +kernel, placed_ok (by decide +kernel),
    by decide +kernel, by decide +kernel, by decide +kernel, by decide +kernel, by decide +kernel, by decide +kernel, by decide +kernel, by decide +kernel,
    by decide +kernel⟩

/-! ### Events -/

/-- Samples in quarters of a degree above −40 °C. -/
def degrees (n : Nat) : Nat := (n + 40) * 4
def warm : State := { State.reset with mgmt := { Mgmt.reset with bootStep := 8 }, dev := { Dev.reset with raw := 20000 } }
theorem witness_SensorsAndPower : Die.reset.cores.length = 72 ∧ Die.reset.clusters.length = 9 ∧ (0 ∈ warm.dev.present ∧ 4 ≤ warm.mgmt.bootStep) ∧
    19000 ≤ warm.dev.raw - (warm.dev.die 0).sampleAt ∧ degrees 110 ≤ ([degrees 110][0]?).getD 0 % 1024 ∧ degrees 109 % 1024 < degrees 110 ∧
    degrees 95 ≤ degrees 95 ∧ degrees 88 < degrees 89 ∧ degrees 94 < degrees 95 ∧ degrees 100 % 1024 < degrees 110 ∧ degrees 97 ≤ degrees 97 ∧
    (Core.reset.hot = false ∧ ({ Core.reset with hot := true } : Core).alarmed = false) ∧
    (Die.cluster { Die.reset with clusters := [{ Cluster.reset with droopUntil := some 3800 }] } 0).droopUntil = some 3800 ∧
    State.reset.mgmt.stage = 0 ∧ ({ Mgmt.reset with stage := 1, average := 2700001 } : Mgmt).limit * 1000 < 2700001 ∧
    ({ Mgmt.reset with stage := 1 } : Mgmt).stage ≠ 0 ∧ 1900000 ≤ 1900000 - Mgmt.reset.stageSince := by decide +kernel
/-- At step 7 with a torus of one package; a package without a die 0; and one whose increments have come to fifteen. -/
def atStep (n : Nat) : State := { State.reset with mgmt := { Mgmt.reset with bootStep := n }, dev := { Dev.reset with torus := (1, 1, 1) } }
theorem witness_BringUp : (∀ n ∈ [1, 2, 3, 4, 5, 6, 7], 1 ≤ (atStep n).mgmt.bootStep ∧ (atStep n).mgmt.bootStep ≤ 7 ∧ (atStep n).mgmt.stepOk = true) ∧
    Dev.reset.present.Nodup ∧ (∀ n ∈ Dev.reset.present, n < 4) ∧ 0 ∉ ({ Dev.reset with present := [1, 2] } : Dev).present ∧
    0 ∈ Dev.reset.present ∧ (atStep 7).mgmt.pendingIncs = [] ∧ ({ Mgmt.reset with pendingIncs := [1] } : Mgmt).pendingIncs ≠ [] ∧
    ¬0 < Dev.reset.torus.1 ∧ canonical 0#8 Dev.reset.mem = true ∧ (∀ n ∈ Dev.reset.present, natAt Mgmt.reset.drainCount n < 15) ∧
    (∀ n ∈ Dev.reset.present, 15 ≤ natAt ({ Mgmt.reset with drainCount := [15, 15, 15, 15] } : Mgmt).drainCount n) ∧
    (atStep 7).dev.packages = [0] := by decide +kernel
def running0 : Running := { slotB := false, svn := 0, keySlot := 0, digest := [] }
theorem witness_ResetAndBoot : 1 ≤ Mgmt.reset.bootStep ∧ Mgmt.reset.bootStep ≤ 7 ∧ Mgmt.reset.stepOk = true ∧
    ({ Mgmt.reset with stepOk := false } : Mgmt).stepOk = false ∧ ({ Mgmt.reset with bootStep := 7 } : Mgmt).bootStep = 7 ∧ 0 < dev0.torus.1 ∧
    Mgmt.reset.incs.length = 4 ∧ Mgmt.reset.flashIncs.length = 4 ∧ (1 ∈ warm.dev.present ∧ 4 ≤ warm.mgmt.bootStep) ∧ (1, 0) ∈ [((1 : Nat), (0 : Nat))] ∧
    Mgmt.reset.drainCount.length = 4 ∧ ∀ n < 4, natAt Mgmt.reset.drainCount n < 15 := by decide +kernel

/-- A sealed message to die 0 from itself, of a kind and with words from offset 16 on. -/
def msgOf (kind : Nat) (body : List Dword) : Msg := { ws := sealMsg (mkMsg kind 0 0 0 body), unit := none, flit := 0, since := 0, dl := false, out := false, held := false, note := plainNote }
/-- The device with one message in the inbox of die 0. -/
def inboxDev (m : Msg) : Dev := { dev0 with d0 := { dev0.d0 with inbox := [m] } }
theorem reads_of {d : Dev} {kind : Nat} {ok : List Dword → Bool} {m : Msg}
    (h : (decide ((d.die 0).inbox[0]? = some m) && decide (msgKind m.ws = kind) && ok m.ws && !d.heldLong m && msgE2eOk m.ws &&
      decide (d.incOf 0 (msgSrc m.ws) = msgSinc m.ws) && !(d.die 0).quarantined m) = true) : d.reads 0 0 kind ok m := by
  simp only [Bool.and_eq_true, decide_eq_true_eq, Bool.not_eq_true'] at h
  obtain ⟨⟨⟨⟨⟨⟨h1, h2⟩, h3⟩, h4⟩, h5⟩, h6⟩, h7⟩ := h
  exact ⟨h1, h2, h3, h4, h5, fun _ => h6, h7⟩
def readable (kind : Nat) (ok : List Dword → Bool) (m : Msg) : Prop := (inboxDev m).reads 0 0 kind ok m
/-- A window for a source that has not been heard, with OLDEST 0. -/
def freshWindow : Window := { src := 0, ctx := 0, lwm := 0, seen := [], lastAt := 0 }
/-- The tag of sequence 5 of context 0 of die 0. -/
def tag5 : Dword := 5
def updMsg (kind ty : Nat) (op : Dword) : Msg := msgOf kind (updateBody ty false 0 0 64 0 [op] tag5)
theorem witness_newTag : (inboxDev (updMsg 0x40 0 1)).newTag 0 0 (updMsg 0x40 0 1) 0 freshWindow :=
  ⟨⟨freshWindow, by decide +kernel, .inl (by decide +kernel)⟩, by decide +kernel, by decide +kernel⟩
theorem witness_UpdatesApplied : (∀ e ∈ [(0x40, 0x0), (0x41, 0x1), (0x42, 0x3), (0x43, 0x7), (0x44, 0x8), (0x45, 0x9), (0x46, 0xA)],
      readable e.1 (updOk e.1) (updMsg e.1 e.2 0) ∧ (inboxDev (updMsg e.1 e.2 0)).updWait (updMsg e.1 e.2 0).ws = none) ∧
    (∀ ty ∈ [0x0, 0x1, 0x2, 0x3, 0x7, 0x9], updType (updMsg 0x40 ty 1).ws = ty) ∧ dev0.updUnbacked (updMsg 0x40 0 1).ws = false ∧
    dev0.updClosed (updMsg 0x40 0 1).ws = false ∧ updArr (updMsg 0x40 0 1).ws = none ∧ ctlOldest (updMsg 0x40 0 1).ws = 0 := by
  refine ⟨?_, by decide +kernel⟩
  simp only [List.forall_mem_cons, List.not_mem_nil, false_imp_iff, implies_true, and_true]
  exact ⟨⟨reads_of (by decide +kernel), by decide +kernel⟩, ⟨reads_of (by decide +kernel), by decide +kernel⟩,
    ⟨reads_of (by decide +kernel), by decide +kernel⟩, ⟨reads_of (by decide +kernel), by decide +kernel⟩,
    ⟨reads_of (by decide +kernel), by decide +kernel⟩, ⟨reads_of (by decide +kernel), by decide +kernel⟩,
    ⟨reads_of (by decide +kernel), by decide +kernel⟩⟩
/-- The three kinds of an accumulator line, and a line whose kind is neither. -/
def kindLine (k : Nat) : Dev := { dev0 with mem := writeLE [] 64 (k * 2 ^ 509) 64 }
theorem witness_UpdatesRejected : ({ dev0 with d0 := { dev0.d0 with retired := [0] } } : Dev).updUnbacked (updMsg 0x40 0 1).ws = true ∧
    ({ dev0 with closed := [1] } : Dev).updClosed (updMsg 0x40 0 1).ws = true ∧ updPa (updMsg 0x40 0 1).ws = 64 ∧
    (∀ k ∈ [0, 1, 2, 3], bits ((kindLine k).rd 64 64) 509 3 = k ∧ canonical 0#8 (kindLine k).mem = true ∧
      (kindLine k).updClosed (updMsg 0x40 5 1).ws = false) ∧
    (∀ ty ∈ [0x2, 0x4, 0x5, 0x6, 0x8], updType (updMsg 0x40 ty 1).ws = ty) := by decide +kernel
theorem witness_DuplicatesNotApplied : tagDie (dwordAt (updMsg 0x40 0 1).ws 2) = 0 ∧ tagCtx (dwordAt (updMsg 0x40 0 1).ws 2) = 0 ∧
    Die.window? { Die.reset with windows := [{ freshWindow with seen := [(5, 1)] }] } 0 0 = some { freshWindow with seen := [(5, 1)] } ∧
    findKey (tagSeq (dwordAt (updMsg 0x40 0 1).ws 2)) (Window.advance { freshWindow with seen := [(5, 1)] } 0).seen = some 1 ∧
    seqAhead (Window.advance { freshWindow with seen := [(5, 1)] } 0).lwm 5 = false ∧
    goesOn (exec (.raddUpdate 0 0) { State.reset with dev := inboxDev (updMsg 0x40 0 1) }) = true := by decide +kernel

/-! Reads and timers. -/
def readMsg : Msg := msgOf 0x01 [tag5, 4, 64, 1]
def ackMsg : Msg := msgOf 0x20 [tag5, 1]
def replyMsg : Msg := msgOf 0x21 [tag5, BitVec.ofNat 64 (4 * 2 ^ 6), 7]
/-- An outstanding message of context 0 with sequence 5. -/
def out5 (kind : Nat) (after : After) : Outst :=
  { ctx := 0, seq := 5, ws := [], dst := some 0, sent := true, sentAt := 0, resends := 8, due := false, quiet := false, retrans := 50, thread := 0, va := 0, kind := kind, after := after, note := plainNote }
/-- A part of a reply with STATUS 7. -/
def failedPart : Msg := msgOf 0x21 [tag5, BitVec.ofNat 64 (4 * 2 ^ 6 + 7 * 2 ^ 13)]
def read5 : ReadRec := { ctx := 0, seq := 5, cmd := 0, landing := [128], arrival := 192, n := 4, got := [], fail7 := false, conflict := false, allBenign := true }
def replyDev : Dev := { dev0 with d0 := { dev0.d0 with inbox := [replyMsg], outs := [out5 0x01 (.command 0)], reads := [read5] } }
theorem witness_ReadsAndTimers : readable 0x01 rreadOk readMsg ∧ readable 0x20 ackOk ackMsg ∧ replyDev.reads 0 0 0x21 replyOk replyMsg ∧
    (replyDev.consume 0 0).outOf 0 (dwordAt replyMsg.ws 2) = some (out5 0x01 (.command 0)) ∧
    ((replyDev.consume 0 0).die 0).readRec 0 5 = some read5 ∧ read5.n ≤ 64 ∧ 0 < read5.n ∧ msgAt replyMsg.ws 24 0 6 = 0 ∧
    (replyDev.consume 0 0).clean 128 64 = true ∧ (replyDev.consume 0 0).clean (lineBase 192) 64 = true :=
  ⟨reads_of (by decide +kernel), reads_of (by decide +kernel), reads_of (by decide +kernel), by decide +kernel⟩
theorem witness_parts : replyOk failedPart.ws = true ∧ msgAt failedPart.ws 24 13 3 ≠ 0 ∧ msgAt replyMsg.ws 24 13 3 = 0 ∧
    ({ replyDev with closed := [2] } : Dev).isClosed 128 = true ∧ replyDev.isClosed 128 = false ∧
    ({ replyDev with sharers := putKey 2 1#2 [] } : Dev).clean 128 64 = false ∧ 1 ≤ (read5.n + 63) / 64 := by decide +kernel
theorem witness_Timers : (replyDev.die 0).out? 0 5 = some (out5 0x01 (.command 0)) ∧ rawOfUs 50 ≤ 95000 - 0 ∧ 8 ≤ (out5 0x01 .none).resends ∧
    ({ out5 0x01 .none with resends := 7 } : Outst).resends < 8 ∧ dev0.admits 0 0 0x01 0 = true ∧
    ({ dev0 with raw := 1900001 } : Dev).heldLong readMsg = true ∧ 364800000 ≤ 364800000 - freshWindow.lastAt := by decide +kernel
theorem witness_ErrorQueueFull : ∀ ovf ∈ [false, true],
    Dev.ctx? { dev0 with d0 := { dev0.d0 with ctxs := [{ Ctx.fresh 0 0 with count := 1024, ovf := ovf }] } } 0 0 =
      some { Ctx.fresh 0 0 with count := 1024, ovf := ovf } := by decide +kernel

/-! Handle messages: handle0 is slot 1 of die 0, and awayHandle a handle of die 1. -/
def awayHandle : Dword := 0x0004_0004_0400_0000
def task0 : Task := { newh := handle0, fn := 0, args := [], arrpa := 0, arrva := 0, addrh := 0, base := 0, isq := 0, issuer := 0 }
def invokeMsg : Msg := msgOf 0x02 (task0.body tag5)
def invokehMsg (up : Dword) : Msg := msgOf 0x03 ({ task0 with addrh := up }.body tag5)
def hfreeMsg (h : Dword) : Msg := msgOf 0x05 [tag5, 0, h]
def moveMsg (h fwd : Dword) : Msg := msgOf 0x06 [tag5, BitVec.ofNat 64 (2 ^ 45), h, fwd, 0]
def hgetMsg (h : Dword) : Msg := msgOf 0x04 [tag5, 0, h]
def resultMsg : Msg := msgOf 0x22 [tag5, BitVec.ofNat 64 (2 + 2 ^ 24 * 0), 0]
def locMsg (ver : Nat) : Msg := msgOf 0x47 [tag5, BitVec.ofNat 64 (1 + ver * 2 ^ 24), handle0, 0, 0, 0]
theorem witness_handle_reads : readable 0x02 (invokeMsgOk 0x02) invokeMsg ∧ readable 0x03 (invokeMsgOk 0x03) (invokehMsg awayHandle) ∧
    readable 0x05 (fun ws => ws.length == 5 && msgAt ws 24 40 24 == 0) (hfreeMsg handle0) ∧ readable 0x06 moveOk (moveMsg handle0 awayHandle) ∧
    readable 0x04 (fun ws => ws.length == 5 && dwordAt ws 3 == 0) (hgetMsg handle0) ∧
    readable 0x22 (fun ws => decide (5 ≤ ws.length ∧ msgAt ws 24 24 7 ≤ 64) && ws.length == 5 + (msgAt ws 24 24 7 + 7) / 8) resultMsg ∧
    readable 0x47 (fun ws => ws.length == 8 && msgAt ws 40 14 50 == 0 && decide (1 ≤ msgAt ws 24 0 4 ∧ msgAt ws 24 0 4 ≤ 3)) (locMsg 1) ∧
    msgAt resultMsg.ws 24 0 4 = 2 ∧ ctlOldest (moveMsg handle0 awayHandle).ws = 0 ∧ msgAt (locMsg 1).ws 56 0 40 = 0 ∧
    (dev0.noCtx 0 handle0 = false ∧ dev0.hostsFull 0 = false) :=
  ⟨reads_of (by decide +kernel), reads_of (by decide +kernel), reads_of (by decide +kernel), reads_of (by decide +kernel),
    reads_of (by decide +kernel), reads_of (by decide +kernel), reads_of (by decide +kernel), by decide +kernel⟩
/-- The four routes of a handle: hosted here, forwarded, held at the origin, stale; and one that another die's origin takes. -/
def host0 : HostRec := HostRec.fresh task0 4
def slotDev (x : Die → Die) : Dev := { dev0 with d0 := x dev0.d0 }
def routed : List (Dev × Dword × Route) :=
  [(slotDev fun x => { x with hosts := [host0] }, handle0, .act host0),
   (slotDev fun x => { x with forwards := [{ h := handle0, loc := 1, resb := 4, arrpa := 0, arrva := 0, ver := 1 }] }, handle0, .pass 1),
   (slotDev fun x => { x with hrt := [(1, ownSlot)] }, handle0, .hold), (dev0, handle0, .stale), (dev0, awayHandle, .pass 1)]
/-- A die whose records are full, one whose inboxes hold 16,384 messages at most already, and a message that was forwarded. -/
def fullDev : Dev := slotDev fun x => { x with hosts := [{ host0 with cursors := List.replicate 16384 { die := 0, base := 0, expect := 0 } }] }
theorem witness_HandleMessages : (∀ e ∈ routed, e.1.route 0 e.2.1 = e.2.2 ∧ e.1.noRoom 0 e.2.1 true (fun _ => 1) = none) ∧ host0.freed = false ∧
    (fullDev.noRoom 0 handle0 true (fun _ => 1)).isSome = true ∧ (dev0.die 0).inboxUse + 1 ≤ 16384 ∧ (dev0.die 0).hosts.length < 65536 ∧
    (slotDev fun x => { x with ctxs := [] }).noCtx 0 handle0 = true ∧ ({ invokeMsg with note := { plainNote with fwd := true } } : Msg).note.fwd = true ∧
    (slotDev fun x => { x with hrt := [(1, ownSlot)] }).slotOf 0 handle0 = some ownSlot ∧ dev0.slotOf 0 handle0 = none ∧
    Dev.outOf (slotDev fun x => { x with outs := [out5 0x04 (.command 0)] }) 0 tag5 = some (out5 0x04 (.command 0)) ∧
    ({ ownSlot with locv := true } : HrtSlot).locv = true ∧ ownSlot.ver < 65536 ∧ (32767 + 65536 - 0) % 65536 < 32768 ∧
    32768 ≤ (32768 + 65536 - 0) % 65536 := by decide +kernel

/-! Joins and drains. -/
def join5 : JoinOut := { die := 0, inc := 0, peer := 0, sentAt := 0, resends := 7 }
/-- A package that is asked to drain, all of whose dies have stopped admitting, with nothing unacknowledged; and a die that has a DRAIN. -/
def drained : State :=
  let stop := fun (x : Die) => { x with draining := true }
  { State.reset with mgmt := { Mgmt.reset with drain := true }
                     dev := { dev0 with d0 := stop dev0.d0, d1 := stop dev0.d1, d2 := stop dev0.d2, d3 := stop dev0.d3 } }
theorem witness_JoinsAndDrains : readable 0x60 (fun _ => true) (msgOf 0x60 []) ∧ readable 0x61 (fun _ => true) (msgOf 0x61 []) ∧
    (∀ j ∈ [join5], j.die = 0 → j.peer = msgSrc (msgOf 0x61 []).ws / 4) ∧ ([join5].find? fun k => k.die == 0 && k.peer == 0) = some join5 ∧
    1900000 ≤ 1900000 - join5.sentAt ∧ join5.resends < 8 ∧ 8 ≤ ({ join5 with resends := 8 } : JoinOut).resends ∧
    (drained.quiet = true ∧ drained.mgmt.drain = true ∧ drained.mgmt.joins = [] ∧ drained.dev.pkg.toNat ∉ drained.mgmt.reports) ∧
    (msgKind (msgOf 0x62 []).ws = 0x62 ∧ (inboxDev (msgOf 0x62 [])).screen 0 (msgOf 0x62 []) = none) ∧ (dev0.d0.inbox = []) ∧
    (dev0.incOf 0 4 ≠ 1 ∧ 4 ≠ dev0.dieId 0 ∧ dev0.incOf 0 4 = 0) ∧ (∀ e ∈ dev0.resets, e.1 ≠ 0) ∧ 0 ∉ Mgmt.reset.pendingResets ∧
    15200 ≤ 15200 - Die.reset.periodAt ∧ (0 : Int) ≤ (Ctx.fresh 0 0).fabLeft ∧ ({ Ctx.fresh 0 0 with fabLeft := -1 } : Ctx).fabLeft < 0 :=
  ⟨reads_of (by decide +kernel), reads_of (by decide +kernel), by decide +kernel⟩

/-! The companion and its requests. -/
def upDev : Dev := { dev0 with pwnA := true }
/-- Line 1 has a copy on port A. -/
def sharedDev : Dev := { upDev with sharers := putKey 1 1#2 [] }
def rec0 : EvRec := { type := 1, cause := 2, ctx := 0, die := 0, time := 0, va := 0, detail0 := 0, detail1 := 0 }
def ring0 : Ring := { base := 0, size := 256, prod := 255, cons := 0 }
theorem witness_Companion : (upDev.portUp false = true ∧ upDev.portUp true = false) ∧ upDev.companionMay (0x1F_0000_0000 - 1) 1 = true ∧
    upDev.companionMay (0x1F_0000_0000 - 1) 2 = false ∧ upDev.companionMay (2 ^ 52 - 4) 4 = true ∧ upDev.companionMay (2 ^ 52 - 4) 5 = false ∧
    (0 : Nat) < 2 ^ 51 ∧ 0 / 64 ∉ upDev.invalidating ∧ upDev.posted = [] ∧ linesOf 60 8 = [0, 1] ∧ getKey 0#2 upDev.sharers 0 = 0#2 ∧
    getKey 0#2 sharedDev.sharers 1 ≠ 0#2 ∧ linesOf 64 1 = [1] ∧ ring0.full = false ∧ ({ ring0 with prod := 256 } : Ring).full = true ∧
    (upDev.pwnA = true ∨ upDev.pwnB = true) ∧ (List.replicate 255 rec0).length < 256 ∧ 256 ≤ (List.replicate 256 rec0).length ∧
    ({ Mgmt.reset with ring := some ring0, held := [rec0] } : Mgmt).held = [rec0] ∧ upDev.rd (2 ^ 51 + 0 + 8) 8 = 0 := by decide +kernel
def reqOf (op : Nat) (ps : List Dword) : MgmtReq := { src := 0, reqid := 1, op := op, params := ps }
def page0 : PageReq := { id := 7, die := 0, ctx := 0, page := 0, n := 1, since := 0, cmds := [] }
theorem witness_ManagementRequests : (∀ r ∈ ([] : List MgmtReq), r.reqid ≠ (reqOf 3 []).reqid) ∧ 7 ≤ warm.mgmt.bootStep ∧
    (dwordAt (reqOf 3 [3, 71, 1]).params 1).toNat = 71 ∧ 71 < 256 ∧ regName 71 1 = .ok (.thermstat 71) ∧ regName 255 0x10 = .ok (.counter 0x10) ∧
    (Die.reset.writeReg (.thermstat 71) 0).isSome = true ∧ Die.reset.links.length = 15 ∧ (Die.reset.link 11).tx.length = 2 ∧
    (Die.reset.link 11).rx.length = 2 ∧ ([page0].find? fun r => r.id == 7) = some page0 ∧
    65536 ∈ [256, 512, 1024, 2048, 4096, 8192, 16384, 32768, 65536] ∧ Mgmt.reset.held = [] ∧ canonical 0#8 dev0.mem = true ∧
    running0.svn = 0 ∧ dev0.talboDown = true ∧ dev0.inTorus 0 = true ∧ ({ dev0 with pkg := 1 } : Dev).inTorus 4 = false ∧ dev0.present = [0, 1, 2, 3] ∧
    ¬((0 : Nat) < 4 ∧ 0 ∈ ({ dev0 with present := [1] } : Dev).present) ∧ (∀ i < 3, 1 ≤ natAt [16, 1, 1] i ∧ natAt [16, 1, 1] i ≤ 16) :=
  ⟨by decide, by decide, by decide, by decide, rfl, rfl, by decide, by decide, by decide, by decide, by decide, by decide, by decide, by decide,
    by decide, by decide +kernel, by decide⟩
/-- A creation block for context 5 on die 0, at companion address 0, with its tables in companion memory. -/
def createDev : Dev :=
  let put := fun (m : NMap Byte) (a n v : Nat) => writeLE m (2 ^ 51 + a) v n
  let tables := put (put (put [] 0x10000 8 (2 ^ 51 + 0x11001)) 0x11000 8 (2 ^ 51 + 0x12001)) 0x12000 8 0x77
  { dev0 with mem := put (put (put (put (put (put tables 0 2 0x105) 8 8 (2 ^ 51 + 0x10000)) 120 1 1) 122 2 1) 128 4 256) 136 8 0x10_0000 }
def created (r : Except Nat Dev) : Bool :=
  match r with
  | .ok _ => true
  | .error _ => false
theorem created_ok {r : Except Nat Dev} (h : created r = true) : ∃ d, r = .ok d := by
  cases r with
  | ok d => exact ⟨d, rfl⟩
  | error n => cases h
def block0 : List Byte := createDev.rdBytes (2 ^ 51 + 0) 256
theorem witness_create : blockAt block0 0 1 = 5 ∧ (∀ e ∈ createDev.live, e.1 ≠ 5) ∧ createDev.blockFault block0 = none ∧
    (∃ d, createDev.createAll block0 (blockDies block0) = .ok d) ∧ (∃ e ∈ [((5 : Nat), [(0 : Nat)], ([] : List Byte))], e.1 = 5) ∧ 8 ≤ warm.mgmt.bootStep ∧
    (∀ k ∈ dev0.d0.ctxs, k.ending = none) ∧ (({ dev0 with d0 := { dev0.d0 with ctxs := [{ Ctx.fresh 5 0 with ending := some .destroyed }] } } : Dev).endingOf 5) =
      some .destroyed ∧ dev0.d0.outs = [] ∧ (out5 0x40 .none).sent = true :=
  ⟨by decide +kernel, by decide, by decide +kernel, created_ok (by decide +kernel), by decide, by decide, by decide, by decide +kernel, by decide, by decide⟩

/-! Links. -/
def far : Msg := { msgOf 0x40 [] with ws := mkMsg 0x40 4 0 0 [0, 0], unit := some 12 }
def linkDev (l : Link) : Dev := { dev0 with d0 := { dev0.d0 with links := List.replicate 15 l } }
def idle : Flit := { crcOk := true, hdr := flitHdr 1 0 0 0 0 0, body := List.replicate 29 0, tag := 0, notes := [] }
/-- A link that is up, with credits, whose peer has live receive slots. -/
def upLink : Link := { Link.reset with up := true, peerRx := 3, tx := [some { key := [], salt := [] }, some { key := [], salt := [] }] }
/-- A flit on the wire to port 12 of die 0. -/
def wiredDev : Dev := (linkDev upLink).modDie (linkPeer 0 12) fun x => x.modLink (linkBack 0 12) fun l => { l with wire := [idle] }
/-- A request for the management controller, and one with a bit of its words flipped. -/
def requestMsg : Msg := { msgOf 0x64 [] with ws := sealMsg (mkMsg 0x64 0 4 0 [7, 10, 0]) }
def spoiltMsg : Msg := { requestMsg with ws := requestMsg.ws.set 3 99 }
theorem witness_LinksAndRoutes : (∀ e ∈ [(64 : Nat), 63], e ≤ 64) ∧ 64 ≤ msgHops (mkMsg 0x40 4 0 0 [] |>.set 0 (2 ^ 62)) ∧ msgHops far.ws < 64 ∧
    msgDst (mkMsg 0x40 0 0 0 []) = dev0.dieId 0 ∧ mgmtOnly 0x40 = false ∧ dev0.hop 0 { far with ws := mkMsg 0x40 1 0 0 [] } = .out 12 false 0 ∧
    dev0.hop 0 far = .unroute ∧ dev0.heldLong far = false ∧ ({ dev0 with raw := 1900001 } : Dev).heldLong far = true ∧
    ({ far with held := true } : Msg).held = true ∧ (mgmtOnly (msgKind requestMsg.ws) = true ∧ msgKind requestMsg.ws = 0x64 ∧
      msgDst requestMsg.ws = dev0.dieId 0 ∧ 5 ≤ requestMsg.ws.length) ∧ (dev0.screen 0 requestMsg).isNone = true ∧ (dev0.screen 0 spoiltMsg).isSome = true ∧
    (3 + 4 - 1) % 4 ≤ 4 - (3 + 4 - 1) % 4 ∧ 4 - (0 + 4 - 1) % 4 < (0 + 4 - 1) % 4 ∧
    (wiredDev.arriving 0 12 none).map (fun e => e.1) = some idle ∧ flitField idle 60 4 = 1 ∧
    Link.check upLink 12 idle = .ok idle.body none ∧ ({ idle with crcOk := false } : Flit).crcOk = false ∧
    Link.check upLink 0 { idle with hdr := flitHdr 4 0 0 0 0 0 } = .malformed ∧ Link.check { upLink with rx := upLink.tx, rxCtr := some (2 ^ 31) } 0 idle = .auth ∧
    (upLink.used < 2 ^ 32 ∧ (upLink.txKey (slotNo upLink.txSlot)).isSome = true) ∧ upLink.maySwitch = true ∧ upLink.dueRetire = false ∧ upLink.grant = none ∧
    (∀ m ∈ upLink.queue, dev0.heldLong m = false) ∧
    ({ upLink with dueRetire := true } : Link).dueRetire = true ∧ (Link.grant { upLink with queue := [far] }).isSome = true ∧ 0 < far.ws.length := by
  decide +kernel
/-- A registration flit whose tag verifies and whose value is not that of the key that it names. -/
def zeroKey : Key := { key := List.replicate 32 0#8, salt := List.replicate 4 0#8 }
def regHdr : Dword := flitHdr 2 0 0 0 0 0
def badReg : Flit := { idle with hdr := regHdr, body := [], tag := BitVec.ofNat 128 (leValue (gcmSeal zeroKey.key (ivOf zeroKey 0) (leBytes regHdr.toNat 8) []).2) }
theorem witness_badRegistration : Link.check { upLink with rx := [some zeroKey, none] } 0 badReg = .ok [] (some 0) ∧
    Link.badRegistration { upLink with rx := [some zeroKey, none] } badReg [] = true := by decide +kernel
/-- FIPS 197, appendix C.3; and the first test case of AES-256-GCM of the specification that SP 800-38D goes back to. -/
theorem test_aes256 : aes256 ((List.range 32).map (BitVec.ofNat 8)) ((List.range 16).map fun i => BitVec.ofNat 8 (17 * i)) =
    leBytes 0x8960_494B_9049_FCEA_BF45_6751_CAB7_A28E 16 := by decide +kernel
/-- FIPS 180-4: the digest of "abc". -/
theorem test_sha512 : sha512 [0x61#8, 0x62#8, 0x63#8] = (leBytes (0xDDAF_35A1_9361_7ABA_CC41_7349_AE20_4131_12E6_FA4E_89A9_7EA2_0A9E_EEE6_4B55_D39A * 2 ^ 256 +
    0x2192_992A_274F_C1A8_36BA_3C23_A3FE_EBBD_454D_4423_643C_E80E_2A9A_C94F_A54C_A49F) 64).reverse := by decide +kernel
/-- RFC 8032, section 7.1, test 1. -/
theorem test_ed25519 :
    ed25519Public (leBytes 0x9D61_B19D_EFFD_5A60_BA84_4AF4_92EC_2CC4_4449_C569_7B32_6919_703B_AC03_1CAE_7F60 32).reverse =
      (leBytes 0xD75A_9801_82B1_0AB7_D54B_FED3_C964_073A_0EE1_72F3_DAA6_2325_AF02_1A68_F707_511A 32).reverse := by decide +kernel
theorem test_gcm : (gcmSeal zeroKey.key (List.replicate 12 0#8) [] []).2 = leBytes 0x8B73_CBC4_F1B4_63A9_B936_45C7_FB8A_0F53 16 := by decide +kernel
theorem witness_LinkEvents :
    Dev.mayTrain { linkDev { upLink with up := false, rx := upLink.tx } with torus := (2, 1, 1) } warm.mgmt 0 0 = true ∧ 4 ≤ warm.mgmt.bootStep ∧
    Link.reset.up = false ∧ (0 ∈ dev0.present ∧ linkPeer 0 12 ∈ dev0.present) ∧ (upLink.txKey (1 - slotNo upLink.txSlot)).isSome = true ∧ upLink.peerRx.getLsbD (1 - slotNo upLink.txSlot) = true ∧
    ({ upLink with sinceRetire := some 1024 } : Link).sinceRetire = some 1024 ∧ Die.reset.links.length = 15 ∧
    (2 ^ 32 - 2 ^ 20 ≤ 2 ^ 32 - 2 ^ 20 ∧ ({ upLink with tx := [none, none] } : Link).maySwitch = false) ∧ 64 < (List.replicate 65 (0 : Nat)).length := by
  decide +kernel

/-! Engines. -/
def cmdOf (body : Body) : Cmd := { armCmd with body := body }
def cmdDev (body : Body) : Dev := { bigDev dev0 thread0 with cmds := [cmdOf body] }
def elem0 : Elem := { i := 0, idx := none, lo := 0, n := 4 }
/-- A word of scratchpad whose low byte a command covers. -/
def word0 : TileWord := { uid := 0, off := 64, mask := 0xFF, value := 7, base := 0x1234 }
def gatherBody (sc : Bool) : Body := .gather sc 0 0 0 0 64 4 [elem0]
theorem witness_EnginesRun : (cmdDev .finished).cmd? 0 = some (cmdOf .finished) ∧ (∀ w ∈ (cmdDev .finished).wgs, w.ended = false) ∧
    (cmdDev .finished).clean 0 8 = true ∧ ({ cmdDev .finished with sharers := putKey 0 1#2 [] } : Dev).clean 0 8 = false ∧
    ((cmdDev .finished).tripped 0 = false ∧ ({ cmdDev .finished with resets := [(0, 1)] } : Dev).tripped 0 = true) ∧
    (cmdDev (.arm 0 1)).armBefore { cmdOf (.arm 0 2) with id := 1 } 0 = true ∧ (cmdDev (.arm 0 1)).armBefore (cmdOf (.arm 0 1)) 0 = false ∧
    (bigWg thread0).isResident = true ∧ ({ bigWg thread0 with loc := .saved 0 } : Wg).isResident = false ∧
    canonical 0#8 dev0.mem = true ∧ (cmdOf .finished).walking = none ∧ (cmdDev .finished).dramOpen 0 0 = true ∧
    (cmdOf .finished).bad = [] ∧ (cmdDev .finished).xlate 0 0 (.copy 0) (accCopy false) [] 0 = .hit 0 ∧
    (cmdDev .finished).xlate 0 0 (.copy 0) (accCopy true) [] 64 = .hit 64 ∧ (cmdDev .finished).cutOff 0 = false ∧
    (∀ y ∈ (cmdDev .finished).cmds, y.id = 0 → y = cmdOf .finished) ∧
    (∀ sc ∈ [true, false], (cmdOf (gatherBody sc)).body = .gather sc 0 0 0 0 64 4 [elem0]) ∧
    (cmdDev .finished).xlate 0 0 (.copy 0) (accCopy false) [(0, accCopy false, 8)] 0 = .fail 8 ∧
    ({ bigDev dev0 thread0 with cmds := [{ cmdOf (.mtx (.patld 0 gen0)) with cls := .mtx }] } : Dev).nextMtx 0 0 =
      some ({ cmdOf (.mtx (.patld 0 gen0)) with cls := .mtx }, .patld 0 gen0) ∧
    ([word0][0 % 1]?).isSome = true ∧
    190000000 ≤ 190000000 - page0.since := by decide +kernel
/-- A thread whose wait of one unit has run out. -/
def lateThread : Thread := { thread0 with pos := .waiting, susp := some { why := .over, since := 0, limit := some 0 } }
theorem witness_deadline : (bigDev dev0 lateThread).wg? 0 = some (bigWg lateThread) ∧ (bigWg lateThread).live = true ∧
    (bigWg lateThread).threads[0]? = some lateThread ∧ 0 + 0 ≤ (bigDev dev0 lateThread).clock 0 0 := by decide +kernel

/-! Workgroups. -/
def endedWg : Wg := bigWg { thread0 with pos := .exited }
def stoppedWg : Wg := { bigWg { thread0 with pos := .waiting } with stopping := true }
def stoppedDev : Dev := { (world dev0 stoppedWg).dev with flight := [] }
theorem witness_WorkMoves : (world dev0 endedWg).dev.wg? 0 = some endedWg ∧ endedWg.live = true ∧ endedWg.kind ≠ .walker ∧
    (∀ t ∈ endedWg.threads, t.pos = .exited) ∧ (world dev0 endedWg).dev.busy 0 = false ∧ stoppedDev.wg? 0 = some stoppedWg ∧
    stoppedDev.unitOf stoppedWg = [stoppedWg] ∧ (∀ b ∈ stoppedDev.flight, b.uid ≠ 0) ∧ (∃ t ∈ stoppedWg.threads, t.pos ≠ .exited) ∧
    (stoppedDev.extentReady stoppedWg).isSome = true ∧
    19000000 ≤ 19000000 - Cluster.reset.throttleSince := by decide +kernel
/-- Two workgroups of one thread each, whose GROWs are parked: the first parked, and of a later number, the younger. -/
def parkedThread (k : Nat) : Thread := { thread0 with pos := .waiting, regs := 8, susp := some { why := .parked k 300000, since := 0, limit := none } }
def parkedDev : Dev := { dev0 with wgs := [bigWg (parkedThread 0), { bigWg (parkedThread 1) with uid := 1, group := 1 }], nextUid := 2 }
theorem witness_eviction : parkedDev.oldestParked 0 0 = some (0, 0) ∧ parkedDev.thread? 0 0 = some (parkedThread 0) ∧
    (parkedThread 0).expired = false ∧ parkedDev.metNow 0 0 (parkedThread 0) = false ∧ parkedDev.allParked 0 0 = true ∧
    (∀ w ∈ parkedDev.on 0 0, w.stopping = false) := by decide +kernel
/-- A task that waits to be placed, a launch that is eligible, and a thread that waits at a block. -/
def waitDev : Dev :=
  { dev0 with d0 := { dev0.d0 with
      ctxs := [{ Ctx.fresh 0 0 with trap := 8, invcnt := 1, invt := List.replicate 8 0#8 ++ [1, 0, 8, 0, 0, 0, 0, 0, 0, 1, 0, 0, 0, 0, 0, 4] ++ List.replicate 8 0#8 }]
      hosts := [{ host0 with queued := some (0, task0, []) }] } }
def readyWg : Wg := bigWg { thread0 with pos := .waiting, off := 0 }
def readyDev : Dev :=
  { (world { dev0 with mem := writeLE [] 0 0xF380_0004_00FF_0000_FC04_0000 12,
                       d0 := dev0.d0.modCore 0 fun k => { k with abt := [(0, [0, 0, 0, 0])] } } readyWg).dev with flight := [] }
theorem witness_placement : (waitDev.visits 0).map Entry.cand = [.task handle0] ∧ ((waitDev.candCtx 0 (.task handle0)).map Ctx.proof) = some false ∧
    3800000 ≤ 3800000 - 0 := by decide +kernel
theorem witness_selector : (readyDev.die 0).joining = false ∧ (∀ l ∈ readyDev.looks 0 0 0, l.w.proof = false) ∧ readyDev.inFlight 0 0 0 < 8 ∧
    (choose205 (candidates ((readyDev.looks 0 0 0).filter fun l => readyDev.readyAlone l && !l.t.yielded))).isSome = true ∧
    (∀ l ∈ readyDev.looks 0 0 0, l.t.age < 64 ∧ l.addr < 2 ^ 64 ∧ l.cohort = false) ∧
    8 ≤ ({ readyDev with flight := List.replicate 8 (Bundle.forWord 0) } : Dev).inFlight 0 0 0 := by decide +kernel
/-- A copy that reads main memory, a read request at its home, a walk, and a walker thread at a ptld of an entry of its die. -/
def copyCmd : Cmd := cmdOf (.copy (.mem 0) (.mem 64) 4 none [(0, 4)])
def ueDev : Dev := { dev0 with d0 := { dev0.d0 with inbox := [readMsg], walks := [heldWalk] } }
def ptldWg : Wg := { wgWith thread0 with kind := .walker }
def ptldCur : Cur := { curOf ptldWg thread0 with b := { Bundle.forWord 0 with words := [0xFC08_0020#32, 0x00FF_0000#32, 0xEC21_0001#32, 0xF380_0004#32] } }
theorem witness_errors : (cmdOf (.casg false 64 0 0)).atomPa = some 64 ∧ (cmdOf .finished).die = 0 ∧
    ({ bigDev dev0 thread0 with cmds := [copyCmd] } : Dev).cmd? 0 = some copyCmd ∧ ((bigDev dev0 thread0).ueRead copyCmd 0).map Prod.fst = some 0 ∧
    copyCmd.bad = [] ∧ (bigDev dev0 thread0).xlate 0 0 (.copy 0) (accCopy false) copyCmd.walkFail 0 = .hit 0 ∧
    homePa readMsg.ws 0 = some 64 ∧ homePa readMsg.ws 1 = none ∧ (homePa (updMsg 0x40 0 1).ws 0).isSome = true ∧
    (ueDev.die 0).inbox[0]? = some readMsg ∧ (ueDev.die 0).walks[0]? = some heldWalk ∧ (ueDev.entryAt 0 (5 * 4096) 0 5 4).isSome = true ∧
    ptldCur.instr = .ptld 2 4 ∧ (thread0.able (groupIdx 4 2) = true ∧ (thread0.pair 4).toNat = 0) ∧ (bigWg thread0).isResident = true ∧
    isCompanion 4096 = false ∧ dev0.isHere (homeOf 4096) = true ∧ 4096 / 4096 ∉ (dev0.die (homeOf 4096 % 4)).retired ∧
    (dev0.die 0).retired.length < 256 ∧ 256 ≤ (List.range 256).length := by decide +kernel

/-! Zarmor's supervisor firmware. -/
/-- A supervisor that has executed nothing, with its mailbox at an address. -/
def supWg (mbox : Nat) : Wg :=
  { bigWg { thread0 with pos := .waiting, off := 0, retired := 0 } with kind := .supervisor, mem := writeLE [] 0 mbox 8 }
/-- A mailbox at 4096 with SEQ 5 and ACK 4, whose record at 8192 is all zeros: GRIDX at offset 8 is below its limit (R147). -/
def mailDev (mbox : Nat) : Dev :=
  { (world { dev0 with mem := writeLE (writeLE (writeLE dev0.mem 4096 5 8) 4104 8192 8) 4112 4 8 } (supWg mbox)).dev with flight := [] }
theorem test_firmware_answers : ((mailDev 4096).firmware 0).rd 4120 4 = 0x801 ∧ ((mailDev 4096).firmware 0).rd 4112 8 = 5 := by
  decide +kernel
theorem test_firmware_leaves : ((mailDev 0).firmware 0).wgs.all (fun w => w.threads.all fun t => t.pos == .exited) = true := by
  decide +kernel

/-! ## Further clauses -/

/-- A move on the spill stack that fails, or that must wait for a page or for lines. -/
def failsWith {α : Type} (m : Moved α) (x : Trap) : Bool :=
  match m with
  | .fail y => decide (y = x)
  | .ok _ _ | .miss _ | .dirty _ => false
theorem fails_with {α : Type} {m : Moved α} {x : Trap} (h : failsWith m x = true) : m = .fail x := by
  cases m <;> simp_all [failsWith]
def waitsFor {α : Type} (m : Moved α) (page : Nat) : Bool :=
  match m with
  | .miss p => decide (p = page)
  | .ok _ _ | .fail _ | .dirty _ => false
theorem waits_for {α : Type} {m : Moved α} {p : Nat} (h : waitsFor m p = true) : m = .miss p := by
  cases m <;> simp_all [waitsFor]
def dirtyAt {α : Type} (m : Moved α) (ls : List Nat) : Bool :=
  match m with
  | .dirty l => decide (l = ls)
  | .ok _ _ | .fail _ | .miss _ => false
theorem dirty_at {α : Type} {m : Moved α} {ls : List Nat} (h : dirtyAt m ls = true) : m = .dirty ls := by
  cases m <;> simp_all [dirtyAt]

/-- E2M1: 7 lies half way between the greatest value and the virtual code; FP32: the least value is on the grid. -/
theorem witness_Rounding_modes : Chooses .e2m1 .rne false 14 1 8 ∧ Chooses .e2m1 .rtz true 14 1 7 ∧ Chooses .fp32 .rne false 1 1 1 := by
  refine ⟨?_, ?_, ?_⟩ <;> unfold Chooses <;> rw [if_neg (by decide +kernel)]
  · exact ⟨7, by decide +kernel⟩
  · exact ⟨7, by decide +kernel⟩
  · exact ⟨1, by decide +kernel⟩
theorem witness_MovesPending : ({ slack with pend := [39] } : Thread).able [1, 2] = true ∧ (slack.val 1).toNat ∈ ({ slack with pend := [39] } : Thread).pend := by
  decide
/-- An L2 atomic of the thread acquires. -/
def acqDev : Dev := { bigDev dev0 thread0 with cmds := [{ (big thread0).command (bigDev dev0 thread0) .atm none [0] 0 .finished with acq := true }] }
theorem witness_acquiring : acqDev.acquiring (big thread0).who ≠ [] ∧ (bigDev dev0 thread0).acquiring (big thread0).who = [] := by decide
/-- A core whose stack cache holds one frame of 16 registers and no more, and one that holds none. -/
def tightWg (n sp : Nat) : Wg := { wgWith { caller with sp := sp } with stackc := n }
theorem witness_Calls_spill : (tightWg 20 4096).threads = [caller] ∧ caller.cache = [] ++ frame0 :: [] ∧ 8 + 8 + cacheUse [] ≤ 20 ∧
    ¬(8 + 8 + cacheUse ([] ++ [frame0]) ≤ 20) ∧ ¬(8 + 8 + cacheUse [] ≤ 8) ∧
    (∃ d, dev0.spillFrames false (tightWg 20 4096) 0 [] 4096 [frame0].reverse = .ok d 4032) ∧
    dev0.spillFrames false (tightWg 20 63) 0 [] 63 [frame0].reverse = .fail (.here 0x10 0) ∧
    (∃ d, dev0.pushBytes false (tightWg 8 4096) 0 [] 4032 frame0.bytes = .ok d 3968) ∧ 63 < frame0.size ∧ 63 < frame0.bytes.length ∧
    dev0.reach false (wgWith thread0) (accStack true) [] (dev0.stackVa (wgWith thread0) 0 (4096 - 64)) 4096 64 =
      .ok [((dev0.stackVa (wgWith thread0) 0 (4096 - 64)).toNat, 64)] ∧
    dev0.dirtyLines [((dev0.stackVa (wgWith thread0) 0 (4096 - 64)).toNat, 64)] = [] :=
  ⟨by decide, rfl, by decide, by decide, by decide, moved_ok (by decide +kernel), fails_with (by decide +kernel), moved_ok (by decide +kernel),
    by decide, by decide, by decide +kernel, by decide +kernel⟩
theorem witness_Ret_faults : (wgWith thread0).spill < 4065 + 32 ∧ 4064 + 32 ≤ (wgWith thread0).spill ∧
    (∃ d, (stackDev 4064 (frame0.bytes.take 32)).topBytes (wgWith (spilled 4064)) 0 [] 4064 32 = .ok d (frame0.bytes.take 32)) ∧
    (leValue ((frame0.bytes.drop 8).take 1) = 1 ∧ leValue ((frame0.bytes.drop 9).take 1) ∈ [8, 16, 24, 32] ∧ 4096 < 4064 + 32 + 4 * 8) ∧
    leValue ((frameBytes.drop 8).take 1) ≠ 1 :=
  ⟨by decide, by decide, moved_ok (by decide +kernel), by decide, by decide +kernel⟩
/-- A fault with a frame in the stack cache, and one whose frames, or whose fault frame, the spill stack cannot hold. -/
theorem witness_FaultSpills :
    (∃ d, dev0.spillFrames true (wgWith caller) 0 [] 4096 caller.cache.reverse = .ok d 4032 ∧
      ∃ d', d.pushBytes true (wgWith caller) 0 [] 4032 (faultFrame (curOf (wgWith caller) caller) 1 caller) = .ok d' 3712) ∧
    dev0.spillFrames true (wgWith caller) 0 [] 63 caller.cache.reverse = .fail (.here 0x10 0) ∧
    (∃ d, dev0.spillFrames true (wgWith thread0) 0 [] 319 [] = .ok d 319) ∧ 319 < (faultFrame (curOf (wgWith thread0) thread0) 1 thread0).length ∧
    (Ctx.fresh 0 0).trap = 0 ∧ ({ thread0 with trapDepth := 255 } : Thread).trapDepth = 255 ∧ dev0.endingOf 0 = none ∧
    (∃ n < 4, (dev0.ctx? n 0).isSome = true) ∧ dev0.ctxIdle 0 = true := by
  refine ⟨?_, fails_with (by decide +kernel), ⟨dev0, rfl⟩, by decide +kernel, by decide, by decide, by decide, ⟨0, by decide⟩, by decide⟩
  obtain ⟨d, hd⟩ := moved_ok (m := dev0.spillFrames true (wgWith caller) 0 [] 4096 caller.cache.reverse) (x := 4032) (by decide +kernel)
  refine ⟨d, hd, moved_ok ?_⟩
  have h : ∀ e, dev0.spillFrames true (wgWith caller) 0 [] 4096 caller.cache.reverse = .ok e 4032 →
      isMoved (e.pushBytes true (wgWith caller) 0 [] 4032 (faultFrame (curOf (wgWith caller) caller) 1 caller)) 3712 = true := by
    intro e he
    have : e = (match dev0.spillFrames true (wgWith caller) 0 [] 4096 caller.cache.reverse with | .ok e _ => e | _ => dev0) := by rw [he]
    rw [this]; decide +kernel
  exact h d hd
theorem witness_Eret_faults : 0 < handler.trapDepth ∧ handler.cache = [] ∧ 4032 + 32 ≤ (wgWith handler).spill ∧
    (∃ d, (stackDev 4032 frame0.bytes).topBytes (wgWith { handler with sp := 4032 }) 0 [] 4032 32 = .ok d (frame0.bytes.take 32)) ∧
    leValue ((frame0.bytes.drop 8).take 1) ≠ 2 ∧ ({ handler with cache := [frame0] } : Thread).cache ≠ [] ∧ 4096 < 4065 + 32 :=
  ⟨by decide, by decide, by decide, moved_ok (by decide +kernel), by decide, by decide, by decide⟩
/-- A spill area at an address that no entry translates, and one with a line that the companion holds. -/
def farDev : Dev := { dev0 with d0 := { dev0.d0 with ctxs := [{ Ctx.fresh 0 0 with trap := 8, spillVa := 2 ^ 40 }] } }
def heldDev : Dev := { dev0 with sharers := putKey ((dev0.stackVa (wgWith thread0) 0 4032).toNat / 64) 1#2 [] }
theorem witness_SpillAccess_waits :
    dev0.spillFrames false (wgWith caller) 0 [] 63 caller.cache.reverse = .fail (.here 0x10 0) ∧
    farDev.spillFrames false (wgWith caller) 0 [] 4096 caller.cache.reverse = .miss (pageOf (farDev.stackVa (wgWith thread0) 0 4032)) ∧
    (farDev.die 0).mayAsk 0 (pageOf (farDev.stackVa (wgWith thread0) 0 4032)) = true ∧
    heldDev.spillFrames false (wgWith caller) 0 [] 4096 caller.cache.reverse = .dirty [(dev0.stackVa (wgWith thread0) 0 4032).toNat / 64] ∧
    (∃ d, dev0.spillFrames false (wgWith caller) 0 [] 4096 caller.cache.reverse = .ok d 4032) :=
  ⟨fails_with (by decide +kernel), waits_for (by decide +kernel), by decide +kernel, dirty_at (by decide +kernel), moved_ok (by decide +kernel)⟩
def isPa (r : Except Nat Nat) (pa : Nat) : Bool :=
  match r with
  | .ok x => decide (x = pa)
  | .error _ => false
theorem pa_ok {r : Except Nat Nat} {pa : Nat} (h : isPa r pa = true) : r = .ok pa := by
  cases r <;> simp_all [isPa]
/-- A context whose error queue has room, and one whose error queue is full. -/
theorem witness_NotResident : (dev0.die 0).seqs.length = 64 ∧ (∃ k, dev0.ctx? 0 0 = some k ∧ k.ending = none ∧ k.count < 1024) ∧ dev0.posted = [] ∧
    (dev0.die 0).unsent = [] ∧ (dev0.die 0).outs = [] ∧ seqDiff (natAt (dev0.die 0).seqs 0) ((dev0.die 0).oldest 0) < 4096 ∧
    dev0.xlateNow 0 0 (accLocal true) 0 = .ok 0 ∧ 1024 ≤ ({ Ctx.fresh 0 0 with count := 1024 } : Ctx).count :=
  ⟨by decide, ⟨_, rfl, rfl, by decide⟩, rfl, rfl, rfl, by decide, pa_ok (by decide +kernel), by decide⟩
theorem witness_Waits_late : ({ bigDev dev0 thread0 with cmds := [armCmd] } : Dev).armsOn (big thread0) 0 ≠ [] ∧
    ({ thread0 with expired := true } : Thread).expired = true ∧ (1#32).toNat ≠ 0 := by decide +kernel
theorem witness_MatrixFaults : mmaDesc (dsc 1) (0, 0) true false false = false ∧ mmaDesc (dsc 2) (0, 0) true false false = true ∧
    mmaDesc (dsc 1) (0, 0) false true false = false ∧ (bigWg mmaThread).gen 0 = none ∧ (genWg.gen 0).map Gen.desc = some 4 ∧ (5 : Nat) ≠ 4 ∧
    invertible hashWords = false ∧ XVal.same (XVal.mul (dsc 2).tensorScale (dsc 2).tensorScale).1 (.fin false 2 1) = false ∧
    ({ bigWg mmaThread with tsrc := (.fin false 2 1) :: List.replicate 7 (.fin false 1 1) } : Wg).scaleOfTile 0 = .fin false 2 1 ∧
    XVal.same ((bigWg mmaThread).scaleOfTile 1) (.fin false 2 1) = false ∧ drainDesc (dsc 2) (0, 0) .sr = true := by decide +kernel
/-- What the engine reads and writes: tiles with no word set, the generator of the banded example, and a word within scratchpad. -/
theorem witness_MatrixEffects : canonical 0#32 genWg.tiles = true ∧ (world descDev genWg).dev.wg? genWg.uid = some genWg ∧ 0 + 64 ≤ 128 ∧
    64 + 64 ≤ 128 ∧ (genWg.gen 0).isSome = true ∧ (dsc 3).baxis < 2 ∧ 0 < (dsc 3).block ∧ 65532 + (32 + 7) / 8 ≤ (bigWg thread0).scratch ∧ 65532 < 2 ^ 22 ∧
    0 < gen0.pat.gran ∧ gen0.words.length ≤ 16 ∧ gen0.cursorOk = true ∧ patWords gen0.words = gen0.words ∧ (parsePat gen0.words 0 []).isOk = true := by decide +kernel
/-- 1,024 bytes whose check fails. -/
theorem witness_Patrest_rejects : ∃ bs : List Byte, bs.length = 1024 ∧ leValue ((bs.drop 1020).take 4) ≠ (crc32c (bs.take 1020)).toNat := by
  obtain ⟨z, hz⟩ : ∃ z : List Byte, z.length = 1020 := ⟨List.replicate 1020 0, List.length_replicate⟩
  have tail : ∀ t : List Byte, t.length = 4 → ((z ++ t).drop 1020).take 4 = t := fun t h => by
    rw [List.drop_left' hz]; exact List.take_of_length_le (Nat.le_of_eq h)
  have head : ∀ t : List Byte, (z ++ t).take 1020 = z := fun t => List.take_left' hz
  by_cases h : (crc32c z).toNat = 0
  · exact ⟨z ++ [1, 0, 0, 0], by rw [List.length_append, hz]; rfl, by rw [tail _ rfl, head, h]; decide⟩
  · exact ⟨z ++ [0, 0, 0, 0], by rw [List.length_append, hz]; rfl, by rw [tail _ rfl, head]; exact fun e => h (e.symm.trans (by decide))⟩
/-- Words that engine commands have written: one of the copy path that a thread has observed, and one of the matrix path. -/
def stale1 : Stale :=
  { path := 1, cmd := 0, by_ := (0, 0), token := none, flags := [], bar := none, phased := false, uid := 0, off := 64, old := 7, seen := [(0, 0)],
    known := [(0, 0, 2)], wgs := [] }
theorem witness_EngineViews : (bigDev dev0 thread0).wg? 0 = some (bigWg thread0) ∧ canonical 0#8 (bigWg thread0).mem = true ∧
    65533 + [1#8, 2#8, 3#8].length ≤ (bigWg thread0).scratch ∧ (bigWg thread0).scratch ≤ 2 ^ 22 ∧
    (stale1.path ≠ 2 ∧ (1, 0, 2) ∉ stale1.known ∧ 1 ∉ stale1.wgs) ∧ (0, 0, 2) ∈ stale1.known ∧ ((0, 0) ∈ stale1.seen ∧ (31#5).getLsbD stale1.path = true) ∧
    ¬((0, 1) ∈ stale1.seen) := by decide
/-- An arrival of a launch that is not yet acknowledged, for a page. -/
def arrival0 : Outst := { oldOut with seq := 3, va := 0x5008, after := .launch 0 }
theorem witness_Tlbinv_arrivals : ({ dev0 with d0 := { dev0.d0 with outs := [arrival0] } } : Dev).staleArrivals 0 0 5 1 ≠ [] ∧
    (bigDev dev0 thread0).staleArrivals 0 0 5 1 = [] ∧ (bigDev dev0 thread0).awaited 0 0 [1] = [] := by decide +kernel
/-- A command of a saved workgroup with a token, whose register's line the companion holds; and an entry of the error queue that waits. -/
def savedWg : Wg := { bigWg { thread0 with pos := .waiting } with loc := .saved 0 }
def tokenCmd : Cmd := { cmdOf .finished with cls := .rmt, token := some (2, 1) }
def tokenDev : Dev := { (world dev0 savedWg).dev with cmds := [tokenCmd] }
theorem witness_Tokens : tokenDev.tokenPas tokenCmd ≠ [] ∧ (∀ pa ∈ tokenDev.tokenPas tokenCmd, tokenDev.clean pa 4 = true) ∧
    (∃ pa ∈ tokenDev.tokenPas tokenCmd, ({ tokenDev with sharers := putKey (pa / 64) 1#2 [] } : Dev).clean pa 4 = false) ∧
    (∃ p ∈ [({ pa := 0, bytes := [], order := .errq 0 0 } : Posted)], p.order = .errq tokenCmd.die tokenCmd.ctx) ∧ tokenDev.posted = [] ∧
    ({ tokenDev with d0 := { tokenDev.d0 with retired := [0] } } : Dev).isRetired 64 = true ∧ tokenDev.isRetired 64 = false := by decide +kernel
/-- A word that a command covers in part is read again, or not. -/
theorem witness_Spread : word0.mask ≠ BitVec.allOnes 32 ∧ (1 / [word0].length) % 2 = 1 ∧ ¬((0 / [word0].length) % 2 = 1 ∧ word0.mask ≠ BitVec.allOnes 32) := by decide
theorem witness_Errors_more : ({ dev0.d0 with transit := [readMsg] } : Die).transit[0]? = some readMsg ∧ msgClass (msgOf 0x60 []).ws = 3 ∧
    msgClass readMsg.ws ≠ 3 ∧ homeOf 4096 = dev0.dieId 0 ∧ (dev0.ctx? 0 0).isSome = true := by decide +kernel
/-- Resets that wait for the end of a drain; a message that arrived in a quarantine; a link that is up and one whose slot is retiring. -/
theorem witness_Resets : (1 : Nat) ∉ Mgmt.reset.pendingResets ∧ 15 ≤ natAt [15, 15, 15, 15] 1 ∧ natAt Mgmt.reset.drainCount 1 < 15 ∧ (1, 2) ∈ [((1 : Nat), (2 : Nat))] ∧
    (∀ n ∈ ({ Mgmt.reset with pendingResets := [1] } : Mgmt).pendingResets, n < 4) ∧
    Die.quarantined { Die.reset with quarantine := some 10 } readMsg = true ∧ Die.quarantined { Die.reset with quarantine := some 0 } readMsg = false := by
  decide +kernel
theorem witness_Retiring : upLink.up = true ∧ Die.reset.links.length = 15 ∧ upLink.dueRetire = false ∧ upLink.sinceRetire = none ∧
    ({ upLink with sinceRetire := some 0 } : Link).sinceRetire ≠ none ∧
    (dwordAt ([0, 0, 1] : List Dword) 2).getLsbD (1 - slotNo upLink.txSlot) = false ∧ 1 ≤ ring0.size ∧ 4 ≤ requestMsg.ws.length := by decide +kernel
/-- A creation block whose error queue has a line that the companion holds. -/
theorem witness_create_dirty : createDev.errqDirty block0 = [] ∧
    (∃ pa ∈ createDev.errqPas block0 0, ({ createDev with sharers := putKey (pa / 64) 1#2 [] } : Dev).errqDirty block0 ≠ []) ∧
    (∃ o ∈ [out5 0x40 .none], o.ctx = 0) := by decide +kernel
/-- Words of an HGET's reply that wait to be written, and none; and a copy whose source is read ahead. -/
def hgetCmd (left : List (Nat × List Byte)) : Cmd := cmdOf (.hget 0 64 (some left))
theorem witness_EnginesRun_words : (cmdDev (hgetCmd [(4, [1#8])]).body).cmd? 0 = some (hgetCmd [(4, [1#8])]) ∧ (hgetCmd []).body = .hget 0 64 (some []) ∧
    ([(4, [1#8])] : List (Nat × List Byte))[1 % [(4, [1#8])].length]? = some (4, [1#8]) ∧ (bigWg thread0).isResident = true ∧ savedWg.isResident = false ∧
    (∀ y ∈ ({ bigDev dev0 thread0 with cmds := [copyCmd] } : Dev).cmds, y.id = copyCmd.id → y = copyCmd) ∧ copyCmd.walking = none ∧
    (bigDev dev0 thread0).dramOpen 0 0 = true ∧ (bigDev dev0 thread0).tripped 0 = false ∧ (bigDev dev0 thread0).cutOff 0 = false ∧
    ([0, 64] : List Nat)[3 % [0, 64].length]? = some 64 ∧
    (bigDev dev0 thread0).clean 64 64 = true ∧ ({ bigDev dev0 thread0 with sharers := putKey 1 1#2 [] } : Dev).clean 64 64 = false := by decide +kernel
/-- A write that a thread has observed, and an access that it has made since. -/
def touchDev : Dev := { bigDev dev0 thread0 with stale := [stale1] }
theorem witness_EngineViews_past : (∃ e ∈ touchDev.stale, ((0, 0) : Nat × Nat) ∈ e.seen) ∧
    (touchDev.touch (0, 0) (.scr 0 64) 4).touched = [{ cmd := 0, by_ := (0, 0), side := .scr 0 64, n := 4 }] ∧
    (touchDev.touch (0, 0) (.scr 0 64) 4).pastOf (bigWg thread0) 0 (.hget 0 64 none) = [0] ∧
    touchDev.pastOf (bigWg thread0) 0 (.hget 0 64 none) = [] ∧ (armCmd.early = [] ∧ armCmd.earlyMem = []) ∧
    stale1.cmd ∈ ({ armCmd with past := [0] } : Cmd).past ∧ stale1.cmd ∉ armCmd.past := by decide +kernel
/-- Dies whose cores stand still, and one whose cores run. -/
theorem witness_coresStopped : dev0.coresStopped 0 = false ∧ ({ dev0 with d0 := { dev0.d0 with joining := true } } : Dev).coresStopped 0 = true ∧
    ({ dev0 with resets := [(1, 0)] } : Dev).coresStopped 1 = true := by decide +kernel
/-- Step 7: a torus of one package, whose ports reach none, and one whose links are up or down. -/
theorem witness_BringUp_links : (atStep 7).dev.torusOk = true ∧ (∀ n ∈ (atStep 7).dev.present, ∀ unit < 12,
      axisSize (atStep 7).dev.torus (dirAxis (dirOf unit)) ≤ 1 ∨ (((atStep 7).dev.die n).link unit).up = true) ∧
    ¬(axisSize (2, 1, 1) (dirAxis (dirOf 0)) ≤ 1 ∨ (Die.reset.link 0).up = true) ∧
    (axisSize (2, 1, 1) (dirAxis (dirOf 0)) ≤ 1 ∨ (Die.link { Die.reset with links := List.replicate 15 upLink } 0).up = true) := by decide +kernel
/-- Requests that wait: a page-service answer behind a write of the companion, and a creation whose block has been read. -/
theorem witness_ManagementRequests_wait : (∃ w ∈ [({ pa := 0, bytes := [], order := .port false } : Posted)], ∃ port, w.order = .port port) ∧
    (∀ w ∈ ([] : List Posted), ∀ port, w.order ≠ .port port) ∧ (∃ r ∈ [page0], r.id = 7) ∧
    ({ Mgmt.reset with creating := some block0 } : Mgmt).creating.isSome = true ∧ Mgmt.reset.creating = none ∧
    createDev.blockFault (block0.set 123 255) = some 122 :=
  ⟨⟨_, List.mem_singleton_self _, false, rfl⟩, by simp, by decide, by decide, by decide, by decide +kernel⟩
/-- A slot whose location is unknown, one that HFREE waits to free, and messages that it holds. -/
theorem witness_LocationOrder : let slot := { ownSlot with gen := 1, held := [invokeMsg] }
    let gone := { ownSlot with gen := 2, freeing := some 0 }
    hOrigin handle0 = dev0.dieId 0 ∧ hSlot handle0 = 1 ∧ hGen handle0 = 1 ∧ hCtx handle0 = 0 ∧
    (Die.slot { Die.reset with hrt := [(1, slot)] } 1 = slot ∧ slot.used = true ∧ slot.locv = false ∧ slot.ctx = 0 ∧ slot.freeing = none) ∧
    (gone.gen = hGen handle0 % 255 + 1 ∧ gone.freeing = some 0) ∧ Die.forward? dev0.d0 handle0 = none ∧
    (1 + 65536 - slot.ver % 65536) % 65536 < 32768 := by decide +kernel
/-- HFREE of a slot whose location is known, of one whose location is not, and of an old generation. -/
theorem witness_HandleInstructions_origin :
    (ownSlot.used = true ∧ ownSlot.gen = handle0.toNat / 2 ^ 26 % 2 ^ 8 ∧ ownSlot.ctx = 0 ∧ ownSlot.locv = false) ∧
    ({ ownSlot with locv := true } : HrtSlot).locv = true ∧ ({ ownSlot with gen := 2 } : HrtSlot).gen ≠ handle0.toNat / 2 ^ 26 % 2 ^ 8 ∧
    handle0.toNat / 2 ^ 50 % 2 ^ 14 = dev0.dieId 0 ∧ awayHandle.toNat / 2 ^ 50 % 2 ^ 14 ≠ dev0.dieId 0 ∧
    ¬((0 : Dword).toNat / 2 ^ 26 % 2 ^ 8 ≠ 0) := by decide +kernel
/-- A retired frame under an atomic and under a reply part. -/
theorem witness_retired : ({ dev0 with d0 := { dev0.d0 with retired := [0] } } : Dev).isRetired 128 = true ∧ dev0.isRetired 128 = false ∧
    ({ dev0 with d0 := { dev0.d0 with retired := [0] } } : Dev).isRetired read5.arrival = true ∧ dev0.isRetired read5.arrival = false ∧
    ({ thread0 with expired := false } : Thread).expired = false := by decide +kernel
/-- R161, R179: a row of 32 bytes from 16 bytes before a granule's end, which a tensor copy moves in two parts. -/
theorem test_rowParts : rowParts { dsc 1 with raw := (dsc 1).raw + 0xFF0 - 2 ^ 64 } (dsc 1) (0, 0) (0, 0) 0 0 32 = [(0, 0, 16), (0, 16, 16)] := by decide +kernel

end Sys2Proof.Tests
end

/-!
A full error queue (R104): what the loss of an entry changes, and that an entry at COUNT = 1,024 is lost.
-/

namespace Sys2Proof.Machine

/-! ## Reading a context back -/

/-- Of the contexts of a die an update that keeps their numbers changes the one it names. -/
theorem die_modCtx_ctx? {x : Die} {c : Nat} {k : Ctx} {f : Ctx → Ctx} (hf : ∀ k, (f k).ctx = k.ctx)
    (hk : x.ctx? c = some k) : (x.modCtx c f).ctx? c = some (f k) := by
  have hc : k.ctx = c := by simpa using List.find?_some hk
  have hpred : ((fun k : Ctx => k.ctx == c) ∘ fun k => if k.ctx = c then f k else k) = fun k => k.ctx == c := by
    funext k
    by_cases h : k.ctx = c <;> simp [h, hf]
  unfold Die.ctx? at hk ⊢
  rw [Die.modCtx, List.find?_map, hpred, hk]
  simp [hc]

theorem modCtx_ctx? {d : Dev} {n c : Nat} {k : Ctx} {f : Ctx → Ctx} (hn : n < 4) (hf : ∀ k, (f k).ctx = k.ctx)
    (hk : d.ctx? n c = some k) : (d.modCtx n c f).ctx? n c = some (f k) := by
  unfold Dev.ctx? Dev.modCtx
  rw [die_modDie hn]
  exact die_modCtx_ctx? hf hk

@[simp] theorem record_ctx? (d : Dev) (cause ctx die : Nat) (va x y : Dword) (n c : Nat) :
    (d.record cause ctx die va x y).ctx? n c = d.ctx? n c := rfl

/-! ## A lost entry (R104, R163) -/

@[simp] theorem errqLost_mem (d : Dev) (die ctx : Nat) (k : Ctx) : (d.errqLost die ctx k).mem = d.mem := by
  cases h : k.ovf <;> simp [Dev.errqLost, Dev.modCtx, h]

@[simp] theorem errqLost_posted (d : Dev) (die ctx : Nat) (k : Ctx) : (d.errqLost die ctx k).posted = d.posted := by
  cases h : k.ovf <;> simp [Dev.errqLost, Dev.modCtx, h]

/-- The companion hears of the first loss only: while OVF is set no record is sent. -/
theorem errqLost_records (d : Dev) (die ctx : Nat) (k : Ctx) : (d.errqLost die ctx k).records =
    if k.ovf then d.records else (d.record 0x08 ctx die 0 0 0).records := by
  cases h : k.ovf <;> simp [Dev.errqLost, Dev.modCtx, h]

theorem errqLost_ctx? {d : Dev} {die ctx : Nat} {k : Ctx} (hdie : die < 4) (hk : d.ctx? die ctx = some k) :
    (d.errqLost die ctx k).ctx? die ctx = some { k with ovf := true } := by
  have sets : ∀ e : Dev, e.ctx? die ctx = some k →
      (e.modCtx die ctx fun k => { k with ovf := true }).ctx? die ctx = some { k with ovf := true } :=
    fun _ => modCtx_ctx? hdie fun _ => rfl
  cases h : k.ovf <;> simp [Dev.errqLost, h, sets, hk]

/-- The queue is full as soon as COUNT is 1,024, whatever is still on its way to memory. -/
theorem errq_of_full {d : Dev} {die ctx : Nat} {k : Ctx} (hk : d.ctx? die ctx = some k) (hfull : k.count = 1024)
    (cause kind peer : Nat) (thread : Word) (va tag : Dword) :
    d.errq die ctx cause kind peer thread va tag = d.errqLost die ctx k := by
  have full : 1024 ≤ k.count + d.errqWaiting die ctx := by omega
  simp [Dev.errq, hk, full]

/-- Settles O56: at COUNT = 1,024 the entry is lost, and the loss sets OVF and reports itself once. -/
theorem errorQueueFull : Obligations.ErrorQueueFull := by
  intro d die ctx cause kind peer thread va tag k hdie hk hfull
  dsimp only
  rw [errq_of_full hk hfull]
  refine ⟨errqLost_mem .., errqLost_posted .., errqLost_ctx? hdie hk, fun hovf => ?_, fun hovf => ?_⟩
  · simp [errqLost_records, hovf]
  · rw [errqLost_records, if_neg (by simp [hovf])]
    exact ⟨_, rfl, rfl, rfl, rfl, rfl⟩

end Sys2Proof.Machine

/-!
The value of a scale byte: what each E8M0 code stands for (R262).
-/

namespace Sys2Proof.Machine

theorem scaleValue_e8m0_nan : scaleValue .e8m0 0xFF#8 = .nan := rfl

/-- Every code but 0xFF is positive and finite: all of them share one denominator, so the code is the exponent of the numerator. -/
theorem scaleValue_e8m0_fin {c : Byte} (hc : c.toNat ≤ 254) :
    scaleValue .e8m0 c = .fin false (2 ^ c.toNat) (2 ^ 127) := by
  have hne : c ≠ 0xFF#8 := by
    rintro rfl
    simp at hc
  exact if_neg hne

/-- Settles O16: numerator 2^c over denominator 2^127 is the value 2^(c − 127). -/
theorem e8m0Value : Obligations.E8m0Value := by
  refine ⟨fun c hc => ⟨2 ^ c.toNat, 2 ^ 127, scaleValue_e8m0_fin hc, ?_, ?_⟩, scaleValue_e8m0_nan⟩
  · exact Nat.two_pow_pos c.toNat
  · exact Nat.mul_comm (2 ^ c.toNat) (2 ^ 127)

end Sys2Proof.Machine

/-!
The result of mad (R333): its word, what it writes, and what a register reads that no LIVEIN group has supplied (R211).
-/

namespace Sys2Proof

/-! ## Fields of a word put together from fields (R308) -/

theorem fld_or (v w : Word) (lo len : Nat) : fld (v ||| w) lo len = fld v lo len ||| fld w lo len :=
  BitVec.extractLsb'_or

/-- A field that lies whole in the word reads back where it was placed. -/
theorem fld_pl_same {n lo : Nat} (x : BitVec n) (h : lo + n ≤ 32) : fld (pl x lo) lo n = x := by
  ext i hi
  simp [fld, pl, show lo + i < 32 by omega, hi]

/-- Outside the bits where a field was placed every bit is zero. -/
theorem fld_pl_disjoint {n lo lo' len : Nat} (x : BitVec n) (h : lo' + len ≤ lo ∨ lo + n ≤ lo') :
    fld (pl x lo) lo' len = 0#len := by
  ext i hi
  rcases h with below | above
  · simp [fld, pl, show lo' + i < lo by omega]
  · simp [fld, pl, show n ≤ lo' + i - lo by omega]

/-- R333: major 0x03 and fn 0 are all that the decoder asks of the word of mad. -/
theorem decodeWord_mad_of_fields {w : Word} (hmajor : fld w 26 6 = 3#6) (hfn : fld w 0 8 = 0#8) :
    decodeWord .none w = .ok (.mad (fld w 20 6) (fld w 14 6) (fld w 8 6)) := by
  have hdecode : decodeMajor .none w = decodeMajor03 .none w := by simp [decodeMajor, hmajor]
  simp [decodeWord, hdecode, decodeMajor03, hfn, Instr.wellFormed]

/-- R317: format R at major 0x03 with fn 0. -/
theorem decodeWord_mad (d a b : Reg) :
    decodeWord .none (pl 3#6 26 ||| pl d 20 ||| pl a 14 ||| pl b 8) = .ok (.mad d a b) := by
  rw [decodeWord_mad_of_fields] <;> simp [fld_or, fld_pl_same, fld_pl_disjoint]

end Sys2Proof

namespace Sys2Proof.Machine

/-! ## An operation on three registers, one of them the destination (R331, R210) -/

/-- With every register below ALLOC the operation reads all three before it writes. -/
theorem opRRRd_ok {t : Thread} {d a b : Reg} (f : Word → Word → Word → Word) (h : t.able [a.toNat, b.toNat, d.toNat] = true) :
    opRRRd d a b f t =
      .ok ((t.note [a.toNat, b.toNat, d.toNat]).set d.toNat (f (t.val a.toNat) (t.val b.toNat) (t.val d.toNat))) := by
  obtain ⟨ha, hb, hd⟩ : a.toNat < t.alloc ∧ b.toNat < t.alloc ∧ d.toNat < t.alloc := by simpa [able_iff] using h
  simp only [opRRRd, get_ok ha, get_ok hb, get_ok hd]
  exact put_ok _ (by simpa using hd)

/-- With one of them at or beyond ALLOC the operation faults at the first such register. -/
theorem opRRRd_error {t : Thread} {d a b : Reg} (f : Word → Word → Word → Word) (h : t.able [a.toNat, b.toNat, d.toNat] = false) :
    opRRRd d a b f t = .error regRange := by
  by_cases ha : a.toNat < t.alloc
  · by_cases hb : b.toNat < t.alloc
    · have hd : t.alloc ≤ d.toNat := by simpa [Thread.able, ha, hb] using h
      simp only [opRRRd, get_ok ha, get_ok hb, get_error hd]
    · simp only [opRRRd, get_ok ha, get_error (Nat.le_of_not_lt hb)]
  · simp only [opRRRd, get_error (Nat.le_of_not_lt ha)]

theorem does_opRRRd {s : State} {c : Cur} {i : Instr} {d a b : Reg} {f : Word → Word → Word → Word} (hc : s.dev.cur = some c)
    (hi : exec i s = s.pure 1 (opRRRd d a b f)) :
    Does s c i 1 [a.toNat, b.toNat, d.toNat]
      ((c.t.note [a.toNat, b.toNat, d.toNat]).set d.toNat (f (c.t.val a.toNat) (c.t.val b.toNat) (c.t.val d.toNat))) := by
  refine ⟨fun able => ?_, fun unable => ?_⟩
  · rw [hi, pure_ok hc (opRRRd_ok f able)]
  · rw [hi, pure_error hc (opRRRd_error f unable)]

/-! ## The multiply-add (R333) -/

theorem exec_mad (d a b : Reg) (s : State) : exec (.mad d a b) s = s.pure 1 (opRRRd d a b fun x y z => x * y + z) := rfl

/-- R331 wrap32: arithmetic on words is arithmetic on numbers, wrapped. -/
theorem mul_add_eq_ofNat (x y z : Word) : x * y + z = BitVec.ofNat 32 (x.toNat * y.toNat + z.toNat) := by
  simp [BitVec.ofNat_add, BitVec.ofNat_mul]

/-! ## The working copy at block entry (R211) -/

theorem wordAt_gatherIn {t : Thread} {liveIn : BitVec 8} {i : Nat} (hi : i < 64) :
    wordAt (t.gatherIn liveIn) i = if liveIn.getLsbD (i / 8) && decide (i < t.regs) then wordAt t.row i else 0#32 := by
  simp [wordAt, Thread.gatherIn, hi]

/-- A register of a group that LIVEIN leaves out reads zero at block entry. -/
theorem val_gatherIn_of_not_live {t : Thread} {liveIn : BitVec 8} {i : Nat} (hi : i < 64) (h : liveIn.getLsbD (i / 8) = false) :
    { t with work := t.gatherIn liveIn }.val i = 0#32 := by
  rw [val_eq, wordAt_gatherIn hi]
  simp [h]

/-- Settles O10: the word of mad, what it writes to gd, and the zero that gd reads where LIVEIN leaves its group out. -/
theorem madResult : Obligations.MadResult := by
  refine ⟨decodeWord_mad, fun s c d a b hc => ?_, fun t liveIn d h => ?_⟩
  · simpa only [mul_add_eq_ofNat] using does_opRRRd hc (exec_mad d a b s)
  · exact val_gatherIn_of_not_live d.isLt h

end Sys2Proof.Machine
